-- ==== Sys2Proof/Word.lean ====
section
/-! DEFINITION. The number types of the MS-412: what the manual counts or names, and the words it treats as bits. -/

namespace Sys2Proof

/-- A 16-bit register of the register window (R195). -/
abbrev Reg := BitVec 16

/-- A 32-bit word: a mailbox word, a value, station time (R5, R32, R127). -/
abbrev Word := BitVec 32

/-- A station number, 0 to 31 (00_scope, Conventions). -/
abbrev StationNum := Fin 32

/-- A task slot number, 0 to 31 (R99). -/
abbrev SlotNum := Fin 32

/-- An index of the object table, 0 to 63 (R2). -/
abbrev ObjIndex := Fin 64

/-- An object id, 0 to 2047: 64 times the home station plus the index (R1). -/
abbrev ObjectId := Fin 2048

/-- A priority, 0 to 7, 0 the most urgent (R16, R99). -/
abbrev Priority := Fin 8

/-- A tag, 0 to 255, which wraps (R104). -/
abbrev Tag := BitVec 8

/-- The code of the RATE straps, RATE1 then RATE0 (R126). -/
abbrev RateCode := Fin 4

end Sys2Proof
end

