-- ==== Sys2Proof/Config.lean ====
section
/-! DEFINITION. The capacities and limits of the part (00_scope, Capacities at a glance) and the two free values. -/

namespace Sys2Proof.Config

/-- Waiter records (R15). -/
abbrev waiterRecords : Nat := 96
/-- Hold records (R54). -/
abbrev holdRecords : Nat := 128
/-- Immediate answer entries (R82). -/
abbrev immediateEntries : Nat := 16
/-- Frames of the receive queue, places held for broadcasts counted (R145). -/
abbrev receiveQueueFrames : Nat := 16
/-- Words of the data word pool (R5). -/
abbrev poolWords : Nat := 4096
/-- The silence limit (R134). -/
abbrev silenceLimit : Nat := 8
/-- The BUSY limit (R134). -/
abbrev busyLimit : Nat := 64
/-- The wait limit that means to wait without limit (R33). -/
abbrev waitForEver : BitVec 16 := 65535#16
/-- The largest size exponent of a mailbox (R3). -/
abbrev maxExponent : Nat := 8

/-- FREE VALUE (log entry 10). Bits 15-8 of RESULT0 hold "code of the command it answers" (R195); the rules do not say
what they hold for a code above 255. -/
opaque wideCommandCode : Reg → BitVec 8

/-- FREE VALUE (log entry 11). A return frame carries "the units in the slot's result value" (R106); the rules do not
say what its 8-bit field holds when a peer's answer gave a value above 255. -/
opaque wideReturnUnits : Word → BitVec 8

end Sys2Proof.Config
end

