-- ==== Sys2Proof/Syntax.lean ====
section
/-! DEFINITION. The commands and events the station takes: one constructor per row of spec/opcode_table.json.
A local command takes its parameters from the registers P0-P4 (R187), so it has no operand here. -/

namespace Sys2Proof

/-- A command or event, in the order of the table. -/
inductive Instr
  /-- DEFINE (R7, R8). -/
  | define
  /-- CLEAR_DEFINITIONS (R9). -/
  | clearDefinitions
  /-- JOIN_COMMAND (R173). -/
  | joinCommand
  /-- LEAVE_COMMAND (R178). -/
  | leaveCommand
  /-- RESET_COMMAND (R182). -/
  | resetCommand
  /-- SUBMIT (R103). -/
  | submit
  /-- CANCEL (R111). -/
  | cancel
  /-- POP (R121). -/
  | pop
  /-- READ_OBJECT (R13). -/
  | readObject
  /-- READ_EVENTS (R185). -/
  | readEvents
  /-- UNDEFINED_COMMAND_CODE (R194): a write of `code` to the command register. -/
  | undefinedCommandCode (code : Reg)
  /-- INTERRUPT_ENABLE_WRITE (R186). -/
  | interruptEnableWrite (value : Reg)
  /-- VSEL_WRITE (R197). -/
  | vselWrite (value : Reg)
  /-- V0_READ (R197). -/
  | v0Read
  /-- PARAMETER_REGISTER_WRITE (R187): a write to P0-P4. -/
  | parameterRegisterWrite (register : Fin 5) (value : Reg)
  /-- POWER_ON_RESET (R183), with the straps as they stand. -/
  | powerOnReset (sid : StationNum) (rate : RateCode)
  /-- RESETN_RESET (R183): RESETN is asserted, with the straps as they stand. -/
  | resetnReset (sid : StationNum) (rate : RateCode)
  /-- RESETN_RELEASE (R183): RESETN is released, with the straps as they stand. -/
  | resetnRelease (sid : StationNum) (rate : RateCode)
  /-- STATION_TIME_ADVANCE (R32). -/
  | stationTimeAdvance
  /-- EXPIRY (R34) of the record of the requester station and slot on the list of the object at `index`. -/
  | expiry (index : ObjIndex) (requester : StationNum) (slot : SlotNum)
  /-- FRAME_BEGIN (R130): the chosen frame's attempt begins. -/
  | frameBegin
  /-- LOSS_OF_ARBITRATION (R131): the leading field seen on the line (R190) is `line`. -/
  | lossOfArbitration (line : BitVec 7)
  /-- BODY_DIFFERENCE (R132). -/
  | bodyDifference
  /-- FRAME_HEARD (R139): the 120 bits heard, the first bit sent the most significant; `whole` says that the receiver
  heard the frame from its leading field on (R188). -/
  | frameHeard (bits : BitVec 120) (whole : Bool)
  /-- BROADCAST_PLACE_SETTLED (R137): `busy` says that a receiver drove BUSY. -/
  | broadcastPlaceSettled (busy : Bool)
  /-- UNICAST_ATTEMPT_OUTCOME (R135): the three marks seen driven in the acknowledgement field (R192). -/
  | unicastAttemptOutcome (accept busy stale : Bool)
  /-- BROADCAST_ATTEMPT_OUTCOME (R137): `busy` says that a receiver drove BUSY. -/
  | broadcastAttemptOutcome (busy : Bool)
  /-- SILENCE_LIMIT (R156): the eighth consecutive silent attempt ends. -/
  | silenceLimit
  /-- BUSY_LIMIT (R134): the 64th attempt that meets BUSY ends. -/
  | busyLimit
  /-- OWN_PATH_ATTEMPT_END (R144). -/
  | ownPathAttemptEnd
  /-- REQUEST_TAKEN (R85). -/
  | requestTaken
  /-- REQUEST_DISCARDED (R40). -/
  | requestDiscarded
  /-- JOIN_DISPATCHED (R151). -/
  | joinDispatched
  /-- LEAVE_DISPATCHED (R152). -/
  | leaveDispatched
  /-- DEPART_DISPATCHED (R153, R154). -/
  | departDispatched
  /-- ANSWER_DISPATCHED (R114). -/
  | answerDispatched
  /-- LEAVE_NOTICE_QUEUED (R179). -/
  | leaveNoticeQueued
  /-- FRAME_CUT_SHORT (R148, R129). -/
  | frameCutShort
  /-- POWER_LOSS (R148). -/
  | powerLoss
  deriving DecidableEq, Repr

end Sys2Proof
end

