-- ==== Sys2Proof/WellFormed.lean ====
section
/-! DEFINITION. Which terms of Instr are commands: the operand types already hold every other bound. -/

namespace Sys2Proof

/-- A code that names a local command: 1 DEFINE to 10 READ_EVENTS (11.2). -/
def namesCommand (code : Reg) : Bool := decide (1 ≤ code.toNat ∧ code.toNat ≤ 10)

/-- An UNDEFINED_COMMAND_CODE carries a code of 0 or 11-65535 (R194); every other term is a command. -/
def Instr.wellFormed : Instr → Bool
  | .undefinedCommandCode code => !namesCommand code
  | .define | .clearDefinitions | .joinCommand | .leaveCommand | .resetCommand | .submit | .cancel | .pop
  | .readObject | .readEvents | .interruptEnableWrite _ | .vselWrite _ | .v0Read | .parameterRegisterWrite _ _
  | .powerOnReset _ _ | .resetnReset _ _ | .resetnRelease _ _ | .stationTimeAdvance | .expiry _ _ _ | .frameBegin
  | .lossOfArbitration _ | .bodyDifference | .frameHeard _ _ | .broadcastPlaceSettled _
  | .unicastAttemptOutcome _ _ _ | .broadcastAttemptOutcome _ | .silenceLimit | .busyLimit | .ownPathAttemptEnd
  | .requestTaken | .requestDiscarded | .joinDispatched | .leaveDispatched | .departDispatched | .answerDispatched
  | .leaveNoticeQueued | .frameCutShort | .powerLoss => true

end Sys2Proof
end

