-- ==== Sys2Proof/Decode.lean ====
section
/-! DEFINITION. No row of spec/opcode_table.json gives bits: the commands have no words. -/

namespace Sys2Proof

/-- The command that the low `nbits` bits of `w` spell: none, since the table gives no row a bit pattern. -/
def decodeTableWord (_nbits _w : Nat) : Option Instr := none

end Sys2Proof
end

