-- ==== Sys2Proof/Machine/State.lean ====
section
/-! DEFINITION. The station's state as plain data, the reasons a step can stop, and the state after reset. -/

namespace Sys2Proof.Machine

/-- No command ends in a fault: the spec describes no event that stops the station (INVENTORY.md, Faults). Nobody raises
one, which is safe. -/
inductive Fault
  deriving DecidableEq, Repr

/-- Why a command has no meaning. -/
inductive Refusal
  /-- Raised by an arm of exec for a command that has no meaning yet; safe. No arm raises it. -/
  | notModelled (mnemonic : String)
  deriving DecidableEq, Repr

/-! ### Names -/

/-- The station state (R171). -/
inductive StationState
  | config | joining | active | leaving | evicted
  deriving DecidableEq, Repr

/-- What the roster holds of a station (R149). -/
inductive RosterEntry
  | unknown | present | departed
  deriving DecidableEq, Repr

/-- A cause of eviction (R164). -/
inductive EvictionCause
  | stale | departNotice | duplicate
  deriving DecidableEq, Repr

/-- The operation of a request, a slot or an answer (R127). -/
inductive Operation
  | acquire | release | post | take | query | withdraw
  deriving DecidableEq, Repr

/-- The kind of a notice frame (R127). -/
inductive NoticeKind
  | join | leave | depart
  deriving DecidableEq, Repr

/-- An answer status, as carried on the link (11.2). -/
inductive AnswerStatus
  | ok | notReady | expired | withdrawn | missed | full | overflow | notHolder
  | noWaiterRecord | noHoldRecord | badObject | badRequest | homeAbsent
  deriving DecidableEq, Repr

/-- A completion status, as written in a completion record (11.2). -/
inductive CompletionStatus
  | ok | notReady | timeout | cancelled | late | full | overflow | notHolder
  | noWaiterRecord | noHoldRecord | badObject | badRequest | homeAbsent | homeBusy | evicted
  deriving DecidableEq, Repr

/-- The result of a local command: OK or a refusal (11.2). -/
inductive LocalResult
  | ok | notConfig | notActive | noSlot | badRequest | slotIdle | tooLate | notCancellable
  | indexInUse | poolExhausted | badDefinition | slotsBusy | ringEmpty
  deriving DecidableEq, Repr

/-- A mark of the acknowledgement field (R192). -/
inductive AckMark
  | accept | busy | stale
  deriving DecidableEq, Repr

/-! ### Frames -/

/-- A frame's class and kind together: the nine frame kinds of R127, an ANSWER with the operation it answers. -/
inductive FrameKind
  | notice (kind : NoticeKind)
  | answer (operation : Operation)
  | request (operation : Operation)
  deriving DecidableEq, Repr

/-- A frame's destination (R127). -/
inductive Destination
  | station (n : StationNum)
  | all
  deriving DecidableEq, Repr

/-- The fields of a frame from class to subject station (R127, R189). -/
structure Frame where
  kind : FrameKind
  sender : StationNum
  dest : Destination
  index : ObjIndex
  slot : SlotNum
  tag : Tag
  priority : Priority
  waitLimit : BitVec 16
  units : BitVec 8
  urgent : Bool
  word : Word
  status : BitVec 4
  subject : StationNum
  deriving DecidableEq, Repr

/-! ### Outgoing lists -/

/-- One of the three outgoing lists with the counters of its head (R134). `onLine` says that an attempt to send the head is
in progress; it is cleared when that item leaves the list, so that the attempt's outcome refers to no item (R94, R110). -/
structure OutList (α : Type) where
  items : List α
  silenceRun : Nat
  busyCount : Nat
  onLine : Bool
  deriving DecidableEq, Repr

/-- A notice of the station's own (R138). -/
inductive Notice
  | join
  | leave
  | depart (subject : StationNum)
  deriving DecidableEq, Repr

/-! ### The home half -/

/-- A definition record (R3). -/
inductive Definition
  | tracked (capacity : Nat)
  | signal (maximum initial : Nat)
  | mailbox (exponent base : Nat)
  deriving DecidableEq, Repr

/-- What a waiting request asks for (R16: units are absent for TAKE). -/
inductive WaitOp
  | acquire (units : Nat)
  | take
  deriving DecidableEq, Repr

/-- A waiter record in use (R16). `due` says that its expiry has become due and has not been taken (R34). -/
structure WaiterRecord where
  index : ObjIndex
  requester : StationNum
  slot : SlotNum
  tag : Tag
  operation : WaitOp
  priority : Priority
  deadline : Option Word
  arrival : Nat
  due : Bool
  deriving DecidableEq, Repr

/-- A defined entry of the object table: its definition, its level (available units, count or fill level), a mailbox's head
position (0 for the other kinds) and its waiter list, head first (R4). -/
structure ObjectEntry where
  definition : Definition
  level : Nat
  head : Nat
  waiters : List WaiterRecord
  deriving DecidableEq, Repr

/-- A hold record in use (R54). -/
structure HoldRecord where
  index : ObjIndex
  holder : StationNum
  units : Nat
  deriving DecidableEq, Repr

/-- An immediate answer entry in use (R82). -/
structure ImmediateEntry where
  dest : StationNum
  slot : SlotNum
  tag : Tag
  operation : Operation
  index : ObjIndex
  status : AnswerStatus
  value : Word
  deriving DecidableEq, Repr

/-- An item of the answer list together with the one carrier it refers to (R88): an immediate answer entry IN USE, or a waiter
record in ANSWERING with its answer. -/
inductive AnswerItem
  | immediate (entry : ImmediateEntry)
  | record (waiter : WaiterRecord) (status : AnswerStatus) (value : Word)
  deriving DecidableEq, Repr

/-- The data word pool: (address, word) pairs, addresses strictly rising, no word 0 listed; an unlisted word reads 0 (R5, R6). -/
abbrev Memory := List (Nat × Word)

/-- The object table, the data word pool, the waiter pool, the hold table and the home engine's answer list. -/
structure Home where
  objects : Vector (Option ObjectEntry) 64
  poolUsed : Nat
  pool : Memory
  holds : List HoldRecord
  arrivals : Nat
  answers : OutList AnswerItem
  deriving DecidableEq, Repr

/-! ### The client engine -/

/-- The fields of a SUBMIT that a slot keeps (R99). -/
structure Request where
  operation : Operation
  objectId : ObjectId
  priority : Priority
  waitLimit : BitVec 16
  units : BitVec 8
  word : Word
  urgent : Bool
  deriving DecidableEq, Repr

/-- A slot's state with what it holds in that state (R99, R100): in RETURNING the result value, in DONE the result. -/
inductive SlotUse
  | free
  | queued (request : Request)
  | sent (request : Request)
  | cancelling (request : Request)
  | returning (request : Request) (units : Word)
  | done (request : Request) (status : CompletionStatus) (value : Word)
  deriving DecidableEq, Repr

/-- A task slot; the tag is kept in every state (R99). -/
structure TaskSlot where
  tag : Tag
  use : SlotUse
  deriving DecidableEq, Repr

/-- The sort of a request list entry (R106); `giveBack` is the manual's "return". -/
inductive EntrySort
  | request | withdraw | giveBack
  deriving DecidableEq, Repr

/-- A request list entry (R106). -/
structure RequestEntry where
  slot : SlotNum
  sort : EntrySort
  deriving DecidableEq, Repr

/-- A completion record (R119). -/
structure CompletionRecord where
  slot : SlotNum
  tag : Tag
  operation : Operation
  objectId : ObjectId
  status : CompletionStatus
  value : Word
  deriving DecidableEq, Repr

/-- The client engine: task slots, request list, completion ring. -/
structure Client where
  slots : Vector TaskSlot 32
  requests : OutList RequestEntry
  ring : List CompletionRecord
  deriving DecidableEq, Repr

/-! ### The link interface -/

/-- An item of the receive queue: a frame, or a place held for the broadcast whose acknowledgement field is on the line (R143). -/
inductive QueueItem
  | frame (f : Frame)
  | place (f : Frame)
  deriving DecidableEq, Repr

/-- The transmitter: free, or in one attempt with the frame it sends (R130, R144). -/
inductive Transmitter
  | free
  | line (f : Frame)
  | ownPath (f : Frame)
  deriving DecidableEq, Repr

/-- The link interface. `driven` is the mark the receiver drives into the acknowledgement field (R192). -/
structure Link where
  notices : OutList Notice
  queue : List QueueItem
  transmitter : Transmitter
  driven : Option AckMark
  deriving DecidableEq, Repr

/-! ### The station controller and the local port -/

/-- The pending event flags and the eviction cause (R184). -/
structure Events where
  joined : Bool
  joinFailed : Bool
  left : Bool
  evicted : Bool
  cause : Option EvictionCause
  deriving DecidableEq, Repr

/-- The station controller with the deadline timer's station time (R171, R184, R32), the supply and RESETN. `leaveQueued` says
that this leave sequence's LEAVE has been added (R179). -/
structure Control where
  powered : Bool
  resetAsserted : Bool
  mode : StationState
  number : StationNum
  rate : RateCode
  time : Word
  events : Events
  leaveQueued : Bool
  deriving DecidableEq, Repr

/-- The object window (R13), each field of the width view 1 gives it (R196); kind 0 is NONE. -/
structure ObjectWindow where
  index : BitVec 6
  kind : BitVec 2
  head : BitVec 8
  first : Reg
  second : Reg
  level : Reg
  waiters : BitVec 8
  holds : BitVec 8
  deriving DecidableEq, Repr

/-- The registers of the register window (R195), the object window, and the word the last read of V0 gave. -/
structure Port where
  command : Reg
  result0 : Reg
  result1 : Reg
  result2 : Reg
  params : Vector Reg 5
  ie : Reg
  vsel : Reg
  views : Vector Reg 5
  window : ObjectWindow
  dataOut : Reg
  deriving DecidableEq, Repr

/-- The whole station, and the queue of commands that wait (the model's own). -/
structure State where
  pending : List Instr
  control : Control
  roster : Vector RosterEntry 32
  home : Home
  client : Client
  link : Link
  port : Port
  deriving DecidableEq, Repr

/-! ### After reset -/

/-- An outgoing list with nothing on it and its counters 0. -/
def OutList.empty {α : Type} : OutList α := ⟨[], 0, 0, false⟩

/-- No event pending (R184). -/
def Events.clear : Events := ⟨false, false, false, false, none⟩

/-- The absent form of the object window with index 0 (R14). -/
def ObjectWindow.absent : ObjectWindow := ⟨0, 0, 0, 0, 0, 0, 0, 0⟩

/-- The home half after power-on (R2, R5, R15, R54, R83). -/
def Home.powerOn : Home := ⟨Vector.replicate 64 none, 0, [], [], 0, OutList.empty⟩

/-- The client engine after power-on (R101). -/
def Client.powerOn : Client := ⟨Vector.replicate 32 ⟨0, .free⟩, OutList.empty, []⟩

/-- The link interface after power-on (R138, R145, R183). -/
def Link.powerOn : Link := ⟨OutList.empty, [], .free, none⟩

/-- The register window after power-on (R195, R197). -/
def Port.powerOn : Port :=
  ⟨0, 0, 0, 0, Vector.replicate 5 0, 0, 0, Vector.replicate 5 0, ObjectWindow.absent, 0⟩

/-- The controller after power-on with the straps `sid` and `rate` (R171, R183). -/
def Control.powerOn (sid : StationNum) (rate : RateCode) : Control :=
  ⟨true, false, .config, sid, rate, 0, Events.clear, false⟩

/-- The machine after power-on reset with the straps `sid` and `rate` (R183). -/
def State.powerOn (sid : StationNum) (rate : RateCode) : State :=
  ⟨[], Control.powerOn sid rate, Vector.replicate 32 .unknown, Home.powerOn, Client.powerOn, Link.powerOn, Port.powerOn⟩

/-- The machine right after power-on reset; the straps are 0 (log entry 3, DESIGN CHOICE), every other field is as R183 says. -/
def State.reset : State := State.powerOn 0 0

end Sys2Proof.Machine
end

