-- ==== Sys2Proof/Machine/Ops.lean ====
section
/-! DEFINITION. The operations shared by every block: vectors, the outgoing lists with their head's counters, the data word
pool, the roster, the occasion of an event, and the division of an object id. -/

namespace Sys2Proof.Machine

/-! ### Vectors -/

/-- `f` applied to every element. -/
def mapVec {α β : Type} {n : Nat} (f : α → β) (v : Vector α n) : Vector β n :=
  ⟨(v.toList.map f).toArray, by simp⟩

/-- Every index of the object table, in index order. -/
def allIndexes : List ObjIndex := List.finRange 64

/-- Every task slot number, in slot-number order. -/
def allSlots : List SlotNum := List.finRange 32

/-! ### Outgoing lists (R94, R106, R110, R134, R138) -/

variable {α : Type}

/-- An item joins the tail. -/
def OutList.push (l : OutList α) (x : α) : OutList α := { l with items := l.items ++ [x] }

/-- The head leaves, its counters cleared with it (R134). -/
def OutList.dropHead (l : OutList α) : OutList α := ⟨l.items.tail, 0, 0, false⟩

/-- Every item of `p` leaves, from whatever place; when the head leaves, its counters are cleared and an attempt in progress
refers to no item any more (R94, R110, R134). -/
def OutList.removeIf (p : α → Bool) (l : OutList α) : OutList α :=
  if l.items.head?.any p then ⟨l.items.filter fun x => !p x, 0, 0, false⟩
  else { l with items := l.items.filter fun x => !p x }

/-- The items of `p` move behind the others, each group in its order, and the counters are cleared (R91). -/
def OutList.moveToTail (p : α → Bool) (l : OutList α) : OutList α :=
  ⟨(l.items.filter fun x => !p x) ++ l.items.filter p, 0, 0, false⟩

/-- The head's attempt begins (R130). -/
def OutList.beginAttempt (l : OutList α) : OutList α := { l with onLine := true }

/-- An attempt ends that changes no counter: a loss of arbitration (R131). -/
def OutList.endAttempt (l : OutList α) : OutList α := { l with onLine := false }

/-- The head's attempt ended in BUSY, below the limit (R134). -/
def OutList.countBusy (l : OutList α) : OutList α := { l with silenceRun := 0, busyCount := l.busyCount + 1, onLine := false }

/-- The head's attempt met silence, below the limit (R134). -/
def OutList.countSilence (l : OutList α) : OutList α := { l with silenceRun := l.silenceRun + 1, onLine := false }

/-- Every counter 0 and no attempt in progress (R134, R176, R180). -/
def OutList.zeroCounters (l : OutList α) : OutList α := { l with silenceRun := 0, busyCount := 0, onLine := false }

/-- Whether one more BUSY brings the head to the BUSY limit (R134). -/
def OutList.busyReachesLimit (l : OutList α) : Bool := decide (Config.busyLimit ≤ l.busyCount + 1)

/-- Whether one more silence brings the head to the silence limit (R134). -/
def OutList.silenceReachesLimit (l : OutList α) : Bool := decide (Config.silenceLimit ≤ l.silenceRun + 1)

/-! ### The data word pool (R5, R6) -/

/-- The word at an address; an unlisted word is 0. -/
def Memory.read : Memory → Nat → Word
  | [], _ => 0
  | (k, w) :: rest, a => if k = a then w else Memory.read rest a

/-- Writes one word, keeping the canonical form: writing 0 removes the entry. -/
def Memory.write : Memory → Nat → Word → Memory
  | [], a, v => if v = 0 then [] else [(a, v)]
  | (k, w) :: rest, a, v =>
    if a < k then if v = 0 then (k, w) :: rest else (a, v) :: (k, w) :: rest
    else if a = k then if v = 0 then rest else (a, v) :: rest
    else (k, w) :: Memory.write rest a v

/-- Sets `n` words from `base` upward to 0 (R5, R11). -/
def Memory.clear (base n : Nat) (m : Memory) : Memory :=
  m.filter fun c => !(decide (base ≤ c.1) && decide (c.1 < base + n))

/-- The canonical form: addresses strictly rising, no word 0 listed. -/
abbrev Memory.wf (m : Memory) : Prop := (m.map Prod.fst).Pairwise (· < ·) ∧ ∀ c ∈ m, c.2 ≠ 0

/-! ### The station's own situation -/

/-- The station has its supply and RESETN is released. While RESETN is held "a write is ignored" and nothing is driven (R183). -/
def State.running (s : State) : Bool := s.control.powered && !s.control.resetAsserted

/-- The station hears and sends: JOINING, ACTIVE or LEAVING (R139, R164, R171). -/
def StationState.onLink : StationState → Bool
  | .joining | .active | .leaving => true
  | .config | .evicted => false

/-- The station runs and is on the link. -/
def State.onLink (s : State) : Bool := s.running && s.control.mode.onLink

/-- The home engine takes requests: ACTIVE or LEAVING (R84). -/
def State.takesRequests (s : State) : Bool :=
  s.running && (decide (s.control.mode = .active) || decide (s.control.mode = .leaving))

/-- The outcome of an event: when its occasion holds, `t`; otherwise the event does not come about and nothing changes (log
entry 1, DESIGN CHOICE). -/
def whenever (occasion : Bool) (t s : State) : Host.Outcome State Fault Refusal :=
  .next (if occasion then t else s)

/-! ### The roster (R149) -/

/-- The entry of a station. -/
def State.rosterOf (s : State) (n : StationNum) : RosterEntry := s.roster[n]

/-- Marks another station's entry; the station's own entry is not used and stays as it is (R149). -/
def State.mark (n : StationNum) (e : RosterEntry) (s : State) : State :=
  if n = s.control.number then s else { s with roster := s.roster.set n e }

/-- Every entry UNKNOWN (R149). -/
def rosterUnknown : Vector RosterEntry 32 := Vector.replicate 32 .unknown

/-! ### Object ids (R1) -/

/-- The home station of an object id: the whole part of the id divided by 64. -/
def homeOf (id : ObjectId) : StationNum := ⟨id.val / 64, by have := id.isLt; omega⟩

/-- The index of an object id: the remainder. -/
def indexOf (id : ObjectId) : ObjIndex := ⟨id.val % 64, by omega⟩

end Sys2Proof.Machine
end

