-- ==== Sys2Proof/Machine/Operands.lean ====
section
/-! DEFINITION. The fields each local command reads from the parameter registers (R195), as the registers stand (R187). Bits
outside the fields are disregarded (R194). -/

namespace Sys2Proof.Machine

/-- Parameter register P0-P4. -/
def Port.param (p : Port) (i : Fin 5) : Reg := p.params[i]

/-- SUBMIT: the operation code, P0 bits 2-0. -/
def Port.submitOperation (p : Port) : BitVec 3 := (p.param 0).extractLsb' 0 3
/-- SUBMIT: the urgent flag, P0 bit 3. -/
def Port.submitUrgent (p : Port) : Bool := (p.param 0).getLsbD 3
/-- SUBMIT: the priority, P0 bits 6-4. -/
def Port.submitPriority (p : Port) : Priority := ((p.param 0).extractLsb' 4 3).toFin
/-- SUBMIT: the units, P0 bits 15-8. -/
def Port.submitUnits (p : Port) : BitVec 8 := (p.param 0).extractLsb' 8 8
/-- SUBMIT: the object id, P1 bits 10-0. -/
def Port.submitObject (p : Port) : ObjectId := ((p.param 1).extractLsb' 0 11).toFin
/-- SUBMIT: the wait limit, P2. -/
def Port.submitWaitLimit (p : Port) : BitVec 16 := p.param 2
/-- SUBMIT: the word, P3 bits 15-0 and P4 bits 31-16. -/
def Port.submitWord (p : Port) : Word := p.param 4 ++ p.param 3

/-- DEFINE: the index, P0 bits 7-0. -/
def Port.defineIndex (p : Port) : BitVec 8 := (p.param 0).extractLsb' 0 8
/-- DEFINE: the kind, P0 bits 10-8. -/
def Port.defineKind (p : Port) : BitVec 3 := (p.param 0).extractLsb' 8 3
/-- DEFINE: the first parameter, P1. -/
def Port.defineFirst (p : Port) : Nat := (p.param 1).toNat
/-- DEFINE: the second parameter, P2. -/
def Port.defineSecond (p : Port) : Nat := (p.param 2).toNat

/-- CANCEL: the slot, P0 bits 4-0. -/
def Port.cancelSlot (p : Port) : SlotNum := ((p.param 0).extractLsb' 0 5).toFin

/-- READ_OBJECT: the index, P0 bits 7-0. -/
def Port.readIndex (p : Port) : BitVec 8 := (p.param 0).extractLsb' 0 8

/-- An index field of eight bits as an index of the table; 64 to 255 name none (11.3). -/
def tableIndex (b : BitVec 8) : Option ObjIndex := if h : b.toNat < 64 then some ⟨b.toNat, h⟩ else none

/-- VSEL: the view number, bits 2-0. -/
def viewNumber (vsel : Reg) : Nat := (vsel.extractLsb' 0 3).toNat
/-- VSEL: the slot of view 4, bits 12-8. -/
def viewSlot (vsel : Reg) : SlotNum := (vsel.extractLsb' 8 5).toFin

end Sys2Proof.Machine
end

