-- ==== Sys2Proof/Machine/Flags.lean ====
section
/-! DEFINITION. The flags and codes software sees: the RESULT register, the event flags, LINT, and the codes of 11.2. -/

namespace Sys2Proof.Machine

/-! ### Codes of 11.2 -/

/-- The code of a local result. -/
def LocalResult.code : LocalResult → BitVec 8
  | .ok => 0 | .notConfig => 1 | .notActive => 2 | .noSlot => 3 | .badRequest => 4 | .slotIdle => 5 | .tooLate => 6
  | .notCancellable => 7 | .indexInUse => 8 | .poolExhausted => 9 | .badDefinition => 10 | .slotsBusy => 11
  | .ringEmpty => 12

/-- The code of a completion status. -/
def CompletionStatus.code : CompletionStatus → BitVec 5
  | .ok => 0 | .notReady => 1 | .timeout => 2 | .cancelled => 3 | .late => 4 | .full => 5 | .overflow => 6
  | .notHolder => 7 | .noWaiterRecord => 8 | .noHoldRecord => 9 | .badObject => 10 | .badRequest => 11
  | .homeAbsent => 12 | .homeBusy => 13 | .evicted => 14

/-- The code of a station state. -/
def StationState.code : StationState → BitVec 3
  | .config => 0 | .joining => 1 | .active => 2 | .leaving => 3 | .evicted => 4

/-- The code of a roster entry. -/
def RosterEntry.code : RosterEntry → BitVec 2
  | .unknown => 0 | .present => 1 | .departed => 2

/-- The code of an eviction cause, 0 for none. -/
def EvictionCause.code : Option EvictionCause → BitVec 2
  | none => 0 | some .stale => 1 | some .departNotice => 2 | some .duplicate => 3

/-- The code of a slot's state. -/
def SlotUse.code : SlotUse → BitVec 3
  | .free => 0 | .queued _ => 1 | .sent _ => 2 | .cancelling _ => 3 | .returning _ _ => 4 | .done _ _ _ => 5

/-- The code of an object's kind. -/
def Definition.kindCode : Definition → BitVec 2
  | .tracked _ => 1 | .signal _ _ => 2 | .mailbox _ _ => 3

/-! ### The RESULT register (R187, R195) -/

/-- RESULT0: the result code in bits 7-0, the code of the command it answers in bits 15-8; a code above 255 does not fit (log
entry 10). -/
def resultWord (command : Reg) (r : LocalResult) : Reg :=
  (if command.toNat < 256 then command.truncate 8 else Config.wideCommandCode command) ++ r.code

/-- A write of `command` to the command register was answered `r` with the two result fields. -/
def State.respond (command : Reg) (r : LocalResult) (first second : Reg) (s : State) : State :=
  { s with port := { s.port with command, result0 := resultWord command r, result1 := first, result2 := second } }

/-- A local command: nothing comes about while the station does not run (R183); otherwise `body` holds the answer. -/
def State.localCommand (s : State) (body : State) : Host.Outcome State Fault Refusal := whenever s.running body s

/-- A refusal: the code, with both result fields 0, and nothing else changes (R172, R195). -/
def State.refuse (command : Reg) (r : LocalResult) (s : State) : State := s.respond command r 0 0

/-! ### Events (R184, R185) -/

/-- Some event flag is set. -/
def Events.any (e : Events) : Bool := e.joined || e.joinFailed || e.left || e.evicted

/-- The EVICTED flag is raised; a flag already set keeps its cause ("never overwritten", R184). -/
def Events.raiseEvicted (cause : EvictionCause) (e : Events) : Events :=
  if e.evicted then e else { e with evicted := true, cause := some cause }

/-- The RESULT1 fields of READ_EVENTS (R195): the flags in bits 3-0, the cause in bits 9-8, the station state in bits 14-12. -/
def eventsWord (e : Events) (mode : StationState) : Reg :=
  0#1 ++ mode.code ++ 0#2 ++ EvictionCause.code e.cause ++ 0#4 ++ BitVec.ofBool e.evicted ++ BitVec.ofBool e.left ++
    BitVec.ofBool e.joinFailed ++ BitVec.ofBool e.joined

/-! ### LINT (R122, R186) -/

/-- The completion enable, IE bit 0. -/
def Port.completionEnable (p : Port) : Bool := p.ie.getLsbD 0
/-- The event enable, IE bit 1. -/
def Port.eventEnable (p : Port) : Bool := p.ie.getLsbD 1

/-- LINT is asserted: the ring holds a record and the completion enable is set, or a flag is set and the event enable is set;
it is deasserted while RESETN is held (R183, R186). -/
def State.lint (s : State) : Bool :=
  s.running && ((!s.client.ring.isEmpty && s.port.completionEnable) || (s.control.events.any && s.port.eventEnable))

end Sys2Proof.Machine
end

