-- ==== Sys2Proof/Machine/Frame.lean ====
section
/-! DEFINITION. The frame bit by bit: field layout (R189), codes (11.2), check sequence (R191), well-formedness (R129, R194),
and the leading field (R190). -/

namespace Sys2Proof.Machine

/-! ### Codes (11.2) -/

/-- The kind code of an operation. -/
def Operation.code : Operation → BitVec 3
  | .acquire => 1 | .release => 2 | .post => 3 | .take => 4 | .query => 5 | .withdraw => 6

/-- The operation of a kind code; 0 and 7 are not well formed. -/
def Operation.ofCode (c : BitVec 3) : Option Operation :=
  match c.toNat with
  | 1 => some .acquire | 2 => some .release | 3 => some .post
  | 4 => some .take | 5 => some .query | 6 => some .withdraw
  | _ => none

/-- The kind code of a notice. -/
def NoticeKind.code : NoticeKind → BitVec 3
  | .join => 1 | .leave => 2 | .depart => 3

/-- The notice of a kind code; 0 and 4 to 7 are not well formed. -/
def NoticeKind.ofCode (c : BitVec 3) : Option NoticeKind :=
  match c.toNat with
  | 1 => some .join | 2 => some .leave | 3 => some .depart
  | _ => none

/-- The code of an answer status. -/
def AnswerStatus.code : AnswerStatus → BitVec 4
  | .ok => 0 | .notReady => 1 | .expired => 2 | .withdrawn => 3 | .missed => 4 | .full => 5 | .overflow => 6
  | .notHolder => 7 | .noWaiterRecord => 8 | .noHoldRecord => 9 | .badObject => 10 | .badRequest => 11
  | .homeAbsent => 12

/-- The answer status of a code; 13, 14 and 15 name none (R194). -/
def AnswerStatus.ofCode (c : BitVec 4) : Option AnswerStatus :=
  match c.toNat with
  | 0 => some .ok | 1 => some .notReady | 2 => some .expired | 3 => some .withdrawn | 4 => some .missed
  | 5 => some .full | 6 => some .overflow | 7 => some .notHolder | 8 => some .noWaiterRecord
  | 9 => some .noHoldRecord | 10 => some .badObject | 11 => some .badRequest | 12 => some .homeAbsent
  | _ => none

/-! ### The fields on the line (R189) -/

/-- The class field: 0 notice, 1 answer, 2 request (R127). -/
def FrameKind.classCode : FrameKind → BitVec 2
  | .notice _ => 0 | .answer _ => 1 | .request _ => 2

/-- The kind field. -/
def FrameKind.kindCode : FrameKind → BitVec 3
  | .notice k => k.code | .answer op => op.code | .request op => op.code

/-- The class and kind of their two codes; class 3 and a kind that does not belong to its class name none (R194). -/
def FrameKind.ofCodes (cls : BitVec 2) (kind : BitVec 3) : Option FrameKind :=
  match cls.toNat with
  | 0 => (NoticeKind.ofCode kind).map .notice
  | 1 => (Operation.ofCode kind).map .answer
  | 2 => (Operation.ofCode kind).map .request
  | _ => none

/-- The destination field: 63 is ALL. -/
def Destination.code : Destination → BitVec 6
  | .station n => BitVec.ofNat 6 n.val
  | .all => 63

/-- The destination of a code; 32 to 62 name none (R194). -/
def Destination.ofCode (c : BitVec 6) : Option Destination :=
  if h : c.toNat < 32 then some (.station ⟨c.toNat, h⟩) else if c = 63 then some .all else none

/-- Fields 1 to 14, the first sent the most significant. -/
def Frame.payload (f : Frame) : BitVec 104 :=
  f.kind.classCode ++ BitVec.ofFin (w := 5) f.sender ++ f.dest.code ++ f.kind.kindCode ++ BitVec.ofFin (w := 6) f.index ++
    BitVec.ofFin (w := 5) f.slot ++ f.tag ++ BitVec.ofFin (w := 3) f.priority ++ f.waitLimit ++ f.units ++
    BitVec.ofBool f.urgent ++ f.word ++ f.status ++ BitVec.ofFin (w := 5) f.subject

/-- One bit taken into the check register: division by x^16 + x^12 + x^5 + 1 (R191). -/
def crcStep (r : BitVec 16) (bit : Bool) : BitVec 16 :=
  if (r.msb != bit) then (r <<< 1) ^^^ 0x1021#16 else r <<< 1

/-- The check sequence of a sequence of bits: the register preset to all ones, the remainder's complement sent (R191). -/
def crc (bits : List Bool) : BitVec 16 := ~~~(bits.foldl crcStep 0xFFFF#16)

/-- The bits of the 104-bit fields in the order sent. -/
def payloadBits (p : BitVec 104) : List Bool := (List.range 104).map fun i => p.getMsbD i

/-- The check sequence of fields 1 to 14. -/
def checkSequence (p : BitVec 104) : BitVec 16 := crc (payloadBits p)

/-- The 120 bits of a frame in the order sent (R189). -/
def Frame.encode (f : Frame) : BitVec 120 := f.payload ++ checkSequence f.payload

/-- Whether the destination is the one the class asks for: ALL for a notice, a station for an answer or a request (R129). -/
def FrameKind.takesDest : FrameKind → Destination → Bool
  | .notice _, .all => true
  | .notice _, .station _ => false
  | .answer _, .station _ | .request _, .station _ => true
  | .answer _, .all | .request _, .all => false

/-- A frame's fields are well formed together (R129). -/
def Frame.wellFormed (f : Frame) : Bool := f.kind.takesDest f.dest

/-- The frame of 104 bits of fields, when class, kind and destination are well formed. -/
def Frame.ofPayload (p : BitVec 104) : Option Frame :=
  match FrameKind.ofCodes (p.extractLsb' 102 2) (p.extractLsb' 88 3), Destination.ofCode (p.extractLsb' 91 6) with
  | some kind, some dest =>
    if kind.takesDest dest then
      some { kind, dest,
             sender := (p.extractLsb' 97 5).toFin
             index := (p.extractLsb' 82 6).toFin
             slot := (p.extractLsb' 77 5).toFin
             tag := p.extractLsb' 69 8
             priority := (p.extractLsb' 66 3).toFin
             waitLimit := p.extractLsb' 50 16
             units := p.extractLsb' 42 8
             urgent := p.getLsbD 41
             word := p.extractLsb' 9 32
             status := p.extractLsb' 5 4
             subject := (p.extractLsb' 0 5).toFin }
    else none
  | _, _ => none

/-- The frame of 120 bits heard, when it is well formed (R129): the check sequence agrees and the fields are well formed. -/
def Frame.parse (bits : BitVec 120) : Option Frame :=
  if bits.extractLsb' 0 16 = checkSequence (bits.extractLsb' 16 104) then Frame.ofPayload (bits.extractLsb' 16 104) else none

/-- The leading field: class, then sender (R190). -/
def Frame.leading (f : Frame) : BitVec 7 := f.kind.classCode ++ BitVec.ofFin (w := 5) f.sender

/-- A station whose leading field is `mine` has lost when the line shows a 0 at the first bit in which the two differ (R190). -/
def outranks (line mine : BitVec 7) : Bool := decide (line.toNat < mine.toNat)

/-! ### The frames a station sends (R128) -/

/-- A frame of one kind from `sender` to `dest` with every other field 0. -/
def Frame.blank (kind : FrameKind) (sender : StationNum) (dest : Destination) : Frame :=
  ⟨kind, sender, dest, 0, 0, 0, 0, 0, 0, false, 0, 0, 0⟩

/-- The frame of a notice. -/
def Notice.toFrame (own : StationNum) : Notice → Frame
  | .join => Frame.blank (.notice .join) own .all
  | .leave => Frame.blank (.notice .leave) own .all
  | .depart n => { Frame.blank (.notice .depart) own .all with subject := n }

/-- The operation a waiter record answers (R16). -/
def WaitOp.operation : WaitOp → Operation
  | .acquire _ => .acquire
  | .take => .take

/-- The answer an item carries, with its destination (R28, R82). -/
def AnswerItem.entry : AnswerItem → ImmediateEntry
  | .immediate e => e
  | .record w status value => ⟨w.requester, w.slot, w.tag, w.operation.operation, w.index, status, value⟩

/-- The requester station an item is addressed to. -/
def AnswerItem.dest (x : AnswerItem) : StationNum := x.entry.dest

/-- The ANSWER frame of an item. -/
def AnswerItem.toFrame (own : StationNum) (x : AnswerItem) : Frame :=
  let e := x.entry
  { Frame.blank (.answer e.operation) own (.station e.dest) with
    index := e.index, slot := e.slot, tag := e.tag, word := e.value, status := e.status.code }

/-- The units field of a return frame: the units in the slot's result value (R106); a value above 255 does not fit (log
entry 11). -/
def returnUnits (value : Word) : BitVec 8 :=
  if value.toNat < 256 then value.truncate 8 else Config.wideReturnUnits value

/-- The frame of a slot's own request: each kind carries the fields R128 marks. -/
def Request.toFrame (own : StationNum) (slot : SlotNum) (tag : Tag) (r : Request) : Frame :=
  let f := { Frame.blank (.request r.operation) own (.station (homeOf r.objectId)) with
    index := indexOf r.objectId, slot, tag }
  match r.operation with
  | .acquire => { f with priority := r.priority, waitLimit := r.waitLimit, units := r.units }
  | .release => { f with units := r.units }
  | .post => { f with urgent := r.urgent, word := r.word }
  | .take => { f with priority := r.priority, waitLimit := r.waitLimit }
  | .query | .withdraw => f

/-- The WITHDRAW frame of a slot (R106). -/
def Request.withdrawFrame (own : StationNum) (slot : SlotNum) (tag : Tag) (r : Request) : Frame :=
  { Frame.blank (.request .withdraw) own (.station (homeOf r.objectId)) with index := indexOf r.objectId, slot, tag }

/-- The RELEASE frame of a return entry (R106). -/
def Request.returnFrame (own : StationNum) (slot : SlotNum) (tag : Tag) (value : Word) (r : Request) : Frame :=
  { Frame.blank (.request .release) own (.station (homeOf r.objectId)) with
    index := indexOf r.objectId, slot, tag, units := returnUnits value }

end Sys2Proof.Machine
end

