-- ==== Sys2Proof/Machine/ClientOps.lean ====
section
/-! DEFINITION. The client engine's operations: a slot's end and its completion record (R119), the matching of answers
(R113-R118), the request list's outcomes (R107, R108), the client side of a purge (R123) and of an eviction (R124). -/

namespace Sys2Proof.Machine

/-! ### Slots -/

/-- The request a slot carries, in every state but FREE. -/
def SlotUse.request? : SlotUse → Option Request
  | .free => none
  | .queued r | .sent r | .cancelling r | .returning r _ | .done r _ _ => some r

/-- The request of a busy slot: QUEUED, SENT, CANCELLING or RETURNING (R100). -/
def SlotUse.busy? : SlotUse → Option Request
  | .queued r | .sent r | .cancelling r | .returning r _ => some r
  | .free | .done _ _ _ => none

/-- A slot is busy (R100). -/
def SlotUse.busy (u : SlotUse) : Bool := u.busy?.isSome

/-- The slot of a number. -/
def Client.slot (c : Client) (n : SlotNum) : TaskSlot := c.slots[n]

/-- Sets what a slot holds, keeping its tag. -/
def Client.setUse (n : SlotNum) (u : SlotUse) (c : Client) : Client :=
  { c with slots := c.slots.set n { c.slot n with use := u } }

/-- Some slot is busy. -/
def Client.anyBusy (c : Client) : Bool := c.slots.toList.any fun t => t.use.busy

/-- The slot's entry leaves the request list, from whatever place (R110). -/
def Client.dropEntry (n : SlotNum) (c : Client) : Client :=
  { c with requests := c.requests.removeIf fun e => decide (e.slot = n) }

/-- The slot of a request goes to DONE: its entry, if one still stands, leaves the request list, and its completion record joins
the ring (R119, R117, R123; log entry 13). -/
def Client.complete (n : SlotNum) (r : Request) (status : CompletionStatus) (value : Word) (c : Client) : Client :=
  let c1 := (c.dropEntry n).setUse n (.done r status value)
  { c1 with ring := c1.ring ++ [⟨n, (c.slot n).tag, r.operation, r.objectId, status, value⟩] }

/-! ### Matching answers -/

/-- The completion an answer status maps to (R113); MISSED is never mapped. -/
def AnswerStatus.completion : AnswerStatus → Option CompletionStatus
  | .ok => some .ok | .notReady => some .notReady | .expired => some .timeout | .withdrawn => some .cancelled
  | .missed => none | .full => some .full | .overflow => some .overflow | .notHolder => some .notHolder
  | .noWaiterRecord => some .noWaiterRecord | .noHoldRecord => some .noHoldRecord | .badObject => some .badObject
  | .badRequest => some .badRequest | .homeAbsent => some .homeAbsent

/-- The value of a completion: the answer's, but 0 for TIMEOUT and CANCELLED (R113). -/
def completionValue (status : CompletionStatus) (value : Word) : Word :=
  match status with
  | .timeout | .cancelled => 0
  | _ => value

/-- What an answer does to a CANCELLING slot (R116): nothing, DONE with a result, or RETURNING with the units granted. -/
inductive CancelEffect
  | discard
  | done (status : CompletionStatus) (value : Word)
  | giveBack (units : Word)
  deriving DecidableEq, Repr

/-- The table of R116; an answer it does not list is discarded (log entry 12). -/
def cancelEffect (original answered : Operation) (status : AnswerStatus) (value : Word) : CancelEffect :=
  match status with
  | .withdrawn => .done .cancelled 0
  | .expired => .done .timeout 0
  | .ok =>
    match answered with
    | .take => .done .late value
    | .acquire => .giveBack value
    | .release | .post | .query | .withdraw => .discard
  | .homeAbsent => if answered = original ∨ answered = .withdraw then .done .homeAbsent 0 else .discard
  | .badObject => if answered = original ∨ answered = .withdraw then .done .badObject value else .discard
  | .noWaiterRecord => if answered = original then .done .noWaiterRecord value else .discard
  | .noHoldRecord => if answered = original then .done .noHoldRecord value else .discard
  | .badRequest => if answered = original then .done .badRequest value else .discard
  | .missed | .notReady | .full | .overflow | .notHolder => .discard

/-- An answer from `sender` matches the busy slot of request `r` (R114). -/
def answerMatches (sender : StationNum) (a : ImmediateEntry) (tag : Tag) (r : Request) : Bool :=
  decide (a.tag = tag) && decide (a.index = indexOf r.objectId) && decide (sender = homeOf r.objectId)

/-- A matching answer's effect, by the slot's state (R115, R116, R118). -/
def Client.settle (a : ImmediateEntry) (c : Client) : Client :=
  match (c.slot a.slot).use with
  | .free | .done _ _ _ | .queued _ => c
  | .sent r =>
    match a.status.completion with
    | none => c
    | some st => if a.operation = r.operation then c.complete a.slot r st (completionValue st a.value) else c
  | .cancelling r =>
    match cancelEffect r.operation a.operation a.status a.value with
    | .discard => c
    | .done st v => c.complete a.slot r st v
    | .giveBack units =>
      let c1 := (c.dropEntry a.slot).setUse a.slot (.returning r units)
      { c1 with requests := c1.requests.push ⟨a.slot, .giveBack⟩ }
  | .returning r _ => if a.operation = .release then c.complete a.slot r .cancelled 0 else c

/-- The client engine takes an answer from `sender`: it settles the slot it names when it matches, and is discarded otherwise
(R114). -/
def Client.receive (sender : StationNum) (a : ImmediateEntry) (c : Client) : Client :=
  match (c.slot a.slot).use.busy? with
  | none => c
  | some r => if answerMatches sender a (c.slot a.slot).tag r then c.settle a else c

/-! ### The request list's outcomes -/

/-- ACCEPT of the head entry: it leaves, and a QUEUED slot's request becomes SENT (R107). -/
def Client.acceptHead (c : Client) : Client :=
  match c.requests.items.head? with
  | none => c
  | some e =>
    let c1 := { c with requests := c.requests.dropHead }
    match e.sort, (c.slot e.slot).use with
    | .request, .queued r => c1.setUse e.slot (.sent r)
    | _, _ => c1

/-- The value of a HOME_BUSY record: the units that were to be returned, otherwise 0 (R108). -/
def homeBusyValue : SlotUse → Word
  | .returning _ units => units
  | .free | .queued _ | .sent _ | .cancelling _ | .done _ _ _ => 0

/-- The head entry reaches the BUSY limit: it leaves, and its slot completes HOME_BUSY (R108). -/
def Client.busyLimitHead (c : Client) : Client :=
  match c.requests.items.head? with
  | none => c
  | some e =>
    let c1 := { c with requests := c.requests.dropHead }
    match (c.slot e.slot).use.busy? with
    | some r => c1.complete e.slot r .homeBusy (homeBusyValue (c.slot e.slot).use)
    | none => c1

/-! ### Purge and eviction -/

/-- The slot completes with `status` and value 0 when it is busy with a request of `p`. -/
def Client.endSlot (p : Request → Bool) (status : CompletionStatus) (c : Client) (n : SlotNum) : Client :=
  match (c.slot n).use.busy? with
  | some r => if p r then c.complete n r status 0 else c
  | none => c

/-- The client side of the purge of station `n`, in slot-number order (R123, R159). -/
def Client.purge (n : StationNum) (c : Client) : Client :=
  allSlots.foldl (Client.endSlot (fun r => decide (homeOf r.objectId = n)) .homeAbsent) c

/-- Every busy slot completes EVICTED in slot-number order, and the request list is emptied (R124). -/
def Client.evict (c : Client) : Client :=
  { allSlots.foldl (Client.endSlot (fun _ => true) .evicted) c with requests := OutList.empty }

/-- RESET: every slot FREE with its tag kept, the request list and the ring empty (R101). -/
def Client.clear (c : Client) : Client :=
  { slots := mapVec (fun t => { t with use := .free }) c.slots, requests := OutList.empty, ring := [] }

end Sys2Proof.Machine
end

