-- ==== Sys2Proof/Machine/HomeOps.lean ====
section
/-! DEFINITION. The home half's operations: the object table's runtime state, the hold table, the production of answers, the
grant pass, each request at its object, expiry, the home side of a purge, and the settling at the start of a leave sequence. -/

namespace Sys2Proof.Machine

/-! ### The object table -/

/-- The kind is a semaphore's. -/
def Definition.isSemaphore : Definition → Bool
  | .tracked _ | .signal _ _ => true
  | .mailbox _ _ => false

/-- The kind is TRACKED. -/
def Definition.isTracked : Definition → Bool
  | .tracked _ => true
  | .signal _ _ | .mailbox _ _ => false

/-- The largest level: C, M or 2^K. -/
def Definition.bound : Definition → Nat
  | .tracked c => c
  | .signal m _ => m
  | .mailbox k _ => 2 ^ k

/-- The level at initial values (R11). -/
def Definition.initialLevel : Definition → Nat
  | .tracked c => c
  | .signal _ i => i
  | .mailbox _ _ => 0

/-- An entry at its initial values (R11). -/
def ObjectEntry.initial (d : Definition) : ObjectEntry := ⟨d, d.initialLevel, 0, []⟩

/-- The entry of an index. -/
def Home.entry (h : Home) (i : ObjIndex) : Option ObjectEntry := h.objects[i]

/-- Sets a defined entry. -/
def Home.setEntry (i : ObjIndex) (e : ObjectEntry) (h : Home) : Home := { h with objects := h.objects.set i (some e) }

/-- The ring words of a mailbox entry are set to 0. -/
def clearRing (m : Memory) : Option ObjectEntry → Memory
  | some e =>
    match e.definition with
    | .mailbox k base => m.clear base (2 ^ k)
    | .tracked _ | .signal _ _ => m
  | none => m

/-- Every defined entry's runtime state is set to its initial values: levels, heads, waiter lists, ring words, and no hold
records (R11). -/
def Home.initRuntime (h : Home) : Home :=
  { h with
    objects := mapVec (Option.map fun e => ObjectEntry.initial e.definition) h.objects
    pool := h.objects.toList.foldl clearRing h.pool
    holds := [] }

/-- The home side cleared without answers and set to its initial values: waiter pool, hold table, immediate answer entries and
answer list (R15, R54, R83, R11). -/
def Home.restart (h : Home) : Home := { h.initRuntime with arrivals := 0, answers := OutList.empty }

/-! ### The pools -/

/-- The WAITING records of the whole table. -/
def Home.waitingCount (h : Home) : Nat := (h.objects.toList.map fun o => (o.map fun e => e.waiters.length).getD 0).sum

/-- An answer list item is carried by a waiter record. -/
def AnswerItem.isRecord : AnswerItem → Bool
  | .record _ _ _ => true
  | .immediate _ => false

/-- FREE waiter records: what WAITING and ANSWERING records leave of 96 (R15, R17). -/
def Home.freeWaiters (h : Home) : Nat :=
  Config.waiterRecords - (h.waitingCount + h.answers.items.countP AnswerItem.isRecord)

/-- FREE immediate answer entries (R82). -/
def Home.freeImmediate (h : Home) : Nat :=
  Config.immediateEntries - h.answers.items.countP fun x => !x.isRecord

/-- Free hold records (R54). -/
def Home.freeHolds (h : Home) : Nat := Config.holdRecords - h.holds.length

/-! ### The hold table -/

/-- The record is the pair's. -/
def HoldRecord.isFor (i : ObjIndex) (st : StationNum) (r : HoldRecord) : Bool := decide (r.index = i) && decide (r.holder = st)

/-- The hold table after a grant of `u` units of semaphore `i` to `st`: a merge, a record put in use, or none to be had (R55). -/
def obtainHold (i : ObjIndex) (st : StationNum) (u : Nat) (holds : List HoldRecord) : Option (List HoldRecord) :=
  if holds.any (HoldRecord.isFor i st) then
    some (holds.map fun r => if r.isFor i st then { r with units := r.units + u } else r)
  else if holds.length < Config.holdRecords then some (holds ++ [⟨i, st, u⟩])
  else none

/-- The hold table after `st` gives back `u` units of semaphore `i`: the record falls by `u` and is freed at 0 (R52, R56). -/
def lowerHold (i : ObjIndex) (st : StationNum) (u : Nat) (holds : List HoldRecord) : List HoldRecord :=
  holds.filterMap fun r =>
    if r.isFor i st then if r.units ≤ u then none else some { r with units := r.units - u } else some r

/-- The units `st` holds of semaphore `i`, 0 if none (R59). -/
def unitsHeld (i : ObjIndex) (st : StationNum) (holds : List HoldRecord) : Nat :=
  ((holds.find? (HoldRecord.isFor i st)).map HoldRecord.units).getD 0

/-! ### Answers (R29, R87, R95) -/

/-- An answer is produced: for another station it joins the tail of the answer list; for the station itself it is handed to
the own client engine in the same event, and its carrier is FREE at once. -/
def State.produce (x : AnswerItem) (s : State) : State :=
  if x.dest = s.control.number then { s with client := s.client.receive s.control.number x.entry }
  else { s with home := { s.home with answers := s.home.answers.push x } }

/-- The request `f` of operation `op` is answered with an immediate answer. -/
def State.answer (f : Frame) (op : Operation) (status : AnswerStatus) (value : Word) (s : State) : State :=
  s.produce (.immediate ⟨f.sender, f.slot, f.tag, op, f.index, status, value⟩)

/-- Sets a defined entry of the station's table. -/
def State.setEntry (i : ObjIndex) (e : ObjectEntry) (s : State) : State := { s with home := s.home.setEntry i e }

/-- A count as the value of an answer. -/
def valueOf (n : Nat) : Word := BitVec.ofNat 32 n

/-! ### The grant pass (R47, R48) -/

/-- The units a record asks for. -/
def WaiterRecord.units (w : WaiterRecord) : Nat :=
  match w.operation with
  | .acquire u => u
  | .take => 0

/-- The head `w` of semaphore `i`, whose units are there, leaves the list `w :: rest`: served OK, or refused NO_HOLD_RECORD
when it is TRACKED and no hold record can be had. -/
def State.serveHead (i : ObjIndex) (e : ObjectEntry) (w : WaiterRecord) (rest : List WaiterRecord) (s : State) : State :=
  let served := s.setEntry i { e with level := e.level - w.units, waiters := rest }
  if e.definition.isTracked then
    match obtainHold i w.requester w.units s.home.holds with
    | some holds =>
      ({ served with home := { served.home with holds } }).produce (.record w .ok (valueOf w.units))
    | none => (s.setEntry i { e with waiters := rest }).produce (.record w .noHoldRecord 0)
  else served.produce (.record w .ok (valueOf w.units))

/-- The pass over a list from its head: it goes on while the head's units are there. -/
def State.grantLoop (i : ObjIndex) : List WaiterRecord → State → State
  | [], s => s
  | w :: rest, s =>
    match s.home.entry i with
    | some e =>
      if e.definition.isSemaphore && decide (w.units ≤ e.level) then State.grantLoop i rest (s.serveHead i e w rest) else s
    | none => s

/-- The grant pass of the semaphore at `i`; nothing for a mailbox (R25, R47). -/
def State.grantPass (i : ObjIndex) (s : State) : State :=
  match s.home.entry i with
  | some e => s.grantLoop i e.waiters
  | none => s

/-! ### Waiter records -/

/-- A record is the one of a requester station and slot (R19). -/
def WaiterRecord.isOf (st : StationNum) (sl : SlotNum) (w : WaiterRecord) : Bool :=
  decide (w.requester = st) && decide (w.slot = sl)

/-- The place of a new record: after every record of its priority or more urgent, before every less urgent one (R21). -/
def insertByPriority (w : WaiterRecord) : List WaiterRecord → List WaiterRecord
  | [] => [w]
  | x :: xs => if x.priority ≤ w.priority then x :: insertByPriority w xs else w :: x :: xs

/-- The deadline of a wait limit (R33). -/
def deadlineOf (time : Word) (limit : BitVec 16) : Option Word :=
  if limit = Config.waitForEver then none else some (time + limit.setWidth 32)

/-- WAITING records of `p` leave the list of object `i` without answers; for a semaphore that lost one the grant pass runs
once (R19, R25, R26). -/
def State.dropWaiters (p : WaiterRecord → Bool) (s : State) (i : ObjIndex) : State :=
  match s.home.entry i with
  | some e =>
    if e.waiters.any p then (s.setEntry i { e with waiters := e.waiters.filter fun w => !p w }).grantPass i else s
  | none => s

/-- Items of `p` leave the answer list from whatever place, their carriers FREE (R94). -/
def State.dropAnswers (p : AnswerItem → Bool) (s : State) : State :=
  { s with home := { s.home with answers := s.home.answers.removeIf p } }

/-- An item is carried by the record of a requester station and slot. -/
def AnswerItem.isRecordOf (st : StationNum) (sl : SlotNum) : AnswerItem → Bool
  | .record w _ _ => w.isOf st sl
  | .immediate _ => false

/-- The search and replacement of R19: an old record of the same requester station and slot is freed without an answer. -/
def State.replaceRecord (st : StationNum) (sl : SlotNum) (s : State) : State :=
  allIndexes.foldl (State.dropWaiters (WaiterRecord.isOf st sl)) (s.dropAnswers (AnswerItem.isRecordOf st sl))

/-- A FREE record is filled from the request `f` and inserted on its object's list (R18, R21, R33). -/
def State.insertRecord (op : WaitOp) (f : Frame) (s : State) : State :=
  match s.home.entry f.index with
  | some e =>
    let w : WaiterRecord :=
      ⟨f.index, f.sender, f.slot, f.tag, op, f.priority, deadlineOf s.control.time f.waitLimit, s.home.arrivals, false⟩
    { s with home :=
      { s.home.setEntry f.index { e with waiters := insertByPriority w e.waiters } with arrivals := s.home.arrivals + 1 } }
  | none => s

/-- A request that must wait (R46, R75): replacement, then a record or NO_WAITER_RECORD, then for a semaphore the grant pass. -/
def State.wait (op : WaitOp) (f : Frame) (s : State) : State :=
  let s1 := s.replaceRecord f.sender f.slot
  if s1.home.freeWaiters = 0 then s1.answer f op.operation .noWaiterRecord 0
  else (s1.insertRecord op f).grantPass f.index

/-! ### Requests at their objects -/

/-- The checks of R41 with the fits of R12: the status of the refusal, or none. -/
def requestCheck (op : Operation) (units : Nat) : Option ObjectEntry → Option AnswerStatus
  | none => some .badObject
  | some e =>
    match op, e.definition with
    | .acquire, .tracked c => if 1 ≤ units ∧ units ≤ c then none else some .badRequest
    | .acquire, .signal m _ => if 1 ≤ units ∧ units ≤ m then none else some .badRequest
    | .release, .tracked _ => if 1 ≤ units then none else some .badRequest
    | .release, .signal m _ => if 1 ≤ units ∧ units ≤ m then none else some .badRequest
    | .post, .mailbox _ _ | .take, .mailbox _ _ => none
    | .query, _ | .withdraw, _ => none
    | .acquire, .mailbox _ _ | .release, .mailbox _ _ => some .badObject
    | .post, .tracked _ | .post, .signal _ _ | .take, .tracked _ | .take, .signal _ _ => some .badObject

/-- The try rule (R44): the units are there and no record of equal or more urgent priority waits. -/
def tryGranted (f : Frame) (e : ObjectEntry) : Bool :=
  decide (f.units.toNat ≤ e.level) && !(e.waiters.any fun w => decide (w.priority ≤ f.priority))

/-- ACQUIRE with wait limit 0 (R44, R45). -/
def State.tryAcquire (f : Frame) (e : ObjectEntry) (s : State) : State :=
  let u := f.units.toNat
  let taken := s.setEntry f.index { e with level := e.level - u }
  if tryGranted f e then
    if e.definition.isTracked then
      match obtainHold f.index f.sender u s.home.holds with
      | some holds => ({ taken with home := { taken.home with holds } }).answer f .acquire .ok (valueOf u)
      | none => s.answer f .acquire .noHoldRecord 0
    else taken.answer f .acquire .ok (valueOf u)
  else s.answer f .acquire .notReady (valueOf e.level)

/-- ACQUIRE (R43). -/
def State.takeAcquire (f : Frame) (e : ObjectEntry) (s : State) : State :=
  if f.waitLimit = 0 then s.tryAcquire f e else s.wait (.acquire f.units.toNat) f

/-- RELEASE (R52, R53): the immediate answer first, then the grant pass. -/
def State.takeRelease (f : Frame) (e : ObjectEntry) (s : State) : State :=
  let u := f.units.toNat
  let raised := s.setEntry f.index { e with level := e.level + u }
  if e.definition.isTracked then
    let held := unitsHeld f.index f.sender s.home.holds
    if held < u then s.answer f .release .notHolder (valueOf held)
    else
      (({ raised with home := { raised.home with holds := lowerHold f.index f.sender u s.home.holds } }).answer f .release .ok
        (valueOf (held - u))).grantPass f.index
  else if e.definition.bound < e.level + u then s.answer f .release .overflow (valueOf e.level)
  else (raised.answer f .release .ok 0).grantPass f.index

/-- The pool word of a ring position (R5). -/
def ringAddress (k base position : Nat) : Nat := base + position % 2 ^ k

/-- The head position one before `p` (R71). -/
def headBefore (k p : Nat) : Nat := (p + (2 ^ k - 1)) % 2 ^ k

/-- POST to a mailbox of exponent `k` and ring base `base` (R68 to R71). -/
def State.takePost (f : Frame) (e : ObjectEntry) (k base : Nat) (s : State) : State :=
  match e.waiters with
  | w :: rest =>
    ((s.setEntry f.index { e with waiters := rest }).answer f .post .ok 0).produce (.record w .ok f.word)
  | [] =>
    if 2 ^ k ≤ e.level then s.answer f .post .full (valueOf (2 ^ k))
    else
      let head := if f.urgent then headBefore k e.head else e.head
      let position := if f.urgent then head else e.head + e.level
      let placed := s.setEntry f.index { e with level := e.level + 1, head }
      ({ placed with home := { placed.home with pool := placed.home.pool.write (ringAddress k base position) f.word } }).answer f
        .post .ok (valueOf (e.level + 1))

/-- TAKE from a mailbox of exponent `k` and ring base `base` (R73, R75). -/
def State.takeTake (f : Frame) (e : ObjectEntry) (k base : Nat) (s : State) : State :=
  if 0 < e.level then
    (s.setEntry f.index { e with level := e.level - 1, head := (e.head + 1) % 2 ^ k }).answer f .take .ok
      (s.home.pool.read (ringAddress k base e.head))
  else if f.waitLimit = 0 then s.answer f .take .notReady 0
  else s.wait .take f

/-- The value of an answer to QUERY: the level in bits 31-16, the WAITING records in bits 15-0 (R193). -/
def queryValue (e : ObjectEntry) : Word := BitVec.ofNat 16 e.level ++ BitVec.ofNat 16 e.waiters.length

/-- The record a WITHDRAW seeks (R37). -/
def WaiterRecord.isSought (f : Frame) (w : WaiterRecord) : Bool := w.isOf f.sender f.slot && decide (w.tag = f.tag)

/-- A WAITING record `w` of object `i` leaves its list with an answer of value 0, and for a semaphore the grant pass runs
(R24, R25). -/
def State.endWait (i : ObjIndex) (e : ObjectEntry) (w : WaiterRecord) (status : AnswerStatus) (s : State) : State :=
  ((s.setEntry i { e with waiters := e.waiters.erase w }).produce (.record w status 0)).grantPass i

/-- WITHDRAW (R37 to R39). -/
def State.takeWithdraw (f : Frame) (e : ObjectEntry) (s : State) : State :=
  match e.waiters.find? (WaiterRecord.isSought f) with
  | some w => s.endWait f.index e w .withdrawn
  | none => s.answer f .withdraw .missed 0

/-- A request that passed the checks, at its entry `e`. -/
def State.decideRequest (f : Frame) (op : Operation) (e : ObjectEntry) (s : State) : State :=
  match op with
  | .acquire => s.takeAcquire f e
  | .release => s.takeRelease f e
  | .query => s.answer f .query .ok (queryValue e)
  | .withdraw => s.takeWithdraw f e
  | .post =>
    match e.definition with
    | .mailbox k base => s.takePost f e k base
    | .tracked _ | .signal _ _ => s
  | .take =>
    match e.definition with
    | .mailbox k base => s.takeTake f e k base
    | .tracked _ | .signal _ _ => s

/-- A request taken in ACTIVE: the checks of R41, then its object's rules (R85). -/
def State.applyRequest (f : Frame) (op : Operation) (s : State) : State :=
  match requestCheck op f.units.toNat (s.home.entry f.index) with
  | some refusal => s.answer f op refusal 0
  | none =>
    match s.home.entry f.index with
    | some e => s.decideRequest f op e
    | none => s

/-! ### Expiry (R34) -/

/-- The record's expiry becomes due when station time reaches its deadline. -/
def WaiterRecord.reach (time : Word) (w : WaiterRecord) : WaiterRecord :=
  { w with due := w.due || decide (w.deadline = some time) }

/-- The advance to `time`: expiries become due on every list. -/
def Home.advance (time : Word) (h : Home) : Home :=
  { h with objects := mapVec (Option.map fun e => { e with waiters := e.waiters.map (WaiterRecord.reach time) }) h.objects }

/-- The due expiry of a requester station and slot on the list of `i` is taken; nothing when no such record waits, since the
expiry was then dropped. -/
def State.expire (i : ObjIndex) (st : StationNum) (sl : SlotNum) (s : State) : State :=
  match s.home.entry i with
  | some e =>
    match e.waiters.find? fun w => w.isOf st sl && w.due with
    | some w => s.endWait i e w .expired
    | none => s
  | none => s

/-! ### Purge and reclaim (R160, R61) -/

/-- Reclaim of station `n` at one index: a TRACKED semaphore it holds units of takes them back, and the grant pass runs. -/
def State.reclaimAt (n : StationNum) (s : State) (i : ObjIndex) : State :=
  match s.home.entry i, s.home.holds.find? (HoldRecord.isFor i n) with
  | some e, some r =>
    if e.definition.isTracked then
      let back := s.setEntry i { e with level := e.level + r.units }
      ({ back with home := { back.home with holds := s.home.holds.filter fun x => !x.isFor i n } }).grantPass i
    else s
  | _, _ => s

/-- The home side of the purge of station `n`: waiting records, then answers, then reclaim (R160). -/
def State.purgeHome (n : StationNum) (s : State) : State :=
  let s1 := allIndexes.foldl (State.dropWaiters fun w => decide (w.requester = n)) s
  let s2 := s1.dropAnswers fun x => decide (x.dest = n)
  allIndexes.foldl (State.reclaimAt n) s2

/-! ### The start of a leave sequence (R27, R58) -/

/-- The waiting records of object `i` are answered HOME_ABSENT in list order. -/
def State.flushObject (s : State) (i : ObjIndex) : State :=
  match s.home.entry i with
  | some e =>
    e.waiters.foldl (fun t w => t.produce (.record w .homeAbsent 0)) (s.setEntry i { e with waiters := [] })
  | none => s

/-- Every waiting record is flushed, in object index order (R27). -/
def State.flush (s : State) : State := allIndexes.foldl State.flushObject s

/-- A TRACKED semaphore has its capacity available; every other entry stays as it is (R58). -/
def ObjectEntry.settled (e : ObjectEntry) : ObjectEntry :=
  match e.definition with
  | .tracked c => { e with level := c }
  | .signal _ _ | .mailbox _ _ => e

/-- Every hold record is freed and every TRACKED semaphore is set to its capacity (R58). -/
def Home.settle (h : Home) : Home := { h with objects := mapVec (Option.map ObjectEntry.settled) h.objects, holds := [] }

end Sys2Proof.Machine
end

