-- ==== Sys2Proof/Machine/StationOps.lean ====
section
/-! DEFINITION. The operations of the station as a whole: the views of the register window, the receive queue, RESET and
power-on, eviction, the purge and departure of a station, and the ends of the join and leave sequences. -/

namespace Sys2Proof.Machine

/-! ### Views (R196, R197) -/

/-- A count as a 16-bit register. -/
def regOf (n : Nat) : Reg := BitVec.ofNat 16 n

/-- View 0, the completion window (R120). -/
def State.completionView (s : State) : Vector Reg 5 :=
  let count := BitVec.ofNat 6 s.client.ring.length
  match s.client.ring.head? with
  | some r =>
    #v[0#3 ++ BitVec.ofFin (w := 5) r.slot ++ 0#2 ++ count, r.status.code ++ r.operation.code ++ r.tag,
       0#5 ++ BitVec.ofFin (w := 11) r.objectId, r.value.extractLsb' 0 16, r.value.extractLsb' 16 16]
  | none => #v[0#10 ++ count, 0, 0, 0, 0]

/-- View 1, the object window (R13). -/
def State.objectView (s : State) : Vector Reg 5 :=
  let w := s.port.window
  #v[w.head ++ w.kind ++ w.index, w.first, w.second, w.level, w.holds ++ w.waiters]

/-- View 2, station status (R171) and station time (R32). -/
def State.stationView (s : State) : Vector Reg 5 :=
  #v[0#2 ++ BitVec.ofFin (w := 2) s.control.rate ++ 0#3 ++ BitVec.ofFin (w := 5) s.control.number ++ 0#1 ++
      s.control.mode.code,
     s.control.time.extractLsb' 0 16, s.control.time.extractLsb' 16 16, 0, 0]

/-- An item of the receive queue is a frame, not a place held. -/
def QueueItem.isFrame : QueueItem → Bool
  | .frame _ => true
  | .place _ => false

/-- View 3, pool and link status (R15, R59, R83, R145, R138). -/
def State.poolView (s : State) : Vector Reg 5 :=
  #v[regOf s.home.freeWaiters, regOf s.home.freeHolds, regOf s.home.freeImmediate, regOf s.home.answers.items.length,
     0#2 ++ BitVec.ofNat 6 s.link.notices.items.length ++ 0#3 ++ BitVec.ofNat 5 (s.link.queue.countP QueueItem.isFrame)]

/-- View 4, the status of the slot named in VSEL (R100). -/
def State.slotView (slot : SlotNum) (s : State) : Vector Reg 5 :=
  let t := s.client.slot slot
  #v[t.tag ++ 0#5 ++ t.use.code, regOf s.client.requests.items.length, regOf s.client.ring.length, 0, 0]

/-- The roster code shown for a station: its own entry always reads UNKNOWN (11.3). -/
def State.rosterCode (s : State) (n : StationNum) : BitVec 2 :=
  if n = s.control.number then RosterEntry.unknown.code else (s.rosterOf n).code

/-- Eight entries of the roster, the first in bits 1-0; `g` is 0 to 3. -/
def State.rosterWord (s : State) (g : Fin 4) : Reg :=
  let c (j : Fin 8) := s.rosterCode ⟨8 * g.val + j.val, by have := g.isLt; have := j.isLt; omega⟩
  c 7 ++ c 6 ++ c 5 ++ c 4 ++ c 3 ++ c 2 ++ c 1 ++ c 0

/-- View 5, the roster (R149). -/
def State.rosterView (s : State) : Vector Reg 5 :=
  #v[s.rosterWord 0, s.rosterWord 1, s.rosterWord 2, s.rosterWord 3, 0]

/-- The five registers of the view that `vsel` selects; a view number of 6 or 7 shows 0 (R196). -/
def State.view (vsel : Reg) (s : State) : Vector Reg 5 :=
  match viewNumber vsel with
  | 0 => s.completionView
  | 1 => s.objectView
  | 2 => s.stationView
  | 3 => s.poolView
  | 4 => s.slotView (viewSlot vsel)
  | 5 => s.rosterView
  | _ => Vector.replicate 5 0

/-- The selected view is captured into V0-V4 (R197). -/
def State.capture (s : State) : State := { s with port := { s.port with views := s.view s.port.vsel } }

/-- What a read of one of the sixteen registers gives (R187, R195): V0 the selected view as it stands, every other register
its value; 0 while RESETN is held (R183). The rules do not say what a read gives without supply: that it is 0 is the model's choice (log
entry 16, DESIGN CHOICE). -/
def State.readRegister (address : Fin 16) (s : State) : Reg :=
  if s.running then
    match address.val with
    | 0 => s.port.command
    | 1 => s.port.result0
    | 2 => s.port.result1
    | 3 => s.port.result2
    | 4 => s.port.params[0]
    | 5 => s.port.params[1]
    | 6 => s.port.params[2]
    | 7 => s.port.params[3]
    | 8 => s.port.params[4]
    | 9 => s.port.ie
    | 10 => s.port.vsel
    | 11 => (s.view s.port.vsel)[0]
    | 12 => s.port.views[1]
    | 13 => s.port.views[2]
    | 14 => s.port.views[3]
    | _ => s.port.views[4]
  else 0

/-! ### The receive queue (R145, R146) -/

/-- The queue holds 16 frames, places held counted (R143, R145). -/
def Link.queueFull (l : Link) : Bool := decide (Config.receiveQueueFrames ≤ l.queue.length)

/-- A place is held for a broadcast. -/
def Link.placeHeld (l : Link) : Bool := l.queue.any fun x => !x.isFrame

/-- The frame at the head; a place held there is not yet a frame (log entry 8). -/
def Link.headFrame (l : Link) : Option Frame :=
  match l.queue with
  | .frame f :: _ => some f
  | .place _ :: _ | [] => none

/-- The head leaves the queue. -/
def State.dropHeadFrame (s : State) : State := { s with link := { s.link with queue := s.link.queue.tail } }

/-- A frame joins the tail. -/
def Link.enqueue (x : QueueItem) (l : Link) : Link := { l with queue := l.queue ++ [x] }

/-! ### The transmitter's attempt -/

/-- The attempt ends and changes no counter: every list's head is out of it. -/
def State.endAttempts (s : State) : State :=
  { s with
    link := { s.link with notices := s.link.notices.endAttempt, transmitter := .free }
    home := { s.home with answers := s.home.answers.endAttempt }
    client := { s.client with requests := s.client.requests.endAttempt } }

/-! ### RESET, power-on (R182, R183) -/

/-- The effects of the RESET command but for RESULT and the capture of the view (R182). -/
def State.resetStation (s : State) : State :=
  { s with
    client := s.client.clear
    home := s.home.restart
    link := Link.powerOn
    roster := rosterUnknown
    control := { s.control with mode := .config, events := Events.clear, leaveQueued := false }
    port := { s.port with window := ObjectWindow.absent } }

/-- Everything a power-on or RESETN reset sets (R183); the supply, RESETN and the queue of commands are not its. -/
def State.fullReset (sid : StationNum) (rate : RateCode) (s : State) : State :=
  { State.powerOn sid rate with
    pending := s.pending
    control := { Control.powerOn sid rate with powered := s.control.powered, resetAsserted := s.control.resetAsserted } }

/-! ### Eviction (R165) -/

/-- Eviction with its cause; in CONFIG and EVICTED no cause has an effect (R164, R169). -/
def State.evict (cause : EvictionCause) (s : State) : State :=
  if s.control.mode.onLink then
    { s with
      client := s.client.evict
      home := s.home.restart
      link := Link.powerOn
      roster := rosterUnknown
      control := { s.control with
        mode := .evicted, events := s.control.events.raiseEvicted cause, leaveQueued := false } }
  else s

/-! ### The LEAVE notice (R97, R179) -/

/-- The answer list is empty while LEAVING and this leave sequence's LEAVE has not been added. -/
def State.leaveIsDue (s : State) : Bool :=
  decide (s.control.mode = .leaving) && s.home.answers.items.isEmpty && !s.control.leaveQueued

/-- The LEAVE notice joins the tail of the notice list. -/
def State.addLeave (s : State) : State :=
  { s with
    link := { s.link with notices := s.link.notices.push .leave }
    control := { s.control with leaveQueued := true } }

/-- The home engine reports the answer list: when it is empty for the first time in LEAVING, the LEAVE is added (R97, R179). -/
def State.reportAnswers (s : State) : State := if s.leaveIsDue then s.addLeave else s

/-! ### Purge and departure (R151 to R158) -/

/-- The purge of station `n`: the client side, then the home side (R158). -/
def State.purge (n : StationNum) (s : State) : State := ({ s with client := s.client.purge n }).purgeHome n

/-- A LEAVE from `n` or a DEPART naming it is applied: purged and marked DEPARTED unless it already is (R152, R153). -/
def State.depart (n : StationNum) (s : State) : State :=
  if n = s.control.number ∨ s.rosterOf n = .departed then s
  else ((s.purge n).mark n .departed).reportAnswers

/-- A DEPART naming `n` joins the notice list, unless one stands there (R138, R156). -/
def State.queueDepart (n : StationNum) (s : State) : State :=
  if s.link.notices.items.contains (.depart n) then s
  else { s with link := { s.link with notices := s.link.notices.push (.depart n) } }

/-- Station `n` is declared departed: purged, marked, and a DEPART queued; nothing when it already is DEPARTED (R156). -/
def State.declareDeparted (n : StationNum) (s : State) : State :=
  if n = s.control.number ∨ s.rosterOf n = .departed then s
  else (((s.purge n).mark n .departed).queueDepart n).reportAnswers

/-- The DEPART naming `n` is at the head and in an attempt on the line. -/
def OutList.sendsDepart (n : StationNum) (l : OutList Notice) : Bool := l.onLine && decide (l.items.head? = some (.depart n))

/-- A DEPART naming `n` is withdrawn from the notice list, unless it is in an attempt on the line (R151). -/
def State.withdrawDepart (n : StationNum) (s : State) : State :=
  if s.link.notices.sendsDepart n then s
  else { s with link := { s.link with notices := s.link.notices.removeIf fun x => decide (x = .depart n) } }

/-- A JOIN from `n` is applied: purged whatever its entry, marked PRESENT, a DEPART naming it withdrawn (R151). -/
def State.rejoin (n : StationNum) (s : State) : State :=
  if n = s.control.number then s
  else (((s.purge n).mark n .present).withdrawDepart n).reportAnswers

/-! ### The ends of the join and leave sequences (R175, R176, R180) -/

/-- The station's own JOIN is delivered: it becomes ACTIVE and JOINED is raised (R175). -/
def State.joinDelivered (s : State) : State :=
  { s with
    link := { s.link with notices := s.link.notices.dropHead }
    control := { s.control with mode := .active, events := { s.control.events with joined := true } } }

/-- The station's own JOIN reaches its BUSY limit: back to CONFIG with JOIN_FAILED (R176). -/
def State.joinFailed (s : State) : State :=
  { s with
    home := { s.home with answers := s.home.answers.zeroCounters }
    client := { s.client with requests := s.client.requests.zeroCounters }
    link := Link.powerOn
    control := { s.control with mode := .config, events := { s.control.events with joinFailed := true } } }

/-- The leave sequence ends (R180). -/
def State.leaveEnded (s : State) : State :=
  { s with
    home := s.home.restart
    client := { s.client with requests := s.client.requests.zeroCounters }
    link := Link.powerOn
    roster := rosterUnknown
    control := { s.control with
      mode := .config, events := { s.control.events with left := true }, leaveQueued := false } }

end Sys2Proof.Machine
end

