-- ==== Sys2Proof/Machine/Client.lean ====
section
/-! DEFINITION. The meanings of SUBMIT, CANCEL, POP and ANSWER_DISPATCHED. -/

namespace Sys2Proof.Machine

/-! ### SUBMIT (R103 to R105) -/

/-- The request the parameter registers hold; none when its operation, units or priority fail check 2 of R103. -/
def Port.submitRequest (p : Port) : Option Request :=
  match Operation.ofCode p.submitOperation with
  | none => none
  | some op =>
    let r : Request :=
      { operation := op, objectId := p.submitObject, priority := p.submitPriority, waitLimit := p.submitWaitLimit
        units := p.submitUnits, word := p.submitWord, urgent := p.submitUrgent }
    match op with
    | .acquire | .release => if 1 ≤ r.units.toNat then some r else none
    | .post | .take | .query => some r
    | .withdraw => none

/-- The lowest-numbered FREE slot (R104). -/
def Client.freeSlot (c : Client) : Option SlotNum := allSlots.find? fun n => decide ((c.slot n).use = .free)

/-- The slot is taken: its tag advances by 1 modulo 256 and it holds the request (R104). -/
def Client.takeSlot (n : SlotNum) (u : SlotUse) (c : Client) : Client :=
  { c with slots := c.slots.set n ⟨(c.slot n).tag + 1, u⟩ }

/-- Once a slot is taken (R105): a departed home's request is DONE with HOME_ABSENT at once, any other is QUEUED. -/
def State.submitOn (n : SlotNum) (r : Request) (s : State) : State :=
  let c := s.client.takeSlot n (.queued r)
  if homeOf r.objectId ≠ s.control.number ∧ s.rosterOf (homeOf r.objectId) = .departed then
    { s with client := c.complete n r .homeAbsent 0 }
  else { s with client := { c with requests := c.requests.push ⟨n, .request⟩ } }

/-- RESULT1 of SUBMIT: the slot in bits 4-0, the tag in bits 15-8 (R195). -/
def submitWord (n : SlotNum) (tag : Tag) : Reg := tag ++ 0#3 ++ BitVec.ofFin (w := 5) n

/-- The answer to SUBMIT. -/
def State.submit (s : State) : State :=
  if s.control.mode ≠ .active then s.refuse 6 .notActive
  else
    match s.port.submitRequest with
    | none => s.refuse 6 .badRequest
    | some r =>
      match s.client.freeSlot with
      | none => s.refuse 6 .noSlot
      | some n => (s.submitOn n r).respond 6 .ok (submitWord n ((s.client.slot n).tag + 1)) 0

/-- SUBMIT. -/
def execSubmit (s : State) : Host.Outcome State Fault Refusal := s.localCommand s.submit

/-! ### CANCEL (R111) -/

/-- The slot's entry is the head of the request list and in an attempt (R111, R130, R144). -/
def Client.inAttempt (n : SlotNum) (c : Client) : Bool :=
  c.requests.onLine && c.requests.items.head?.any fun e => decide (e.slot = n)

/-- The request may wait at its home: an ACQUIRE or TAKE with a wait limit other than 0 (R111). -/
def Request.waits (r : Request) : Bool :=
  (decide (r.operation = .acquire) || decide (r.operation = .take)) && decide (r.waitLimit ≠ 0)

/-- The table of R111: the result, and the client engine after it. -/
def Client.cancel (n : SlotNum) (c : Client) : LocalResult × Client :=
  match (c.slot n).use with
  | .free => (.slotIdle, c)
  | .queued r => if c.inAttempt n then (.tooLate, c) else (.ok, c.complete n r .cancelled 0)
  | .sent r =>
    if r.waits then
      let c1 := c.setUse n (.cancelling r)
      (.ok, { c1 with requests := c1.requests.push ⟨n, .withdraw⟩ })
    else (.notCancellable, c)
  | .cancelling _ | .returning _ _ | .done _ _ _ => (.tooLate, c)

/-- The answer to CANCEL. -/
def State.cancel (s : State) : State :=
  let r := s.client.cancel s.port.cancelSlot
  ({ s with client := r.2 }).respond 7 r.1 0 0

/-- CANCEL. -/
def execCancel (s : State) : Host.Outcome State Fault Refusal := s.localCommand s.cancel

/-! ### POP (R121) -/

/-- The answer to POP: the head record leaves the ring and its slot is FREE with its tag kept; an empty ring refuses. -/
def State.pop (s : State) : State :=
  match s.client.ring with
  | [] => s.refuse 8 .ringEmpty
  | r :: rest => ({ s with client := { s.client.setUse r.slot .free with ring := rest } }).respond 8 .ok 0 0

/-- POP. -/
def execPop (s : State) : Host.Outcome State Fault Refusal := s.localCommand s.pop

/-! ### ANSWER_DISPATCHED (R114, R146) -/

/-- The answer an ANSWER frame carries; a status code of 13, 14 or 15 names none (R194). -/
def Frame.answer? (f : Frame) (own : StationNum) : Option ImmediateEntry :=
  match f.kind, AnswerStatus.ofCode f.status with
  | .answer op, some status => some ⟨own, f.slot, f.tag, op, f.index, status, f.word⟩
  | _, _ => none

/-- The frame is an answer. -/
def Frame.isAnswer (f : Frame) : Bool :=
  match f.kind with
  | .answer _ => true
  | .notice _ | .request _ => false

/-- The client engine takes the answer frame `f`, or discards it. -/
def State.takeAnswer (f : Frame) (s : State) : State :=
  match f.answer? s.control.number with
  | some a => { s with client := s.client.receive f.sender a }
  | none => s

/-- ANSWER_DISPATCHED. -/
def execAnswerDispatched (s : State) : Host.Outcome State Fault Refusal :=
  match s.link.headFrame with
  | some f => whenever (s.onLink && f.isAnswer) (s.dropHeadFrame.takeAnswer f) s
  | none => .next s

end Sys2Proof.Machine
end

