-- ==== Sys2Proof/Machine/Control.lean ====
section
/-! DEFINITION. The meanings of the station commands JOIN, LEAVE, RESET and READ_EVENTS, of the resets and the supply, and of
the queueing of the LEAVE notice. -/

namespace Sys2Proof.Machine

/-! ### JOIN (R173) -/

/-- The JOIN command's effects: initial values, roster UNKNOWN, the JOIN notice queued, JOINING. -/
def State.startJoin (s : State) : State :=
  { s with
    home := s.home.initRuntime
    roster := rosterUnknown
    link := { s.link with notices := s.link.notices.push .join }
    control := { s.control with mode := .joining } }

/-- The answer to JOIN. -/
def State.join (s : State) : State :=
  if s.control.mode = .config then s.startJoin.respond 3 .ok 0 0 else s.refuse 3 .notConfig

/-- JOIN_COMMAND. -/
def execJoinCommand (s : State) : Host.Outcome State Fault Refusal := s.localCommand s.join

/-! ### LEAVE (R178) -/

/-- The start of a leave sequence: LEAVING, the flush, the semaphores settled, and the LEAVE added when the answer list is
empty (R178, R27, R58, R179). -/
def State.startLeave (s : State) : State :=
  let s1 := { s with control := { s.control with mode := .leaving, leaveQueued := false } }
  let s2 := s1.flush
  ({ s2 with home := s2.home.settle }).reportAnswers

/-- The answer to LEAVE. -/
def State.leave (s : State) : State :=
  if s.control.mode ≠ .active then s.refuse 4 .notActive
  else if s.client.anyBusy then s.refuse 4 .slotsBusy
  else s.startLeave.respond 4 .ok 0 0

/-- LEAVE_COMMAND. -/
def execLeaveCommand (s : State) : Host.Outcome State Fault Refusal := s.localCommand s.leave

/-! ### RESET (R182) -/

/-- The answer to RESET: RESULT gives OK with code 5, and a fresh capture of the selected view is taken (R195, R197). -/
def State.resetCommand (s : State) : State := (s.resetStation.respond 5 .ok 0 0).capture

/-- RESET_COMMAND. -/
def execResetCommand (s : State) : Host.Outcome State Fault Refusal := s.localCommand s.resetCommand

/-! ### READ_EVENTS (R185) -/

/-- The answer to READ_EVENTS: the capture in RESULT1, then every flag and the cause cleared. -/
def State.readEvents (s : State) : State :=
  ({ s with control := { s.control with events := Events.clear } }).respond 10 .ok
    (eventsWord s.control.events s.control.mode) 0

/-- READ_EVENTS. -/
def execReadEvents (s : State) : Host.Outcome State Fault Refusal := s.localCommand s.readEvents

/-! ### Resets and supply (R183, R148) -/

/-- POWER_ON_RESET: the supply is present and every part of the station is set (R183); RESETN keeps its level (log entry 17). -/
def execPowerOnReset (sid : StationNum) (rate : RateCode) (s : State) : Host.Outcome State Fault Refusal :=
  let t := s.fullReset sid rate
  .next { t with control := { t.control with powered := true } }

/-- RESETN_RESET: RESETN is asserted, with the full effects of power-on reset (R183); that it has them without supply too is the model's
choice (log entry 33). -/
def execResetnReset (sid : StationNum) (rate : RateCode) (s : State) : Host.Outcome State Fault Refusal :=
  let t := s.fullReset sid rate
  .next { t with control := { t.control with resetAsserted := true } }

/-- RESETN_RELEASE: the straps are sampled, station time starts from 0, the station is in CONFIG (R183); that they are sampled without supply
too is the model's choice (log entry 33). -/
def execResetnRelease (sid : StationNum) (rate : RateCode) (s : State) : Host.Outcome State Fault Refusal :=
  whenever s.control.resetAsserted
    { s with control := { s.control with resetAsserted := false, number := sid, rate, time := 0, mode := .config } } s

/-- POWER_LOSS: the station stops driving the line and is without supply (R148, log entry 16). -/
def execPowerLoss (s : State) : Host.Outcome State Fault Refusal :=
  let t := s.endAttempts
  .next { t with
    link := { t.link with driven := none }
    control := { t.control with powered := false } }

/-! ### LEAVE_NOTICE_QUEUED (R179) -/

/-- LEAVE_NOTICE_QUEUED: the first time the answer list is empty while LEAVING, the LEAVE joins the notice list (log entry 7). -/
def execLeaveNoticeQueued (s : State) : Host.Outcome State Fault Refusal := whenever (s.running && s.leaveIsDue) s.addLeave s

end Sys2Proof.Machine
end

