-- ==== Sys2Proof/Machine/HomeEngine.lean ====
section
/-! DEFINITION. The meanings of REQUEST_TAKEN, REQUEST_DISCARDED, STATION_TIME_ADVANCE and EXPIRY. -/

namespace Sys2Proof.Machine

/-- The operation of a request frame. -/
def Frame.requestOperation (f : Frame) : Option Operation :=
  match f.kind with
  | .request op => some op
  | .notice _ | .answer _ => none

/-- The sender is another station that the roster holds DEPARTED; the station's own entry is not used (R40). -/
def State.senderDeparted (s : State) (f : Frame) : Bool :=
  decide (f.sender ≠ s.control.number) && decide (s.rosterOf f.sender = .departed)

/-- A request leaves the head and is applied: decided in ACTIVE, answered HOME_ABSENT in LEAVING (R85, R96). -/
def State.takeRequest (f : Frame) (op : Operation) (s : State) : State :=
  let s1 := s.dropHeadFrame
  if s.control.mode = .leaving then s1.answer f op .homeAbsent 0 else s1.applyRequest f op

/-- REQUEST_TAKEN: the request at the head is taken when its sender is not DEPARTED and an immediate answer entry is FREE;
otherwise it stays at the head (R84). -/
def execRequestTaken (s : State) : Host.Outcome State Fault Refusal :=
  match s.link.headFrame with
  | some f =>
    match f.requestOperation with
    | some op =>
      whenever (s.takesRequests && !s.senderDeparted f && decide (0 < s.home.freeImmediate)) (s.takeRequest f op) s
    | none => .next s
  | none => .next s

/-- REQUEST_DISCARDED: a request at the head whose sender is DEPARTED is discarded, whether or not an entry is FREE (R40). -/
def execRequestDiscarded (s : State) : Host.Outcome State Fault Refusal :=
  match s.link.headFrame with
  | some f => whenever (s.takesRequests && f.requestOperation.isSome && s.senderDeparted f) s.dropHeadFrame s
  | none => .next s

/-- The advance of station time by one millisecond (R32, R34). -/
def State.advanceTime (s : State) : State :=
  { s with
    home := s.home.advance (s.control.time + 1)
    control := { s.control with time := s.control.time + 1 } }

/-- STATION_TIME_ADVANCE: in every station state; not while RESETN is held (R32, R183). -/
def execStationTimeAdvance (s : State) : Host.Outcome State Fault Refusal := whenever s.running s.advanceTime s

/-- EXPIRY: a due expiry is taken; a record that has left WAITING drops it (R34). -/
def execExpiry (index : ObjIndex) (requester : StationNum) (slot : SlotNum) (s : State) :
    Host.Outcome State Fault Refusal := whenever s.running (s.expire index requester slot) s

end Sys2Proof.Machine
end

