-- ==== Sys2Proof/Machine/LinkEvents.lean ====
section
/-! DEFINITION. The meanings of the link interface's events: the transmitter's attempts and their outcomes, and what the
receiver decides (chapter 7). -/

namespace Sys2Proof.Machine

/-! ### Choosing and beginning a frame (R130, R133, R144) -/

/-- The frame of a request list entry (R106). -/
def State.entryFrame (e : RequestEntry) (s : State) : Option Frame :=
  let t := s.client.slot e.slot
  match t.use.busy? with
  | none => none
  | some r =>
    match e.sort with
    | .request => some (r.toFrame s.control.number e.slot t.tag)
    | .withdraw => some (r.withdrawFrame s.control.number e.slot t.tag)
    | .giveBack => some (r.returnFrame s.control.number e.slot t.tag (homeBusyValue t.use))

/-- The transmitter's choice: the head of the notice list, otherwise of the answer list, otherwise of the request list (R133). -/
def State.chosen (s : State) : Option Frame :=
  match s.link.notices.items, s.home.answers.items, s.client.requests.items with
  | n :: _, _, _ => some (n.toFrame s.control.number)
  | [], a :: _, _ => some (a.toFrame s.control.number)
  | [], [], e :: _ => s.entryFrame e
  | [], [], [] => none

/-- The head of the list that frame `f` comes from is in an attempt. -/
def State.beginOn (f : Frame) (s : State) : State :=
  match f.kind with
  | .notice _ => { s with link := { s.link with notices := s.link.notices.beginAttempt } }
  | .answer _ => { s with home := { s.home with answers := s.home.answers.beginAttempt } }
  | .request _ => { s with client := { s.client with requests := s.client.requests.beginAttempt } }

/-- The frame is a request to the station itself, which goes by the path to itself (R144). -/
def State.toItself (s : State) (f : Frame) : Bool := decide (f.dest = .station s.control.number)

/-- The chosen frame's attempt begins: by the path to the station itself, or on the line, which is free only when no broadcast's
acknowledgement field is on it. -/
def State.beginFrame (f : Frame) (s : State) : State :=
  let s1 := s.beginOn f
  if s.toItself f then { s1 with link := { s1.link with transmitter := .ownPath f } }
  else if s.link.placeHeld then s
  else { s1 with link := { s1.link with transmitter := .line f, driven := none } }

/-- FRAME_BEGIN. -/
def execFrameBegin (s : State) : Host.Outcome State Fault Refusal :=
  match s.chosen with
  | some f => whenever (s.onLink && decide (s.link.transmitter = .free)) (s.beginFrame f) s
  | none => .next s

/-! ### The attempt in progress -/

/-- The frame the station sends on the line. -/
def Transmitter.lineFrame : Transmitter → Option Frame
  | .line f => some f
  | .free | .ownPath _ => none

/-- The frame's item still heads its list: the attempt's outcome refers to it (R94, R110, R136). -/
def State.itemStands (f : Frame) (s : State) : Bool :=
  match f.kind with
  | .notice _ => s.link.notices.onLine && !s.link.notices.items.isEmpty
  | .answer _ => s.home.answers.onLine && !s.home.answers.items.isEmpty
  | .request _ => s.client.requests.onLine && !s.client.requests.items.isEmpty

/-- LOSS_OF_ARBITRATION: an outranked sender stops driving; its frame keeps its place and its counters (R131). -/
def execLossOfArbitration (line : BitVec 7) (s : State) : Host.Outcome State Fault Refusal :=
  match s.link.transmitter.lineFrame with
  | some f => whenever (s.onLink && outranks line f.leading) s.endAttempts s
  | none => .next s

/-- BODY_DIFFERENCE: the sender stops driving and is evicted with cause DUPLICATE (R132). -/
def execBodyDifference (s : State) : Host.Outcome State Fault Refusal :=
  match s.link.transmitter.lineFrame with
  | some _ => whenever s.onLink (s.evict .duplicate) s
  | none => .next s

/-! ### Outcomes of a unicast (R134 to R136) -/

/-- The outcome of a unicast attempt. -/
inductive AttemptOutcome
  | accept | busy | stale | silence
  deriving DecidableEq, Repr

/-- The outcome is the last of the three marks seen driven, silence when none is (R192). -/
def outcomeOf (accept busy stale : Bool) : AttemptOutcome :=
  if stale then .stale else if busy then .busy else if accept then .accept else .silence

/-- An ACCEPT for the head of the answer list or of the request list (R90, R107). -/
def State.accepted (f : Frame) (s : State) : State :=
  match f.kind with
  | .answer _ => ({ s with home := { s.home with answers := s.home.answers.dropHead } }).reportAnswers
  | .request _ => { s with client := s.client.acceptHead }
  | .notice _ => s

/-- The head answer reaches the BUSY limit: every item to the same requester moves to the tail (R91). -/
def Home.deferHead (h : Home) : Home :=
  match h.answers.items.head? with
  | some x => { h with answers := h.answers.moveToTail fun y => decide (y.dest = x.dest) }
  | none => h

/-- A BUSY for the head of the answer list or of the request list: counted, or the limit (R134, R91, R108). -/
def State.busied (f : Frame) (s : State) : State :=
  match f.kind with
  | .answer _ =>
    if s.home.answers.busyReachesLimit then { s with home := s.home.deferHead }
    else { s with home := { s.home with answers := s.home.answers.countBusy } }
  | .request _ =>
    if s.client.requests.busyReachesLimit then { s with client := s.client.busyLimitHead }
    else { s with client := { s.client with requests := s.client.requests.countBusy } }
  | .notice _ => s

/-- The station a unicast is addressed to. -/
def Destination.station? : Destination → Option StationNum
  | .station n => some n
  | .all => none

/-- The silence limit on a frame: its counters are cleared and its destination is declared departed (R92, R109, R156). -/
def State.silenceLimit (f : Frame) (s : State) : State :=
  let s1 : State :=
    match f.kind with
    | .answer _ => { s with home := { s.home with answers := s.home.answers.zeroCounters } }
    | .request _ => { s with client := { s.client with requests := s.client.requests.zeroCounters } }
    | .notice _ => s
  match f.dest.station? with
  | some n => s1.declareDeparted n
  | none => s1

/-- Silence for the head of the answer list or of the request list: counted, or the limit (R134). -/
def State.silenced (f : Frame) (s : State) : State :=
  match f.kind with
  | .answer _ =>
    if s.home.answers.silenceReachesLimit then s.silenceLimit f
    else { s with home := { s.home with answers := s.home.answers.countSilence } }
  | .request _ =>
    if s.client.requests.silenceReachesLimit then s.silenceLimit f
    else { s with client := { s.client with requests := s.client.requests.countSilence } }
  | .notice _ => s

/-- The outcome of the unicast `f`: STALE evicts whatever has become of the item; any other outcome refers to the item only
while it stands (R136, R162). -/
def State.unicastOutcome (f : Frame) (o : AttemptOutcome) (s : State) : State :=
  let s1 := s.endAttempts
  match o with
  | .stale => s1.evict .stale
  | .accept => if s.itemStands f then s1.accepted f else s1
  | .busy => if s.itemStands f then s1.busied f else s1
  | .silence => if s.itemStands f then s1.silenced f else s1

/-- The frame is a notice. -/
def Frame.isNotice (f : Frame) : Bool :=
  match f.kind with
  | .notice _ => true
  | .answer _ | .request _ => false

/-- UNICAST_ATTEMPT_OUTCOME. -/
def execUnicastAttemptOutcome (accept busy stale : Bool) (s : State) : Host.Outcome State Fault Refusal :=
  match s.link.transmitter.lineFrame with
  | some f => whenever (s.onLink && !f.isNotice) (s.unicastOutcome f (outcomeOf accept busy stale)) s
  | none => .next s

/-! ### Outcomes of a broadcast (R137, R138) -/

/-- The head notice is delivered, or treated as delivered (R138). -/
def State.noticeDelivered (s : State) : State :=
  match s.link.notices.items.head? with
  | some .join => s.joinDelivered
  | some .leave => s.leaveEnded
  | some (.depart _) => { s with link := { s.link with notices := s.link.notices.dropHead } }
  | none => s

/-- The head notice reaches the BUSY limit (R138). -/
def State.noticeLimit (s : State) : State :=
  match s.link.notices.items.head? with
  | some .join => s.joinFailed
  | some .leave => s.leaveEnded
  | some (.depart _) => { s with link := { s.link with notices := s.link.notices.dropHead } }
  | none => s

/-- The outcome of the station's own broadcast: delivered when no BUSY was driven, otherwise counted, or the limit. -/
def State.broadcastOutcome (f : Frame) (busy : Bool) (s : State) : State :=
  let s1 := s.endAttempts
  if s.itemStands f then
    if busy then
      if s.link.notices.busyReachesLimit then s1.noticeLimit
      else { s1 with link := { s1.link with notices := s1.link.notices.countBusy } }
    else s1.noticeDelivered
  else s1

/-- BROADCAST_ATTEMPT_OUTCOME. -/
def execBroadcastAttemptOutcome (busy : Bool) (s : State) : Host.Outcome State Fault Refusal :=
  match s.link.transmitter.lineFrame with
  | some f => whenever (s.onLink && f.isNotice) (s.broadcastOutcome f busy) s
  | none => .next s

/-! ### The path to the station itself (R144) -/

/-- The attempt by the path ends: the request joins the receive queue and is accepted, or meets a full queue. -/
def State.ownPathEnd (f : Frame) (s : State) : State :=
  let s1 := s.endAttempts
  if s.link.queueFull then if s.itemStands f then s1.busied f else s1
  else
    let s2 := { s1 with link := s1.link.enqueue (.frame f) }
    if s.itemStands f then s2.accepted f else s2

/-- OWN_PATH_ATTEMPT_END. -/
def execOwnPathAttemptEnd (s : State) : Host.Outcome State Fault Refusal :=
  match s.link.transmitter with
  | .ownPath f => whenever s.onLink (s.ownPathEnd f) s
  | .free | .line _ => .next s

/-! ### The limits as events of their own (R134, R156; log entry 6) -/

/-- The attempt on the frame `f` is one silence away from the silence limit. -/
def State.silenceLimitNear (f : Frame) (s : State) : Bool :=
  s.itemStands f &&
    match f.kind with
    | .answer _ => s.home.answers.silenceReachesLimit
    | .request _ => s.client.requests.silenceReachesLimit
    | .notice _ => false

/-- SILENCE_LIMIT: the eighth consecutive silent attempt ends. -/
def execSilenceLimit (s : State) : Host.Outcome State Fault Refusal :=
  match s.link.transmitter.lineFrame with
  | some f => whenever (s.onLink && s.silenceLimitNear f) (s.unicastOutcome f .silence) s
  | none => .next s

/-- The attempt on the frame `f` is one BUSY away from the BUSY limit. -/
def State.busyLimitNear (f : Frame) (s : State) : Bool :=
  s.itemStands f &&
    match f.kind with
    | .answer _ => s.home.answers.busyReachesLimit
    | .request _ => s.client.requests.busyReachesLimit
    | .notice _ => s.link.notices.busyReachesLimit

/-- BUSY_LIMIT: the 64th attempt that meets BUSY ends, on the line or, with a full queue, by the path to the station itself. -/
def execBusyLimit (s : State) : Host.Outcome State Fault Refusal :=
  match s.link.transmitter with
  | .line f =>
    whenever (s.onLink && s.busyLimitNear f)
      (if f.isNotice then s.broadcastOutcome f true else s.unicastOutcome f .busy) s
  | .ownPath f => whenever (s.onLink && s.busyLimitNear f && s.link.queueFull) (s.ownPathEnd f) s
  | .free => .next s

/-! ### The receiver (R139 to R143) -/

/-- The report of a heard frame: an UNKNOWN sender becomes PRESENT, unless the frame is a LEAVE (R141, R150). -/
def State.report (f : Frame) (s : State) : State :=
  if f.kind ≠ .notice .leave ∧ s.rosterOf f.sender = .unknown then s.mark f.sender .present else s

/-- The mark the receiver drives, none when it drives nothing (R192). -/
def State.drive (m : Option AckMark) (s : State) : State := { s with link := { s.link with driven := m } }

/-- A unicast addressed to the station: nothing in JOINING, otherwise STALE, BUSY or ACCEPT (R142). -/
def State.decideUnicast (f : Frame) (s : State) : State :=
  if s.control.mode = .joining then s.drive none
  else if f.sender ≠ s.control.number ∧ s.rosterOf f.sender = .departed then s.drive (some .stale)
  else if s.link.queueFull then s.drive (some .busy)
  else ({ s with link := s.link.enqueue (.frame f) }).drive (some .accept)

/-- A broadcast: BUSY when the queue is full, otherwise a place is held and nothing is driven (R143). -/
def State.decideBroadcast (f : Frame) (s : State) : State :=
  if s.link.queueFull then s.drive (some .busy) else ({ s with link := s.link.enqueue (.place f) }).drive none

/-- A well-formed frame that is not the station's own number's: reported, then decided by its destination (R141 to R143). -/
def State.decideFrame (f : Frame) (s : State) : State :=
  let s1 := s.report f
  match f.dest with
  | .all => s1.decideBroadcast f
  | .station n => if n = s.control.number then s1.decideUnicast f else s1.drive none

/-- The end of a heard frame's check sequence (R129, R139, R140, R188). -/
def State.hear (bits : BitVec 120) (whole : Bool) (s : State) : State :=
  match if whole then Frame.parse bits else none with
  | none => s.drive none
  | some f => if f.sender = s.control.number then (s.drive none).evict .duplicate else s.decideFrame f

/-- The receiver has the line: the station does not send on it, and no broadcast's acknowledgement field is on it (R131, R139). -/
def State.receiving (s : State) : Bool :=
  s.onLink && s.link.transmitter.lineFrame.isNone && !s.link.placeHeld

/-- FRAME_HEARD. -/
def execFrameHeard (bits : BitVec 120) (whole : Bool) (s : State) : Host.Outcome State Fault Refusal :=
  whenever s.receiving (s.hear bits whole) s

/-- FRAME_CUT_SHORT: a frame that ends before its check sequence or fails its check is not heard; nothing is driven (R129, R148). -/
def execFrameCutShort (s : State) : Host.Outcome State Fault Refusal := whenever s.receiving (s.drive none) s

/-- The place held is filled by its notice, or released (R137). -/
def settlePlace (busy : Bool) : List QueueItem → List QueueItem
  | [] => []
  | .frame f :: rest => .frame f :: settlePlace busy rest
  | .place f :: rest => if busy then settlePlace busy rest else .frame f :: settlePlace busy rest

/-- BROADCAST_PLACE_SETTLED: the end of a broadcast's acknowledgement field (R137). -/
def execBroadcastPlaceSettled (busy : Bool) (s : State) : Host.Outcome State Fault Refusal :=
  whenever (s.onLink && s.link.placeHeld)
    { s with link := { s.link with queue := settlePlace busy s.link.queue, driven := none } } s

end Sys2Proof.Machine
end

