-- ==== Sys2Proof/Machine/Objects.lean ====
section
/-! DEFINITION. The meanings of DEFINE, CLEAR_DEFINITIONS and READ_OBJECT. -/

namespace Sys2Proof.Machine

/-! ### DEFINE (R7, R8) -/

/-- The definition a block of kind code and parameters names, with its ring base for a MAILBOX; none when a parameter is out of
range for the kind (check 4 of R7). -/
def definitionOf (kind : BitVec 3) (first second base : Nat) : Option Definition :=
  match kind.toNat with
  | 1 => if 1 ≤ first then some (.tracked first) else none
  | 2 => if 1 ≤ first ∧ second ≤ first then some (.signal first second) else none
  | 3 => if first ≤ Config.maxExponent then some (.mailbox first base) else none
  | _ => none

/-- The kind field names TRACKED, SIGNAL or MAILBOX (check 2 of R7). -/
def kindNamed (kind : BitVec 3) : Bool := decide (1 ≤ kind.toNat ∧ kind.toNat ≤ 3)

/-- Pool words a definition takes (R3). -/
def Definition.words : Definition → Nat
  | .mailbox k _ => 2 ^ k
  | .tracked _ | .signal _ _ => 0

/-- The ring base a definition reports: 0 for TRACKED and SIGNAL (R8). -/
def Definition.reportedBase : Definition → Nat
  | .mailbox _ base => base
  | .tracked _ | .signal _ _ => 0

/-- The checks of DEFINE in their order (R7): the refusal, or the index and definition accepted. -/
def State.checkDefine (s : State) : LocalResult × Option (ObjIndex × Definition) :=
  let p := s.port
  if s.control.mode ≠ .config then (.notConfig, none)
  else
    match tableIndex p.defineIndex with
    | none => (.badDefinition, none)
    | some i =>
      if kindNamed p.defineKind then
        if (s.home.entry i).isSome then (.indexInUse, none)
        else
          match definitionOf p.defineKind p.defineFirst p.defineSecond s.home.poolUsed with
          | none => (.badDefinition, none)
          | some d =>
            if d.words ≤ Config.poolWords - s.home.poolUsed then (.ok, some (i, d)) else (.poolExhausted, none)
      else (.badDefinition, none)

/-- An accepted definition: the entry at its initial values, and for a MAILBOX the ring carved and set to 0 (R5, R8). -/
def Home.define (i : ObjIndex) (d : Definition) (h : Home) : Home :=
  { h.setEntry i (ObjectEntry.initial d) with
    poolUsed := h.poolUsed + d.words
    pool := clearRing h.pool (some (ObjectEntry.initial d)) }

/-- The answer to DEFINE. -/
def State.define (s : State) : State :=
  match s.checkDefine with
  | (_, some (i, d)) =>
    let h := s.home.define i d
    ({ s with home := h }).respond 1 .ok (regOf (Config.poolWords - h.poolUsed)) (regOf d.reportedBase)
  | (refusal, none) => s.refuse 1 refusal

/-- DEFINE. -/
def execDefine (s : State) : Host.Outcome State Fault Refusal := s.localCommand s.define

/-! ### CLEAR_DEFINITIONS (R9) -/

/-- Every entry absent, the count of words in use 0, every pool word 0 (R9). -/
def Home.clearDefinitions (h : Home) : Home := { h with objects := Vector.replicate 64 none, poolUsed := 0, pool := [] }

/-- The answer to CLEAR_DEFINITIONS. -/
def State.clearDefinitions (s : State) : State :=
  if s.control.mode = .config then
    ({ s with home := s.home.clearDefinitions }).respond 2 .ok (regOf Config.poolWords) 0
  else s.refuse 2 .notConfig

/-- CLEAR_DEFINITIONS. -/
def execClearDefinitions (s : State) : Host.Outcome State Fault Refusal := s.localCommand s.clearDefinitions

/-! ### READ_OBJECT (R13) -/

/-- The fields of the object window for an entry (R13). -/
def windowOf (i : ObjIndex) (holds : List HoldRecord) : Option ObjectEntry → ObjectWindow
  | none => { ObjectWindow.absent with index := BitVec.ofFin (w := 6) i }
  | some e =>
    let base : ObjectWindow :=
      { index := BitVec.ofFin (w := 6) i, kind := e.definition.kindCode, head := 0, first := 0, second := 0
        level := regOf e.level, waiters := BitVec.ofNat 8 e.waiters.length, holds := 0 }
    match e.definition with
    | .tracked c =>
      { base with first := regOf c, holds := BitVec.ofNat 8 (holds.countP fun r => decide (r.index = i)) }
    | .signal m initial => { base with first := regOf m, second := regOf initial }
    | .mailbox k ring => { base with first := regOf k, second := regOf ring, head := BitVec.ofNat 8 e.head }

/-- The answer to READ_OBJECT. -/
def State.readObject (s : State) : State :=
  match tableIndex s.port.readIndex with
  | none => s.refuse 9 .badRequest
  | some i =>
    ({ s with port := { s.port with window := windowOf i s.home.holds (s.home.entry i) } }).respond 9 .ok 0 0

/-- READ_OBJECT. -/
def execReadObject (s : State) : Host.Outcome State Fault Refusal := s.localCommand s.readObject

end Sys2Proof.Machine
end

