-- ==== Sys2Proof/Machine/Port.lean ====
section
/-! DEFINITION. The meanings of the register accesses and of an undefined command code. -/

namespace Sys2Proof.Machine

/-- UNDEFINED_COMMAND_CODE: a code that names no command is refused BAD_REQUEST and changes nothing (R172, R194). -/
def execUndefinedCommandCode (code : Reg) (s : State) : Host.Outcome State Fault Refusal :=
  whenever (s.running && !namesCommand code) (s.refuse code .badRequest) s

/-- INTERRUPT_ENABLE_WRITE: both enables are set as written (R186). -/
def execInterruptEnableWrite (value : Reg) (s : State) : Host.Outcome State Fault Refusal :=
  whenever s.running { s with port := { s.port with ie := value } } s

/-- VSEL_WRITE: the view is selected and all five of its registers are captured (R197). -/
def execVselWrite (value : Reg) (s : State) : Host.Outcome State Fault Refusal :=
  whenever s.running ({ s with port := { s.port with vsel := value } }).capture s

/-- A read of V0: the selected view is captured, and its first register is the word read (R197). -/
def State.readV0 (s : State) : State :=
  { s.capture with port := { s.capture.port with dataOut := (s.view s.port.vsel)[0] } }

/-- V0_READ. While RESETN is held the read returns 0 and captures nothing (R183); without supply nothing is read (log entry 16). -/
def execV0Read (s : State) : Host.Outcome State Fault Refusal :=
  if s.running then .next s.readV0
  else whenever s.control.powered { s with port := { s.port with dataOut := 0 } } s

/-- PARAMETER_REGISTER_WRITE: the register stores the value written (R187). -/
def execParameterRegisterWrite (register : Fin 5) (value : Reg) (s : State) : Host.Outcome State Fault Refusal :=
  whenever s.running { s with port := { s.port with params := s.port.params.set register value } } s

end Sys2Proof.Machine
end

