-- ==== Sys2Proof/Machine/RosterEvents.lean ====
section
/-! DEFINITION. The meanings of the notices dispatched from the head of the receive queue (R146, R151 to R155). -/

namespace Sys2Proof.Machine

/-- The notice a frame is. -/
def Frame.notice? (f : Frame) : Option NoticeKind :=
  match f.kind with
  | .notice k => some k
  | .answer _ | .request _ => none

/-- A notice of `kind` at the head of a station on the link leaves the queue and `effect` is applied. -/
def State.dispatchNotice (kind : NoticeKind) (effect : Frame → State → State) (s : State) :
    Host.Outcome State Fault Refusal :=
  match s.link.headFrame with
  | some f => whenever (s.onLink && decide (f.notice? = some kind)) (effect f s.dropHeadFrame) s
  | none => .next s

/-- A DEPART is applied: naming the station itself it evicts it, otherwise the named station departs (R153, R154). -/
def State.takeDepart (f : Frame) (s : State) : State :=
  if f.subject = s.control.number then s.evict .departNotice else s.depart f.subject

/-- JOIN_DISPATCHED (R151). -/
def execJoinDispatched (s : State) : Host.Outcome State Fault Refusal :=
  s.dispatchNotice .join fun f t => t.rejoin f.sender

/-- LEAVE_DISPATCHED (R152). -/
def execLeaveDispatched (s : State) : Host.Outcome State Fault Refusal :=
  s.dispatchNotice .leave fun f t => t.depart f.sender

/-- DEPART_DISPATCHED (R153, R154). -/
def execDepartDispatched (s : State) : Host.Outcome State Fault Refusal := s.dispatchNotice .depart State.takeDepart

end Sys2Proof.Machine
end

