-- ==== Sys2Proof/Machine/Dispatch.lean ====
section
/-! DEFINITION. One arm per command: the meaning of each row of spec/opcode_table.json. -/

namespace Sys2Proof.Machine

def exec (i : Instr) (s : State) : Host.Outcome State Fault Refusal :=
  match i with
  | .define => Sys2Proof.Machine.execDefine s
  | .clearDefinitions => Sys2Proof.Machine.execClearDefinitions s
  | .joinCommand => Sys2Proof.Machine.execJoinCommand s
  | .leaveCommand => Sys2Proof.Machine.execLeaveCommand s
  | .resetCommand => Sys2Proof.Machine.execResetCommand s
  | .submit => Sys2Proof.Machine.execSubmit s
  | .cancel => Sys2Proof.Machine.execCancel s
  | .pop => Sys2Proof.Machine.execPop s
  | .readObject => Sys2Proof.Machine.execReadObject s
  | .readEvents => Sys2Proof.Machine.execReadEvents s
  | .undefinedCommandCode code => Sys2Proof.Machine.execUndefinedCommandCode code s
  | .interruptEnableWrite value => Sys2Proof.Machine.execInterruptEnableWrite value s
  | .vselWrite value => Sys2Proof.Machine.execVselWrite value s
  | .v0Read => Sys2Proof.Machine.execV0Read s
  | .parameterRegisterWrite register value => Sys2Proof.Machine.execParameterRegisterWrite register value s
  | .powerOnReset sid rate => Sys2Proof.Machine.execPowerOnReset sid rate s
  | .resetnReset sid rate => Sys2Proof.Machine.execResetnReset sid rate s
  | .resetnRelease sid rate => Sys2Proof.Machine.execResetnRelease sid rate s
  | .stationTimeAdvance => Sys2Proof.Machine.execStationTimeAdvance s
  | .expiry index requester slot => Sys2Proof.Machine.execExpiry index requester slot s
  | .frameBegin => Sys2Proof.Machine.execFrameBegin s
  | .lossOfArbitration line => Sys2Proof.Machine.execLossOfArbitration line s
  | .bodyDifference => Sys2Proof.Machine.execBodyDifference s
  | .frameHeard bits whole => Sys2Proof.Machine.execFrameHeard bits whole s
  | .broadcastPlaceSettled busy => Sys2Proof.Machine.execBroadcastPlaceSettled busy s
  | .unicastAttemptOutcome accept busy stale => Sys2Proof.Machine.execUnicastAttemptOutcome accept busy stale s
  | .broadcastAttemptOutcome busy => Sys2Proof.Machine.execBroadcastAttemptOutcome busy s
  | .silenceLimit => Sys2Proof.Machine.execSilenceLimit s
  | .busyLimit => Sys2Proof.Machine.execBusyLimit s
  | .ownPathAttemptEnd => Sys2Proof.Machine.execOwnPathAttemptEnd s
  | .requestTaken => Sys2Proof.Machine.execRequestTaken s
  | .requestDiscarded => Sys2Proof.Machine.execRequestDiscarded s
  | .joinDispatched => Sys2Proof.Machine.execJoinDispatched s
  | .leaveDispatched => Sys2Proof.Machine.execLeaveDispatched s
  | .departDispatched => Sys2Proof.Machine.execDepartDispatched s
  | .answerDispatched => Sys2Proof.Machine.execAnswerDispatched s
  | .leaveNoticeQueued => Sys2Proof.Machine.execLeaveNoticeQueued s
  | .frameCutShort => Sys2Proof.Machine.execFrameCutShort s
  | .powerLoss => Sys2Proof.Machine.execPowerLoss s

end Sys2Proof.Machine
end

