-- ==== Sys2Proof/Safety.lean ====
section
/-! DEFINITION. What counts as a safe run, and the laws of the device (laws 1 to 12 of the manual, with the bounds its chapters
give) in the terms the statements use. -/

namespace Sys2Proof

/-- A run of `k` steps from `s` neither faults nor is refused. -/
def SafeRun (k : Nat) (s : Machine.State) : Prop := ∃ t, core.run k s = .next t

namespace Machine

/-! ### The object table and the pools -/

/-- The entry at `i` is defined and is `e`. -/
abbrev Home.has (h : Home) (i : ObjIndex) (e : ObjectEntry) : Prop := h.entry i = some e

/-- The WAITING records of the object at `i`, head first. -/
def Home.waitersAt (h : Home) (i : ObjIndex) : List WaiterRecord := ((h.entry i).map ObjectEntry.waiters).getD []

/-- The units held in all of the semaphore at `i`. -/
def Home.heldUnits (h : Home) (i : ObjIndex) : Nat := ((h.holds.filter fun r => decide (r.index = i)).map HoldRecord.units).sum

/-- The pool words of the rings of every defined mailbox. -/
def Home.ringWords (h : Home) : Nat := (h.objects.toList.map fun o => (o.map fun e => e.definition.words).getD 0).sum

/-- The ring of a mailbox entry takes the pool words from its base on. -/
def ObjectEntry.ringHas (e : ObjectEntry) (a : Nat) : Prop :=
  match e.definition with
  | .mailbox k base => base ≤ a ∧ a < base + 2 ^ k
  | .tracked _ | .signal _ _ => False

/-- The parameters of a definition are in the ranges of R3. -/
abbrev Definition.inRange : Definition → Prop
  | .tracked c => 1 ≤ c ∧ c ≤ 65535
  | .signal m i => 1 ≤ m ∧ m ≤ 65535 ∧ i ≤ m
  | .mailbox k _ => k ≤ Config.maxExponent

/-- Law 1 with R57: available units and held units of every TRACKED semaphore come to its capacity. -/
abbrev Home.Conserves (h : Home) : Prop :=
  ∀ i e, h.has i e → e.definition.isTracked → e.level + h.heldUnits i = e.definition.bound

/-- Law 2 with R54: a hold record names a TRACKED semaphore and at least 1 unit, and no pair has two; at most 128 are in use. -/
structure Home.HoldsSound (h : Home) : Prop where
  tracked : ∀ r ∈ h.holds, 1 ≤ r.units ∧ ∃ e, h.has r.index e ∧ e.definition.isTracked
  single : h.holds.Pairwise fun a b => a.index ≠ b.index ∨ a.holder ≠ b.holder
  bounded : h.holds.length ≤ Config.holdRecords

/-- Laws 3 and 4 with R3, R4, R74: definitions are in range, a level lies within its bound, only a mailbox has a head position
and it is a ring position, and a mailbox on which a taker waits is empty. -/
structure ObjectEntry.Fits (e : ObjectEntry) : Prop where
  range : e.definition.inRange
  level : e.level ≤ e.definition.bound
  head : e.head < e.definition.words ∨ (e.definition.isSemaphore ∧ e.head = 0)
  empty : ¬ e.definition.isSemaphore → e.waiters ≠ [] → e.level = 0

/-- Laws 3 and 4 of every defined object. -/
abbrev Home.LevelsFit (h : Home) : Prop := ∀ i e, h.has i e → e.Fits

/-- Law 5: the head of a semaphore's list asks for more units than are there (R47). -/
abbrev Home.HeadsWait (h : Home) : Prop :=
  ∀ i e, h.has i e → e.definition.isSemaphore → ∀ w ∈ e.waiters.head?, e.level < w.units

/-- Record `a` stands before record `b`: more urgent, or of one priority and earlier (R21). -/
abbrev WaiterRecord.before (a b : WaiterRecord) : Prop :=
  a.priority < b.priority ∨ a.priority = b.priority ∧ a.arrival < b.arrival

/-- Law 6: every list is ordered by priority and arrival; every arrival is earlier than the next one (R18, R21). -/
structure Home.ListsOrdered (h : Home) : Prop where
  ordered : ∀ i, (h.waitersAt i).Pairwise WaiterRecord.before
  earlier : ∀ i, ∀ w ∈ h.waitersAt i, w.arrival < h.arrivals

/-- A record that the object `e` at `i` can have on its list: it names the index, an ACQUIRE of units in range waits on a
semaphore, and a TAKE on a mailbox (R12, R16, R41). -/
abbrev WaiterRecord.Waits (i : ObjIndex) (e : ObjectEntry) (w : WaiterRecord) : Prop :=
  w.index = i ∧
    match w.operation with
    | .acquire u => e.definition.isSemaphore ∧ 1 ≤ u ∧ u ≤ e.definition.bound
    | .take => ¬ e.definition.isSemaphore

/-- Every WAITING record fits its object. -/
abbrev Home.RecordsFit (h : Home) : Prop := ∀ i e, h.has i e → ∀ w ∈ e.waiters, w.Waits i e

/-- The waiter record that carries an answer. -/
def AnswerItem.record? : AnswerItem → Option WaiterRecord
  | .record w _ _ => some w
  | .immediate _ => none

/-- Every waiter record in use: the WAITING records in index order, then the ANSWERING records. -/
def Home.recordsInUse (h : Home) : List WaiterRecord :=
  (allIndexes.flatMap h.waitersAt) ++ h.answers.items.filterMap AnswerItem.record?

/-- Law 7: no two records in use for one pair of requester station and slot (R19). -/
abbrev Home.OnePerSlot (h : Home) : Prop :=
  h.recordsInUse.Pairwise fun a b => a.requester ≠ b.requester ∨ a.slot ≠ b.slot

/-- Law 8 with R15, R82, R88: at most 96 records and 16 immediate answer entries are in use. -/
structure Home.WithinPools (h : Home) : Prop where
  records : h.waitingCount + h.answers.items.countP AnswerItem.isRecord ≤ Config.waiterRecords
  immediate : (h.answers.items.countP fun x => !x.isRecord) ≤ Config.immediateEntries

/-- R6 and R5: the words in use are those of the defined rings and fit the pool, the rings do not meet, every word outside them is
0, and the pool is in canonical form. -/
structure Home.PoolSound (h : Home) : Prop where
  canonical : h.pool.wf
  account : h.poolUsed = h.ringWords
  fits : h.poolUsed ≤ Config.poolWords
  inside : ∀ i e, h.has i e → ∀ a, e.ringHas a → a < h.poolUsed
  apart : ∀ i j e f, i ≠ j → h.has i e → h.has j f → ∀ a, e.ringHas a → ¬ f.ringHas a
  above : ∀ a, h.poolUsed ≤ a → h.pool.read a = 0

/-! ### The client engine -/

/-- The record is the one that slot `n` in DONE has in the ring (R119). -/
abbrev CompletionRecord.IsOf (r : CompletionRecord) (t : TaskSlot) : Prop :=
  r.tag = t.tag ∧
    match t.use with
    | .done q status value => r.operation = q.operation ∧ r.objectId = q.objectId ∧ r.status = status ∧ r.value = value
    | .free | .queued _ | .sent _ | .cancelling _ | .returning _ _ => False

/-- A slot is in DONE. -/
def SlotUse.isDone : SlotUse → Bool
  | .done _ _ _ => true
  | .free | .queued _ | .sent _ | .cancelling _ | .returning _ _ => false

/-- Law 9: the ring holds exactly one record for each slot in DONE. -/
structure Client.RingSound (c : Client) : Prop where
  single : (c.ring.map CompletionRecord.slot).Nodup
  holds : ∀ r ∈ c.ring, r.IsOf (c.slot r.slot)
  complete : ∀ n, (c.slot n).use.isDone → n ∈ c.ring.map CompletionRecord.slot

/-- The state of a slot that an entry of a sort belongs to (R106). -/
def EntrySort.belongs : EntrySort → SlotUse → Bool
  | .request, .queued _ => true
  | .withdraw, .cancelling _ => true
  | .giveBack, .returning _ _ => true
  | _, _ => false

/-- Law 10: at most one entry for each slot, each with its slot in the state its sort belongs to, and one for every QUEUED
slot. -/
structure Client.RequestsSound (c : Client) : Prop where
  single : (c.requests.items.map RequestEntry.slot).Nodup
  belongs : ∀ e ∈ c.requests.items, e.sort.belongs (c.slot e.slot).use
  queued : ∀ n r, (c.slot n).use = .queued r → ⟨n, .request⟩ ∈ c.requests.items

/-! ### The station -/

/-- Law 12 with R156: no slot is busy with an object of a DEPARTED station. -/
abbrev State.NoBusyForDeparted (s : State) : Prop :=
  ∀ n r, (s.client.slot n).use.busy? = some r → s.rosterOf (homeOf r.objectId) ≠ .departed

/-- R161: nothing of a DEPARTED station is left at the home. -/
structure State.NothingOfDeparted (s : State) : Prop where
  waiting : ∀ i, ∀ w ∈ s.home.waitersAt i, s.rosterOf w.requester ≠ .departed
  answers : ∀ x ∈ s.home.answers.items, s.rosterOf x.dest ≠ .departed
  holds : ∀ r ∈ s.home.holds, s.rosterOf r.holder ≠ .departed

/-- The client engine and the home half at rest, as law 11 has them in CONFIG, JOINING and EVICTED. -/
structure State.AtRest (s : State) : Prop where
  slots : ∀ n, (s.client.slot n).use.busy = false
  requests : s.client.requests.items = []
  waiting : ∀ i, s.home.waitersAt i = []
  holds : s.home.holds = []
  answers : s.home.answers.items = []

/-- The frame of an item of the receive queue, or the one a place is held for. -/
def QueueItem.content : QueueItem → Frame
  | .frame f | .place f => f

/-- Law 11: in CONFIG, JOINING and EVICTED the client engine and the home half are at rest; in CONFIG and EVICTED nothing is
queued, listed or sent; in JOINING the receive queue holds notices and only a notice is sent (R145, R133). In LEAVING no slot is busy and no record waits (R27, R58,
R178). While RESETN is held the station is as reset has left it (R183). -/
structure State.QuietStates (s : State) : Prop where
  rest : s.control.mode = .config ∨ s.control.mode = .joining ∨ s.control.mode = .evicted → s.AtRest
  silent : s.control.mode = .config ∨ s.control.mode = .evicted →
    s.link.queue = [] ∧ s.link.notices.items = [] ∧ s.link.transmitter = .free
  joining : s.control.mode = .joining → ∀ x ∈ s.link.queue, x.content.isNotice
  sending : s.control.mode = .joining → s.link.transmitter = .free ∨ ∃ f, s.link.transmitter = .line f ∧ f.isNotice
  leaving : s.control.mode = .leaving →
    (∀ n, (s.client.slot n).use.busy = false) ∧ s.client.requests.items = [] ∧ (∀ i, s.home.waitersAt i = []) ∧ s.home.holds = []
  held : s.control.resetAsserted → s.control.mode = .config ∧ ∀ n, s.rosterOf n = .unknown

/-- R149 and R82: the station's own roster entry stays UNKNOWN, and no answer on the list is addressed to the station itself. -/
structure State.OwnNumberUnused (s : State) : Prop where
  roster : s.rosterOf s.control.number = .unknown
  answers : ∀ x ∈ s.home.answers.items, x.dest ≠ s.control.number

/-- R138 and R179: the notice list holds no notice twice and no DEPART of the station itself; a JOIN stands there only in JOINING and
a LEAVE only in LEAVING, once the LEAVE of this leave sequence was added; in LEAVING an empty answer list has added it. -/
structure State.NoticesSound (s : State) : Prop where
  single : s.link.notices.items.Nodup
  own : Notice.depart s.control.number ∉ s.link.notices.items
  join : Notice.join ∈ s.link.notices.items → s.control.mode = .joining
  leave : Notice.leave ∈ s.link.notices.items → s.control.leaveQueued
  leaving : s.control.leaveQueued → s.control.mode = .leaving
  added : s.control.mode = .leaving → s.home.answers.items = [] → s.control.leaveQueued

/-- R145 and R143: at most 16 frames and places held, and at most one place. -/
structure Link.QueueSound (l : Link) : Prop where
  bounded : l.queue.length ≤ Config.receiveQueueFrames
  place : l.queue.countP (fun x => !x.isFrame) ≤ 1

/-- R134: the counters of a list's head are below their limits, and 0 with no attempt when the list is empty. -/
structure OutList.CountersSound {α : Type} (l : OutList α) : Prop where
  silence : l.silenceRun < Config.silenceLimit
  busy : l.busyCount < Config.busyLimit
  empty : l.items = [] → l.silenceRun = 0 ∧ l.busyCount = 0 ∧ l.onLine = false

/-- R134 for the three outgoing lists. -/
structure State.CountersSound (s : State) : Prop where
  notices : s.link.notices.CountersSound
  answers : s.home.answers.CountersSound
  requests : s.client.requests.CountersSound

/-- R130: a list's head is in an attempt only while the transmitter sends a frame of the list's class, and only a request goes by the path
to the station itself. -/
structure State.AttemptSound (s : State) : Prop where
  notices : s.link.notices.onLine → ∃ f k, s.link.transmitter = .line f ∧ f.kind = .notice k
  answers : s.home.answers.onLine → ∃ f op, s.link.transmitter = .line f ∧ f.kind = .answer op
  requests : s.client.requests.onLine →
    ∃ f op, (s.link.transmitter = .line f ∨ s.link.transmitter = .ownPath f) ∧ f.kind = .request op
  ownPath : ∀ f, s.link.transmitter = .ownPath f → ∃ op, f.kind = .request op

/-- R184: a cause stands with the EVICTED flag and only with it. -/
abbrev Events.CauseSound (e : Events) : Prop := e.evicted ↔ e.cause ≠ none

/-- The laws of the device together. -/
structure DeviceLaws (s : State) : Prop where
  conserves : s.home.Conserves
  holds : s.home.HoldsSound
  levels : s.home.LevelsFit
  heads : s.home.HeadsWait
  order : s.home.ListsOrdered
  records : s.home.RecordsFit
  single : s.home.OnePerSlot
  pools : s.home.WithinPools
  pool : s.home.PoolSound
  ring : s.client.RingSound
  requests : s.client.RequestsSound
  busy : s.NoBusyForDeparted
  departed : s.NothingOfDeparted
  quiet : s.QuietStates
  own : s.OwnNumberUnused
  notices : s.NoticesSound
  queue : s.link.QueueSound
  counters : s.CountersSound
  attempt : s.AttemptSound
  events : s.control.events.CauseSound

/-! ### Terms of the statements -/

/-- The register window after a command of a code below 256 was answered (R187, R195). -/
def Port.answered (p : Port) (code result : Nat) (first second : Reg) : Port :=
  { p with command := BitVec.ofNat 16 code, result0 := BitVec.ofNat 16 (256 * code + result), result1 := first, result2 := second }

/-- `s` with nothing changed but the answer to a command. -/
def State.told (s : State) (code result : Nat) (first second : Reg) : State :=
  { s with port := s.port.answered code result first second }

/-- `s` with the receive queue `q`. -/
def State.withQueue (s : State) (q : List QueueItem) : State := { s with link := { s.link with queue := q } }

/-- `s` with the entry at `i` defined as `e`. -/
def State.withEntry (s : State) (i : ObjIndex) (e : ObjectEntry) : State :=
  { s with home := { s.home with objects := s.home.objects.set i (some e) } }

/-- `s` with the hold table `holds`. -/
def State.withHolds (s : State) (holds : List HoldRecord) : State := { s with home := { s.home with holds } }

/-- `s` with the client engine `c`. -/
def State.withClient (s : State) (c : Client) : State := { s with client := c }

/-- `s` with the mark `m` driven. -/
def State.driving (s : State) (m : Option AckMark) : State := { s with link := { s.link with driven := m } }

/-- The answer to a request frame. -/
def Frame.reply (f : Frame) (op : Operation) (status : AnswerStatus) (value : Nat) : AnswerItem :=
  .immediate ⟨f.sender, f.slot, f.tag, op, f.index, status, BitVec.ofNat 32 value⟩

/-- `s` after an answer was handed on: to the own client engine when it is addressed to the station itself, otherwise to the tail of
the answer list (R29, R87, R95). -/
def State.handed (s : State) (x : AnswerItem) : State :=
  if x.dest = s.control.number then s.withClient (s.client.receive s.control.number x.entry)
  else { s with home := { s.home with answers := { s.home.answers with items := s.home.answers.items ++ [x] } } }

/-- An ACTIVE station has the request `f` of operation `op` at the head of its receive queue, its sender not DEPARTED, and an immediate
answer entry FREE: the home engine takes it (R84). -/
structure State.Takes (s : State) (f : Frame) (op : Operation) (rest : List QueueItem) : Prop where
  running : s.running
  active : s.control.mode = .active
  head : s.link.queue = .frame f :: rest
  request : f.kind = .request op
  sender : f.sender = s.control.number ∨ s.rosterOf f.sender ≠ .departed
  free : 0 < s.home.freeImmediate

/-- `f` is the answer of operation `op` at the head of the receive queue, and it matches the busy slot of the request `r` (R114). -/
structure State.Matches (s : State) (f : Frame) (op : Operation) (r : Request) (rest : List QueueItem) : Prop where
  onLink : s.onLink
  head : s.link.queue = .frame f :: rest
  answer : f.kind = .answer op
  busy : (s.client.slot f.slot).use.busy? = some r
  tag : f.tag = (s.client.slot f.slot).tag
  index : f.index = indexOf r.objectId
  sender : f.sender = homeOf r.objectId

/-- The client engine after slot `n` went to DONE: its record joins the ring, and an entry of its on the request list leaves, the
counters with it when it was the head (R119, R110, R134). -/
def Client.ended (c : Client) (n : SlotNum) (r : Request) (status : CompletionStatus) (value : Word) : Client :=
  { slots := c.slots.set n ⟨(c.slot n).tag, .done r status value⟩
    requests :=
      if (c.requests.items.head?.map RequestEntry.slot) = some n then
        ⟨c.requests.items.filter fun e => decide (e.slot ≠ n), 0, 0, false⟩
      else { c.requests with items := c.requests.items.filter fun e => decide (e.slot ≠ n) }
    ring := c.ring ++ [⟨n, (c.slot n).tag, r.operation, r.objectId, status, value⟩] }

/-- The record of a slot that completes EVICTED or HOME_ABSENT with value 0. -/
def Client.endRecord (c : Client) (status : CompletionStatus) (n : SlotNum) (r : Request) : CompletionRecord :=
  ⟨n, (c.slot n).tag, r.operation, r.objectId, status, 0⟩

/-- The slots that `p` holds of are completed with `status` and value 0 in slot-number order; the others are kept. -/
structure Client.Completes (c t : Client) (p : Request → Prop) [DecidablePred p] (status : CompletionStatus) : Prop where
  slots : ∀ n, t.slot n =
    match (c.slot n).use.busy? with
    | some r => if p r then ⟨(c.slot n).tag, .done r status 0⟩ else c.slot n
    | none => c.slot n
  ring : t.ring = c.ring ++ allSlots.filterMap fun n =>
    (c.slot n).use.busy?.bind fun r => if p r then some (c.endRecord status n r) else none

/-- The runtime state of every defined object of `h` is at its initial values in `t`, with the definitions and every other pool word kept and
the hold table empty (R11). -/
structure Home.Renewed (h t : Home) : Prop where
  entries : ∀ i, t.entry i = (h.entry i).map fun e =>
    match e.definition with
    | .tracked c => ⟨.tracked c, c, 0, []⟩
    | .signal m n => ⟨.signal m n, n, 0, []⟩
    | .mailbox k base => ⟨.mailbox k base, 0, 0, []⟩
  rings : ∀ i e a, h.has i e → e.ringHas a → t.pool.read a = 0
  words : ∀ a, (∀ i e, h.has i e → ¬ e.ringHas a) → t.pool.read a = h.pool.read a
  used : t.poolUsed = h.poolUsed
  holds : t.holds = []

/-- What eviction does and keeps (R165, R166). -/
structure State.Evicts (s t : State) (cause : EvictionCause) : Prop where
  client : s.client.Completes t.client (fun _ => True) .evicted
  requests : t.client.requests = ⟨[], 0, 0, false⟩
  home : s.home.Renewed t.home
  answers : t.home.answers = ⟨[], 0, 0, false⟩
  link : t.link = ⟨⟨[], 0, 0, false⟩, [], .free, none⟩
  roster : ∀ n, t.rosterOf n = .unknown
  events : t.control.events =
    { s.control.events with evicted := true, cause := if s.control.events.evicted then s.control.events.cause else some cause }
  control : t.control = { s.control with mode := .evicted, events := t.control.events, leaveQueued := false }
  port : t.port = s.port
  pending : t.pending = s.pending

/-- What the end of the leave sequence does and keeps (R180). -/
structure State.Leaves (s t : State) : Prop where
  home : s.home.Renewed t.home
  answers : t.home.answers = ⟨[], 0, 0, false⟩
  link : t.link = ⟨⟨[], 0, 0, false⟩, [], .free, none⟩
  roster : ∀ n, t.rosterOf n = .unknown
  control : t.control =
    { s.control with mode := .config, events := { s.control.events with left := true }, leaveQueued := false }
  client : t.client = { s.client with requests := { s.client.requests with silenceRun := 0, busyCount := 0, onLine := false } }
  port : t.port = s.port
  pending : t.pending = s.pending

/-- What the return to CONFIG after JOIN_FAILED does and keeps (R176). -/
structure State.FailsToJoin (s t : State) : Prop where
  home : t.home = { s.home with answers := { s.home.answers with silenceRun := 0, busyCount := 0, onLine := false } }
  link : t.link = ⟨⟨[], 0, 0, false⟩, [], .free, none⟩
  control : t.control = { s.control with mode := .config, events := { s.control.events with joinFailed := true } }
  client : t.client = { s.client with requests := { s.client.requests with silenceRun := 0, busyCount := 0, onLine := false } }
  roster : t.roster = s.roster
  port : t.port = s.port
  pending : t.pending = s.pending

/-- Nothing of station `n` is left at the station: no busy slot for its objects, no waiting record, no answer and no holding (R158). -/
structure State.PurgedOf (t : State) (n : StationNum) : Prop where
  slots : ∀ m r, (t.client.slot m).use.busy? = some r → homeOf r.objectId ≠ n
  waiting : ∀ i, ∀ w ∈ t.home.waitersAt i, w.requester ≠ n
  answers : ∀ x ∈ t.home.answers.items, x.dest ≠ n
  holds : ∀ r ∈ t.home.holds, r.holder ≠ n

/-- An outgoing list without its items of `p`: the others keep their order, and when the head leaves its counters are cleared and an attempt
in progress refers to no item any more (R94, R110, R134). -/
def OutList.without {α : Type} (l : OutList α) (p : α → Bool) : OutList α :=
  match l.items with
  | [] => l
  | x :: _ =>
    if p x then ⟨l.items.filter fun y => !p y, 0, 0, false⟩ else { l with items := l.items.filter fun y => !p y }

/-- The client side of the purge of station `n`: every busy slot for its objects completes HOME_ABSENT in slot-number order, and its entry
leaves the request list (R123, R159). -/
structure Client.PurgedTo (c : Client) (n : StationNum) (t : Client) : Prop where
  completes : c.Completes t (fun r => homeOf r.objectId = n) .homeAbsent
  requests : t.requests = c.requests.without fun e => (c.slot e.slot).use.busy?.any fun r => decide (homeOf r.objectId = n)

/-- `s` after the WAITING records of station `n` left the list at `i` without answers: the grant pass runs once on a semaphore that lost
one (R26), and none on a mailbox (R79). -/
def State.withoutWaiters (n : StationNum) (s : State) (i : ObjIndex) : State :=
  match s.home.entry i with
  | some e =>
    let left := s.withEntry i { e with waiters := e.waiters.filter fun w => decide (w.requester ≠ n) }
    if ∃ w ∈ e.waiters, w.requester = n then if e.definition.isSemaphore then left.grantPass i else left else s
  | none => s

/-- `s` after reclaim of station `n` at `i`: a TRACKED semaphore on which `n` has a hold record takes its units back, the record is freed,
and the grant pass runs; every other entry is left as it is (R61). -/
def State.withUnitsBack (n : StationNum) (s : State) (i : ObjIndex) : State :=
  match s.home.entry i, s.home.holds.find? fun r => decide (r.index = i ∧ r.holder = n) with
  | some e, some r =>
    if e.definition.isTracked then
      ((s.withEntry i { e with level := e.level + r.units }).withHolds
        (s.home.holds.filter fun x => decide (¬ (x.index = i ∧ x.holder = n)))).grantPass i
    else s
  | _, _ => s

/-- `t` is `s` after the purge of station `n`, its steps in the order of R158 to R160: the client side, the waiting records in object index
order, the answers addressed to `n`, and reclaim in object index order. -/
def State.PurgeRuns (s : State) (n : StationNum) (t : State) : Prop :=
  ∃ c, s.client.PurgedTo n c ∧
    let waited := allIndexes.foldl (State.withoutWaiters n) (s.withClient c)
    let unanswered : State := { waited with
      home := { waited.home with answers := waited.home.answers.without fun x => decide (x.dest = n) } }
    t = allIndexes.foldl (State.withUnitsBack n) unanswered

/-- What no purge of station `n` touches: the objects on which `n` neither waits nor holds, every definition, the pool, the station state and
time, the receive queue, the register window and the queue of commands (R158, R61). -/
structure State.PurgeKeeps (s : State) (n : StationNum) (t : State) : Prop where
  others : ∀ i, (∀ w ∈ s.home.waitersAt i, w.requester ≠ n) → (∀ r ∈ s.home.holds, r.index = i → r.holder ≠ n) →
    t.home.entry i = s.home.entry i
  definitions : ∀ i, (t.home.entry i).map ObjectEntry.definition = (s.home.entry i).map ObjectEntry.definition
  heads : ∀ i, (t.home.entry i).map ObjectEntry.head = (s.home.entry i).map ObjectEntry.head
  pool : t.home.pool = s.home.pool ∧ t.home.poolUsed = s.home.poolUsed
  control : t.control = { s.control with leaveQueued := t.control.leaveQueued }
  queue : t.link = { s.link with notices := t.link.notices, queue := t.link.queue }
  port : t.port = s.port
  pending : t.pending = s.pending

/-- `g` is the frame of the entry `x` of the request list, whose slot carries the request `r`: the fields of the entry's sort, every other
field 0 (R106, R128). -/
structure State.FrameOf (s : State) (x : RequestEntry) (r : Request) (g : Frame) : Prop where
  sender : g.sender = s.control.number
  dest : g.dest = .station (homeOf r.objectId)
  index : g.index = indexOf r.objectId
  slot : g.slot = x.slot
  tag : g.tag = (s.client.slot x.slot).tag
  unused : g.status = 0 ∧ g.subject = 0
  request : x.sort = .request → g.kind = .request r.operation ∧
    g.priority = (if r.operation = .acquire ∨ r.operation = .take then r.priority else 0) ∧
    g.waitLimit = (if r.operation = .acquire ∨ r.operation = .take then r.waitLimit else 0) ∧
    g.units = (if r.operation = .acquire ∨ r.operation = .release then r.units else 0) ∧
    g.urgent = (if r.operation = .post then r.urgent else false) ∧ g.word = if r.operation = .post then r.word else 0
  withdraw : x.sort = .withdraw →
    g.kind = .request .withdraw ∧ g.priority = 0 ∧ g.waitLimit = 0 ∧ g.units = 0 ∧ g.urgent = false ∧ g.word = 0
  giveBack : ∀ v, x.sort = .giveBack → (s.client.slot x.slot).use = .returning r v → v.toNat ≤ 255 →
    g.kind = .request .release ∧ g.units = BitVec.ofNat 8 v.toNat ∧ g.priority = 0 ∧ g.waitLimit = 0 ∧ g.urgent = false ∧ g.word = 0

/-- The request that the parameter registers hold for SUBMIT (R195, check 2 of R103). -/
structure Port.Asks (p : Port) (r : Request) : Prop where
  operation : r.operation.code.toNat = p.params[0].toNat % 8 ∧ r.operation ≠ .withdraw
  urgent : r.urgent = p.params[0].toNat.testBit 3
  priority : r.priority.val = p.params[0].toNat / 16 % 8
  units : r.units.toNat = p.params[0].toNat / 256
  given : r.operation = .acquire ∨ r.operation = .release → 1 ≤ r.units.toNat
  objectId : r.objectId.val = p.params[1].toNat % 2048
  waitLimit : r.waitLimit = p.params[2]
  word : r.word.toNat = p.params[3].toNat + 65536 * p.params[4].toNat

/-- Every field as power-on reset leaves it, the straps at `sid` and `rate` (R183, R195). -/
structure State.AfterPowerOn (s : State) (sid : StationNum) (rate : RateCode) : Prop where
  control : s.control = ⟨s.control.powered, s.control.resetAsserted, .config, sid, rate, 0, ⟨false, false, false, false, none⟩, false⟩
  roster : ∀ n, s.rosterOf n = .unknown
  entries : ∀ i, s.home.entry i = none
  pool : s.home.poolUsed = 0 ∧ ∀ a, s.home.pool.read a = 0
  holds : s.home.holds = []
  arrivals : s.home.arrivals = 0
  waiters : s.home.freeWaiters = 96 ∧ s.home.freeHolds = 128 ∧ s.home.freeImmediate = 16
  answers : s.home.answers = ⟨[], 0, 0, false⟩
  slots : ∀ n, s.client.slot n = ⟨0, .free⟩
  lists : s.client.requests = ⟨[], 0, 0, false⟩ ∧ s.client.ring = []
  link : s.link = ⟨⟨[], 0, 0, false⟩, [], .free, none⟩
  port : s.port = ⟨0, 0, 0, 0, Vector.replicate 5 0, 0, 0, Vector.replicate 5 0, ⟨0, 0, 0, 0, 0, 0, 0, 0⟩, 0⟩

/-- The operation fits the kind (R12). -/
def Operation.fitsKind : Operation → Definition → Bool
  | .acquire, d | .release, d => d.isSemaphore
  | .post, d | .take, d => !d.isSemaphore
  | .query, _ | .withdraw, _ => true

/-- The units of a request fit the definition (step 2 of R41). -/
def Operation.unitsFit : Operation → Definition → Nat → Prop
  | .acquire, d, u => 1 ≤ u ∧ u ≤ d.bound
  | .release, .signal m _, u => 1 ≤ u ∧ u ≤ m
  | .release, _, u => 1 ≤ u
  | _, _, _ => True

end Machine

end Sys2Proof
end

