-- ==== Sys2Proof/Certificates/Slice0/Obligations.lean ====
section
/-! DEFINITION. The statements for the provers, in the order of the chapters; the terms they use are in Sys2Proof/Safety.lean. -/

open Sys2Proof Sys2Proof.Machine

/-! ### The step and the resets -/

/-- A step takes the command at the front of the queue with the queue's rest; on an empty queue the block idles (log entry 2, the
model's choice). -/
def Obligations.StepTakesFrontCommand : Prop :=
  (∀ (c : Instr) (rest : List Instr) (s : State),
    step { s with pending := c :: rest } = exec c { s with pending := rest }) ∧
  ∀ s : State, s.pending = [] → step s = .next s

/-- Every command answers a next state, whatever the state, and leaves the queue of commands as it is. That a command whose occasion does not
hold answers next too is the model's choice (log entry 1), and so is the queue (log entry 2). -/
def Obligations.EveryCommandAnswersNext : Prop :=
  ∀ (c : Instr) (s : State), ∃ t, exec c s = .next t ∧ t.pending = s.pending

/-- State.reset has every field at the value of R183 (straps 0: log entry 3); POWER_ON_RESET leaves every field so whatever stood before, with the
supply present; RESETN_RESET does so too and holds the station in reset.
The supply, the level of RESETN, the word last read and the order of arrival are the model's (log entries 16, 17, 21, 24); that RESETN_RESET
acts without supply too is log entry 33. -/
def Obligations.ResetsSetEveryField : Prop :=
  State.reset.AfterPowerOn 0 0 ∧ State.reset.control.powered = true ∧ State.reset.control.resetAsserted = false ∧
  State.reset.pending = [] ∧
  (∀ (s : State) (sid : StationNum) (rate : RateCode), ∃ t, exec (.powerOnReset sid rate) s = .next t ∧
    t.AfterPowerOn sid rate ∧ t.control.powered = true ∧ t.control.resetAsserted = s.control.resetAsserted ∧
    t.pending = s.pending) ∧
  ∀ (s : State) (sid : StationNum) (rate : RateCode), ∃ t, exec (.resetnReset sid rate) s = .next t ∧
    t.AfterPowerOn sid rate ∧ t.control.powered = s.control.powered ∧ t.control.resetAsserted = true ∧ t.pending = s.pending

/-- While RESETN is held a read returns 0 and captures nothing, LINT is deasserted, a write is ignored and station time does not advance; its
release samples the straps and leaves the station in CONFIG with station time 0, with or without supply (log entry 33). Without supply LINT
is deasserted and a read gives nothing (log entry 16). In both, no command but the resets, their release and the loss of supply has an effect
(log entries 1 and 16). POWER_LOSS stops the station driving the line and takes its supply away; everything else is kept (log entry 16). -/
def Obligations.ResetnAndSupply : Prop :=
  (∀ (s : State) (sid : StationNum) (rate : RateCode), s.control.resetAsserted = true →
    exec (.resetnRelease sid rate) s = .next { s with
      control := { s.control with resetAsserted := false, mode := .config, number := sid, rate := rate, time := 0 } }) ∧
  (∀ s : State, s.control.resetAsserted = true ∨ s.control.powered = false →
    s.lint = false ∧
    ∀ c : Instr, (∀ sid rate, c ≠ .powerOnReset sid rate ∧ c ≠ .resetnReset sid rate ∧ c ≠ .resetnRelease sid rate) →
      c ≠ .powerLoss → c ≠ .v0Read → exec c s = .next s) ∧
  (∀ s : State, s.control.resetAsserted = true → (∀ a, s.readRegister a = 0) ∧
    (s.control.powered = true → exec .v0Read s = .next { s with port := { s.port with dataOut := 0 } })) ∧
  (∀ s : State, s.control.powered = false → exec .v0Read s = .next s) ∧
  ∀ s : State, exec .powerLoss s = .next { s with
    control := { s.control with powered := false }
    link := { s.link with transmitter := .free, driven := none, notices := { s.link.notices with onLine := false } }
    home := { s.home with answers := { s.home.answers with onLine := false } }
    client := { s.client with requests := { s.client.requests with onLine := false } } }

/-! ### Chapter 1: definitions -/

/-- The checks of DEFINE in their order, each with its refusal; a refused DEFINE changes only RESULT. -/
def Obligations.DefineRefusals : Prop :=
  ∀ s : State, s.running = true →
    let index := s.port.params[0].toNat % 256
    let kind := s.port.params[0].toNat / 256 % 8
    let first := s.port.params[1].toNat
    let second := s.port.params[2].toNat
    (s.control.mode ≠ .config → exec .define s = .next (s.told 1 1 0 0)) ∧
    (s.control.mode = .config →
      (64 ≤ index ∨ kind = 0 ∨ 4 ≤ kind → exec .define s = .next (s.told 1 10 0 0)) ∧
      ∀ h : index < 64, 1 ≤ kind → kind ≤ 3 →
        (∀ e, s.home.has ⟨index, h⟩ e → exec .define s = .next (s.told 1 8 0 0)) ∧
        (s.home.entry ⟨index, h⟩ = none →
          ((kind = 1 ∧ first = 0) ∨ (kind = 2 ∧ (first = 0 ∨ first < second)) ∨ (kind = 3 ∧ 8 < first) →
            exec .define s = .next (s.told 1 10 0 0)) ∧
          (kind = 3 → first ≤ 8 → 4096 < s.home.poolUsed + 2 ^ first → exec .define s = .next (s.told 1 9 0 0))))

/-- An accepted DEFINE makes its one entry defined at its initial values; for a MAILBOX it carves the ring at the count of words in use
and sets its words to 0; RESULT gives the free words and the ring base. -/
def Obligations.DefineAccepted : Prop :=
  ∀ s : State, s.running = true → s.control.mode = .config →
    ∀ h : s.port.params[0].toNat % 256 < 64, s.home.entry ⟨s.port.params[0].toNat % 256, h⟩ = none →
    let i : ObjIndex := ⟨s.port.params[0].toNat % 256, h⟩
    let kind := s.port.params[0].toNat / 256 % 8
    let first := s.port.params[1].toNat
    let second := s.port.params[2].toNat
    let used := s.home.poolUsed
    (kind = 1 → 1 ≤ first → exec .define s =
      .next ((s.withEntry i ⟨.tracked first, first, 0, []⟩).told 1 0 (BitVec.ofNat 16 (4096 - used)) 0)) ∧
    (kind = 2 → 1 ≤ first → second ≤ first → exec .define s =
      .next ((s.withEntry i ⟨.signal first second, second, 0, []⟩).told 1 0 (BitVec.ofNat 16 (4096 - used)) 0)) ∧
    (kind = 3 → first ≤ 8 → used + 2 ^ first ≤ 4096 → ∃ t, exec .define s = .next t ∧
      (∀ a, t.home.pool.read a = if used ≤ a ∧ a < used + 2 ^ first then 0 else s.home.pool.read a) ∧
      t = ({ s with home := { s.home with
        objects := s.home.objects.set i (some ⟨.mailbox first used, 0, 0, []⟩)
        poolUsed := used + 2 ^ first, pool := t.home.pool } }).told 1 0 (BitVec.ofNat 16 (4096 - (used + 2 ^ first)))
          (BitVec.ofNat 16 used))

/-- CLEAR_DEFINITIONS in CONFIG makes every entry absent, the count of words in use 0 and every pool word 0, and gives OK with 4096 free
words; in every other state it is refused NOT_CONFIG and changes nothing. The object window is kept. -/
def Obligations.ClearDefinitions : Prop :=
  ∀ s : State, s.running = true →
    (s.control.mode = .config → ∃ t, exec .clearDefinitions s = .next t ∧
      (∀ i, t.home.entry i = none) ∧ (∀ a, t.home.pool.read a = 0) ∧
      t = ({ s with home := { s.home with objects := t.home.objects, poolUsed := 0, pool := t.home.pool } }).told 2 0 4096 0) ∧
    (s.control.mode ≠ .config → exec .clearDefinitions s = .next (s.told 2 1 0 0))

/-- READ_OBJECT captures the entry's definition and runtime state into the object window in every station state; an index outside the
table is refused BAD_REQUEST and the window keeps what it held. -/
def Obligations.ReadObjectCaptures : Prop :=
  ∀ s : State, s.running = true →
    let index := s.port.params[0].toNat % 256
    (64 ≤ index → exec .readObject s = .next (s.told 9 4 0 0)) ∧
    ∀ h : index < 64, ∃ t, exec .readObject s = .next t ∧
      t = { s with port := { s.port.answered 9 0 0 0 with window := t.port.window } } ∧
      t.port.window.index = BitVec.ofNat 6 index ∧
      (s.home.entry ⟨index, h⟩ = none → t.port.window = ⟨BitVec.ofNat 6 index, 0, 0, 0, 0, 0, 0, 0⟩) ∧
      ∀ e, s.home.has ⟨index, h⟩ e →
        t.port.window.level = BitVec.ofNat 16 e.level ∧ t.port.window.waiters = BitVec.ofNat 8 e.waiters.length ∧
        (∀ c, e.definition = .tracked c → t.port.window.kind = 1 ∧ t.port.window.first = BitVec.ofNat 16 c ∧
          t.port.window.second = 0 ∧ t.port.window.head = 0 ∧
          t.port.window.holds = BitVec.ofNat 8 (s.home.holds.filter fun r => decide (r.index = ⟨index, h⟩)).length) ∧
        (∀ m n, e.definition = .signal m n → t.port.window.kind = 2 ∧ t.port.window.first = BitVec.ofNat 16 m ∧
          t.port.window.second = BitVec.ofNat 16 n ∧ t.port.window.head = 0 ∧ t.port.window.holds = 0) ∧
        (∀ k base, e.definition = .mailbox k base → t.port.window.kind = 3 ∧ t.port.window.first = BitVec.ofNat 16 k ∧
          t.port.window.second = BitVec.ofNat 16 base ∧ t.port.window.head = BitVec.ofNat 8 e.head ∧ t.port.window.holds = 0)

/-! ### Chapter 2: waiter records and deadlines -/

/-- A station-time advance adds 1 to station time, wrapping, and makes the expiry due of exactly the WAITING records whose deadline is the
new station time; nothing else changes. -/
def Obligations.StationTimeAdvances : Prop :=
  ∀ s : State, s.running = true → ∃ t, exec .stationTimeAdvance s = .next t ∧
    (∀ i, t.home.entry i = (s.home.entry i).map fun e =>
      { e with waiters := e.waiters.map fun w =>
        if w.deadline = some (s.control.time + 1) then { w with due := true } else w }) ∧
    t = { s with control := { s.control with time := s.control.time + 1 }, home := { s.home with objects := t.home.objects } }

/-- A due expiry takes its record off the list, answers it EXPIRED with value 0, and runs the grant pass; where no such record waits the
expiry is dropped.
How an expiry names its record is log entry 25. -/
def Obligations.ExpiryTaken : Prop :=
  ∀ (s : State) (i : ObjIndex) (st : StationNum) (sl : SlotNum), s.running = true →
    (∀ e pre w post, s.home.has i e → e.waiters = pre ++ w :: post → w.requester = st → w.slot = sl → w.due = true →
      (∀ x ∈ pre, ¬ (x.requester = st ∧ x.slot = sl)) →
      exec (.expiry i st sl) s =
        .next (((s.withEntry i { e with waiters := pre ++ post }).handed (.record w .expired 0)).grantPass i)) ∧
    ((∀ w ∈ s.home.waitersAt i, ¬ (w.requester = st ∧ w.slot = sl ∧ w.due = true)) → exec (.expiry i st sl) s = .next s)

/-- The search and replacement before a record is allocated. Afterwards no record of the pair stands on any list or on the answer list; where
none stood nothing changes. A WAITING record leaves its list without an answer, and on a semaphore the grant pass runs. An ANSWERING record
leaves the answer list, the other items keep their order, and the hold table and every level stay as they were. That every record of the pair
goes is log entry 26; law 7 leaves one at most. -/
def Obligations.OldRecordsAreReplaced : Prop :=
  ∀ (s : State) (st : StationNum) (sl : SlotNum),
    (∀ i, ∀ w ∈ (s.replaceRecord st sl).home.waitersAt i, ¬ (w.requester = st ∧ w.slot = sl)) ∧
    (∀ w, ∀ status value, .record w status value ∈ (s.replaceRecord st sl).home.answers.items →
      ¬ (w.requester = st ∧ w.slot = sl)) ∧
    ((∀ i, ∀ w ∈ s.home.waitersAt i, ¬ (w.requester = st ∧ w.slot = sl)) →
      (∀ w status value, .record w status value ∈ s.home.answers.items → ¬ (w.requester = st ∧ w.slot = sl)) →
      s.replaceRecord st sl = s) ∧
    (∀ i e pre w post, s.home.has i e → e.waiters = pre ++ w :: post → w.requester = st → w.slot = sl →
      (∀ x ∈ pre ++ post, ¬ (x.requester = st ∧ x.slot = sl)) →
      (∀ j, j ≠ i → ∀ x ∈ s.home.waitersAt j, ¬ (x.requester = st ∧ x.slot = sl)) →
      (∀ x status value, .record x status value ∈ s.home.answers.items → ¬ (x.requester = st ∧ x.slot = sl)) →
      let left := s.withEntry i { e with waiters := pre ++ post }
      s.replaceRecord st sl = if e.definition.isSemaphore then left.grantPass i else left) ∧
    (∀ pre w status value post, s.home.answers.items = pre ++ .record w status value :: post → w.requester = st → w.slot = sl →
      (∀ x status value, .record x status value ∈ pre ++ post → ¬ (x.requester = st ∧ x.slot = sl)) →
      (∀ i, ∀ x ∈ s.home.waitersAt i, ¬ (x.requester = st ∧ x.slot = sl)) →
      s.replaceRecord st sl = { s with home := { s.home with
        answers := if pre = [] then ⟨post, 0, 0, false⟩ else { s.home.answers with items := pre ++ post } } })

/-- A request that must wait, once an old record of its slot is replaced: with no record FREE it is answered NO_WAITER_RECORD; otherwise
its record goes behind every record of its priority or more urgent, with the deadline of its wait limit, and for an ACQUIRE the grant
pass runs. -/
def Obligations.RequestsThatWait : Prop :=
  ∀ (s : State) (f : Frame) (op : Operation) (rest : List QueueItem) (e0 : ObjectEntry),
    s.Takes f op rest → s.home.has f.index e0 → f.waitLimit ≠ 0 →
    (op = .acquire ∧ e0.definition.isSemaphore = true ∧ Operation.acquire.unitsFit e0.definition f.units.toNat) ∨
      (op = .take ∧ e0.definition.isSemaphore = false ∧ e0.level = 0) →
    let s1 := (s.withQueue rest).replaceRecord f.sender f.slot
    (s1.home.freeWaiters = 0 → exec .requestTaken s = .next (s1.handed (f.reply op .noWaiterRecord 0))) ∧
    (0 < s1.home.freeWaiters → ∀ e pre post, s1.home.has f.index e → e.waiters = pre ++ post →
      (∀ x ∈ pre, x.priority ≤ f.priority) → (∀ x ∈ post.head?, f.priority < x.priority) →
      let w : WaiterRecord := ⟨f.index, f.sender, f.slot, f.tag, if op = .acquire then .acquire f.units.toNat else .take, f.priority,
        if f.waitLimit = 65535 then none else some (s.control.time + BitVec.ofNat 32 f.waitLimit.toNat), s1.home.arrivals, false⟩
      let s2 := s1.withEntry f.index { e with waiters := pre ++ w :: post }
      let s3 : State := { s2 with home := { s2.home with arrivals := s1.home.arrivals + 1 } }
      exec .requestTaken s = .next (if op = .acquire then s3.grantPass f.index else s3))

/-- A WITHDRAW that finds its record takes it off the list and answers it WITHDRAWN with value 0, and the grant pass runs; one that finds
none is answered MISSED with value 0. -/
def Obligations.WithdrawTaken : Prop :=
  ∀ (s : State) (f : Frame) (rest : List QueueItem) (e : ObjectEntry),
    s.Takes f .withdraw rest → s.home.has f.index e →
    (∀ pre w post, e.waiters = pre ++ w :: post → w.requester = f.sender → w.slot = f.slot → w.tag = f.tag →
      (∀ x ∈ pre, ¬ (x.requester = f.sender ∧ x.slot = f.slot ∧ x.tag = f.tag)) →
      exec .requestTaken s = .next
        ((((s.withQueue rest).withEntry f.index { e with waiters := pre ++ post }).handed (.record w .withdrawn 0)).grantPass
          f.index)) ∧
    ((∀ x ∈ e.waiters, ¬ (x.requester = f.sender ∧ x.slot = f.slot ∧ x.tag = f.tag)) →
      exec .requestTaken s = .next ((s.withQueue rest).handed (f.reply .withdraw .missed 0)))

/-! ### Chapter 3: semaphores -/

/-- The checks of a request taken in ACTIVE: BAD_OBJECT without a defined entry whose kind fits, then BAD_REQUEST for units that do not fit;
the refusal is the only effect. -/
def Obligations.RequestRefused : Prop :=
  ∀ (s : State) (f : Frame) (op : Operation) (rest : List QueueItem), s.Takes f op rest →
    (s.home.entry f.index = none → exec .requestTaken s = .next ((s.withQueue rest).handed (f.reply op .badObject 0))) ∧
    ∀ e, s.home.has f.index e →
      (op.fitsKind e.definition = false →
        exec .requestTaken s = .next ((s.withQueue rest).handed (f.reply op .badObject 0))) ∧
      (op.fitsKind e.definition = true → ¬ op.unitsFit e.definition f.units.toNat →
        exec .requestTaken s = .next ((s.withQueue rest).handed (f.reply op .badRequest 0)))

/-- ACQUIRE with wait limit 0: granted when the units are there and no record of its priority or more urgent waits, otherwise NOT_READY
with the level; a TRACKED grant needs a hold record and is refused NO_HOLD_RECORD without one. -/
def Obligations.TryRule : Prop :=
  ∀ (s : State) (f : Frame) (rest : List QueueItem) (e : ObjectEntry),
    s.Takes f .acquire rest → s.home.has f.index e → e.definition.isSemaphore = true →
    Operation.acquire.unitsFit e.definition f.units.toNat → f.waitLimit = 0 →
    let u := f.units.toNat
    let s0 := s.withQueue rest
    let lowered := s0.withEntry f.index { e with level := e.level - u }
    let granted := u ≤ e.level ∧ ∀ w ∈ e.waiters, f.priority < w.priority
    (¬ granted → exec .requestTaken s = .next (s0.handed (f.reply .acquire .notReady e.level))) ∧
    (granted → e.definition.isTracked = false → exec .requestTaken s = .next (lowered.handed (f.reply .acquire .ok u))) ∧
    (granted → e.definition.isTracked = true →
      ((∃ r ∈ s.home.holds, r.index = f.index ∧ r.holder = f.sender) → exec .requestTaken s =
        .next ((lowered.withHolds (s.home.holds.map fun r =>
          if r.index = f.index ∧ r.holder = f.sender then { r with units := r.units + u } else r)).handed
            (f.reply .acquire .ok u))) ∧
      ((∀ r ∈ s.home.holds, ¬ (r.index = f.index ∧ r.holder = f.sender)) →
        (s.home.holds.length < 128 → exec .requestTaken s =
          .next ((lowered.withHolds (s.home.holds ++ [⟨f.index, f.sender, u⟩])).handed (f.reply .acquire .ok u))) ∧
        (128 ≤ s.home.holds.length → exec .requestTaken s = .next (s0.handed (f.reply .acquire .noHoldRecord 0)))))

/-- The grant pass stops at an empty list or a head whose units are not there; otherwise it serves the head, or refuses it NO_HOLD_RECORD,
and goes on; it touches no other object, no pool word and no other part of the station but the hold table, the answer list and the client
engine. -/
def Obligations.GrantPassServesFromTheHead : Prop :=
  (∀ (s : State) (i : ObjIndex),
    (∀ e w rest, s.home.has i e → e.definition.isSemaphore = true → e.waiters = w :: rest → e.level < w.units) →
    s.grantPass i = s) ∧
  (∀ (s : State) (i : ObjIndex) (e : ObjectEntry) (w : WaiterRecord) (rest : List WaiterRecord),
    s.home.has i e → e.definition.isSemaphore = true → e.waiters = w :: rest → w.units ≤ e.level →
    let lowered := s.withEntry i { e with level := e.level - w.units, waiters := rest }
    let served := AnswerItem.record w .ok (BitVec.ofNat 32 w.units)
    (e.definition.isTracked = false → s.grantPass i = (lowered.handed served).grantPass i) ∧
    (e.definition.isTracked = true →
      ((∃ r ∈ s.home.holds, r.index = i ∧ r.holder = w.requester) → s.grantPass i =
        ((lowered.withHolds (s.home.holds.map fun r =>
          if r.index = i ∧ r.holder = w.requester then { r with units := r.units + w.units } else r)).handed served).grantPass i) ∧
      ((∀ r ∈ s.home.holds, ¬ (r.index = i ∧ r.holder = w.requester)) →
        (s.home.holds.length < 128 → s.grantPass i =
          ((lowered.withHolds (s.home.holds ++ [⟨i, w.requester, w.units⟩])).handed served).grantPass i) ∧
        (128 ≤ s.home.holds.length → s.grantPass i =
          ((s.withEntry i { e with waiters := rest }).handed (.record w .noHoldRecord 0)).grantPass i)))) ∧
  ∀ (s : State) (i : ObjIndex), (∀ j, j ≠ i → (s.grantPass i).home.entry j = s.home.entry j) ∧
    s.grantPass i = { s with
      client := (s.grantPass i).client
      home := { s.home with
        objects := (s.grantPass i).home.objects, holds := (s.grantPass i).home.holds, answers := (s.grantPass i).home.answers } }

/-- RELEASE to a TRACKED semaphore: NOT_HOLDER with the units held when the station holds too few; otherwise its record falls by the units and
is freed at 0, the available units rise, the answer is OK with the units still held, and the grant pass runs. -/
def Obligations.ReleaseTracked : Prop :=
  ∀ (s : State) (f : Frame) (rest : List QueueItem) (e : ObjectEntry) (c : Nat),
    s.Takes f .release rest → s.home.has f.index e → e.definition = .tracked c → 1 ≤ f.units.toNat →
    let u := f.units.toNat
    let s0 := s.withQueue rest
    let raised := s0.withEntry f.index { e with level := e.level + u }
    ((∀ r ∈ s.home.holds, ¬ (r.index = f.index ∧ r.holder = f.sender)) →
      exec .requestTaken s = .next (s0.handed (f.reply .release .notHolder 0))) ∧
    ∀ pre r post, s.home.holds = pre ++ r :: post → r.index = f.index → r.holder = f.sender →
      (∀ x ∈ pre ++ post, ¬ (x.index = f.index ∧ x.holder = f.sender)) →
      (r.units < u → exec .requestTaken s = .next (s0.handed (f.reply .release .notHolder r.units))) ∧
      (r.units = u → exec .requestTaken s =
        .next (((raised.withHolds (pre ++ post)).handed (f.reply .release .ok 0)).grantPass f.index)) ∧
      (u < r.units → exec .requestTaken s =
        .next (((raised.withHolds (pre ++ { r with units := r.units - u } :: post)).handed
          (f.reply .release .ok (r.units - u))).grantPass f.index))

/-- RELEASE to a SIGNAL semaphore: OVERFLOW with the count when the count plus the units would exceed M, otherwise the count rises, the answer is
OK with value 0, and the grant pass runs. -/
def Obligations.ReleaseSignal : Prop :=
  ∀ (s : State) (f : Frame) (rest : List QueueItem) (e : ObjectEntry) (m n : Nat),
    s.Takes f .release rest → s.home.has f.index e → e.definition = .signal m n → 1 ≤ f.units.toNat → f.units.toNat ≤ m →
    (m < e.level + f.units.toNat →
      exec .requestTaken s = .next ((s.withQueue rest).handed (f.reply .release .overflow e.level))) ∧
    (e.level + f.units.toNat ≤ m →
      exec .requestTaken s = .next ((((s.withQueue rest).withEntry f.index { e with level := e.level + f.units.toNat }).handed
        (f.reply .release .ok 0)).grantPass f.index))

/-- A QUERY is answered OK with the level in bits 31-16 of the value and the number of WAITING records in bits 15-0, and changes nothing. -/
def Obligations.QueryAnswered : Prop :=
  ∀ (s : State) (f : Frame) (rest : List QueueItem) (e : ObjectEntry),
    s.Takes f .query rest → s.home.has f.index e → e.level ≤ 65535 → e.waiters.length ≤ 65535 →
    exec .requestTaken s = .next ((s.withQueue rest).handed (f.reply .query .ok (65536 * e.level + e.waiters.length)))

/-! ### Chapter 4: mailboxes -/

/-- POST with a taker waiting hands its word to the head taker, its own OK of value 0 first; with no taker and a full ring it is answered
FULL with 2^K. No ring word, head position or fill level changes. -/
def Obligations.PostHandsOffOrMeetsFull : Prop :=
  ∀ (s : State) (f : Frame) (rest : List QueueItem) (e : ObjectEntry) (k base : Nat),
    s.Takes f .post rest → s.home.has f.index e → e.definition = .mailbox k base →
    (∀ w others, e.waiters = w :: others → exec .requestTaken s = .next
      ((((s.withQueue rest).withEntry f.index { e with waiters := others }).handed (f.reply .post .ok 0)).handed
        (.record w .ok f.word))) ∧
    (e.waiters = [] → e.level = 2 ^ k →
      exec .requestTaken s = .next ((s.withQueue rest).handed (f.reply .post .full (2 ^ k))))

/-- POST to a ring with room: the word is written at the tail, or with the urgent flag at the new head one position back; the fill level rises
by 1 and is the value of the OK; every other pool word is kept. -/
def Obligations.PostPlacesItsWord : Prop :=
  ∀ (s : State) (f : Frame) (rest : List QueueItem) (e : ObjectEntry) (k base : Nat),
    s.Takes f .post rest → s.home.has f.index e → e.definition = .mailbox k base → e.waiters = [] → e.level < 2 ^ k →
    e.head < 2 ^ k → s.home.pool.wf →
    let head := if f.urgent then (if e.head = 0 then 2 ^ k - 1 else e.head - 1) else e.head
    let place := base + if f.urgent then head else (e.head + e.level) % 2 ^ k
    ∃ pool : Memory, (∀ a, pool.read a = if a = place then f.word else s.home.pool.read a) ∧ pool.wf ∧
      exec .requestTaken s = .next (({ s.withQueue rest with home := { s.home with
        objects := s.home.objects.set f.index (some { e with level := e.level + 1, head })
        pool } } : State).handed (f.reply .post .ok (e.level + 1)))

/-- TAKE from a ring that holds a word is given the word at the head position whatever its wait limit; from an empty ring with wait limit 0 it is
answered NOT_READY with value 0 (R75; what it does when it waits is RequestsThatWait). -/
def Obligations.TakeAnsweredAtOnce : Prop :=
  ∀ (s : State) (f : Frame) (rest : List QueueItem) (e : ObjectEntry) (k base : Nat),
    s.Takes f .take rest → s.home.has f.index e → e.definition = .mailbox k base → e.head < 2 ^ k →
    (0 < e.level → exec .requestTaken s = .next
      (((s.withQueue rest).withEntry f.index { e with level := e.level - 1, head := (e.head + 1) % 2 ^ k }).handed
        (f.reply .take .ok (s.home.pool.read (base + e.head)).toNat))) ∧
    (e.level = 0 → f.waitLimit = 0 →
      exec .requestTaken s = .next ((s.withQueue rest).handed (f.reply .take .notReady 0)))

/-! ### Chapter 5: the home engine -/

/-- What the home engine does with the request at the head: a request of a DEPARTED sender is discarded and never taken; any other is not
discarded, stays at the head while no immediate answer entry is FREE, and when it is taken in LEAVING is answered HOME_ABSENT with value 0,
whatever it is and whatever index it names.
A command whose occasion does not hold changes nothing (log entry 1). -/
def Obligations.RequestAtTheHead : Prop :=
  ∀ (s : State) (f : Frame) (op : Operation) (rest : List QueueItem), s.running = true →
    s.control.mode = .active ∨ s.control.mode = .leaving → s.link.queue = .frame f :: rest → f.kind = .request op →
    (f.sender ≠ s.control.number → s.rosterOf f.sender = .departed →
      exec .requestTaken s = .next s ∧ exec .requestDiscarded s = .next (s.withQueue rest)) ∧
    (f.sender = s.control.number ∨ s.rosterOf f.sender ≠ .departed →
      exec .requestDiscarded s = .next s ∧ (s.home.freeImmediate = 0 → exec .requestTaken s = .next s) ∧
      (s.control.mode = .leaving → 0 < s.home.freeImmediate →
        exec .requestTaken s = .next ((s.withQueue rest).handed (f.reply op .homeAbsent 0))))

/-- The outcomes of an attempt on the head of the answer list: ACCEPT removes the item; BUSY counts, and the 64th moves the requester's items to
the tail; silence counts; an outcome of an item that has left refers to nothing.
BUSY_LIMIT is the same event as its last outcome (log entry 6). In LEAVING an ACCEPT that leaves the list empty adds the LEAVE, if it was not yet
added, in the same event (log entry 7). -/
def Obligations.AnswerAttemptOutcomes : Prop :=
  ∀ (s : State) (f : Frame) (op : Operation) (accept : Bool), s.onLink = true → s.link.transmitter = .line f → f.kind = .answer op →
    let l := s.home.answers
    let ofList (answers : OutList AnswerItem) : State := { s.endAttempts with home := { s.home with answers } }
    (l.onLine = false → ∀ busy, exec (.unicastAttemptOutcome accept busy false) s = .next s.endAttempts) ∧
    ∀ x rest, l.onLine = true → l.items = x :: rest →
      exec (.unicastAttemptOutcome true false false) s = .next (ofList ⟨rest, 0, 0, false⟩).reportAnswers ∧
      (l.busyCount + 1 < 64 → exec (.unicastAttemptOutcome accept true false) s =
        .next (ofList { l with silenceRun := 0, busyCount := l.busyCount + 1, onLine := false })) ∧
      (l.busyCount = 63 →
        let deferred := ofList ⟨((x :: rest).filter fun y => decide (y.dest ≠ x.dest)) ++
          (x :: rest).filter fun y => decide (y.dest = x.dest), 0, 0, false⟩
        exec (.unicastAttemptOutcome accept true false) s = .next deferred ∧ exec .busyLimit s = .next deferred) ∧
      (l.silenceRun + 1 < 8 → exec (.unicastAttemptOutcome false false false) s =
        .next (ofList { l with silenceRun := l.silenceRun + 1, onLine := false }))

/-! ### Chapter 6: task slots and completions -/

/-- The refusals of SUBMIT in their order: outside ACTIVE; an operation, or units, out of range; no FREE slot. A refused SUBMIT changes only
RESULT. -/
def Obligations.SubmitRefusals : Prop :=
  ∀ s : State, s.running = true →
    let op := s.port.params[0].toNat % 8
    let units := s.port.params[0].toNat / 256
    (s.control.mode ≠ .active → exec .submit s = .next (s.told 6 2 0 0)) ∧
    (s.control.mode = .active →
      (op = 0 ∨ op = 6 ∨ op = 7 ∨ ((op = 1 ∨ op = 2) ∧ units = 0) → exec .submit s = .next (s.told 6 4 0 0)) ∧
      (op ≠ 0 → op ≠ 6 → op ≠ 7 → (op = 1 ∨ op = 2 → 1 ≤ units) → (∀ n, (s.client.slot n).use ≠ .free) →
        exec .submit s = .next (s.told 6 3 0 0)))

/-- A SUBMIT that passes its checks takes the lowest-numbered FREE slot, advances its tag by 1 modulo 256 and gives OK with slot and tag; a request
of a DEPARTED home is DONE with HOME_ABSENT at once, any other is QUEUED with an entry at the tail of the request list. That bits 7-5 of
RESULT1 are 0 is log entry 9. -/
def Obligations.SubmitTakesLowestFreeSlot : Prop :=
  ∀ (s : State) (r : Request) (n : SlotNum), s.running = true → s.control.mode = .active → s.port.Asks r →
    (s.client.slot n).use = .free → (∀ m < n, (s.client.slot m).use ≠ .free) → s.client.RequestsSound →
    let tag := (s.client.slot n).tag + 1
    let first := BitVec.ofNat 16 (n.val + 256 * tag.toNat)
    (homeOf r.objectId = s.control.number ∨ s.rosterOf (homeOf r.objectId) ≠ .departed → exec .submit s = .next
      ((s.withClient { s.client with
        slots := s.client.slots.set n ⟨tag, .queued r⟩
        requests := { s.client.requests with items := s.client.requests.items ++ [⟨n, .request⟩] } }).told 6 0 first 0)) ∧
    (homeOf r.objectId ≠ s.control.number → s.rosterOf (homeOf r.objectId) = .departed → exec .submit s = .next
      ((s.withClient { s.client with
        slots := s.client.slots.set n ⟨tag, .done r .homeAbsent 0⟩
        ring := s.client.ring ++ [⟨n, tag, r.operation, r.objectId, .homeAbsent, 0⟩] }).told 6 0 first 0))

/-- CANCEL by the state of the slot it names. -/
def Obligations.CancelBySlotState : Prop :=
  ∀ (s : State) (n : SlotNum), s.running = true → n.val = s.port.params[0].toNat % 32 →
    let use := (s.client.slot n).use
    let inAttempt := s.client.requests.onLine = true ∧ s.client.requests.items.head?.map RequestEntry.slot = some n
    (use = .free → exec .cancel s = .next (s.told 7 5 0 0)) ∧
    (∀ r, use = .queued r → ¬ inAttempt → exec .cancel s = .next ((s.withClient (s.client.ended n r .cancelled 0)).told 7 0 0 0)) ∧
    (∀ r, use = .queued r → inAttempt → exec .cancel s = .next (s.told 7 6 0 0)) ∧
    (∀ r, use = .sent r → r.operation = .acquire ∨ r.operation = .take → r.waitLimit ≠ 0 → exec .cancel s = .next
      ((s.withClient { s.client with
        slots := s.client.slots.set n ⟨(s.client.slot n).tag, .cancelling r⟩
        requests := { s.client.requests with items := s.client.requests.items ++ [⟨n, .withdraw⟩] } }).told 7 0 0 0)) ∧
    (∀ r, use = .sent r → ¬ (r.operation = .acquire ∨ r.operation = .take) ∨ r.waitLimit = 0 →
      exec .cancel s = .next (s.told 7 7 0 0)) ∧
    (∀ r v st, use = .cancelling r ∨ use = .returning r v ∨ use = .done r st v → exec .cancel s = .next (s.told 7 6 0 0))

/-- POP removes the head record and frees its slot with the tag kept; on an empty ring it is refused RING_EMPTY and changes nothing. -/
def Obligations.PopFreesTheHeadSlot : Prop :=
  ∀ s : State, s.running = true →
    (s.client.ring = [] → exec .pop s = .next (s.told 8 12 0 0)) ∧
    ∀ r rest, s.client.ring = r :: rest → exec .pop s = .next
      ((s.withClient { s.client with
        slots := s.client.slots.set r.slot ⟨(s.client.slot r.slot).tag, .free⟩, ring := rest }).told 8 0 0 0)

/-- The outcomes of an attempt on the head of the request list: ACCEPT removes the entry and moves a QUEUED slot to SENT; BUSY counts, and the 64th
completes the slot HOME_BUSY with the units not returned; silence counts; an outcome of an entry that has left refers to nothing.
BUSY_LIMIT is the same event as its last outcome (log entry 6). -/
def Obligations.RequestAttemptOutcomes : Prop :=
  ∀ (s : State) (f : Frame) (op : Operation) (accept : Bool), s.onLink = true → s.link.transmitter = .line f → f.kind = .request op →
    let l := s.client.requests
    let ofList (c : Client) : State := { s.endAttempts with client := c }
    (l.onLine = false → ∀ busy, exec (.unicastAttemptOutcome accept busy false) s = .next s.endAttempts) ∧
    ∀ x rest, l.onLine = true → l.items = x :: rest →
      (∀ r, x.sort = .request → (s.client.slot x.slot).use = .queued r →
        exec (.unicastAttemptOutcome true false false) s = .next (ofList { s.client with
          requests := ⟨rest, 0, 0, false⟩, slots := s.client.slots.set x.slot ⟨(s.client.slot x.slot).tag, .sent r⟩ })) ∧
      (x.sort ≠ .request → exec (.unicastAttemptOutcome true false false) s =
        .next (ofList { s.client with requests := ⟨rest, 0, 0, false⟩ })) ∧
      (l.busyCount + 1 < 64 → exec (.unicastAttemptOutcome accept true false) s =
        .next (ofList { s.client with requests := { l with silenceRun := 0, busyCount := l.busyCount + 1, onLine := false } })) ∧
      (∀ r, l.busyCount = 63 → (s.client.slot x.slot).use.busy? = some r →
        let units : Word := match (s.client.slot x.slot).use with
          | .returning _ v => v
          | _ => 0
        let ended := ofList (({ s.client with requests := ⟨x :: rest, 0, 0, false⟩ } : Client).ended x.slot r .homeBusy units)
        exec (.unicastAttemptOutcome accept true false) s = .next ended ∧ exec .busyLimit s = .next ended) ∧
      (l.silenceRun + 1 < 8 → exec (.unicastAttemptOutcome false false false) s =
        .next (ofList { s.client with requests := { l with silenceRun := l.silenceRun + 1, onLine := false } }))

/-- An answer at the head that matches no busy slot, or whose status code names none, is discarded and changes no slot, list or ring. -/
def Obligations.UnmatchedAnswersAreDiscarded : Prop :=
  ∀ (s : State) (f : Frame) (op : Operation) (rest : List QueueItem), s.onLink = true → s.link.queue = .frame f :: rest →
    f.kind = .answer op →
    (s.client.slot f.slot).use.busy? = none ∨ f.tag ≠ (s.client.slot f.slot).tag ∨
      (∃ r, (s.client.slot f.slot).use.busy? = some r ∧ (f.index ≠ indexOf r.objectId ∨ f.sender ≠ homeOf r.objectId)) ∨
      13 ≤ f.status.toNat →
    exec .answerDispatched s = .next (s.withQueue rest)

/-- A matching answer in QUEUED is discarded; in SENT one of the slot's operation ends the slot with the mapped status and the answer's value (0 for
TIMEOUT and CANCELLED), MISSED apart, and any other is discarded.
MISSED in SENT and the values are log entries 12 and 14. -/
def Obligations.AnswersToSentSlots : Prop :=
  ∀ (s : State) (f : Frame) (op : Operation) (r : Request) (rest : List QueueItem), s.Matches f op r rest → f.status.toNat ≤ 12 →
    ((s.client.slot f.slot).use = .queued r → exec .answerDispatched s = .next (s.withQueue rest)) ∧
    ((s.client.slot f.slot).use = .sent r →
      (op ≠ r.operation ∨ f.status = 4 → exec .answerDispatched s = .next (s.withQueue rest)) ∧
      ∀ status : CompletionStatus, op = r.operation → f.status ≠ 4 → status.code.toNat = f.status.toNat →
        exec .answerDispatched s = .next ((s.withQueue rest).withClient
          (s.client.ended f.slot r status (if f.status = 2 ∨ f.status = 3 then 0 else f.word))))

/-- A matching answer in CANCELLING by its status and operation, as the table of R116 has it, one that the table does not list being discarded
(log entry 12); in RETURNING one to a RELEASE ends the slot CANCELLED
with value 0 whatever its status, and any other is discarded.
The value of an error status and the end of RETURNING are log entries 14 and 12; the slot's own entry leaves the list, its counters with it
when it was the head (log entry 13). -/
def Obligations.AnswersToCancelledSlots : Prop :=
  ∀ (s : State) (f : Frame) (op : Operation) (r : Request) (rest : List QueueItem), s.Matches f op r rest → f.status.toNat ≤ 12 →
    let ends (status : CompletionStatus) (value : Word) : Prop :=
      exec .answerDispatched s = .next ((s.withQueue rest).withClient (s.client.ended f.slot r status value))
    ((s.client.slot f.slot).use = .cancelling r →
      (f.status = 3 → ends .cancelled 0) ∧ (f.status = 2 → ends .timeout 0) ∧ (f.status = 0 → op = .take → ends .late f.word) ∧
      (f.status = 0 → op = .acquire → exec .answerDispatched s = .next ((s.withQueue rest).withClient { s.client with
        slots := s.client.slots.set f.slot ⟨(s.client.slot f.slot).tag, .returning r f.word⟩
        requests :=
          let left := s.client.requests.without fun e => decide (e.slot = f.slot)
          { left with items := left.items ++ [⟨f.slot, .giveBack⟩] } })) ∧
      (f.status = 4 → exec .answerDispatched s = .next (s.withQueue rest)) ∧
      (f.status = 12 → op = r.operation ∨ op = .withdraw → ends .homeAbsent 0) ∧
      (f.status = 10 → op = r.operation ∨ op = .withdraw → ends .badObject f.word) ∧
      (op = r.operation → (f.status = 8 → ends .noWaiterRecord f.word) ∧ (f.status = 9 → ends .noHoldRecord f.word) ∧
        (f.status = 11 → ends .badRequest f.word)) ∧
      (f.status ∈ [1, 5, 6, 7] ∨ (f.status = 0 ∧ op ≠ .take ∧ op ≠ .acquire) ∨
          ((f.status = 10 ∨ f.status = 12) ∧ op ≠ r.operation ∧ op ≠ .withdraw) ∨ (f.status ∈ [8, 9, 11] ∧ op ≠ r.operation) →
        exec .answerDispatched s = .next (s.withQueue rest))) ∧
    (∀ units, (s.client.slot f.slot).use = .returning r units →
      (op = .release → ends .cancelled 0) ∧ (op ≠ .release → exec .answerDispatched s = .next (s.withQueue rest)))

/-! ### Chapter 7: the link -/

/-- The transmitter's choice: the head of the notice list, otherwise of the answer list, otherwise of the request list, with the fields its kind
carries; a request to the station itself goes by the path to itself; with three empty lists nothing is chosen.
The choice is made at FRAME_BEGIN, on lists as they then stand (log entry 5). While a place is held a broadcast's acknowledgement field is on the
line: a frame for the line waits, and the path to the station itself is free (log entry 22). -/
def Obligations.FrameBeginChooses : Prop :=
  ∀ s : State, s.onLink = true → s.link.transmitter = .free →
    (∀ x rest, s.link.notices.items = x :: rest →
      (s.link.placeHeld = true → exec .frameBegin s = .next s) ∧
      (s.link.placeHeld = false → ∃ g, exec .frameBegin s = .next { s with
          link := { s.link with transmitter := .line g, driven := none, notices := { s.link.notices with onLine := true } } } ∧
        g = { Frame.blank g.kind s.control.number .all with subject := g.subject } ∧
        (x = .join → g.kind = .notice .join ∧ g.subject = 0) ∧ (x = .leave → g.kind = .notice .leave ∧ g.subject = 0) ∧
        (∀ n, x = .depart n → g.kind = .notice .depart ∧ g.subject = n))) ∧
    (∀ x rest, s.link.notices.items = [] → s.home.answers.items = x :: rest → x.dest ≠ s.control.number →
      (s.link.placeHeld = true → exec .frameBegin s = .next s) ∧
      (s.link.placeHeld = false → exec .frameBegin s = .next { s with
        link := { s.link with driven := none, transmitter := .line { Frame.blank (.answer x.entry.operation) s.control.number (.station x.dest) with
          index := x.entry.index, slot := x.entry.slot, tag := x.entry.tag, word := x.entry.value, status := x.entry.status.code } }
        home := { s.home with answers := { s.home.answers with onLine := true } } })) ∧
    (∀ x rest r, s.link.notices.items = [] → s.home.answers.items = [] → s.client.requests.items = x :: rest →
      (s.client.slot x.slot).use.busy? = some r →
      let begun : Client := { s.client with requests := { s.client.requests with onLine := true } }
      (homeOf r.objectId = s.control.number → ∃ g, s.FrameOf x r g ∧
        exec .frameBegin s = .next { s with link := { s.link with transmitter := .ownPath g }, client := begun }) ∧
      (homeOf r.objectId ≠ s.control.number →
        (s.link.placeHeld = true → exec .frameBegin s = .next s) ∧
        (s.link.placeHeld = false → ∃ g, s.FrameOf x r g ∧
          exec .frameBegin s = .next { s with link := { s.link with transmitter := .line g, driven := none }, client := begun }))) ∧
    (s.link.notices.items = [] → s.home.answers.items = [] → s.client.requests.items = [] → exec .frameBegin s = .next s)

/-- The leading field settles contention: a station has lost when it drives a 1 and the line shows a 0 in the first bit in which they differ, so the
lower class, then the lower sender number, goes on. The loser stops driving and keeps its frame, its place and its counters.
The operand of LOSS_OF_ARBITRATION is the leading field on the line (log entry 23); an event that does not come about changes nothing (log entry 1). -/
def Obligations.LowerLeadingFieldGoesOn : Prop :=
  (∀ f g : Frame, (∃ i < 7, (∀ j < i, f.leading.getMsbD j = g.leading.getMsbD j) ∧ g.leading.getMsbD i = true ∧
      f.leading.getMsbD i = false) ↔
    f.kind.classCode < g.kind.classCode ∨ f.kind.classCode = g.kind.classCode ∧ f.sender < g.sender) ∧
  ∀ (s : State) (g : Frame) (line : BitVec 7), s.onLink = true → s.link.transmitter = .line g →
    ((∃ i < 7, (∀ j < i, line.getMsbD j = g.leading.getMsbD j) ∧ g.leading.getMsbD i = true ∧ line.getMsbD i = false) →
      exec (.lossOfArbitration line) s = .next { s with
        link := { s.link with transmitter := .free, notices := { s.link.notices with onLine := false } }
        home := { s.home with answers := { s.home.answers with onLine := false } }
        client := { s.client with requests := { s.client.requests with onLine := false } } }) ∧
    (¬ (∃ i < 7, (∀ j < i, line.getMsbD j = g.leading.getMsbD j) ∧ g.leading.getMsbD i = true ∧ line.getMsbD i = false) →
      exec (.lossOfArbitration line) s = .next s)

/-- A frame that is not well formed, was not heard from its leading field on, or is cut short drives nothing and has no other effect.
The operands of FRAME_HEARD and when the receiver has the line are log entries 19 and 22. -/
def Obligations.FramesNotHeard : Prop :=
  ∀ (s : State), s.onLink = true → (∀ f, s.link.transmitter ≠ .line f) → s.link.placeHeld = false →
    exec .frameCutShort s = .next (s.driving none) ∧
    ∀ bits whole, whole = false ∨ Frame.parse bits = none → exec (.frameHeard bits whole) s = .next (s.driving none)

/-- A heard unicast: its sender is reported, then one for another station drives nothing; one for the station itself meets silence in JOINING, else
STALE from a DEPARTED sender, BUSY at a full queue, and otherwise ACCEPT and a place at the tail.
The mark driven stays in State (log entry 20). -/
def Obligations.UnicastDecision : Prop :=
  ∀ (s : State) (bits : BitVec 120) (f : Frame) (n : StationNum), s.onLink = true → (∀ g, s.link.transmitter ≠ .line g) →
    s.link.placeHeld = false → Frame.parse bits = some f → f.sender ≠ s.control.number → f.dest = .station n →
    let s1 := if s.rosterOf f.sender = .unknown then { s with roster := s.roster.set f.sender .present } else s
    (n ≠ s.control.number ∨ s.control.mode = .joining → exec (.frameHeard bits true) s = .next (s1.driving none)) ∧
    (n = s.control.number → s.control.mode ≠ .joining →
      (s.rosterOf f.sender = .departed → exec (.frameHeard bits true) s = .next (s1.driving (some .stale))) ∧
      (s.rosterOf f.sender ≠ .departed → 16 ≤ s.link.queue.length →
        exec (.frameHeard bits true) s = .next (s1.driving (some .busy))) ∧
      (s.rosterOf f.sender ≠ .departed → s.link.queue.length < 16 → exec (.frameHeard bits true) s =
        .next ((s1.withQueue (s.link.queue ++ [.frame f])).driving (some .accept))))

/-- A heard notice: its sender is reported unless it is a LEAVE; a full queue drives BUSY, otherwise a place is held at the tail. At the end of the
acknowledgement field the notice takes the place, or the place is released when some receiver drove BUSY.
A held place is an item of the queue (log entry 8). -/
def Obligations.BroadcastDecisionAndPlace : Prop :=
  (∀ (s : State) (bits : BitVec 120) (f : Frame), s.onLink = true → (∀ g, s.link.transmitter ≠ .line g) → s.link.placeHeld = false →
    Frame.parse bits = some f → f.sender ≠ s.control.number → f.dest = .all →
    let s1 := if s.rosterOf f.sender = .unknown ∧ f.kind ≠ .notice .leave then { s with roster := s.roster.set f.sender .present } else s
    (16 ≤ s.link.queue.length → exec (.frameHeard bits true) s = .next (s1.driving (some .busy))) ∧
    (s.link.queue.length < 16 →
      exec (.frameHeard bits true) s = .next ((s1.withQueue (s.link.queue ++ [.place f])).driving none))) ∧
  ∀ (s : State) (pre post : List QueueItem) (f : Frame), s.onLink = true → s.link.queue = pre ++ .place f :: post →
    (∀ x ∈ pre ++ post, x.isFrame = true) →
    exec (.broadcastPlaceSettled false) s = .next ((s.withQueue (pre ++ .frame f :: post)).driving none) ∧
    exec (.broadcastPlaceSettled true) s = .next ((s.withQueue (pre ++ post)).driving none)

/-- The outcomes of an attempt on the head notice: delivered, a JOIN makes the station ACTIVE and raises JOINED, a LEAVE ends the leave sequence, a
DEPART is removed; BUSY counts; at the 64th BUSY a JOIN fails, a LEAVE ends the leave sequence and a DEPART is dropped.
BUSY_LIMIT is the same event as its last outcome (log entry 6). -/
def Obligations.NoticeAttemptOutcomes : Prop :=
  ∀ (s : State) (f : Frame) (k : NoticeKind) (x : Notice) (rest : List Notice), s.onLink = true → s.link.transmitter = .line f →
    f.kind = .notice k → s.link.notices.onLine = true → s.link.notices.items = x :: rest →
    let dropped : State := { s.endAttempts with link := { s.link with transmitter := .free, notices := ⟨rest, 0, 0, false⟩ } }
    (x = .join → exec (.broadcastAttemptOutcome false) s = .next { dropped with
      control := { s.control with mode := .active, events := { s.control.events with joined := true } } }) ∧
    (x = .leave → ∃ t, exec (.broadcastAttemptOutcome false) s = .next t ∧ s.Leaves t) ∧
    (∀ n, x = .depart n → exec (.broadcastAttemptOutcome false) s = .next dropped) ∧
    (s.link.notices.busyCount + 1 < 64 → exec (.broadcastAttemptOutcome true) s = .next { s.endAttempts with link := { s.link with
      transmitter := .free
      notices := { s.link.notices with silenceRun := 0, busyCount := s.link.notices.busyCount + 1, onLine := false } } }) ∧
    (s.link.notices.busyCount = 63 → ∀ c ∈ [Instr.broadcastAttemptOutcome true, .busyLimit],
      (x = .join → ∃ t, exec c s = .next t ∧ s.FailsToJoin t) ∧ (x = .leave → ∃ t, exec c s = .next t ∧ s.Leaves t) ∧
      ∀ n, x = .depart n → exec c s = .next dropped)

/-- The end of an attempt by the path to the station itself: with room the request joins the tail of the receive queue and its entry is accepted; a
full queue is a BUSY toward the entry's limit, and at the 64th the slot completes HOME_BUSY with the units not returned (BUSY_LIMIT is that
same event, log entry 6); an entry that has left is not moved though its request is offered. -/
def Obligations.OwnPathAttemptEnds : Prop :=
  ∀ (s : State) (f : Frame) (op : Operation), s.onLink = true → s.link.transmitter = .ownPath f → f.kind = .request op →
    let l := s.client.requests
    let ofList (c : Client) : State := { s.endAttempts with client := c }
    let offered : List QueueItem := s.link.queue ++ [.frame f]
    (s.link.queue.length < 16 →
      (l.onLine = false → exec .ownPathAttemptEnd s = .next (s.endAttempts.withQueue offered)) ∧
      ∀ x rest, l.onLine = true → l.items = x :: rest →
        (∀ r, x.sort = .request → (s.client.slot x.slot).use = .queued r → exec .ownPathAttemptEnd s =
          .next ((ofList { s.client with
            requests := ⟨rest, 0, 0, false⟩, slots := s.client.slots.set x.slot ⟨(s.client.slot x.slot).tag, .sent r⟩ }).withQueue
              offered)) ∧
        (x.sort ≠ .request → exec .ownPathAttemptEnd s =
          .next ((ofList { s.client with requests := ⟨rest, 0, 0, false⟩ }).withQueue offered))) ∧
    (16 ≤ s.link.queue.length →
      (l.onLine = false → exec .ownPathAttemptEnd s = .next s.endAttempts) ∧
      ∀ x rest, l.onLine = true → l.items = x :: rest →
        (l.busyCount + 1 < 64 → exec .ownPathAttemptEnd s =
          .next (ofList { s.client with requests := { l with silenceRun := 0, busyCount := l.busyCount + 1, onLine := false } })) ∧
        ∀ r, l.busyCount = 63 → (s.client.slot x.slot).use.busy? = some r →
          let units : Word := match (s.client.slot x.slot).use with
            | .returning _ v => v
            | _ => 0
          ∀ c ∈ [Instr.ownPathAttemptEnd, .busyLimit], exec c s =
            .next (ofList (({ s.client with requests := ⟨x :: rest, 0, 0, false⟩ } : Client).ended x.slot r .homeBusy units)))

/-- The 120 bits of a frame and its fields determine each other: a well-formed frame's bits are heard as that frame, and bits heard as a frame are
its bits. -/
def Obligations.FrameBitsRoundTrip : Prop :=
  (∀ f : Frame, f.wellFormed = true → Frame.parse f.encode = some f) ∧
  ∀ (bits : BitVec 120) (f : Frame), Frame.parse bits = some f → f.wellFormed = true ∧ f.encode = bits

/-! ### Chapter 8: roster, departure and eviction -/

/-- Every cause of eviction does and keeps what R165 and R166 say: a difference in the body, a heard frame with the station's own number, a STALE
outcome, and a DEPART naming the station.
That an earlier pending cause is kept is log entry 29. -/
def Obligations.EvictionOnEveryCause : Prop :=
  ∀ s : State, s.onLink = true →
    (∀ f, s.link.transmitter = .line f → ∃ t, exec .bodyDifference s = .next t ∧ s.Evicts t .duplicate) ∧
    (∀ f accept busy, s.link.transmitter = .line f → (∀ k, f.kind ≠ .notice k) →
      ∃ t, exec (.unicastAttemptOutcome accept busy true) s = .next t ∧ s.Evicts t .stale) ∧
    (∀ bits f, (∀ g, s.link.transmitter ≠ .line g) → s.link.placeHeld = false → Frame.parse bits = some f →
      f.sender = s.control.number → ∃ t, exec (.frameHeard bits true) s = .next t ∧ s.Evicts t .duplicate) ∧
    ∀ f rest, s.link.queue = .frame f :: rest → f.kind = .notice .depart → f.subject = s.control.number →
      ∃ t, exec .departDispatched s = .next t ∧ s.Evicts t .departNotice

/-- The notices dispatched about another station `n`: a JOIN purges it whatever its entry, makes it PRESENT and takes a DEPART naming it off the
notice list, unless that DEPART is in an attempt on the line, which keeps it; a LEAVE from it or a DEPART naming it purges it and makes it
DEPARTED, or has no effect when it is DEPARTED already. The purge completes the busy slots for its objects HOME_ABSENT in slot-number order,
removes its waiting records and the answers addressed to it, and returns its units, with the grant passes that follow. After it nothing of `n`
is left, no other roster entry and no object without a record or holding of `n` has changed, and no DEPART was added. An answer list that it leaves
empty in LEAVING adds the LEAVE in the same event (log entry 7). -/
def Obligations.NoticesPurgeTheirStation : Prop :=
  ∀ (s : State) (f : Frame) (rest : List QueueItem), DeviceLaws s → s.onLink = true → s.link.queue = .frame f :: rest →
    (f.kind = .notice .join → f.sender ≠ s.control.number →
      let sends : Prop := s.link.notices.onLine = true ∧ s.link.notices.items.head? = some (.depart f.sender)
      ∃ u t, (s.withQueue rest).PurgeRuns f.sender u ∧ exec .joinDispatched s = .next t ∧
        (sends → t = ({ u with roster := s.roster.set f.sender .present } : State).reportAnswers) ∧
        (¬ sends → t = ({ u with
          roster := s.roster.set f.sender .present
          link := { u.link with notices := s.link.notices.without fun x => decide (x = .depart f.sender) } } : State).reportAnswers) ∧
        t.PurgedOf f.sender ∧ s.PurgeKeeps f.sender t ∧ t.link.queue = rest ∧
        t.rosterOf f.sender = .present ∧ (∀ m, m ≠ f.sender → t.rosterOf m = s.rosterOf m) ∧
        (.depart f.sender ∈ t.link.notices.items ↔ sends) ∧
        ∀ m, m ≠ f.sender → (.depart m ∈ t.link.notices.items ↔ .depart m ∈ s.link.notices.items)) ∧
    ∀ n c, (f.kind = .notice .leave ∧ c = Instr.leaveDispatched ∧ n = f.sender) ∨
        (f.kind = .notice .depart ∧ c = Instr.departDispatched ∧ n = f.subject) → n ≠ s.control.number →
      (s.rosterOf n = .departed → exec c s = .next (s.withQueue rest)) ∧
      (s.rosterOf n ≠ .departed → ∃ u t, (s.withQueue rest).PurgeRuns n u ∧ exec c s = .next t ∧
        t = ({ u with roster := s.roster.set n .departed } : State).reportAnswers ∧
        t.PurgedOf n ∧ s.PurgeKeeps n t ∧ t.link.queue = rest ∧
        t.rosterOf n = .departed ∧ (∀ m, m ≠ n → t.rosterOf m = s.rosterOf m) ∧
        ∀ m, .depart m ∈ t.link.notices.items ↔ .depart m ∈ s.link.notices.items)

/-- The eighth consecutive silence on a unicast declares its destination departed in one event: the attempt ends with its list's counters
cleared, the station is purged (its slots HOME_ABSENT in slot-number order, its records and answers removed, its units returned), its entry is
DEPARTED, and a DEPART naming it stands on the notice list; no object without a record or holding of it has changed.
SILENCE_LIMIT is the same event as its last outcome (log entry 6). In LEAVING an answer list that the purge leaves empty adds the LEAVE, if it was
not yet added, behind that DEPART in the same event (log entry 7). -/
def Obligations.SilenceLimitDeclaresDeparted : Prop :=
  ∀ (s start : State) (f : Frame) (n : StationNum), DeviceLaws s → s.onLink = true → s.link.transmitter = .line f → f.dest = .station n →
    n ≠ s.control.number → s.rosterOf n ≠ .departed →
    (∃ op, f.kind = .answer op ∧ s.home.answers.onLine = true ∧ s.home.answers.silenceRun = 7 ∧ start = { s.endAttempts with
        home := { s.home with answers := ⟨s.home.answers.items, 0, 0, false⟩ } }) ∨
      (∃ op, f.kind = .request op ∧ s.client.requests.onLine = true ∧ s.client.requests.silenceRun = 7 ∧ start = { s.endAttempts with
        client := { s.client with requests := ⟨s.client.requests.items, 0, 0, false⟩ } }) →
    ∃ u t, start.PurgeRuns n u ∧ exec .silenceLimit s = .next t ∧ exec (.unicastAttemptOutcome false false false) s = .next t ∧
      t = ({ u with
        roster := s.roster.set n .departed
        link := { u.link with notices := { u.link.notices with
          items := u.link.notices.items ++ if .depart n ∈ s.link.notices.items then [] else [.depart n] } } } : State).reportAnswers ∧
      t.PurgedOf n ∧ start.PurgeKeeps n t ∧ t.link.queue = s.link.queue ∧
      t.rosterOf n = .departed ∧ (∀ m, m ≠ n → t.rosterOf m = s.rosterOf m) ∧
      .depart n ∈ t.link.notices.items ∧ ∀ m, m ≠ n → (.depart m ∈ t.link.notices.items ↔ .depart m ∈ s.link.notices.items)

/-! ### Chapter 9: station control and the local port -/

/-- JOIN in CONFIG sets the runtime state to its initial values and the roster to UNKNOWN, adds the JOIN notice and enters JOINING; in every
other state it is refused NOT_CONFIG. -/
def Obligations.JoinCommandTaken : Prop :=
  ∀ s : State, s.running = true →
    (s.control.mode = .config → ∃ t, exec .joinCommand s = .next t ∧ s.home.Renewed t.home ∧ (∀ n, t.rosterOf n = .unknown) ∧
      t = ({ s with
        control := { s.control with mode := .joining }
        roster := t.roster
        home := { s.home with objects := t.home.objects, pool := t.home.pool, holds := [] }
        link := { s.link with notices := { s.link.notices with items := s.link.notices.items ++ [.join] } } } : State).told 3 0 0 0) ∧
    (s.control.mode ≠ .config → exec .joinCommand s = .next (s.told 3 1 0 0))

/-- LEAVE outside ACTIVE is refused NOT_ACTIVE, and in ACTIVE with a busy slot SLOTS_BUSY. Taken, it enters LEAVING, answers every WAITING record
HOME_ABSENT in index and list order, frees every hold record, sets every TRACKED semaphore to its capacity, keeps every count and ring, and
adds the LEAVE when the answer list is then empty.
That the LEAVE is added in this same event is log entry 7. -/
def Obligations.LeaveCommandTaken : Prop :=
  ∀ s : State, s.running = true →
    (s.control.mode ≠ .active → exec .leaveCommand s = .next (s.told 4 2 0 0)) ∧
    (s.control.mode = .active → (∃ n, (s.client.slot n).use.busy = true) → exec .leaveCommand s = .next (s.told 4 11 0 0)) ∧
    (s.control.mode = .active → (∀ n, (s.client.slot n).use.busy = false) →
      let flushed := (allIndexes.flatMap s.home.waitersAt).filter fun w => decide (w.requester ≠ s.control.number)
      let answers := s.home.answers.items ++ flushed.map fun w => AnswerItem.record w .homeAbsent 0
      ∃ t, exec .leaveCommand s = .next t ∧
        (∀ i, t.home.entry i = (s.home.entry i).map fun e =>
          { e with waiters := [], level := match e.definition with
            | .tracked c => c
            | _ => e.level }) ∧
        t = ({ s with
          control := { s.control with mode := .leaving, leaveQueued := decide (answers = []) }
          home := { s.home with
            objects := t.home.objects, holds := [], answers := { s.home.answers with items := answers } }
          link := { s.link with notices := { s.link.notices with
            items := s.link.notices.items ++ if answers = [] then [.leave] else [] } } } : State).told 4 0 0 0)

/-- The LEAVE joins the notice list once in a leave sequence, when the answer list is empty while LEAVING: at the event that empties the list and
at LEAVE_NOTICE_QUEUED (log entry 7). -/
def Obligations.LeaveNoticeAddedOnce : Prop :=
  ∀ s : State,
    let added : State := { s with
      link := { s.link with notices := { s.link.notices with items := s.link.notices.items ++ [.leave] } }
      control := { s.control with leaveQueued := true } }
    (s.control.mode = .leaving → s.home.answers.items = [] → s.control.leaveQueued = false →
      s.reportAnswers = added ∧ (s.running = true → exec .leaveNoticeQueued s = .next added)) ∧
    (s.control.mode ≠ .leaving ∨ s.home.answers.items ≠ [] ∨ s.control.leaveQueued = true →
      s.reportAnswers = s ∧ exec .leaveNoticeQueued s = .next s)

/-- RESET in every station state: slots FREE with their tags, lists, ring, pools and queues empty, runtime state at initial values, roster UNKNOWN,
events clear, object window absent, CONFIG; definitions, number, rate, enables, parameters, VSEL and station time kept; RESULT OK, the
selected view captured afresh, LINT deasserted.
The capture shows the state after RESET (log entry 31). -/
def Obligations.ResetCommandTaken : Prop :=
  ∀ s : State, s.running = true → ∃ t, exec .resetCommand s = .next t ∧
    (∀ n, t.client.slot n = ⟨(s.client.slot n).tag, .free⟩) ∧ t.client.requests = ⟨[], 0, 0, false⟩ ∧ t.client.ring = [] ∧
    s.home.Renewed t.home ∧ t.home.answers = ⟨[], 0, 0, false⟩ ∧ t.link = ⟨⟨[], 0, 0, false⟩, [], .free, none⟩ ∧
    (∀ n, t.rosterOf n = .unknown) ∧
    t.control = { s.control with mode := .config, events := ⟨false, false, false, false, none⟩, leaveQueued := false } ∧
    t.port = { s.port.answered 5 0 0 0 with
      window := ⟨0, 0, 0, 0, 0, 0, 0, 0⟩, views := t.view s.port.vsel } ∧
    t.lint = false ∧ t.pending = s.pending

/-- READ_EVENTS in every station state gives the four flags, the eviction cause and the station state in RESULT1 and clears every flag and the
cause. That the bits of RESULT1 which R195 does not name are 0 is log entry 9. -/
def Obligations.ReadEventsCapturesAndClears : Prop :=
  ∀ s : State, s.running = true →
    let e := s.control.events
    let flags := e.joined.toNat + 2 * e.joinFailed.toNat + 4 * e.left.toNat + 8 * e.evicted.toNat
    exec .readEvents s = .next
      (({ s with control := { s.control with events := ⟨false, false, false, false, none⟩ } } : State).told 10 0
        (BitVec.ofNat 16 (flags + 256 * (EvictionCause.code e.cause).toNat + 4096 * s.control.mode.code.toNat)) 0)

/-- Accesses of the register window: a code that names no command is refused BAD_REQUEST and changes nothing else; a write of IE sets both enables and LINT follows
at once; a write of P0-P4 stores the value; a write of VSEL captures the view it selects; a read of V0 gives the selected view's first register and
captures the others in the same event.
IE and VSEL hold the value as written (log entry 9); the word read is kept in State (log entry 21). -/
def Obligations.RegisterAccesses : Prop :=
  ∀ s : State, s.running = true →
    (∀ code : Reg, code.toNat = 0 ∨ 11 ≤ code.toNat → ∃ t, exec (.undefinedCommandCode code) s = .next t ∧
      t = { s with port := { s.port with command := code, result0 := t.port.result0, result1 := 0, result2 := 0 } } ∧
      t.port.result0.toNat % 256 = 4 ∧ (code.toNat < 256 → t.port.result0.toNat / 256 = code.toNat)) ∧
    (∀ value : Reg, ∃ t, exec (.interruptEnableWrite value) s = .next t ∧ t = { s with port := { s.port with ie := value } } ∧
      (t.lint = true ↔ (s.client.ring ≠ [] ∧ value.toNat % 2 = 1) ∨
        ((s.control.events.joined = true ∨ s.control.events.joinFailed = true ∨ s.control.events.left = true ∨
          s.control.events.evicted = true) ∧ value.toNat / 2 % 2 = 1))) ∧
    (∀ (r : Fin 5) (value : Reg), exec (.parameterRegisterWrite r value) s = .next
      { s with port := { s.port with params := s.port.params.set r value } }) ∧
    (∀ value : Reg, exec (.vselWrite value) s = .next { s with port := { s.port with vsel := value, views := s.view value } }) ∧
    exec .v0Read s = .next { s with port := { s.port with
      views := s.view s.port.vsel, dataOut := (s.view s.port.vsel)[0] } }

/-! ### Chapter 11: the register window -/

/-- What the views show, register by register, within the capacities. That the bits which R196 does not name are 0 is log entry 9; that view 3
counts frames without a place held is log entry 8. -/
def Obligations.ViewsShowTheState : Prop :=
  ∀ (s : State) (vsel : Reg), DeviceLaws s →
    let v (i : Fin 5) : Nat := ((s.view vsel)[i]).toNat
    let number := vsel.toNat % 8
    (number = 0 → (s.client.ring = [] → ∀ i, v i = 0) ∧ ∀ r rest, s.client.ring = r :: rest →
      v 0 = s.client.ring.length + 256 * r.slot.val ∧
      v 1 = r.tag.toNat + 256 * r.operation.code.toNat + 2048 * r.status.code.toNat ∧ v 2 = r.objectId.val ∧
      v 3 + 65536 * v 4 = r.value.toNat) ∧
    (number = 1 → v 0 = s.port.window.index.toNat + 64 * s.port.window.kind.toNat + 256 * s.port.window.head.toNat ∧
      v 1 = s.port.window.first.toNat ∧ v 2 = s.port.window.second.toNat ∧ v 3 = s.port.window.level.toNat ∧
      v 4 = s.port.window.waiters.toNat + 256 * s.port.window.holds.toNat) ∧
    (number = 2 → v 0 = s.control.mode.code.toNat + 16 * s.control.number.val + 4096 * s.control.rate.val ∧
      v 1 + 65536 * v 2 = s.control.time.toNat ∧ v 3 = 0 ∧ v 4 = 0) ∧
    (number = 3 → v 0 + s.home.waitingCount + s.home.answers.items.countP AnswerItem.isRecord = 96 ∧
      v 1 + s.home.holds.length = 128 ∧ v 2 + (s.home.answers.items.countP fun x => !x.isRecord) = 16 ∧
      v 3 = s.home.answers.items.length ∧
      v 4 = s.link.queue.countP QueueItem.isFrame + 256 * s.link.notices.items.length) ∧
    (number = 4 → ∀ n : SlotNum, n.val = vsel.toNat / 256 % 32 →
      v 0 = (s.client.slot n).use.code.toNat + 256 * (s.client.slot n).tag.toNat ∧ v 1 = s.client.requests.items.length ∧
      v 2 = s.client.ring.length ∧ v 3 = 0 ∧ v 4 = 0) ∧
    (number = 5 → (∀ n : StationNum, v ⟨n.val / 8, by omega⟩ / 4 ^ (n.val % 8) % 4 =
      if n = s.control.number then 0 else (s.rosterOf n).code.toNat) ∧ v 4 = 0) ∧
    (6 ≤ number → ∀ i, v i = 0)

/-! ### The laws of the device -/

/-- The state after reset satisfies every law. -/
def Obligations.LawsHoldAtReset : Prop := DeviceLaws State.reset

/-- Laws 1 and 2: a step keeps the units of every TRACKED semaphore conserved and the hold table sound. -/
def Obligations.StepsConserveTrackedUnits : Prop :=
  ∀ s t : State, DeviceLaws s → step s = .next t → t.home.Conserves ∧ t.home.HoldsSound

/-- Laws 3, 4 and 5: a step keeps every level within its bound, every mailbox with a waiting taker empty, and every semaphore's head
unsatisfiable. -/
def Obligations.StepsKeepLevelsAndHeads : Prop :=
  ∀ s t : State, DeviceLaws s → step s = .next t → t.home.LevelsFit ∧ t.home.HeadsWait ∧ t.home.RecordsFit

/-- Law 6: a step keeps every waiter list ordered by priority and arrival. -/
def Obligations.StepsKeepListsOrdered : Prop :=
  ∀ s t : State, s.home.ListsOrdered → step s = .next t → t.home.ListsOrdered

/-- Law 7: a step keeps at most one record for a requester station and slot. -/
def Obligations.StepsKeepOneRecordPerSlot : Prop :=
  ∀ s t : State, DeviceLaws s → step s = .next t → t.home.OnePerSlot

/-- Law 8 and the other bounds: a step keeps the pools, the receive queue and the counters within their bounds. -/
def Obligations.StepsKeepCapacities : Prop :=
  ∀ s t : State, DeviceLaws s → step s = .next t → t.home.WithinPools ∧ t.link.QueueSound ∧ t.CountersSound

/-- A step keeps the data word pool in canonical form with its account, its rings apart and every word outside them 0. -/
def Obligations.StepsKeepThePool : Prop :=
  ∀ s t : State, DeviceLaws s → step s = .next t → t.home.PoolSound

/-- Laws 9 and 10: a step keeps exactly one completion record for each DONE slot, and the request list entries with the slots they belong to. -/
def Obligations.StepsKeepRingAndRequests : Prop :=
  ∀ s t : State, DeviceLaws s → step s = .next t → t.client.RingSound ∧ t.client.RequestsSound

/-- Law 11: a step keeps what each station state rules out, the notice list sound, attempts with their frames, and the eviction cause with its
flag. That in LEAVING an empty answer list has already added the LEAVE is log entry 7. -/
def Obligations.StepsKeepQuietStates : Prop :=
  ∀ s t : State, DeviceLaws s → step s = .next t → t.QuietStates ∧ t.NoticesSound ∧ t.AttemptSound ∧ t.control.events.CauseSound

/-- Law 12: a step leaves no slot busy with an object of a DEPARTED station, nothing of a DEPARTED station at the home, and the own roster entry
UNKNOWN. -/
def Obligations.StepsLeaveNothingOfTheDeparted : Prop :=
  ∀ s t : State, DeviceLaws s → step s = .next t → t.NoBusyForDeparted ∧ t.NothingOfDeparted ∧ t.OwnNumberUnused
end

