-- ==== Sys2Proof/Laws/State.lean ====
section
/-! SUPPORT. One lemma per field per named update of the state, and the reads after the writes of the tables. -/

namespace Sys2Proof.Machine

/-! ### Tables -/

/-- The object table after one entry is set. -/
theorem Home.entry_setEntry (h : Home) (i j : ObjIndex) (e : ObjectEntry) :
    (h.setEntry i e).entry j = if j = i then some e else h.entry j := by
  simp only [Home.entry, Home.setEntry, Fin.getElem_fin, Vector.getElem_set, Fin.ext_iff, eq_comm]

@[simp] theorem Home.entry_setEntry_same (h : Home) (i : ObjIndex) (e : ObjectEntry) : (h.setEntry i e).entry i = some e := by
  simp [Home.entry_setEntry]

@[simp] theorem Home.entry_setEntry_other (h : Home) {i j : ObjIndex} (e : ObjectEntry) (hne : j ≠ i) :
    (h.setEntry i e).entry j = h.entry j := by
  simp [Home.entry_setEntry, hne]

/-- An element of a mapped vector. -/
@[simp] theorem getElem_mapVec {α β : Type} {n : Nat} (f : α → β) (v : Vector α n) (i : Nat) (hi : i < n) :
    (mapVec f v)[i] = f v[i] := by
  simp [mapVec]

/-- The table after every entry is mapped. -/
theorem Home.entry_mapVec (h : Home) (f : Option ObjectEntry → Option ObjectEntry) (i : ObjIndex) :
    Home.entry { h with objects := mapVec f h.objects } i = f (h.entry i) := by
  simp [Home.entry]

/-- The slots after one is set. -/
theorem Client.slot_set (c : Client) (n m : SlotNum) (t : TaskSlot) :
    Client.slot { c with slots := c.slots.set n t } m = if m = n then t else c.slot m := by
  simp only [Client.slot, Fin.getElem_fin, Vector.getElem_set, Fin.ext_iff, eq_comm]

/-- A slot after what a slot holds is set. -/
theorem Client.slot_setUse (c : Client) (n m : SlotNum) (u : SlotUse) :
    (c.setUse n u).slot m = if m = n then { c.slot n with use := u } else c.slot m := Client.slot_set c n m _

/-- The roster after a station is marked. -/
theorem State.rosterOf_mark (s : State) (n m : StationNum) (e : RosterEntry) :
    (s.mark n e).rosterOf m = if m = n ∧ n ≠ s.control.number then e else s.rosterOf m := by
  simp only [State.mark, State.rosterOf]
  by_cases h : n = s.control.number
  · simp [h]
  · simp only [h, if_false, Fin.getElem_fin, Vector.getElem_set, ne_eq, not_false_eq_true, and_true, Fin.ext_iff, eq_comm]

/-- Every entry of the roster set UNKNOWN is UNKNOWN. -/
@[simp] theorem getElem_rosterUnknown (n : Nat) (h : n < 32) : rosterUnknown[n] = RosterEntry.unknown := by
  simp [rosterUnknown]

/-- So it is as a state's roster. -/
theorem State.rosterOf_of_unknown {s : State} (h : s.roster = rosterUnknown) (n : StationNum) : s.rosterOf n = .unknown := by
  simp [State.rosterOf, h]

/-! ### State.setEntry -/

@[simp] theorem State.setEntry_pending (s : State) (i : ObjIndex) (e : ObjectEntry) : (s.setEntry i e).pending = s.pending := rfl
@[simp] theorem State.setEntry_control (s : State) (i : ObjIndex) (e : ObjectEntry) : (s.setEntry i e).control = s.control := rfl
@[simp] theorem State.setEntry_roster (s : State) (i : ObjIndex) (e : ObjectEntry) : (s.setEntry i e).roster = s.roster := rfl
@[simp] theorem State.setEntry_home (s : State) (i : ObjIndex) (e : ObjectEntry) : (s.setEntry i e).home = s.home.setEntry i e := rfl
@[simp] theorem State.setEntry_client (s : State) (i : ObjIndex) (e : ObjectEntry) : (s.setEntry i e).client = s.client := rfl
@[simp] theorem State.setEntry_link (s : State) (i : ObjIndex) (e : ObjectEntry) : (s.setEntry i e).link = s.link := rfl
@[simp] theorem State.setEntry_port (s : State) (i : ObjIndex) (e : ObjectEntry) : (s.setEntry i e).port = s.port := rfl
@[simp] theorem Home.setEntry_poolUsed (h : Home) (i : ObjIndex) (e : ObjectEntry) : (h.setEntry i e).poolUsed = h.poolUsed := rfl
@[simp] theorem Home.setEntry_pool (h : Home) (i : ObjIndex) (e : ObjectEntry) : (h.setEntry i e).pool = h.pool := rfl
@[simp] theorem Home.setEntry_holds (h : Home) (i : ObjIndex) (e : ObjectEntry) : (h.setEntry i e).holds = h.holds := rfl
@[simp] theorem Home.setEntry_arrivals (h : Home) (i : ObjIndex) (e : ObjectEntry) : (h.setEntry i e).arrivals = h.arrivals := rfl
@[simp] theorem Home.setEntry_answers (h : Home) (i : ObjIndex) (e : ObjectEntry) : (h.setEntry i e).answers = h.answers := rfl

/-! ### Client.setUse and Client.dropEntry -/

@[simp] theorem Client.setUse_requests (c : Client) (n : SlotNum) (u : SlotUse) : (c.setUse n u).requests = c.requests := rfl
@[simp] theorem Client.setUse_ring (c : Client) (n : SlotNum) (u : SlotUse) : (c.setUse n u).ring = c.ring := rfl
@[simp] theorem Client.dropEntry_slots (c : Client) (n : SlotNum) : (c.dropEntry n).slots = c.slots := rfl
@[simp] theorem Client.dropEntry_ring (c : Client) (n : SlotNum) : (c.dropEntry n).ring = c.ring := rfl
@[simp] theorem Client.dropEntry_slot (c : Client) (n m : SlotNum) : (c.dropEntry n).slot m = c.slot m := rfl

/-! ### State.mark -/

@[simp] theorem State.mark_pending (s : State) (n : StationNum) (e : RosterEntry) : (s.mark n e).pending = s.pending := by
  unfold State.mark; split <;> rfl
@[simp] theorem State.mark_control (s : State) (n : StationNum) (e : RosterEntry) : (s.mark n e).control = s.control := by
  unfold State.mark; split <;> rfl
@[simp] theorem State.mark_home (s : State) (n : StationNum) (e : RosterEntry) : (s.mark n e).home = s.home := by
  unfold State.mark; split <;> rfl
@[simp] theorem State.mark_client (s : State) (n : StationNum) (e : RosterEntry) : (s.mark n e).client = s.client := by
  unfold State.mark; split <;> rfl
@[simp] theorem State.mark_link (s : State) (n : StationNum) (e : RosterEntry) : (s.mark n e).link = s.link := by
  unfold State.mark; split <;> rfl
@[simp] theorem State.mark_port (s : State) (n : StationNum) (e : RosterEntry) : (s.mark n e).port = s.port := by
  unfold State.mark; split <;> rfl

/-! ### State.respond, State.capture, State.dropHeadFrame, State.drive, State.endAttempts -/

@[simp] theorem State.respond_pending (s : State) (c : Reg) (r : LocalResult) (a b : Reg) : (s.respond c r a b).pending = s.pending := rfl
@[simp] theorem State.respond_control (s : State) (c : Reg) (r : LocalResult) (a b : Reg) : (s.respond c r a b).control = s.control := rfl
@[simp] theorem State.respond_roster (s : State) (c : Reg) (r : LocalResult) (a b : Reg) : (s.respond c r a b).roster = s.roster := rfl
@[simp] theorem State.respond_home (s : State) (c : Reg) (r : LocalResult) (a b : Reg) : (s.respond c r a b).home = s.home := rfl
@[simp] theorem State.respond_client (s : State) (c : Reg) (r : LocalResult) (a b : Reg) : (s.respond c r a b).client = s.client := rfl
@[simp] theorem State.respond_link (s : State) (c : Reg) (r : LocalResult) (a b : Reg) : (s.respond c r a b).link = s.link := rfl
@[simp] theorem State.capture_pending (s : State) : s.capture.pending = s.pending := rfl
@[simp] theorem State.capture_control (s : State) : s.capture.control = s.control := rfl
@[simp] theorem State.capture_roster (s : State) : s.capture.roster = s.roster := rfl
@[simp] theorem State.capture_home (s : State) : s.capture.home = s.home := rfl
@[simp] theorem State.capture_client (s : State) : s.capture.client = s.client := rfl
@[simp] theorem State.capture_link (s : State) : s.capture.link = s.link := rfl
@[simp] theorem State.dropHeadFrame_pending (s : State) : s.dropHeadFrame.pending = s.pending := rfl
@[simp] theorem State.dropHeadFrame_control (s : State) : s.dropHeadFrame.control = s.control := rfl
@[simp] theorem State.dropHeadFrame_roster (s : State) : s.dropHeadFrame.roster = s.roster := rfl
@[simp] theorem State.dropHeadFrame_home (s : State) : s.dropHeadFrame.home = s.home := rfl
@[simp] theorem State.dropHeadFrame_client (s : State) : s.dropHeadFrame.client = s.client := rfl
@[simp] theorem State.dropHeadFrame_port (s : State) : s.dropHeadFrame.port = s.port := rfl
@[simp] theorem State.endAttempts_pending (s : State) : s.endAttempts.pending = s.pending := rfl
@[simp] theorem State.endAttempts_control (s : State) : s.endAttempts.control = s.control := rfl
@[simp] theorem State.endAttempts_roster (s : State) : s.endAttempts.roster = s.roster := rfl
@[simp] theorem State.endAttempts_port (s : State) : s.endAttempts.port = s.port := rfl

/-! ### State.reportAnswers and State.addLeave -/

@[simp] theorem State.addLeave_pending (s : State) : s.addLeave.pending = s.pending := rfl
@[simp] theorem State.addLeave_roster (s : State) : s.addLeave.roster = s.roster := rfl
@[simp] theorem State.addLeave_home (s : State) : s.addLeave.home = s.home := rfl
@[simp] theorem State.addLeave_client (s : State) : s.addLeave.client = s.client := rfl
@[simp] theorem State.addLeave_port (s : State) : s.addLeave.port = s.port := rfl
@[simp] theorem State.reportAnswers_pending (s : State) : s.reportAnswers.pending = s.pending := by unfold State.reportAnswers; split <;> rfl
@[simp] theorem State.reportAnswers_roster (s : State) : s.reportAnswers.roster = s.roster := by unfold State.reportAnswers; split <;> rfl
@[simp] theorem State.reportAnswers_home (s : State) : s.reportAnswers.home = s.home := by unfold State.reportAnswers; split <;> rfl
@[simp] theorem State.reportAnswers_client (s : State) : s.reportAnswers.client = s.client := by unfold State.reportAnswers; split <;> rfl
@[simp] theorem State.reportAnswers_port (s : State) : s.reportAnswers.port = s.port := by unfold State.reportAnswers; split <;> rfl
@[simp] theorem State.reportAnswers_mode (s : State) : s.reportAnswers.control.mode = s.control.mode := by
  unfold State.reportAnswers; split <;> rfl
@[simp] theorem State.reportAnswers_number (s : State) : s.reportAnswers.control.number = s.control.number := by
  unfold State.reportAnswers; split <;> rfl
@[simp] theorem State.reportAnswers_queue (s : State) : s.reportAnswers.link.queue = s.link.queue := by
  unfold State.reportAnswers; split <;> rfl

end Sys2Proof.Machine
end

