-- ==== Sys2Proof/Laws/Ops.lean ====
section
/-! SUPPORT. What the shared operations of Machine/Ops.lean can do: the outgoing lists and the data word pool. -/

namespace Sys2Proof.Machine

variable {α : Type}

/-! ### Outgoing lists -/

/-- What stays on a list after items of `p` left. -/
@[simp] theorem OutList.items_removeIf (p : α → Bool) (l : OutList α) :
    (l.removeIf p).items = l.items.filter fun x => !p x := by
  unfold OutList.removeIf; split <;> rfl

/-- When no item is of `p`, nothing leaves and nothing changes. -/
theorem OutList.removeIf_eq_self (p : α → Bool) (l : OutList α) (h : ∀ x ∈ l.items, p x = false) : l.removeIf p = l := by
  have hf : (l.items.filter fun x => !p x) = l.items := by
    apply List.filter_eq_self.mpr; intro x hx; simp [h x hx]
  have hh : l.items.head?.any p = false := by
    cases hi : l.items with
    | nil => rfl
    | cons a t => simpa [hi] using h a (by simp [hi])
  simp [OutList.removeIf, hf, hh]

/-- What is left of a list when items leave it. -/
theorem OutList.removeIf_eq_without (p : α → Bool) (l : OutList α) : l.removeIf p = l.without p := by
  unfold OutList.removeIf OutList.without
  cases h : l.items with
  | nil =>
    obtain ⟨items, a, b, c⟩ := l
    simp only at h
    subst h
    rfl
  | cons x t => rfl

/-- Items that leave one kind after the other leave together. -/
theorem OutList.removeIf_removeIf (p q : α → Bool) (l : OutList α) : (l.removeIf p).removeIf q = l.removeIf fun x => p x || q x := by
  obtain ⟨items, a, b, c⟩ := l
  cases items with
  | nil => rfl
  | cons x t =>
    cases hp : p x
    · cases hq : q x <;> simp [OutList.removeIf, hp, hq, Bool.and_comm]
    · simp [OutList.removeIf, hp, Bool.and_comm]

/-- The counters of a list stay below their limits when items leave. -/
theorem OutList.countersSound_removeIf (p : α → Bool) (l : OutList α) (h : l.CountersSound) : (l.removeIf p).CountersSound := by
  unfold OutList.removeIf
  split
  · exact ⟨Nat.zero_lt_succ _, Nat.zero_lt_succ _, fun _ => ⟨rfl, rfl, rfl⟩⟩
  · rename_i hh
    refine ⟨h.silence, h.busy, fun he => h.empty ?_⟩
    cases hi : l.items with
    | nil => rfl
    | cons a t =>
      exfalso
      have ha : p a = false := by simpa [hi] using hh
      simp [hi, ha] at he

/-- The counters of a list stay sound when an item joins the tail. -/
theorem OutList.countersSound_push (x : α) (l : OutList α) (h : l.CountersSound) : (l.push x).CountersSound :=
  ⟨h.silence, h.busy, fun he => by simp [OutList.push] at he⟩

/-- A list whose head has left has sound counters. -/
theorem OutList.countersSound_dropHead (l : OutList α) : l.dropHead.CountersSound :=
  ⟨Nat.zero_lt_succ _, Nat.zero_lt_succ _, fun _ => ⟨rfl, rfl, rfl⟩⟩

/-- The empty list has sound counters. -/
theorem OutList.countersSound_empty : (OutList.empty : OutList α).CountersSound :=
  ⟨Nat.zero_lt_succ _, Nat.zero_lt_succ _, fun _ => ⟨rfl, rfl, rfl⟩⟩

/-- Cleared counters are sound. -/
theorem OutList.countersSound_zeroCounters (l : OutList α) : l.zeroCounters.CountersSound :=
  ⟨Nat.zero_lt_succ _, Nat.zero_lt_succ _, fun _ => ⟨rfl, rfl, rfl⟩⟩

/-- Counters stay sound when an attempt ends without a count. -/
theorem OutList.countersSound_endAttempt (l : OutList α) (h : l.CountersSound) : l.endAttempt.CountersSound :=
  ⟨h.silence, h.busy, fun he => ⟨(h.empty he).1, (h.empty he).2.1, rfl⟩⟩

/-- Moving items keeps the counters sound: they are cleared. -/
theorem OutList.countersSound_moveToTail (p : α → Bool) (l : OutList α) : (l.moveToTail p).CountersSound :=
  ⟨Nat.zero_lt_succ _, Nat.zero_lt_succ _, fun _ => ⟨rfl, rfl, rfl⟩⟩

/-- The items of a list after R91's move are those before it, in another order. -/
theorem OutList.perm_moveToTail (p : α → Bool) (l : OutList α) : (l.moveToTail p).items.Perm l.items := by
  have h := List.filter_append_perm (fun x => !p x) l.items
  simpa [OutList.moveToTail] using h

/-! ### The data word pool -/

/-- A word below every address of a pool reads 0. -/
theorem Memory.read_below (m : Memory) (a : Nat) (h : ∀ c ∈ m, a < c.1) : Memory.read m a = 0 := by
  induction m with
  | nil => rfl
  | cons c rest ih =>
    have hc := h c (by simp)
    simp only [Memory.read]
    rw [if_neg (by omega)]
    exact ih fun d hd => h d (by simp [hd])

/-- A word of an address that is not listed reads 0. -/
theorem Memory.read_not_listed (m : Memory) (a : Nat) (h : ∀ c ∈ m, c.1 ≠ a) : Memory.read m a = 0 := by
  induction m with
  | nil => rfl
  | cons c rest ih =>
    simp only [Memory.read]
    rw [if_neg (h c (by simp))]
    exact ih fun d hd => h d (by simp [hd])

/-- The canonical form of a pool, entry by entry. -/
theorem Memory.wf_cons (c : Nat × Word) (m : Memory) :
    Memory.wf (c :: m) ↔ (∀ d ∈ m, c.1 < d.1) ∧ c.2 ≠ 0 ∧ Memory.wf m := by
  simp only [Memory.wf, List.map_cons, List.pairwise_cons, List.mem_map, List.mem_cons, forall_eq_or_imp]
  constructor
  · rintro ⟨⟨h1, h2⟩, h3, h4⟩
    exact ⟨fun d hd => h1 _ ⟨d, hd, rfl⟩, h3, h2, h4⟩
  · rintro ⟨h1, h3, h2, h4⟩
    exact ⟨⟨by rintro _ ⟨d, hd, rfl⟩; exact h1 d hd, h2⟩, h3, h4⟩

/-- The addresses listed after a write. -/
theorem Memory.mem_write (m : Memory) (a : Nat) (v : Word) (c : Nat × Word) (h : c ∈ Memory.write m a v) :
    c = (a, v) ∨ c ∈ m := by
  induction m with
  | nil => simp only [Memory.write] at h; split at h <;> simp_all
  | cons d rest ih =>
    simp only [Memory.write] at h
    split at h
    · split at h <;> simp_all
    · split at h
      · split at h
        · exact Or.inr (by simp [h])
        · rcases List.mem_cons.mp h with h | h <;> simp [h]
      · rcases List.mem_cons.mp h with h | h
        · simp [h]
        · rcases ih h with h | h <;> simp [h]

/-- A write keeps the canonical form. -/
theorem Memory.wf_write (m : Memory) (a : Nat) (v : Word) (h : m.wf) : Memory.wf (Memory.write m a v) := by
  induction m with
  | nil =>
    simp only [Memory.write]
    split
    · exact h
    · rename_i hv
      exact ⟨by simp, fun c hc => by rw [List.mem_singleton] at hc; subst hc; exact hv⟩
  | cons d rest ih =>
    obtain ⟨h1, h2, h3⟩ := (Memory.wf_cons d rest).mp h
    simp only [Memory.write]
    split
    · rename_i hlt
      split
      · exact h
      · rename_i hv
        rw [Memory.wf_cons]
        refine ⟨fun e he => ?_, hv, h⟩
        rcases List.mem_cons.mp he with he | he
        · subst he; exact hlt
        · exact Nat.lt_trans hlt (h1 e he)
    · split
      · rename_i heq
        split
        · exact h3
        · rename_i hv
          rw [Memory.wf_cons]
          exact ⟨fun e he => by simpa [heq] using h1 e he, hv, h3⟩
      · rename_i hge hne
        rw [Memory.wf_cons]
        refine ⟨fun e he => ?_, h2, ih h3⟩
        rcases Memory.mem_write rest a v e he with he | he
        · subst he; simp only; omega
        · exact h1 e he

/-- A read after a write, on a pool in canonical form. -/
theorem Memory.read_write (m : Memory) (a b : Nat) (v : Word) (h : m.wf) :
    Memory.read (Memory.write m a v) b = if b = a then v else Memory.read m b := by
  induction m with
  | nil =>
    simp only [Memory.write]
    split
    · rename_i hv
      subst hv
      simp [Memory.read]
    · by_cases hb : b = a
      · simp [Memory.read, hb]
      · simp [Memory.read, hb, Ne.symm hb]
  | cons d rest ih =>
    obtain ⟨h1, _, h3⟩ := (Memory.wf_cons d rest).mp h
    obtain ⟨k, w⟩ := d
    simp only [Memory.write]
    split
    · rename_i hlt
      split
      · rename_i hv
        by_cases hb : b = a
        · subst hb
          have : Memory.read ((k, w) :: rest) b = 0 := by
            apply Memory.read_below
            intro c hc
            rcases List.mem_cons.mp hc with hc | hc
            · subst hc; exact hlt
            · exact Nat.lt_trans hlt (h1 c hc)
          simp [this, hv]
        · simp [hb]
      · by_cases hb : b = a
        · simp [Memory.read, hb]
        · simp [Memory.read, hb, Ne.symm hb]
    · split
      · rename_i heq
        subst heq
        split
        · rename_i hv
          by_cases hb : b = a
          · subst hb
            have := Memory.read_below rest b fun c hc => h1 c hc
            simp [this, hv]
          · simp [Memory.read, hb, Ne.symm hb]
        · by_cases hb : b = a
          · simp [Memory.read, hb]
          · simp [Memory.read, hb, Ne.symm hb]
      · rename_i hge hne
        simp only [Memory.read]
        by_cases hk : k = b
        · subst hk
          simp [Ne.symm hne]
        · simp only [hk, if_false]
          exact ih h3

/-- Clearing words keeps the canonical form. -/
theorem Memory.wf_clear (m : Memory) (base n : Nat) (h : m.wf) : Memory.wf (Memory.clear base n m) := by
  unfold Memory.clear
  refine ⟨?_, fun c hc => h.2 c (List.mem_filter.mp hc).1⟩
  exact h.1.sublist (List.Sublist.map _ List.filter_sublist)

/-- A read after words are cleared. -/
theorem Memory.read_clear (m : Memory) (base n a : Nat) :
    Memory.read (Memory.clear base n m) a = if base ≤ a ∧ a < base + n then 0 else Memory.read m a := by
  induction m with
  | nil => simp [Memory.clear, Memory.read]
  | cons c rest ih =>
    unfold Memory.clear at ih ⊢
    simp only [List.filter_cons]
    split
    · rename_i hk
      simp only [Memory.read, ih]
      by_cases hc : c.1 = a
      · subst hc
        have : ¬ (base ≤ c.1 ∧ c.1 < base + n) := by
          simp only [Bool.not_eq_true', Bool.and_eq_false_iff, decide_eq_false_iff_not] at hk
          omega
        simp [this]
      · simp [hc]
    · rename_i hk
      rw [ih]
      have hin : base ≤ c.1 ∧ c.1 < base + n := by simpa using hk
      by_cases hc : c.1 = a
      · subst hc; simp [hin]
      · simp [Memory.read, hc]

/-- The pool after reset is in canonical form. -/
theorem Memory.wf_reset : State.reset.home.pool.wf := ⟨List.Pairwise.nil, by simp [State.reset, State.powerOn, Home.powerOn]⟩

/-! ### Object ids -/

/-- An object id is 64 times its home station plus its index (R1). -/
theorem homeOf_indexOf (id : ObjectId) : 64 * (homeOf id).val + (indexOf id).val = id.val := by
  simp only [homeOf, indexOf]; omega

end Sys2Proof.Machine
end

