-- ==== Sys2Proof/Laws/Client.lean ====
section
/-! SUPPORT. What the client engine's operations can do: a slot's end, the matching of an answer, the loops over the slots. -/

namespace Sys2Proof.Machine

/-! ### A slot's end -/

/-- The slots after one completed. -/
theorem Client.slot_complete (c : Client) (n m : SlotNum) (r : Request) (st : CompletionStatus) (v : Word) :
    (c.complete n r st v).slot m = if m = n then ⟨(c.slot n).tag, .done r st v⟩ else c.slot m := by
  have h := Client.slot_setUse (c.dropEntry n) n m (.done r st v)
  exact h

@[simp] theorem Client.ring_complete (c : Client) (n : SlotNum) (r : Request) (st : CompletionStatus) (v : Word) :
    (c.complete n r st v).ring = c.ring ++ [⟨n, (c.slot n).tag, r.operation, r.objectId, st, v⟩] := rfl

@[simp] theorem Client.requests_complete (c : Client) (n : SlotNum) (r : Request) (st : CompletionStatus) (v : Word) :
    (c.complete n r st v).requests = c.requests.removeIf fun e => decide (e.slot = n) := rfl

/-- The head of a list is of a slot. -/
theorem head_any_slot (l : List RequestEntry) (n : SlotNum) :
    (l.head?.any fun e => decide (e.slot = n)) = decide (l.head?.map RequestEntry.slot = some n) := by
  cases l with
  | nil => simp
  | cons a t => simp

/-- A slot's end in the terms of the statements. -/
theorem Client.complete_eq_ended (c : Client) (n : SlotNum) (r : Request) (st : CompletionStatus) (v : Word) :
    c.complete n r st v = c.ended n r st v := by
  have hr : (c.requests.removeIf fun e => decide (e.slot = n)) = (c.ended n r st v).requests := by
    simp only [OutList.removeIf, Client.ended, head_any_slot, decide_eq_true_eq, ne_eq, decide_not]
  unfold Client.complete Client.dropEntry
  rw [hr]
  rfl

/-- A busy slot holds its request. -/
theorem SlotUse.busy?_eq_some (u : SlotUse) (r : Request) :
    u.busy? = some r ↔ u = .queued r ∨ u = .sent r ∨ u = .cancelling r ∨ ∃ v, u = .returning r v := by
  cases u <;> simp [SlotUse.busy?]

/-- A slot that is not busy is FREE or DONE. -/
theorem SlotUse.busy_eq_false (u : SlotUse) : u.busy = false ↔ u = .free ∨ ∃ r st v, u = .done r st v := by
  cases u <;> simp [SlotUse.busy, SlotUse.busy?]

/-! ### The matching of an answer -/

/-- A slot goes to RETURNING, its return entry at the tail (R116, R117). -/
def Client.gaveBack (c : Client) (n : SlotNum) (r : Request) (units : Word) : Client :=
  let c1 := (c.dropEntry n).setUse n (.returning r units)
  { c1 with requests := c1.requests.push ⟨n, .giveBack⟩ }

/-- What the client engine does with an answer: nothing; or the busy slot it names, one of the sender's objects, completes; or that slot,
in CANCELLING, goes to RETURNING. -/
theorem Client.receive_cases (c : Client) (sender : StationNum) (a : ImmediateEntry) :
    c.receive sender a = c ∨
    (∃ r st v, (c.slot a.slot).use.busy? = some r ∧ homeOf r.objectId = sender ∧ (∀ q, (c.slot a.slot).use ≠ .queued q) ∧
      c.receive sender a = c.complete a.slot r st v) ∨
    ∃ r units, (c.slot a.slot).use = .cancelling r ∧ homeOf r.objectId = sender ∧ c.receive sender a = c.gaveBack a.slot r units := by
  unfold Client.receive
  cases hb : (c.slot a.slot).use.busy? with
  | none => exact .inl rfl
  | some r =>
    simp only
    split
    · rename_i hm
      have hs : homeOf r.objectId = sender := by
        simp only [answerMatches, Bool.and_eq_true, decide_eq_true_eq] at hm
        exact hm.2.symm
      unfold Client.settle
      cases hu : (c.slot a.slot).use with
      | free => exact .inl rfl
      | done _ _ _ => exact .inl rfl
      | queued _ => exact .inl rfl
      | sent q =>
        have : q = r := by simpa [hu, SlotUse.busy?] using hb
        subst this
        simp only
        split
        · exact .inl rfl
        · split
          · exact .inr (.inl ⟨_, _, _, rfl, hs, by simp, rfl⟩)
          · exact .inl rfl
      | cancelling q =>
        have : q = r := by simpa [hu, SlotUse.busy?] using hb
        subst this
        simp only
        split
        · exact .inl rfl
        · exact .inr (.inl ⟨_, _, _, rfl, hs, by simp, rfl⟩)
        · exact .inr (.inr ⟨_, _, rfl, hs, rfl⟩)
      | returning q v =>
        have : q = r := by simpa [hu, SlotUse.busy?] using hb
        subst this
        simp only
        split
        · exact .inr (.inl ⟨_, _, _, rfl, hs, by simp, rfl⟩)
        · exact .inl rfl
    · exact .inl rfl

/-- An answer leaves every slot but the one it names. -/
theorem Client.slot_receive_other (c : Client) (sender : StationNum) (a : ImmediateEntry) (n : SlotNum) (h : n ≠ a.slot) :
    (c.receive sender a).slot n = c.slot n := by
  rcases Client.receive_cases c sender a with e | ⟨r, st, v, _, _, _, e⟩ | ⟨r, u, _, _, e⟩
  · rw [e]
  · rw [e, Client.slot_complete, if_neg h]
  · rw [e]
    show ((c.dropEntry a.slot).setUse a.slot (.returning r u)).slot n = _
    rw [Client.slot_setUse, if_neg h]; rfl

/-- No busy slot, no effect: an answer is discarded. -/
theorem Client.receive_at_rest (c : Client) (sender : StationNum) (a : ImmediateEntry)
    (h : ∀ n, (c.slot n).use.busy = false) : c.receive sender a = c := by
  have hb := h a.slot
  unfold Client.receive
  cases hu : (c.slot a.slot).use.busy? with
  | none => rfl
  | some r => simp [SlotUse.busy, hu] at hb

/-- An answer makes no slot busy that was not, and keeps a busy slot's request. -/
theorem Client.busy_receive (c : Client) (sender : StationNum) (a : ImmediateEntry) (n : SlotNum) (r : Request)
    (h : ((c.receive sender a).slot n).use.busy? = some r) : (c.slot n).use.busy? = some r := by
  by_cases hn : n = a.slot
  · subst hn
    rcases Client.receive_cases c sender a with e | ⟨q, st, v, _, _, _, e⟩ | ⟨q, u, hu, _, e⟩
    · rwa [e] at h
    · rw [e, Client.slot_complete, if_pos rfl] at h; simp [SlotUse.busy?] at h
    · rw [e] at h
      have h2 : (((c.dropEntry a.slot).setUse a.slot (.returning q u)).slot a.slot).use.busy? = some r := h
      rw [Client.slot_setUse, if_pos rfl] at h2
      rw [hu]; simpa [SlotUse.busy?] using h2
  · rwa [Client.slot_receive_other c sender a n hn] at h

/-! ### The request list's outcomes -/

/-- ACCEPT of a request entry: its QUEUED slot is SENT. -/
theorem Client.acceptHead_request (c : Client) (x : RequestEntry) (rest : List RequestEntry) (r : Request)
    (hi : c.requests.items = x :: rest) (hs : x.sort = .request) (hu : (c.slot x.slot).use = .queued r) :
    c.acceptHead =
      { c with requests := ⟨rest, 0, 0, false⟩, slots := c.slots.set x.slot ⟨(c.slot x.slot).tag, .sent r⟩ } := by
  simp only [Client.acceptHead, hi, List.head?_cons, hs, hu, OutList.dropHead, List.tail_cons]
  rfl

/-- ACCEPT of any other entry: it leaves, and no slot changes. -/
theorem Client.acceptHead_other (c : Client) (x : RequestEntry) (rest : List RequestEntry) (hi : c.requests.items = x :: rest)
    (hs : x.sort ≠ .request) : c.acceptHead = { c with requests := ⟨rest, 0, 0, false⟩ } := by
  simp only [Client.acceptHead, hi, List.head?_cons, OutList.dropHead, List.tail_cons]
  split
  · rename_i h _; exact absurd h hs
  · rfl

/-- The head entry at the BUSY limit: its slot ends HOME_BUSY, and the entry leaves with its counters. -/
theorem Client.busyLimitHead_eq (c : Client) (x : RequestEntry) (rest : List RequestEntry) (r : Request) (hi : c.requests.items = x :: rest)
    (hb : (c.slot x.slot).use.busy? = some r) : c.busyLimitHead =
      ({ c with requests := ⟨x :: rest, 0, 0, false⟩ } : Client).ended x.slot r .homeBusy (homeBusyValue (c.slot x.slot).use) := by
  have hh : c.requests.items.head? = some x := by rw [hi]; rfl
  have hd : c.requests.dropHead = ⟨rest, 0, 0, false⟩ := by rw [OutList.dropHead, hi]; rfl
  unfold Client.busyLimitHead
  simp only [hh, hb]
  rw [Client.complete_eq_ended, hd]
  simp only [Client.ended, List.head?_cons, Option.map_some, if_true, List.filter_cons, ne_eq, not_true_eq_false, decide_false,
    Bool.false_eq_true, if_false]
  split <;> rfl

/-! ### The loops over the slots -/

/-- Two functions that agree on a list collect the same from it. -/
theorem filterMap_eq_of_eq {α β : Type} (f g : α → Option β) (l : List α) (h : ∀ x ∈ l, f x = g x) :
    l.filterMap f = l.filterMap g := by
  induction l with
  | nil => rfl
  | cons a t ih => simp only [List.filterMap_cons, h a (by simp), ih fun x hx => h x (by simp [hx])]

/-- A loop over slot numbers that completes the busy slots of `p`: what it leaves of each slot, of the ring and of the request list. -/
theorem Client.foldl_endSlot (p : Request → Bool) (st : CompletionStatus) (l : List SlotNum) (hl : l.Nodup) (c : Client) :
    (∀ m, (l.foldl (Client.endSlot p st) c).slot m =
      if m ∈ l then
        match (c.slot m).use.busy? with
        | some r => if p r then ⟨(c.slot m).tag, .done r st 0⟩ else c.slot m
        | none => c.slot m
      else c.slot m) ∧
    (l.foldl (Client.endSlot p st) c).ring = c.ring ++ l.filterMap (fun n =>
      (c.slot n).use.busy?.bind fun r => if p r then some (c.endRecord st n r) else none) ∧
    (l.foldl (Client.endSlot p st) c).requests.items = c.requests.items.filter (fun e =>
      !(decide (e.slot ∈ l) && (c.slot e.slot).use.busy?.any p)) ∧
    (c.requests.CountersSound → (l.foldl (Client.endSlot p st) c).requests.CountersSound) := by
  induction l generalizing c with
  | nil => exact ⟨fun _ => rfl, by simp, (List.filter_eq_self.mpr fun _ _ => rfl).symm, id⟩
  | cons n rest ih =>
    obtain ⟨hn, hr⟩ := List.nodup_cons.mp hl
    simp only [List.foldl_cons]
    obtain ⟨i1, i2, i3, i4⟩ := ih hr (c.endSlot p st n)
    cases hb : (c.slot n).use.busy? with
    | none =>
      have he : c.endSlot p st n = c := by simp [Client.endSlot, hb]
      rw [he] at i1 i2 i3 i4 ⊢
      refine ⟨fun m => ?_, ?_, ?_, i4⟩
      · rw [i1]
        by_cases hm : m = n
        · subst hm; simp [hn, hb]
        · simp [hm]
      · rw [i2]; simp [hb]
      · rw [i3]; congr 1; funext e
        by_cases hm : e.slot = n
        · simp [hm, hn, hb]
        · simp [hm]
    | some r =>
      by_cases hp : p r = true
      · have he : c.endSlot p st n = c.complete n r st 0 := by simp [Client.endSlot, hb, hp]
        rw [he] at i1 i2 i3 i4 ⊢
        have hs : ∀ m, m ≠ n → (c.complete n r st 0).slot m = c.slot m := fun m hm => by
          rw [Client.slot_complete, if_neg hm]
        have hrest : ∀ m ∈ rest, (c.complete n r st 0).slot m = c.slot m := fun m hm => hs m (by rintro rfl; exact hn hm)
        refine ⟨fun m => ?_, ?_, ?_, fun h => i4 (OutList.countersSound_removeIf _ _ h)⟩
        · rw [i1]
          by_cases hm : m = n
          · subst hm; simp [hn, hb, hp, Client.slot_complete]
          · simp only [hs m hm, List.mem_cons, hm, false_or]
        · rw [i2]
          simp only [Client.ring_complete, List.append_assoc, List.filterMap_cons, hb, Option.bind_some, hp, if_true]
          congr 1
          simp only [List.singleton_append, Client.endRecord]
          congr 1
          apply filterMap_eq_of_eq
          intro m hm
          rw [hrest m hm]
        · rw [i3]
          simp only [Client.requests_complete, OutList.items_removeIf, List.filter_filter]
          congr 1; funext e
          by_cases hm : e.slot = n
          · simp [hm, hb, hp]
          · simp only [hs _ hm, List.mem_cons, hm, false_or, decide_false, Bool.not_false, Bool.and_true]
      · have he : c.endSlot p st n = c := by simp [Client.endSlot, hb, hp]
        rw [he] at i1 i2 i3 i4 ⊢
        refine ⟨fun m => ?_, ?_, ?_, i4⟩
        · rw [i1]
          by_cases hm : m = n
          · subst hm; simp [hn, hb, hp]
          · simp [hm]
        · rw [i2]; simp [hb, hp]
        · rw [i3]; congr 1; funext e
          by_cases hm : e.slot = n
          · simp [hm, hn, hb, hp]
          · simp [hm]

/-- A loop over slot numbers that completes the busy slots of `p` takes exactly their entries off the request list. -/
theorem Client.requests_foldl_endSlot (p : Request → Bool) (st : CompletionStatus) (l : List SlotNum) (hl : l.Nodup) (c : Client) :
    (l.foldl (Client.endSlot p st) c).requests =
      c.requests.removeIf fun e => decide (e.slot ∈ l) && (c.slot e.slot).use.busy?.any p := by
  induction l generalizing c with
  | nil => exact (OutList.removeIf_eq_self _ _ (by simp)).symm
  | cons n rest ih =>
    obtain ⟨hn, hr⟩ := List.nodup_cons.mp hl
    rw [List.foldl_cons, ih hr]
    by_cases hb : (c.slot n).use.busy?.any p = true
    · obtain ⟨r, hbr, hp⟩ : ∃ r, (c.slot n).use.busy? = some r ∧ p r = true := by
        cases hx : (c.slot n).use.busy? with
        | none => simp [hx] at hb
        | some r => exact ⟨r, rfl, by simpa [hx] using hb⟩
      have he : c.endSlot p st n = c.complete n r st 0 := by simp [Client.endSlot, hbr, hp]
      rw [he, Client.requests_complete, OutList.removeIf_removeIf]
      congr 1; funext e
      by_cases hm : e.slot = n
      · simp [hm, hb]
      · simp [hm, Client.slot_complete]
    · have he : c.endSlot p st n = c := by
        unfold Client.endSlot
        split
        · rename_i r hbr; rw [if_neg]; simpa [hbr] using hb
        · rfl
      rw [he]
      congr 1; funext e
      by_cases hm : e.slot = n
      · simp [hm, hn, hb]
      · simp [hm]

/-- Every slot number is in the list of all. -/
@[simp] theorem mem_allSlots (n : SlotNum) : n ∈ allSlots := List.mem_finRange n

/-- Every index is in the list of all. -/
@[simp] theorem mem_allIndexes (i : ObjIndex) : i ∈ allIndexes := List.mem_finRange i

/-- No slot number stands twice in the list of all. -/
theorem nodup_allSlots : allSlots.Nodup := List.nodup_finRange 32

/-- No index stands twice in the list of all. -/
theorem nodup_allIndexes : allIndexes.Nodup := List.nodup_finRange 64

/-- The client side of a purge completes exactly the busy slots for the station's objects, HOME_ABSENT, in slot-number order. -/
theorem Client.completes_purge (c : Client) (n : StationNum) :
    c.Completes (c.purge n) (fun r => homeOf r.objectId = n) .homeAbsent := by
  obtain ⟨h1, h2, _, _⟩ :=
    Client.foldl_endSlot (fun r => decide (homeOf r.objectId = n)) .homeAbsent allSlots nodup_allSlots c
  refine ⟨fun m => ?_, ?_⟩
  · have h := h1 m
    rw [if_pos (mem_allSlots m)] at h
    unfold Client.purge
    rw [h]
    cases (c.slot m).use.busy? with
    | none => rfl
    | some r => simp only [decide_eq_true_eq]
  · simpa [Client.purge] using h2

/-- The client side of a purge completes the slots for the station's objects and removes exactly their entries. -/
theorem Client.purgedTo_purge (c : Client) (n : StationNum) : c.PurgedTo n (c.purge n) := by
  refine ⟨Client.completes_purge c n, ?_⟩
  rw [← OutList.removeIf_eq_without]
  refine (Client.requests_foldl_endSlot _ .homeAbsent allSlots nodup_allSlots c).trans ?_
  simp

/-- The client side of an eviction completes every busy slot EVICTED in slot-number order and empties the request list. -/
theorem Client.completes_evict (c : Client) :
    c.Completes c.evict (fun _ => True) .evicted ∧ c.evict.requests = ⟨[], 0, 0, false⟩ := by
  have h := Client.foldl_endSlot (fun _ => true) .evicted allSlots nodup_allSlots c
  unfold Client.evict
  generalize allSlots.foldl (Client.endSlot (fun _ => true) .evicted) c = t at h
  obtain ⟨h1, h2, _, _⟩ := h
  refine ⟨⟨fun m => ?_, h2⟩, rfl⟩
  have h := h1 m
  rw [if_pos (mem_allSlots m)] at h
  refine Eq.trans h ?_
  cases (c.slot m).use.busy? with
  | none => rfl
  | some r => rfl

end Sys2Proof.Machine
end

