-- ==== Sys2Proof/Laws/Home.lean ====
section
/-! SUPPORT. What the home half's operations can do: what each keeps, and the induction over a grant pass. -/

namespace Sys2Proof.Machine

/-! ### What every operation of the home half keeps -/

/-- What the production of answers, the grant pass, the removal of records and the reclaim keep: everything but the levels, the
waiter lists, the hold table, the answer list and the client engine. -/
structure State.HomeKeeps (s t : State) : Prop where
  pending : t.pending = s.pending
  control : t.control = s.control
  roster : t.roster = s.roster
  link : t.link = s.link
  port : t.port = s.port
  pool : t.home.pool = s.home.pool
  poolUsed : t.home.poolUsed = s.home.poolUsed
  arrivals : t.home.arrivals = s.home.arrivals
  definitions : ∀ i, (t.home.entry i).map ObjectEntry.definition = (s.home.entry i).map ObjectEntry.definition
  heads : ∀ i, (t.home.entry i).map ObjectEntry.head = (s.home.entry i).map ObjectEntry.head

theorem State.HomeKeeps.refl (s : State) : s.HomeKeeps s := ⟨rfl, rfl, rfl, rfl, rfl, rfl, rfl, rfl, fun _ => rfl, fun _ => rfl⟩

theorem State.HomeKeeps.trans {s t u : State} (a : s.HomeKeeps t) (b : t.HomeKeeps u) : s.HomeKeeps u :=
  ⟨b.pending.trans a.pending, b.control.trans a.control, b.roster.trans a.roster, b.link.trans a.link, b.port.trans a.port,
    b.pool.trans a.pool, b.poolUsed.trans a.poolUsed, b.arrivals.trans a.arrivals,
    fun i => (b.definitions i).trans (a.definitions i), fun i => (b.heads i).trans (a.heads i)⟩

/-- A loop whose body keeps all this keeps it. -/
theorem State.HomeKeeps.foldl {β : Type} (f : State → β → State) (h : ∀ (s : State) b, s.HomeKeeps (f s b)) (l : List β) (s : State) :
    s.HomeKeeps (l.foldl f s) := by
  induction l generalizing s with
  | nil => exact .refl s
  | cons b rest ih => exact (h s b).trans (ih (f s b))

/-- The owner's entry survives. -/
theorem State.HomeKeeps.entry {s t : State} (h : s.HomeKeeps t) {i : ObjIndex} {e : ObjectEntry} (he : s.home.entry i = some e) :
    ∃ f, t.home.entry i = some f ∧ f.definition = e.definition ∧ f.head = e.head := by
  have hd := h.definitions i
  have hh := h.heads i
  cases hf : t.home.entry i with
  | none => simp [hf, he] at hd
  | some f => exact ⟨f, rfl, by simpa [hf, he] using hd, by simpa [hf, he] using hh⟩

/-- Setting an entry of the same definition and head keeps all this. -/
theorem State.keeps_setEntry (s : State) (i : ObjIndex) (e f : ObjectEntry) (he : s.home.entry i = some e)
    (hd : f.definition = e.definition) (hh : f.head = e.head) : s.HomeKeeps (s.setEntry i f) := by
  refine ⟨rfl, rfl, rfl, rfl, rfl, rfl, rfl, rfl, fun j => ?_, fun j => ?_⟩ <;>
  · rw [State.setEntry_home, Home.entry_setEntry]
    split
    · subst j; simp [he, hd, hh]
    · rfl

/-! ### The production of an answer -/

/-- An answer's production in the terms of the statements. -/
theorem State.produce_eq_handed (s : State) (x : AnswerItem) : s.produce x = s.handed x := rfl

/-- An entry set in the terms of the statements. -/
theorem State.setEntry_eq_withEntry (s : State) (i : ObjIndex) (e : ObjectEntry) : s.setEntry i e = s.withEntry i e := rfl

@[simp] theorem State.produce_entry (s : State) (x : AnswerItem) (i : ObjIndex) : (s.produce x).home.entry i = s.home.entry i := by
  unfold State.produce; split <;> rfl
@[simp] theorem State.produce_objects (s : State) (x : AnswerItem) : (s.produce x).home.objects = s.home.objects := by
  unfold State.produce; split <;> rfl
@[simp] theorem State.produce_holds (s : State) (x : AnswerItem) : (s.produce x).home.holds = s.home.holds := by
  unfold State.produce; split <;> rfl
@[simp] theorem State.produce_control (s : State) (x : AnswerItem) : (s.produce x).control = s.control := by
  unfold State.produce; split <;> rfl

theorem State.keeps_produce (s : State) (x : AnswerItem) : s.HomeKeeps (s.produce x) := by
  unfold State.produce
  split <;> exact ⟨rfl, rfl, rfl, rfl, rfl, rfl, rfl, rfl, fun _ => rfl, fun _ => rfl⟩

/-- The answer list after a production. -/
theorem State.items_produce (s : State) (x : AnswerItem) :
    (s.produce x).home.answers.items = if x.dest = s.control.number then s.home.answers.items else s.home.answers.items ++ [x] := by
  unfold State.produce; split <;> rfl

/-- The client engine after a production. -/
theorem State.client_produce (s : State) (x : AnswerItem) :
    (s.produce x).client = if x.dest = s.control.number then s.client.receive s.control.number x.entry else s.client := by
  unfold State.produce; split <;> rfl

/-! ### The hold table -/

theorem holds_any (i : ObjIndex) (st : StationNum) (l : List HoldRecord) :
    l.any (HoldRecord.isFor i st) = true ↔ ∃ r ∈ l, r.index = i ∧ r.holder = st := by
  simp [List.any_eq_true, HoldRecord.isFor]

/-- A grant to a pair that has a record merges into it. -/
theorem obtainHold_merge (i : ObjIndex) (st : StationNum) (u : Nat) (l : List HoldRecord)
    (h : ∃ r ∈ l, r.index = i ∧ r.holder = st) :
    obtainHold i st u l = some (l.map fun r => if r.index = i ∧ r.holder = st then { r with units := r.units + u } else r) := by
  unfold obtainHold
  rw [if_pos ((holds_any i st l).mpr h)]
  congr 1; congr 1; funext r; simp [HoldRecord.isFor]

/-- A grant to a pair without a record puts a free one in use. -/
theorem obtainHold_new (i : ObjIndex) (st : StationNum) (u : Nat) (l : List HoldRecord)
    (h : ∀ r ∈ l, ¬ (r.index = i ∧ r.holder = st)) (hl : l.length < 128) : obtainHold i st u l = some (l ++ [⟨i, st, u⟩]) := by
  unfold obtainHold
  rw [if_neg (by rw [holds_any]; rintro ⟨r, a, b⟩; exact h r a b), if_pos hl]

/-- A grant to a pair without a record, with none free. -/
theorem obtainHold_none (i : ObjIndex) (st : StationNum) (u : Nat) (l : List HoldRecord)
    (h : ∀ r ∈ l, ¬ (r.index = i ∧ r.holder = st)) (hl : 128 ≤ l.length) : obtainHold i st u l = none := by
  unfold obtainHold
  rw [if_neg (by rw [holds_any]; rintro ⟨r, a, b⟩; exact h r a b), if_neg (Nat.not_lt.mpr hl)]

/-- Units given back leave every other pair's records. -/
theorem lowerHold_other (i : ObjIndex) (st : StationNum) (u : Nat) (l : List HoldRecord)
    (h : ∀ r ∈ l, ¬ (r.index = i ∧ r.holder = st)) : lowerHold i st u l = l := by
  induction l with
  | nil => rfl
  | cons a t ih =>
    have ha : a.isFor i st = false := by simpa [HoldRecord.isFor] using h a (by simp)
    have := ih fun x hx => h x (by simp [hx])
    unfold lowerHold at this ⊢
    simp [ha, this]

/-- Units given back by the one record of a pair. -/
theorem lowerHold_between (i : ObjIndex) (st : StationNum) (u : Nat) (r : HoldRecord) (front back : List HoldRecord)
    (hi : r.index = i) (hh : r.holder = st) (h : ∀ x ∈ front ++ back, ¬ (x.index = i ∧ x.holder = st)) :
    lowerHold i st u (front ++ r :: back) =
      front ++ (if r.units ≤ u then back else { r with units := r.units - u } :: back) := by
  have h1 := lowerHold_other i st u front fun x hx => h x (by simp [hx])
  have h2 := lowerHold_other i st u back fun x hx => h x (by simp [hx])
  have hr : r.isFor i st = true := by simp [HoldRecord.isFor, hi, hh]
  unfold lowerHold at h1 h2 ⊢
  rw [List.filterMap_append, h1, List.filterMap_cons, h2]
  by_cases hq : r.units ≤ u
  · simp [hr, hq]
  · simp [hr, hq]

/-- The units a station holds, by its one record. -/
theorem unitsHeld_between (i : ObjIndex) (st : StationNum) (r : HoldRecord) (front back : List HoldRecord)
    (hi : r.index = i) (hh : r.holder = st) (h : ∀ x ∈ front, ¬ (x.index = i ∧ x.holder = st)) :
    unitsHeld i st (front ++ r :: back) = r.units := by
  have hf : front.find? (HoldRecord.isFor i st) = none := by
    rw [List.find?_eq_none]; intro x hx; have := h x hx; simpa [HoldRecord.isFor] using this
  unfold unitsHeld
  rw [List.find?_append, hf]
  simp [HoldRecord.isFor, hi, hh]

/-- A station without a record holds nothing. -/
theorem unitsHeld_none (i : ObjIndex) (st : StationNum) (l : List HoldRecord) (h : ∀ x ∈ l, ¬ (x.index = i ∧ x.holder = st)) :
    unitsHeld i st l = 0 := by
  have hf : l.find? (HoldRecord.isFor i st) = none := by
    rw [List.find?_eq_none]; intro x hx; have := h x hx; simpa [HoldRecord.isFor] using this
  simp [unitsHeld, hf]

/-! ### The grant pass -/

/-- What a head leaves behind it, whichever way it leaves: every other entry, and its own with the rest of the list. -/
theorem State.serveHead_entry (s : State) (i j : ObjIndex) (e : ObjectEntry) (w : WaiterRecord) (rest : List WaiterRecord) :
    ∃ f : ObjectEntry, (s.serveHead i e w rest).home.entry j = (if j = i then some f else s.home.entry j) ∧ f.waiters = rest ∧
      f.definition = e.definition ∧ f.head = e.head ∧ (f.level = e.level - w.units ∨ f.level = e.level) := by
  have hset : ∀ (g : ObjectEntry) (holds : List HoldRecord) (x : AnswerItem),
      (State.produce x { s.setEntry i g with home := { (s.setEntry i g).home with holds } }).home.entry j =
        if j = i then some g else s.home.entry j := by
    intro g holds x
    rw [State.produce_entry]
    exact Home.entry_setEntry s.home i j g
  have hset' : ∀ (g : ObjectEntry) (x : AnswerItem), (State.produce x (s.setEntry i g)).home.entry j =
      if j = i then some g else s.home.entry j := by
    intro g x; rw [State.produce_entry]; exact Home.entry_setEntry s.home i j g
  unfold State.serveHead
  simp only
  split
  · split
    · exact ⟨_, hset _ _ _, rfl, rfl, rfl, .inl rfl⟩
    · exact ⟨_, hset' _ _, rfl, rfl, rfl, .inr rfl⟩
  · exact ⟨_, hset' _ _, rfl, rfl, rfl, .inl rfl⟩

theorem State.keeps_serveHead (s : State) (i : ObjIndex) (e : ObjectEntry) (w : WaiterRecord) (rest : List WaiterRecord)
    (he : s.home.entry i = some e) : s.HomeKeeps (s.serveHead i e w rest) := by
  unfold State.serveHead
  simp only
  split
  · split
    · refine State.HomeKeeps.trans ?_ (State.keeps_produce _ _)
      have h := State.keeps_setEntry s i e { e with level := e.level - w.units, waiters := rest } he rfl rfl
      exact ⟨h.pending, h.control, h.roster, h.link, h.port, h.pool, h.poolUsed, h.arrivals, h.definitions, h.heads⟩
    · refine State.HomeKeeps.trans ?_ (State.keeps_produce _ _)
      exact State.keeps_setEntry s i e _ he rfl rfl
  · refine State.HomeKeeps.trans ?_ (State.keeps_produce _ _)
    exact State.keeps_setEntry s i e _ he rfl rfl

/-- Induction over a grant pass: what the service of a head keeps, the pass keeps. -/
theorem State.grantPass_induction {P : State → Prop} (i : ObjIndex)
    (step : ∀ s e w rest, P s → s.home.entry i = some e → e.waiters = w :: rest → e.definition.isSemaphore = true →
      w.units ≤ e.level → P (s.serveHead i e w rest))
    (s : State) (h : P s) : P (s.grantPass i) := by
  have loop : ∀ ws s, P s → s.home.waitersAt i = ws → P (s.grantLoop i ws) := by
    intro ws
    induction ws with
    | nil => intro s h _; exact h
    | cons w rest ih =>
      intro s h hw
      unfold State.grantLoop
      cases he : s.home.entry i with
      | none => exact h
      | some e =>
        have hew : e.waiters = w :: rest := by simpa [Home.waitersAt, he] using hw
        simp only
        split
        · rename_i hc
          simp only [Bool.and_eq_true, decide_eq_true_eq] at hc
          refine ih _ (step s e w rest h he hew hc.1 hc.2) ?_
          obtain ⟨f, hf, hr, _⟩ := State.serveHead_entry s i i e w rest
          rw [if_pos rfl] at hf
          simp [Home.waitersAt, hf, hr]
        · exact h
  unfold State.grantPass
  cases he : s.home.entry i with
  | none => exact h
  | some e => exact loop _ s h (by simp [Home.waitersAt, he])

/-- A grant pass leaves no head whose units are there. -/
theorem State.grantPass_settled (i : ObjIndex) (s : State) (e : ObjectEntry) (he : (s.grantPass i).home.entry i = some e)
    (hs : e.definition.isSemaphore = true) (w : WaiterRecord) (hw : w ∈ e.waiters.head?) : e.level < w.units := by
  have loop : ∀ ws (s : State) (e : ObjectEntry), s.home.waitersAt i = ws → (s.grantLoop i ws).home.entry i = some e → e.definition.isSemaphore = true →
      ∀ w ∈ e.waiters.head?, e.level < w.units := by
    intro ws
    induction ws with
    | nil =>
      intro s e hl he hs w hw
      simp only [State.grantLoop] at he
      have : e.waiters = [] := by simpa [Home.waitersAt, he] using hl
      simp [this] at hw
    | cons v rest ih =>
      intro s e hl he hs w hw
      unfold State.grantLoop at he
      cases hf : s.home.entry i with
      | none => rw [hf] at he; simp only at he; rw [hf] at he; exact nomatch he
      | some f =>
        rw [hf] at he
        simp only at he
        split at he
        · rename_i hc
          refine ih _ e ?_ he hs w hw
          obtain ⟨g, hg, hr, _⟩ := State.serveHead_entry s i i f v rest
          rw [if_pos rfl] at hg
          simp [Home.waitersAt, hg, hr]
        · rename_i hc
          rw [hf] at he
          cases he
          have hl' : e.waiters = v :: rest := by simpa [Home.waitersAt, hf] using hl
          simp only [hl', List.head?_cons, Option.mem_def, Option.some.injEq] at hw
          subst hw
          simp only [hs, Bool.true_and, decide_eq_true_eq] at hc
          omega
  unfold State.grantPass at he
  cases hf : s.home.entry i with
  | none => rw [hf] at he; simp only at he; rw [hf] at he; exact nomatch he
  | some f =>
    rw [hf] at he
    exact loop _ s e (by simp [Home.waitersAt, hf]) he hs w hw

/-- A pass over a list whose head's units are not there does nothing. -/
theorem State.grantPass_eq_self (s : State) (i : ObjIndex)
    (h : ∀ e w rest, s.home.entry i = some e → e.definition.isSemaphore = true → e.waiters = w :: rest → e.level < w.units) :
    s.grantPass i = s := by
  unfold State.grantPass
  cases he : s.home.entry i with
  | none => rfl
  | some e =>
    simp only
    cases hw : e.waiters with
    | nil => rfl
    | cons w rest =>
      simp only [State.grantLoop, he]
      by_cases hs : e.definition.isSemaphore = true
      · have := h e w rest he hs hw
        rw [if_neg (by simp; omega)]
      · rw [if_neg (by simp [hs])]

/-- A pass over a list whose head's units are there serves it and goes on. -/
theorem State.grantPass_serve (s : State) (i : ObjIndex) (e : ObjectEntry) (w : WaiterRecord) (rest : List WaiterRecord)
    (he : s.home.entry i = some e) (hs : e.definition.isSemaphore = true) (hw : e.waiters = w :: rest) (hu : w.units ≤ e.level) :
    s.grantPass i = (s.serveHead i e w rest).grantPass i := by
  obtain ⟨f, hf, hr, _⟩ := State.serveHead_entry s i i e w rest
  rw [if_pos rfl] at hf
  have hl : s.grantPass i = s.grantLoop i e.waiters := by unfold State.grantPass; rw [he]
  have hl' : (s.serveHead i e w rest).grantPass i = (s.serveHead i e w rest).grantLoop i f.waiters := by
    unfold State.grantPass; rw [hf]
  rw [hl, hl', hr, hw, State.grantLoop, he]
  simp [hs, hu]

theorem State.keeps_grantPass (s : State) (i : ObjIndex) : s.HomeKeeps (s.grantPass i) :=
  State.grantPass_induction (P := s.HomeKeeps) i
    (fun t e w rest h he _ _ _ => h.trans (State.keeps_serveHead t i e w rest he)) s (.refl s)

/-- A grant pass leaves every other entry. -/
theorem State.grantPass_other (s : State) (i j : ObjIndex) (h : j ≠ i) : (s.grantPass i).home.entry j = s.home.entry j :=
  State.grantPass_induction (P := fun t => t.home.entry j = s.home.entry j) i
    (fun t e w rest ht _ _ _ _ => by
      obtain ⟨f, hf, _⟩ := State.serveHead_entry t i j e w rest
      rw [hf, if_neg h]; exact ht) s rfl

/-- After a grant pass a waiter list is a tail part of what it was. -/
theorem State.grantPass_suffix (s : State) (i j : ObjIndex) : ((s.grantPass i).home.waitersAt j).IsSuffix (s.home.waitersAt j) := by
  refine State.grantPass_induction (P := fun t => (t.home.waitersAt j).IsSuffix (s.home.waitersAt j)) i ?_ s (List.suffix_refl _)
  intro t e w rest h he hw _ _
  obtain ⟨f, hf, hr, _⟩ := State.serveHead_entry t i j e w rest
  by_cases hj : j = i
  · subst hj
    rw [if_pos rfl] at hf
    have h1 : (t.serveHead j e w rest).home.waitersAt j = rest := by simp [Home.waitersAt, hf, hr]
    have h2 : t.home.waitersAt j = w :: rest := by simp [Home.waitersAt, he, hw]
    rw [h1]
    rw [h2] at h
    exact (List.suffix_cons w rest).trans h
  · rw [if_neg hj] at hf
    simpa [Home.waitersAt, hf] using h

/-! ### The removal of records and answers -/

theorem State.keeps_dropAnswers (s : State) (p : AnswerItem → Bool) : s.HomeKeeps (s.dropAnswers p) :=
  ⟨rfl, rfl, rfl, rfl, rfl, rfl, rfl, rfl, fun _ => rfl, fun _ => rfl⟩

theorem State.keeps_dropWaiters (p : WaiterRecord → Bool) (s : State) (i : ObjIndex) : s.HomeKeeps (s.dropWaiters p i) := by
  unfold State.dropWaiters
  cases he : s.home.entry i with
  | none => exact .refl s
  | some e =>
    simp only
    split
    · refine State.HomeKeeps.trans ?_ (State.keeps_grantPass _ i)
      exact State.keeps_setEntry s i e _ he rfl rfl
    · exact .refl s

/-- Where no record is of `p`, nothing is dropped. -/
theorem State.dropWaiters_eq_self (p : WaiterRecord → Bool) (s : State) (i : ObjIndex) (h : ∀ w ∈ s.home.waitersAt i, p w = false) :
    s.dropWaiters p i = s := by
  unfold State.dropWaiters
  cases he : s.home.entry i with
  | none => rfl
  | some e =>
    have : e.waiters.any p = false := by
      rw [List.any_eq_false]
      intro w hw
      have := h w (by simpa [Home.waitersAt, he] using hw)
      simp [this]
    simp [this]

/-- A list after records of `p` were dropped from the list of `i`: what stays is a part of it, and at `i` nothing of `p` stays. -/
theorem State.dropWaiters_sublist (p : WaiterRecord → Bool) (s : State) (i j : ObjIndex) :
    ((s.dropWaiters p i).home.waitersAt j).Sublist (s.home.waitersAt j) := by
  unfold State.dropWaiters
  cases he : s.home.entry i with
  | none => exact List.Sublist.refl _
  | some e =>
    simp only
    split
    · refine (State.grantPass_suffix _ i j).sublist.trans ?_
      simp only [Home.waitersAt, State.setEntry_home, Home.entry_setEntry]
      split
      · subst j; simp [he]
      · exact List.Sublist.refl _
    · exact List.Sublist.refl _

theorem State.dropWaiters_none (p : WaiterRecord → Bool) (s : State) (i : ObjIndex) :
    ∀ w ∈ (s.dropWaiters p i).home.waitersAt i, p w = false := by
  intro w hw
  unfold State.dropWaiters at hw
  cases he : s.home.entry i with
  | none => simp [Home.waitersAt, he] at hw
  | some e =>
    simp only [he] at hw
    split at hw
    · have := (State.grantPass_suffix _ i i).subset hw
      simp only [Home.waitersAt, State.setEntry_home, Home.entry_setEntry, if_true, Option.map_some, Option.getD_some,
        List.mem_filter, Bool.not_eq_true'] at this
      exact this.2
    · rename_i ha
      have hw' : w ∈ e.waiters := by simpa [Home.waitersAt, he] using hw
      cases hp : p w with
      | false => rfl
      | true => exact absurd (List.any_eq_true.mpr ⟨w, hw', hp⟩) ha

/-- A loop of drops over indexes: what stays of each list is a part of it, and nothing of `p` stays on the lists gone through. -/
theorem State.foldl_dropWaiters (p : WaiterRecord → Bool) (l : List ObjIndex) (s : State) :
    (∀ j, ((l.foldl (State.dropWaiters p) s).home.waitersAt j).Sublist (s.home.waitersAt j)) ∧
    ∀ j ∈ l, ∀ w ∈ (l.foldl (State.dropWaiters p) s).home.waitersAt j, p w = false := by
  induction l generalizing s with
  | nil => exact ⟨fun _ => List.Sublist.refl _, by simp⟩
  | cons i rest ih =>
    obtain ⟨h1, h2⟩ := ih (s.dropWaiters p i)
    refine ⟨fun j => (h1 j).trans (State.dropWaiters_sublist p s i j), fun j hj w hw => ?_⟩
    rcases List.mem_cons.mp hj with rfl | hj
    · exact State.dropWaiters_none p s j w ((h1 j).subset hw)
    · exact h2 j hj w hw

/-- Where no list holds a record of `p`, a loop of drops does nothing. -/
theorem State.foldl_dropWaiters_eq_self (p : WaiterRecord → Bool) (l : List ObjIndex) (s : State)
    (h : ∀ i, ∀ w ∈ s.home.waitersAt i, p w = false) : l.foldl (State.dropWaiters p) s = s := by
  induction l with
  | nil => rfl
  | cons i rest ih => rw [List.foldl_cons, State.dropWaiters_eq_self p s i (h i), ih]

/-- Where only the list at `i` holds records of `p`, a loop of drops over indexes drops there alone. -/
theorem State.foldl_dropWaiters_only (p : WaiterRecord → Bool) (l : List ObjIndex) (s : State) (i : ObjIndex) (hi : i ∈ l)
    (h : ∀ j, j ≠ i → ∀ w ∈ s.home.waitersAt j, p w = false) : l.foldl (State.dropWaiters p) s = s.dropWaiters p i := by
  induction l with
  | nil => exact nomatch hi
  | cons j rest ih =>
    rw [List.foldl_cons]
    by_cases hj : j = i
    · subst hj
      refine State.foldl_dropWaiters_eq_self p rest _ fun k w hw => ?_
      by_cases hk : k = j
      · subst hk; exact State.dropWaiters_none p s k w hw
      · exact h k hk w ((State.dropWaiters_sublist p s j k).subset hw)
    · rw [State.dropWaiters_eq_self p s j (h j hj)]
      exact ih ((List.mem_cons.mp hi).resolve_left fun hh => hj hh.symm)

theorem State.keeps_replaceRecord (st : StationNum) (sl : SlotNum) (s : State) : s.HomeKeeps (s.replaceRecord st sl) :=
  State.HomeKeeps.trans (State.keeps_dropAnswers s _) (State.HomeKeeps.foldl _ (State.keeps_dropWaiters _) allIndexes _)

/-- A request that must wait, with the state after the replacement named: the operations after it see that state only. -/
theorem State.wait_eq (op : WaitOp) (f : Frame) (s t : State) (h : s.replaceRecord f.sender f.slot = t) :
    s.wait op f = if t.home.freeWaiters = 0 then t.answer f op.operation .noWaiterRecord 0
      else (t.insertRecord op f).grantPass f.index := by
  subst h; rfl

/-- The place of a new record, given the two parts of its list. -/
theorem insertByPriority_between (w : WaiterRecord) (front back : List WaiterRecord) (h1 : ∀ x ∈ front, x.priority ≤ w.priority)
    (h2 : ∀ x ∈ back.head?, w.priority < x.priority) : insertByPriority w (front ++ back) = front ++ w :: back := by
  induction front with
  | nil =>
    cases back with
    | nil => rfl
    | cons x t =>
      have := Fin.not_le.mpr (h2 x (by simp))
      simp only [List.nil_append, insertByPriority]
      rw [if_neg this]
  | cons a t ih =>
    simp only [List.cons_append, insertByPriority]
    rw [if_pos (h1 a (by simp)), ih fun x hx => h1 x (by simp [hx])]

/-- The deadline of a wait limit as the statements write it. -/
theorem deadlineOf_eq (time : Word) (limit : BitVec 16) :
    deadlineOf time limit = if limit = 65535 then none else some (time + BitVec.ofNat 32 limit.toNat) := by
  unfold deadlineOf Config.waitForEver
  rw [show limit.setWidth 32 = BitVec.ofNat 32 limit.toNat from BitVec.eq_of_toNat_eq (by simp)]
  rfl

/-- Taking a record out of a list that shows it once at its first place. -/
theorem erase_between {w : WaiterRecord} {front back : List WaiterRecord} (h : w ∉ front) :
    (front ++ w :: back).erase w = front ++ back := by
  rw [List.erase_append_right _ h, List.erase_cons_head]

/-- The first record of `p` in a list. -/
theorem find?_between {p : WaiterRecord → Bool} {w : WaiterRecord} {front back : List WaiterRecord}
    (h : ∀ x ∈ front, p x = false) (hw : p w = true) : (front ++ w :: back).find? p = some w := by
  rw [List.find?_append, List.find?_eq_none.mpr (by simpa using h)]; simp [hw]

theorem State.keeps_endWait (i : ObjIndex) (e : ObjectEntry) (w : WaiterRecord) (status : AnswerStatus) (s : State)
    (he : s.home.entry i = some e) : s.HomeKeeps (s.endWait i e w status) := by
  refine State.HomeKeeps.trans (State.HomeKeeps.trans ?_ (State.keeps_produce _ _)) (State.keeps_grantPass _ i)
  exact State.keeps_setEntry s i e _ he rfl rfl

theorem State.keeps_expire (i : ObjIndex) (st : StationNum) (sl : SlotNum) (s : State) : s.HomeKeeps (s.expire i st sl) := by
  unfold State.expire
  cases he : s.home.entry i with
  | none => exact .refl s
  | some e =>
    simp only
    split
    · exact State.keeps_endWait i e _ _ s he
    · exact .refl s

/-! ### Initial values -/

/-- A read after a mailbox's ring words were cleared. -/
theorem read_clearRing (m : Memory) (o : Option ObjectEntry) (a : Nat) :
    ((∃ e, o = some e ∧ e.ringHas a) → (clearRing m o).read a = 0) ∧
    ((∀ e, o = some e → ¬ e.ringHas a) → (clearRing m o).read a = m.read a) := by
  cases o with
  | none => exact ⟨by rintro ⟨e, h, _⟩; exact (nomatch h), fun _ => rfl⟩
  | some e =>
    cases hd : e.definition with
    | tracked c =>
      refine ⟨?_, fun _ => by simp [clearRing, hd]⟩
      rintro ⟨f, h, hr⟩; cases h; simp [ObjectEntry.ringHas, hd] at hr
    | signal c n =>
      refine ⟨?_, fun _ => by simp [clearRing, hd]⟩
      rintro ⟨f, h, hr⟩; cases h; simp [ObjectEntry.ringHas, hd] at hr
    | mailbox k base =>
      have hc : (clearRing m (some e)).read a = if base ≤ a ∧ a < base + 2 ^ k then 0 else m.read a := by
        rw [show clearRing m (some e) = m.clear base (2 ^ k) by simp [clearRing, hd], Memory.read_clear]
      refine ⟨?_, fun h => ?_⟩
      · rintro ⟨f, h, hr⟩; cases h
        simp only [ObjectEntry.ringHas, hd] at hr
        rw [hc, if_pos hr]
      · have := h e rfl
        simp only [ObjectEntry.ringHas, hd] at this
        rw [hc, if_neg this]

/-- A read after the ring words of several entries were cleared. -/
theorem read_foldl_clearRing (l : List (Option ObjectEntry)) (m : Memory) (a : Nat) :
    ((∃ o ∈ l, ∃ e, o = some e ∧ e.ringHas a) → Memory.read (l.foldl clearRing m) a = 0) ∧
    ((∀ o ∈ l, ∀ e, o = some e → ¬ e.ringHas a) → Memory.read (l.foldl clearRing m) a = m.read a) := by
  induction l generalizing m with
  | nil => exact ⟨by rintro ⟨o, h, _⟩; exact (List.not_mem_nil h).elim, fun _ => rfl⟩
  | cons o rest ih =>
    obtain ⟨i1, i2⟩ := ih (clearRing m o)
    obtain ⟨c1, c2⟩ := read_clearRing m o a
    simp only [List.foldl_cons]
    refine ⟨?_, fun h => ?_⟩
    · rintro ⟨p, hp, e, he, hr⟩
      by_cases hx : ∃ o ∈ rest, ∃ e, o = some e ∧ e.ringHas a
      · exact i1 hx
      · rw [i2 fun q hq f hf hr' => hx ⟨q, hq, f, hf, hr'⟩]
        rcases List.mem_cons.mp hp with rfl | hp
        · exact c1 ⟨e, he, hr⟩
        · exact absurd ⟨p, hp, e, he, hr⟩ hx
    · rw [i2 fun q hq => h q (by simp [hq]), c2 (h o (by simp))]

/-- Clearing ring words keeps the canonical form of the pool. -/
theorem wf_foldl_clearRing (l : List (Option ObjectEntry)) (m : Memory) (h : m.wf) : Memory.wf (l.foldl clearRing m) := by
  induction l generalizing m with
  | nil => exact h
  | cons o rest ih =>
    refine ih _ ?_
    unfold clearRing
    split
    · split
      · exact Memory.wf_clear _ _ _ h
      · exact h
      · exact h
    · exact h

/-- An entry is in the table exactly when it stands at some index. -/
theorem Home.mem_objects (h : Home) (o : Option ObjectEntry) : o ∈ h.objects.toList ↔ ∃ i : ObjIndex, h.entry i = o := by
  simp only [Vector.mem_toList_iff, Vector.mem_iff_getElem, Home.entry, Fin.getElem_fin]
  constructor
  · rintro ⟨i, hi, h⟩; exact ⟨⟨i, hi⟩, h⟩
  · rintro ⟨i, h⟩; exact ⟨i.val, i.isLt, h⟩

/-- Every defined object's runtime state is at its initial values. -/
theorem Home.renewed_initRuntime (h : Home) : h.Renewed h.initRuntime := by
  refine ⟨fun i => ?_, fun i e a he hr => ?_, fun a ha => ?_, rfl, rfl⟩
  · have : h.initRuntime.entry i = (h.entry i).map fun e => ObjectEntry.initial e.definition := by
      simp [Home.initRuntime, Home.entry]
    rw [this]
    congr 1; funext e
    cases hd : e.definition <;> simp [ObjectEntry.initial, Definition.initialLevel]
  · exact (read_foldl_clearRing _ _ a).1 ⟨some e, (h.mem_objects _).mpr ⟨i, he⟩, e, rfl, hr⟩
  · refine (read_foldl_clearRing _ _ a).2 fun o ho e he => ?_
    obtain ⟨i, hi⟩ := (h.mem_objects o).mp ho
    exact ha i e (hi.trans he)

/-- So it is after a restart, which clears the waiter pool and the answer list besides. -/
theorem Home.renewed_restart (h : Home) : h.Renewed h.restart :=
  have r := h.renewed_initRuntime
  ⟨r.entries, r.rings, r.words, r.used, r.holds⟩

/-! ### Purge, reclaim and flush -/

theorem State.keeps_reclaimAt (n : StationNum) (s : State) (i : ObjIndex) : s.HomeKeeps (s.reclaimAt n i) := by
  unfold State.reclaimAt
  split
  · rename_i e r he _
    split
    · refine State.HomeKeeps.trans ?_ (State.keeps_grantPass _ i)
      have h := State.keeps_setEntry s i e { e with level := e.level + r.units } he rfl rfl
      exact ⟨h.pending, h.control, h.roster, h.link, h.port, h.pool, h.poolUsed, h.arrivals, h.definitions, h.heads⟩
    · exact .refl s
  · exact .refl s

/-- The home side of a purge keeps the definitions, the heads, the pool and everything outside the home half but the client engine. -/
theorem State.keeps_purgeHome (n : StationNum) (s : State) : s.HomeKeeps (s.purgeHome n) := by
  unfold State.purgeHome
  generalize allIndexes = l
  have h1 := State.HomeKeeps.foldl _ (State.keeps_dropWaiters fun w => decide (w.requester = n)) l s
  exact (h1.trans (State.keeps_dropAnswers _ _)).trans (State.HomeKeeps.foldl _ (State.keeps_reclaimAt n) l _)

theorem State.keeps_flushObject (s : State) (i : ObjIndex) : s.HomeKeeps (s.flushObject i) := by
  unfold State.flushObject
  cases he : s.home.entry i with
  | none => exact .refl s
  | some e =>
    refine State.HomeKeeps.trans ?_ (State.HomeKeeps.foldl _ (fun t w => State.keeps_produce t _) e.waiters _)
    exact State.keeps_setEntry s i e _ he rfl rfl

/-- The flush of the waiting records keeps the same. -/
theorem State.keeps_flush (s : State) : s.HomeKeeps s.flush := by
  unfold State.flush
  generalize allIndexes = l
  exact State.HomeKeeps.foldl _ State.keeps_flushObject l s

/-! ### The flush of the waiting records -/

/-- The answers a flush of records produces for other stations, in list order. -/
def flushAnswers (own : StationNum) (l : List WaiterRecord) : List AnswerItem :=
  (l.filter fun w => decide (w.requester ≠ own)).map fun w => .record w .homeAbsent 0

theorem flushAnswers_append (own : StationNum) (a b : List WaiterRecord) :
    flushAnswers own (a ++ b) = flushAnswers own a ++ flushAnswers own b := by
  simp [flushAnswers]

/-- `s` with answers at the tail of the answer list. -/
def State.appendAnswers (s : State) (l : List AnswerItem) : State :=
  { s with home := { s.home with answers := { s.home.answers with items := s.home.answers.items ++ l } } }

/-- `s` with another object table. -/
def State.withObjects (s : State) (objects : Vector (Option ObjectEntry) 64) : State :=
  { s with home := { s.home with objects } }

theorem State.appendAnswers_nil (s : State) : s.appendAnswers [] = s := by simp [State.appendAnswers]

/-- With no busy slot, the flush of one list only adds its answers. -/
theorem State.foldl_flush (l : List WaiterRecord) (s : State) (h : ∀ n, (s.client.slot n).use.busy = false) :
    l.foldl (fun t w => t.produce (.record w .homeAbsent 0)) s = s.appendAnswers (flushAnswers s.control.number l) := by
  induction l generalizing s with
  | nil => exact s.appendAnswers_nil.symm
  | cons w rest ih =>
    rw [List.foldl_cons]
    by_cases hw : w.requester = s.control.number
    · have : s.produce (.record w .homeAbsent 0) = s := by
        unfold State.produce
        rw [if_pos (by exact hw), Client.receive_at_rest _ _ _ h]
      rw [this, ih s h]
      simp [flushAnswers, hw]
    · have : s.produce (.record w .homeAbsent 0) = s.appendAnswers [.record w .homeAbsent 0] := by
        unfold State.produce
        rw [if_neg (by exact hw)]; rfl
      rw [this, ih _ (by exact h)]
      simp only [State.appendAnswers, flushAnswers, List.append_assoc, List.filter_cons, hw, ne_eq, not_false_eq_true, decide_true,
        if_true, List.map_cons]
      rfl

/-- With no busy slot, the flush of one object empties its list and adds its answers. -/
theorem State.flushObject_eq (s : State) (i : ObjIndex) (h : ∀ n, (s.client.slot n).use.busy = false) :
    ∃ objects : Vector (Option ObjectEntry) 64,
      s.flushObject i = (s.withObjects objects).appendAnswers (flushAnswers s.control.number (s.home.waitersAt i)) ∧
      ∀ j : ObjIndex, objects[j] = if j = i then (s.home.entry j).map fun e => { e with waiters := [] } else s.home.entry j := by
  unfold State.flushObject
  cases he : s.home.entry i with
  | none =>
    refine ⟨s.home.objects, ?_, fun j => ?_⟩
    · simp [Home.waitersAt, he, flushAnswers, State.appendAnswers, State.withObjects]
    · split
      · subst j; rw [he]; exact he
      · rfl
  | some e =>
    refine ⟨s.home.objects.set i (some { e with waiters := [] }), ?_, fun j => ?_⟩
    · simp only
      rw [State.foldl_flush _ _ (by exact h)]
      simp only [Home.waitersAt, he, Option.map_some, Option.getD_some]
      rfl
    · refine (Home.entry_setEntry s.home i j { e with waiters := [] }).trans ?_
      split
      · subst j; rw [he]; rfl
      · rfl

/-- With no busy slot, the flush of several objects empties their lists and adds their answers in order. -/
theorem State.foldl_flushObject (l : List ObjIndex) (hl : l.Nodup) (s : State) (h : ∀ n, (s.client.slot n).use.busy = false) :
    ∃ objects : Vector (Option ObjectEntry) 64,
      l.foldl State.flushObject s =
        (s.withObjects objects).appendAnswers (flushAnswers s.control.number (l.flatMap s.home.waitersAt)) ∧
      ∀ i : ObjIndex, objects[i] = if i ∈ l then (s.home.entry i).map fun e => { e with waiters := [] } else s.home.entry i := by
  induction l generalizing s with
  | nil => exact ⟨s.home.objects, (State.appendAnswers_nil _).symm, fun i => by simp [Home.entry]⟩
  | cons i rest ih =>
    obtain ⟨hn, hr⟩ := List.nodup_cons.mp hl
    obtain ⟨objs, h1, h2⟩ := State.flushObject_eq s i h
    rw [List.foldl_cons, h1]
    obtain ⟨objs', h3, h4⟩ :=
      ih hr ((s.withObjects objs).appendAnswers (flushAnswers s.control.number (s.home.waitersAt i))) h
    have he : ∀ j, ((s.withObjects objs).appendAnswers (flushAnswers s.control.number (s.home.waitersAt i))).home.entry j = objs[j] :=
      fun _ => rfl
    have hw : ∀ j ∈ rest, ((s.withObjects objs).appendAnswers (flushAnswers s.control.number (s.home.waitersAt i))).home.waitersAt j =
        s.home.waitersAt j := by
      intro j hj
      have hne : j ≠ i := by rintro rfl; exact hn hj
      have hj' := (he j).trans ((h2 j).trans (if_neg hne))
      exact congrArg (fun o => (o.map ObjectEntry.waiters).getD []) hj'
    have hf : ∀ r : List ObjIndex, (∀ j ∈ r, j ∈ rest) →
        r.flatMap ((s.withObjects objs).appendAnswers (flushAnswers s.control.number (s.home.waitersAt i))).home.waitersAt =
          r.flatMap s.home.waitersAt := by
      intro r hr'
      induction r with
      | nil => rfl
      | cons a t ih2 =>
        rw [List.flatMap_cons, List.flatMap_cons, hw a (hr' a (by simp)), ih2 fun j hj => hr' j (by simp [hj])]
    refine ⟨objs', ?_, fun j => ?_⟩
    · rw [h3, hf rest fun _ hj => hj, List.flatMap_cons, flushAnswers_append]
      simp only [State.appendAnswers, State.withObjects, List.append_assoc]
    · rw [h4, he, h2]
      by_cases hji : j = i
      · subst hji; simp [hn]
      · simp [hji]

/-- With no busy slot, the flush empties every list and adds the answers in index and list order. -/
theorem State.flush_eq (s : State) (h : ∀ n, (s.client.slot n).use.busy = false) :
    ∃ objects : Vector (Option ObjectEntry) 64,
      s.flush = (s.withObjects objects).appendAnswers (flushAnswers s.control.number (allIndexes.flatMap s.home.waitersAt)) ∧
      ∀ i : ObjIndex, objects[i] = (s.home.entry i).map fun e => { e with waiters := [] } := by
  unfold State.flush
  have hnd := nodup_allIndexes
  have hall := mem_allIndexes
  generalize allIndexes = l at *
  obtain ⟨objs, h1, h2⟩ := State.foldl_flushObject l hnd s h
  exact ⟨objs, h1, fun i => by rw [h2, if_pos (hall i)]⟩

end Sys2Proof.Machine
end

