-- ==== Sys2Proof/Laws/Exec.lean ====
section
/-! SUPPORT. From a command to its meaning: what exec answers while the station runs, the register fields as numbers, and the
answers to local commands in the terms of the statements. -/

namespace Sys2Proof.Machine

/-! ### Occasions -/

theorem whenever_true (t s : State) : whenever true t s = .next t := rfl
theorem whenever_false (t s : State) : whenever false t s = .next s := rfl
theorem whenever_of {b : Bool} (h : b = true) (t s : State) : whenever b t s = .next t := by subst h; rfl
theorem whenever_of_not {b : Bool} (h : b = false) (t s : State) : whenever b t s = .next s := by subst h; rfl

/-- What holds of both answers of an occasion holds of the next state. -/
theorem whenever_next {b : Bool} {t s u : State} (h : whenever b t s = .next u) : (b = true ∧ u = t) ∨ (b = false ∧ u = s) := by
  cases b
  · exact .inr ⟨rfl, by simpa [whenever] using h.symm⟩
  · exact .inl ⟨rfl, by simpa [whenever] using h.symm⟩

/-! ### The commands of a running station -/

theorem exec_define (s : State) (h : s.running = true) : exec .define s = .next s.define := whenever_of h _ _
theorem exec_clearDefinitions (s : State) (h : s.running = true) : exec .clearDefinitions s = .next s.clearDefinitions :=
  whenever_of h _ _
theorem exec_joinCommand (s : State) (h : s.running = true) : exec .joinCommand s = .next s.join := whenever_of h _ _
theorem exec_leaveCommand (s : State) (h : s.running = true) : exec .leaveCommand s = .next s.leave := whenever_of h _ _
theorem exec_resetCommand (s : State) (h : s.running = true) : exec .resetCommand s = .next s.resetCommand := whenever_of h _ _
theorem exec_submit (s : State) (h : s.running = true) : exec .submit s = .next s.submit := whenever_of h _ _
theorem exec_cancel (s : State) (h : s.running = true) : exec .cancel s = .next s.cancel := whenever_of h _ _
theorem exec_pop (s : State) (h : s.running = true) : exec .pop s = .next s.pop := whenever_of h _ _
theorem exec_readObject (s : State) (h : s.running = true) : exec .readObject s = .next s.readObject := whenever_of h _ _
theorem exec_readEvents (s : State) (h : s.running = true) : exec .readEvents s = .next s.readEvents := whenever_of h _ _
theorem exec_stationTimeAdvance (s : State) (h : s.running = true) : exec .stationTimeAdvance s = .next s.advanceTime :=
  whenever_of h _ _
theorem exec_expiry (i : ObjIndex) (st : StationNum) (sl : SlotNum) (s : State) (h : s.running = true) :
    exec (.expiry i st sl) s = .next (s.expire i st sl) := whenever_of h _ _

/-- A running station on the link runs. -/
theorem State.running_of_onLink {s : State} (h : s.onLink = true) : s.running = true := by
  simp only [State.onLink, Bool.and_eq_true] at h; exact h.1

/-- A station on the link is JOINING, ACTIVE or LEAVING. -/
theorem State.mode_of_onLink {s : State} (h : s.onLink = true) : s.control.mode.onLink = true := by
  simp only [State.onLink, Bool.and_eq_true] at h; exact h.2

/-- A request at the head that the home engine takes. -/
theorem exec_requestTaken (s : State) (f : Frame) (op : Operation) (rest : List QueueItem) (hq : s.link.queue = .frame f :: rest)
    (hk : f.kind = .request op) (ht : s.takesRequests = true) (hd : s.senderDeparted f = false) (hf : 0 < s.home.freeImmediate) :
    exec .requestTaken s = .next (s.takeRequest f op) := by
  simp [exec, execRequestTaken, Link.headFrame, hq, Frame.requestOperation, hk, whenever, ht, hd, hf]

/-- A request at the head that an ACTIVE station takes, past the checks of its object. -/
theorem State.Takes.exec_eq {s : State} {f : Frame} {op : Operation} {rest : List QueueItem} (h : s.Takes f op rest) :
    exec .requestTaken s = .next ((s.withQueue rest).applyRequest f op) := by
  have hd : s.senderDeparted f = false := by
    rcases h.sender with h | h <;> simp [State.senderDeparted, h]
  rw [exec_requestTaken s f op rest h.head h.request (by simp [State.takesRequests, h.running, h.active]) hd h.free]
  simp [State.takeRequest, h.active, State.dropHeadFrame, h.head, State.withQueue]

/-- A notice at the head that the station dispatches. -/
theorem dispatchNotice_eq (s : State) (f : Frame) (k : NoticeKind) (rest : List QueueItem) (effect : Frame → State → State)
    (hl : s.onLink = true) (hq : s.link.queue = .frame f :: rest) (hk : f.kind = .notice k) :
    s.dispatchNotice k effect = .next (effect f (s.withQueue rest)) := by
  simp [State.dispatchNotice, Link.headFrame, hq, whenever, hl, Frame.notice?, hk, State.dropHeadFrame, State.withQueue]

/-- An answer at the head that the station dispatches. -/
theorem exec_answerDispatched (s : State) (f : Frame) (op : Operation) (rest : List QueueItem) (hl : s.onLink = true)
    (hq : s.link.queue = .frame f :: rest) (hk : f.kind = .answer op) :
    exec .answerDispatched s = .next ((s.withQueue rest).takeAnswer f) := by
  simp [exec, execAnswerDispatched, Link.headFrame, hq, whenever, hl, Frame.isAnswer, hk, State.dropHeadFrame, State.withQueue]

/-- A frame heard while the receiver has the line. -/
theorem exec_frameHeard (s : State) (bits : BitVec 120) (whole : Bool) (hl : s.onLink = true)
    (ht : ∀ f, s.link.transmitter ≠ .line f) (hp : s.link.placeHeld = false) :
    exec (.frameHeard bits whole) s = .next (s.hear bits whole) := by
  have : s.link.transmitter.lineFrame = none := by
    cases h : s.link.transmitter with
    | free => rfl
    | line f => exact absurd h (ht f)
    | ownPath f => rfl
  simp [exec, execFrameHeard, whenever, State.receiving, hl, this, hp]

/-- The outcome of a unicast attempt on the line. -/
theorem exec_unicastAttemptOutcome (s : State) (f : Frame) (a b c : Bool) (hl : s.onLink = true) (ht : s.link.transmitter = .line f)
    (hk : f.isNotice = false) : exec (.unicastAttemptOutcome a b c) s = .next (s.unicastOutcome f (outcomeOf a b c)) := by
  simp [exec, execUnicastAttemptOutcome, ht, Transmitter.lineFrame, whenever, hl, hk]

/-- The outcome of an attempt on the station's own notice. -/
theorem exec_broadcastAttemptOutcome (s : State) (f : Frame) (b : Bool) (hl : s.onLink = true) (ht : s.link.transmitter = .line f)
    (hk : f.isNotice = true) : exec (.broadcastAttemptOutcome b) s = .next (s.broadcastOutcome f b) := by
  simp [exec, execBroadcastAttemptOutcome, ht, Transmitter.lineFrame, whenever, hl, hk]

/-! ### Register fields as numbers -/

theorem Port.defineIndex_toNat (p : Port) : p.defineIndex.toNat = p.params[0].toNat % 256 := by
  simp [Port.defineIndex, Port.param]
theorem Port.defineKind_toNat (p : Port) : p.defineKind.toNat = p.params[0].toNat / 256 % 8 := by
  simp [Port.defineKind, Port.param, Nat.shiftRight_eq_div_pow]
theorem Port.readIndex_toNat (p : Port) : p.readIndex.toNat = p.params[0].toNat % 256 := by
  simp [Port.readIndex, Port.param]
theorem Port.cancelSlot_val (p : Port) : p.cancelSlot.val = p.params[0].toNat % 32 := by
  simp [Port.cancelSlot, Port.param]
theorem Port.submitOperation_toNat (p : Port) : p.submitOperation.toNat = p.params[0].toNat % 8 := by
  simp [Port.submitOperation, Port.param]
theorem Port.submitPriority_val (p : Port) : p.submitPriority.val = p.params[0].toNat / 16 % 8 := by
  simp [Port.submitPriority, Port.param, Nat.shiftRight_eq_div_pow]
theorem Port.submitUnits_toNat (p : Port) : p.submitUnits.toNat = p.params[0].toNat / 256 := by
  have := p.params[0].isLt
  simp [Port.submitUnits, Port.param, Nat.shiftRight_eq_div_pow]; omega
theorem Port.submitObject_val (p : Port) : p.submitObject.val = p.params[1].toNat % 2048 := by
  simp [Port.submitObject, Port.param]
theorem Port.submitWord_toNat (p : Port) : p.submitWord.toNat = p.params[3].toNat + 65536 * p.params[4].toNat := by
  have h3 := p.params[3].isLt
  have h4 := p.params[4].isLt
  have h : p.submitWord.toNat = p.params[4].toNat <<< 16 ||| p.params[3].toNat := by
    show (p.params[4] ++ p.params[3]).toNat = _
    rw [BitVec.toNat_append]
  rw [h, Nat.shiftLeft_eq, Nat.mul_comm, ← Nat.two_pow_add_eq_or_of_lt h3]
  omega

/-- An index field below 64 as an index of the table. -/
theorem tableIndex_of_lt (b : BitVec 8) {n : Nat} (hb : b.toNat = n) (h : n < 64) : tableIndex b = some ⟨n, h⟩ := by
  subst hb; simp [tableIndex, h]

/-- An index field of 64 or more names no index. -/
theorem tableIndex_of_le (b : BitVec 8) (h : 64 ≤ b.toNat) : tableIndex b = none := by
  simp [tableIndex]; omega

/-! ### Answers to local commands -/

/-- RESULT0 of a command of a code below 256. -/
theorem resultWord_of_lt (code : Nat) (r : LocalResult) (h : code < 256) :
    resultWord (BitVec.ofNat 16 code) r = BitVec.ofNat 16 (256 * code + r.code.toNat) := by
  apply BitVec.eq_of_toNat_eq
  have hr := r.code.isLt
  have h1 : code % 65536 = code := Nat.mod_eq_of_lt (by omega)
  have h2 : code % 256 = code := Nat.mod_eq_of_lt h
  simp only [resultWord, BitVec.toNat_ofNat, h1, h, if_true, BitVec.toNat_append, BitVec.truncate_eq_setWidth, BitVec.toNat_setWidth,
    Nat.reducePow, h2]
  rw [Nat.shiftLeft_eq, Nat.mul_comm, ← Nat.two_pow_add_eq_or_of_lt hr]
  omega

/-- An answer to a command in the terms of the statements. -/
theorem State.respond_eq_told (s : State) (code : Nat) (r : LocalResult) (a b : Reg) (h : code < 256) :
    s.respond (BitVec.ofNat 16 code) r a b = s.told code r.code.toNat a b := by
  unfold State.respond State.told Port.answered
  rw [resultWord_of_lt code r h]

/-- A refusal in the terms of the statements. -/
theorem State.refuse_eq_told (s : State) (code : Nat) (r : LocalResult) (h : code < 256) :
    s.refuse (BitVec.ofNat 16 code) r = s.told code r.code.toNat 0 0 := State.respond_eq_told s code r 0 0 h

end Sys2Proof.Machine
end

