-- ==== Sys2Proof/Laws/Frame.lean ====
section
/-! SUPPORT. The frame's codes and fields on the line: each code read back, each field found at its place, and the order in which
leading fields settle contention. -/

namespace Sys2Proof.Machine

/-! ### Codes -/

@[simp] theorem Operation.ofCode_code (op : Operation) : Operation.ofCode op.code = some op := by cases op <;> rfl
@[simp] theorem NoticeKind.ofCode_code (k : NoticeKind) : NoticeKind.ofCode k.code = some k := by cases k <;> rfl
@[simp] theorem AnswerStatus.ofCode_code (a : AnswerStatus) : AnswerStatus.ofCode a.code = some a := by cases a <;> rfl

/-- A kind code that names an operation is that operation's. -/
theorem Operation.code_of_ofCode (c : BitVec 3) (op : Operation) (h : Operation.ofCode c = some op) : op.code = c := by
  revert c; cases op <;> decide

/-- A kind code that names a notice is that notice's. -/
theorem NoticeKind.code_of_ofCode (c : BitVec 3) (k : NoticeKind) (h : NoticeKind.ofCode c = some k) : k.code = c := by
  revert c; cases k <;> decide

/-- A status code that names an answer status is that status's. -/
theorem AnswerStatus.code_of_ofCode (c : BitVec 4) (a : AnswerStatus) (h : AnswerStatus.ofCode c = some a) : a.code = c := by
  revert c; cases a <;> decide

/-- Every status code up to 12 names an answer status. -/
theorem AnswerStatus.ofCode_of_le (c : BitVec 4) (h : c.toNat ≤ 12) : ∃ a, AnswerStatus.ofCode c = some a ∧ a.code = c := by
  have all : ∀ n, n < 13 → ∃ a, AnswerStatus.ofCode (BitVec.ofNat 4 n) = some a ∧ a.code = BitVec.ofNat 4 n := by
    intro n hn
    match n, hn with
    | 0, _ => exact ⟨.ok, rfl, rfl⟩
    | 1, _ => exact ⟨.notReady, rfl, rfl⟩
    | 2, _ => exact ⟨.expired, rfl, rfl⟩
    | 3, _ => exact ⟨.withdrawn, rfl, rfl⟩
    | 4, _ => exact ⟨.missed, rfl, rfl⟩
    | 5, _ => exact ⟨.full, rfl, rfl⟩
    | 6, _ => exact ⟨.overflow, rfl, rfl⟩
    | 7, _ => exact ⟨.notHolder, rfl, rfl⟩
    | 8, _ => exact ⟨.noWaiterRecord, rfl, rfl⟩
    | 9, _ => exact ⟨.noHoldRecord, rfl, rfl⟩
    | 10, _ => exact ⟨.badObject, rfl, rfl⟩
    | 11, _ => exact ⟨.badRequest, rfl, rfl⟩
    | 12, _ => exact ⟨.homeAbsent, rfl, rfl⟩
  have := all c.toNat (by omega)
  simpa using this

/-- A status code above 12 names none. -/
theorem AnswerStatus.ofCode_none (c : BitVec 4) (h : 13 ≤ c.toNat) : AnswerStatus.ofCode c = none := by
  have hlt := c.isLt
  have : c.toNat = 13 ∨ c.toNat = 14 ∨ c.toNat = 15 := by omega
  unfold AnswerStatus.ofCode
  rcases this with h | h | h <;> rw [h] <;> rfl

@[simp] theorem FrameKind.ofCodes_codes (k : FrameKind) : FrameKind.ofCodes k.classCode k.kindCode = some k := by
  cases k with
  | notice k => cases k <;> rfl
  | answer op => cases op <;> rfl
  | request op => cases op <;> rfl

/-- The class and kind codes that name a frame's kind are its own. -/
theorem FrameKind.codes_of_ofCodes (cls : BitVec 2) (kind : BitVec 3) (k : FrameKind) (h : FrameKind.ofCodes cls kind = some k) :
    k.classCode = cls ∧ k.kindCode = kind := by
  have hc : cls = 0 ∨ cls = 1 ∨ cls = 2 ∨ cls = 3 := by clear h; revert cls; decide
  rcases hc with rfl | rfl | rfl | rfl
  · have h : (NoticeKind.ofCode kind).map FrameKind.notice = some k := h
    cases hk : NoticeKind.ofCode kind with
    | none => simp [hk] at h
    | some n => simp only [hk, Option.map_some, Option.some.injEq] at h; subst h; exact ⟨rfl, NoticeKind.code_of_ofCode _ _ hk⟩
  · have h : (Operation.ofCode kind).map FrameKind.answer = some k := h
    cases hk : Operation.ofCode kind with
    | none => simp [hk] at h
    | some n => simp only [hk, Option.map_some, Option.some.injEq] at h; subst h; exact ⟨rfl, Operation.code_of_ofCode _ _ hk⟩
  · have h : (Operation.ofCode kind).map FrameKind.request = some k := h
    cases hk : Operation.ofCode kind with
    | none => simp [hk] at h
    | some n => simp only [hk, Option.map_some, Option.some.injEq] at h; subst h; exact ⟨rfl, Operation.code_of_ofCode _ _ hk⟩
  · exact nomatch h

@[simp] theorem Destination.ofCode_code (d : Destination) : Destination.ofCode d.code = some d := by
  cases d with
  | all => rfl
  | station n =>
    have hn := n.isLt
    have : (BitVec.ofNat 6 n.val).toNat = n.val := by simp; omega
    simp [Destination.ofCode, Destination.code, Nat.mod_eq_of_lt (show n.val < 64 by omega)]

/-- A destination code that names a destination is that destination's. -/
theorem Destination.code_of_ofCode (c : BitVec 6) (d : Destination) (h : Destination.ofCode c = some d) : d.code = c := by
  unfold Destination.ofCode at h
  split at h
  · simp only [Option.some.injEq] at h; subst h; simp [Destination.code]
  · split at h
    · rename_i hc
      simp only [Option.some.injEq] at h; subst h; rw [hc]; rfl
    · exact nomatch h

/-! ### Fields -/

/-- A frame's fields at their places in its 104 bits. -/
theorem Frame.payload_fields (f : Frame) :
    f.payload.extractLsb' 102 2 = f.kind.classCode ∧ f.payload.extractLsb' 97 5 = BitVec.ofFin (w := 5) f.sender ∧
    f.payload.extractLsb' 91 6 = f.dest.code ∧ f.payload.extractLsb' 88 3 = f.kind.kindCode ∧
    f.payload.extractLsb' 82 6 = BitVec.ofFin (w := 6) f.index ∧ f.payload.extractLsb' 77 5 = BitVec.ofFin (w := 5) f.slot ∧
    f.payload.extractLsb' 69 8 = f.tag ∧ f.payload.extractLsb' 66 3 = BitVec.ofFin (w := 3) f.priority ∧
    f.payload.extractLsb' 50 16 = f.waitLimit ∧ f.payload.extractLsb' 42 8 = f.units ∧
    f.payload.extractLsb' 41 1 = BitVec.ofBool f.urgent ∧ f.payload.extractLsb' 9 32 = f.word ∧
    f.payload.extractLsb' 5 4 = f.status ∧ f.payload.extractLsb' 0 5 = BitVec.ofFin (w := 5) f.subject := by
  unfold Frame.payload
  refine ⟨?_, ?_, ?_, ?_, ?_, ?_, ?_, ?_, ?_, ?_, ?_, ?_, ?_, ?_⟩
  all_goals
    repeat' first
      | rw [BitVec.extractLsb'_append_eq_of_le (by decide)]
      | rw [BitVec.extractLsb'_append_eq_of_add_le (by decide)]
    exact BitVec.extractLsb'_eq_self

/-- The check sequence and the fields of a frame's bits. -/
theorem Frame.encode_parts (f : Frame) :
    f.encode.extractLsb' 0 16 = checkSequence f.payload ∧ f.encode.extractLsb' 16 104 = f.payload := by
  unfold Frame.encode
  constructor
  · rw [BitVec.extractLsb'_append_eq_of_add_le (by decide), BitVec.extractLsb'_eq_self]
  · rw [BitVec.extractLsb'_append_eq_of_le (by decide)]; exact BitVec.extractLsb'_eq_self

/-- The 104 bits put together from their fields. -/
theorem payload_of_fields (p : BitVec 104) :
    p.extractLsb' 102 2 ++ p.extractLsb' 97 5 ++ p.extractLsb' 91 6 ++ p.extractLsb' 88 3 ++ p.extractLsb' 82 6 ++
      p.extractLsb' 77 5 ++ p.extractLsb' 69 8 ++ p.extractLsb' 66 3 ++ p.extractLsb' 50 16 ++ p.extractLsb' 42 8 ++
      p.extractLsb' 41 1 ++ p.extractLsb' 9 32 ++ p.extractLsb' 5 4 ++ p.extractLsb' 0 5 = p := by
  iterate 13 rw [BitVec.extractLsb'_append_extractLsb'_eq_extractLsb' (by decide)]
  exact BitVec.extractLsb'_eq_self

/-- The 120 bits put together from the fields and the check sequence. -/
theorem bits_of_parts (b : BitVec 120) : b.extractLsb' 16 104 ++ b.extractLsb' 0 16 = b := by
  rw [BitVec.extractLsb'_append_extractLsb'_eq_extractLsb' (by decide)]
  exact BitVec.extractLsb'_eq_self

/-- What 104 bits of fields are when they are a frame's. -/
theorem Frame.ofPayload_eq_some (p : BitVec 104) (f : Frame) (h : Frame.ofPayload p = some f) :
    f.wellFormed = true ∧ FrameKind.ofCodes (p.extractLsb' 102 2) (p.extractLsb' 88 3) = some f.kind ∧
    Destination.ofCode (p.extractLsb' 91 6) = some f.dest ∧
    f = { f with
      sender := (p.extractLsb' 97 5).toFin
      index := (p.extractLsb' 82 6).toFin
      slot := (p.extractLsb' 77 5).toFin
      tag := p.extractLsb' 69 8
      priority := (p.extractLsb' 66 3).toFin
      waitLimit := p.extractLsb' 50 16
      units := p.extractLsb' 42 8
      urgent := p.getLsbD 41
      word := p.extractLsb' 9 32
      status := p.extractLsb' 5 4
      subject := (p.extractLsb' 0 5).toFin } := by
  unfold Frame.ofPayload at h
  split at h
  · rename_i kind dest hk hd
    split at h
    · rename_i ht
      simp only [Option.some.injEq] at h
      subst h
      exact ⟨ht, hk, hd, rfl⟩
    · exact nomatch h
  · exact nomatch h

/-- A frame heard is well formed. -/
theorem Frame.wellFormed_of_parse (bits : BitVec 120) (f : Frame) (h : Frame.parse bits = some f) : f.wellFormed = true := by
  unfold Frame.parse at h
  split at h
  · exact (Frame.ofPayload_eq_some _ _ h).1
  · exact nomatch h

/-- A unicast heard is no notice. -/
theorem Frame.not_notice_of_station (f : Frame) (n : StationNum) (h : f.wellFormed = true) (hd : f.dest = .station n) (k : NoticeKind) :
    f.kind ≠ .notice k := by
  intro hk
  simp [Frame.wellFormed, hk, hd, FrameKind.takesDest] at h

/-! ### Contention -/

/-- Of two numbers of one width the smaller shows a 0 at the first bit, from the most significant on, in which they differ. -/
theorem toNat_lt_iff_first_difference (w : Nat) (a b : BitVec w) :
    (∃ i < w, (∀ j < i, a.getMsbD j = b.getMsbD j) ∧ b.getMsbD i = true ∧ a.getMsbD i = false) ↔ a.toNat < b.toNat := by
  induction w with
  | zero => simp [BitVec.eq_nil a, BitVec.eq_nil b]
  | succ w ih =>
    have ha := BitVec.cons_msb_setWidth a
    have hb := BitVec.cons_msb_setWidth b
    generalize a.msb = x at ha
    generalize b.msb = y at hb
    generalize a.setWidth w = a' at ha
    generalize b.setWidth w = b' at hb
    subst ha hb
    have h0 : ∀ (c : Bool) (v : BitVec w), (BitVec.cons c v).getMsbD 0 = c := by
      intro c v; simp only [BitVec.getMsbD, BitVec.getLsbD_cons]; simp
    have hs : ∀ (c : Bool) (v : BitVec w) (i : Nat), (BitVec.cons c v).getMsbD (i + 1) = v.getMsbD i := by
      intro c v i
      simp only [BitVec.getMsbD, BitVec.getLsbD_cons]
      by_cases h : i < w
      · rw [if_neg (by omega), show w + 1 - 1 - (i + 1) = w - 1 - i by omega, decide_eq_true h, decide_eq_true (by omega)]
      · rw [decide_eq_false h, decide_eq_false (by omega)]; simp
    have hn : ∀ (c : Bool) (v : BitVec w), (BitVec.cons c v).toNat = c.toNat * 2 ^ w + v.toNat := by
      intro c v
      rw [BitVec.toNat_cons, Nat.shiftLeft_eq, Nat.mul_comm, ← Nat.two_pow_add_eq_or_of_lt v.isLt]
    rw [hn, hn]
    have la := a'.isLt
    have lb := b'.isLt
    have ih' := ih a' b'
    constructor
    · rintro ⟨i, hi, h1, h2, h3⟩
      cases i with
      | zero =>
        rw [h0] at h2 h3
        subst h2 h3
        simp only [Bool.toNat_false, Bool.toNat_true]; omega
      | succ i =>
        have h4 := h1 0 (by omega)
        rw [h0, h0] at h4
        subst h4
        have : a'.toNat < b'.toNat := ih'.mp ⟨i, by omega, fun j hj => by have := h1 (j + 1) (by omega); rwa [hs, hs] at this,
          by rwa [hs] at h2, by rwa [hs] at h3⟩
        omega
    · intro h
      by_cases hxy : x = y
      · subst hxy
        obtain ⟨i, hi, h1, h2, h3⟩ := ih'.mpr (by omega)
        refine ⟨i + 1, by omega, fun j hj => ?_, by rw [hs]; exact h2, by rw [hs]; exact h3⟩
        cases j with
        | zero => rw [h0, h0]
        | succ j => rw [hs, hs]; exact h1 j (by omega)
      · refine ⟨0, by omega, fun j hj => absurd hj (by omega), ?_, ?_⟩ <;> rw [h0]
        · cases x <;> cases y <;> simp only [Bool.toNat_false, Bool.toNat_true] at h <;> first | rfl | (exfalso; omega) | exact absurd rfl hxy
        · cases x <;> cases y <;> simp only [Bool.toNat_false, Bool.toNat_true] at h <;> first | rfl | (exfalso; omega) | exact absurd rfl hxy

/-- The leading field as a number: 32 times the class code, plus the sender (R190). -/
theorem Frame.leading_toNat (f : Frame) : f.leading.toNat = 32 * f.kind.classCode.toNat + f.sender.val := by
  have := f.sender.isLt
  simp only [Frame.leading, BitVec.toNat_append, BitVec.toNat_ofFin]
  rw [Nat.shiftLeft_eq, Nat.mul_comm, ← Nat.two_pow_add_eq_or_of_lt this]

end Sys2Proof.Machine
end

