-- ==== Sys2Proof/Laws/PerInstr.lean ====
section
/-! SUPPORT. The family CommandWord: no command of the block is spelled by a word. -/
namespace Sys2Proof.Laws.CommandWord

/-- No word of any length is read as the command `i`: the table gives no row a bit pattern. -/
def Statement (i : Instr) : Prop := ∀ nbits w, decodeTableWord nbits w ≠ some i

theorem define : Statement .define := fun _ _ h => nomatch h
theorem clearDefinitions : Statement .clearDefinitions := fun _ _ h => nomatch h
theorem joinCommand : Statement .joinCommand := fun _ _ h => nomatch h
theorem leaveCommand : Statement .leaveCommand := fun _ _ h => nomatch h
theorem resetCommand : Statement .resetCommand := fun _ _ h => nomatch h
theorem submit : Statement .submit := fun _ _ h => nomatch h
theorem cancel : Statement .cancel := fun _ _ h => nomatch h
theorem pop : Statement .pop := fun _ _ h => nomatch h
theorem readObject : Statement .readObject := fun _ _ h => nomatch h
theorem readEvents : Statement .readEvents := fun _ _ h => nomatch h
theorem undefinedCommandCode (code : Reg) : Statement (.undefinedCommandCode code) := fun _ _ h => nomatch h
theorem interruptEnableWrite (value : Reg) : Statement (.interruptEnableWrite value) := fun _ _ h => nomatch h
theorem vselWrite (value : Reg) : Statement (.vselWrite value) := fun _ _ h => nomatch h
theorem v0Read : Statement .v0Read := fun _ _ h => nomatch h
theorem parameterRegisterWrite (register : Fin 5) (value : Reg) : Statement (.parameterRegisterWrite register value) := fun _ _ h => nomatch h
theorem powerOnReset (sid : StationNum) (rate : RateCode) : Statement (.powerOnReset sid rate) := fun _ _ h => nomatch h
theorem resetnReset (sid : StationNum) (rate : RateCode) : Statement (.resetnReset sid rate) := fun _ _ h => nomatch h
theorem resetnRelease (sid : StationNum) (rate : RateCode) : Statement (.resetnRelease sid rate) := fun _ _ h => nomatch h
theorem stationTimeAdvance : Statement .stationTimeAdvance := fun _ _ h => nomatch h
theorem expiry (index : ObjIndex) (requester : StationNum) (slot : SlotNum) : Statement (.expiry index requester slot) := fun _ _ h => nomatch h
theorem frameBegin : Statement .frameBegin := fun _ _ h => nomatch h
theorem lossOfArbitration (line : BitVec 7) : Statement (.lossOfArbitration line) := fun _ _ h => nomatch h
theorem bodyDifference : Statement .bodyDifference := fun _ _ h => nomatch h
theorem frameHeard (bits : BitVec 120) (whole : Bool) : Statement (.frameHeard bits whole) := fun _ _ h => nomatch h
theorem broadcastPlaceSettled (busy : Bool) : Statement (.broadcastPlaceSettled busy) := fun _ _ h => nomatch h
theorem unicastAttemptOutcome (accept : Bool) (busy : Bool) (stale : Bool) : Statement (.unicastAttemptOutcome accept busy stale) := fun _ _ h => nomatch h
theorem broadcastAttemptOutcome (busy : Bool) : Statement (.broadcastAttemptOutcome busy) := fun _ _ h => nomatch h
theorem silenceLimit : Statement .silenceLimit := fun _ _ h => nomatch h
theorem busyLimit : Statement .busyLimit := fun _ _ h => nomatch h
theorem ownPathAttemptEnd : Statement .ownPathAttemptEnd := fun _ _ h => nomatch h
theorem requestTaken : Statement .requestTaken := fun _ _ h => nomatch h
theorem requestDiscarded : Statement .requestDiscarded := fun _ _ h => nomatch h
theorem joinDispatched : Statement .joinDispatched := fun _ _ h => nomatch h
theorem leaveDispatched : Statement .leaveDispatched := fun _ _ h => nomatch h
theorem departDispatched : Statement .departDispatched := fun _ _ h => nomatch h
theorem answerDispatched : Statement .answerDispatched := fun _ _ h => nomatch h
theorem leaveNoticeQueued : Statement .leaveNoticeQueued := fun _ _ h => nomatch h
theorem frameCutShort : Statement .frameCutShort := fun _ _ h => nomatch h
theorem powerLoss : Statement .powerLoss := fun _ _ h => nomatch h

end Sys2Proof.Laws.CommandWord
end

