-- ==== Sys2Proof/Laws/Purge.lean ====
section
/-! SUPPORT. What the purge of a station leaves: no busy slot for its objects, no waiting record, no answer and no holding of its. -/

namespace Sys2Proof.Machine

/-! ### What the service of a head can add -/

/-- An answer the service of a head adds is that record's. -/
theorem State.items_serveHead (s : State) (i : ObjIndex) (e : ObjectEntry) (w : WaiterRecord) (rest : List WaiterRecord) :
    ∀ x ∈ (s.serveHead i e w rest).home.answers.items, x ∈ s.home.answers.items ∨ ∃ status value, x = .record w status value := by
  have hp : ∀ (t : State) (status : AnswerStatus) (value : Word), t.home.answers = s.home.answers →
      ∀ x ∈ (t.produce (.record w status value)).home.answers.items,
        x ∈ s.home.answers.items ∨ ∃ status value, x = .record w status value := by
    intro t status value ht x hx
    rw [State.items_produce, ht] at hx
    split at hx
    · exact .inl hx
    · rcases List.mem_append.mp hx with h | h
      · exact .inl h
      · exact .inr ⟨_, _, List.mem_singleton.mp h⟩
  unfold State.serveHead
  simp only
  split
  · split <;> exact hp _ _ _ rfl
  · exact hp _ _ _ rfl

/-- A hold record of another station is as it was before a grant. -/
theorem mem_obtainHold (i : ObjIndex) (st : StationNum) (u : Nat) (l m : List HoldRecord) (h : obtainHold i st u l = some m) :
    ∀ r ∈ m, r.holder ≠ st → r ∈ l := by
  intro r hr hne
  unfold obtainHold at h
  split at h
  · simp only [Option.some.injEq] at h
    subst h
    obtain ⟨q, hq, hqr⟩ := List.mem_map.mp hr
    split at hqr
    · rename_i hf
      subst hqr
      simp only [HoldRecord.isFor, Bool.and_eq_true, decide_eq_true_eq] at hf
      exact absurd hf.2 hne
    · subst hqr; exact hq
  · split at h
    · simp only [Option.some.injEq] at h
      subst h
      rcases List.mem_append.mp hr with hr | hr
      · exact hr
      · rw [List.mem_singleton] at hr; subst hr; exact absurd rfl hne
    · exact nomatch h

/-- A hold record of another station than the requester served is as it was. -/
theorem State.holds_serveHead (s : State) (i : ObjIndex) (e : ObjectEntry) (w : WaiterRecord) (rest : List WaiterRecord) :
    ∀ r ∈ (s.serveHead i e w rest).home.holds, r.holder ≠ w.requester → r ∈ s.home.holds := by
  unfold State.serveHead
  simp only
  split
  · split
    · rename_i holds hh
      rw [State.produce_holds]
      exact mem_obtainHold _ _ _ _ _ hh
    · rw [State.produce_holds]; exact fun r hr _ => hr
  · rw [State.produce_holds]; exact fun r hr _ => hr

/-! ### Busy slots -/

/-- Every slot busy in `t` was busy in `s` with the same request. -/
def State.NoNewBusy (s t : State) : Prop :=
  ∀ n r, (t.client.slot n).use.busy? = some r → (s.client.slot n).use.busy? = some r

theorem State.NoNewBusy.refl (s : State) : s.NoNewBusy s := fun _ _ h => h
theorem State.NoNewBusy.trans {s t u : State} (a : s.NoNewBusy t) (b : t.NoNewBusy u) : s.NoNewBusy u := fun n r h => a n r (b n r h)

theorem State.NoNewBusy.of_client {s t u : State} (h : t.client = s.client) (k : t.NoNewBusy u) : s.NoNewBusy u := by
  intro n r hr
  have := k n r hr
  rwa [h] at this

theorem State.NoNewBusy.foldl {β : Type} (f : State → β → State) (h : ∀ (s : State) b, s.NoNewBusy (f s b)) (l : List β) (s : State) :
    s.NoNewBusy (l.foldl f s) := by
  induction l generalizing s with
  | nil => exact .refl s
  | cons b rest ih => exact (h s b).trans (ih (f s b))

theorem State.noNewBusy_produce (s : State) (x : AnswerItem) : s.NoNewBusy (s.produce x) := by
  intro n r h
  rw [State.client_produce] at h
  split at h
  · exact Client.busy_receive _ _ _ n r h
  · exact h

theorem State.noNewBusy_serveHead (s : State) (i : ObjIndex) (e : ObjectEntry) (w : WaiterRecord) (rest : List WaiterRecord) :
    s.NoNewBusy (s.serveHead i e w rest) := by
  have hp : ∀ (t : State) (x : AnswerItem), t.client = s.client → s.NoNewBusy (t.produce x) := by
    intro t x ht n r h
    have := State.noNewBusy_produce t x n r h
    rwa [ht] at this
  unfold State.serveHead
  simp only
  split
  · split <;> exact hp _ _ rfl
  · exact hp _ _ rfl

theorem State.noNewBusy_grantPass (s : State) (i : ObjIndex) : s.NoNewBusy (s.grantPass i) :=
  State.grantPass_induction (P := s.NoNewBusy) i (fun t e w rest h _ _ _ _ => h.trans (State.noNewBusy_serveHead t i e w rest)) s
    (.refl s)

theorem State.noNewBusy_dropWaiters (p : WaiterRecord → Bool) (s : State) (i : ObjIndex) : s.NoNewBusy (s.dropWaiters p i) := by
  unfold State.dropWaiters
  split
  · split
    · refine .of_client ?_ (State.noNewBusy_grantPass _ i); rfl
    · exact .refl s
  · exact .refl s

theorem State.noNewBusy_reclaimAt (n : StationNum) (s : State) (i : ObjIndex) : s.NoNewBusy (s.reclaimAt n i) := by
  unfold State.reclaimAt
  split
  · split
    · refine .of_client ?_ (State.noNewBusy_grantPass _ i); rfl
    · exact .refl s
  · exact .refl s

theorem State.noNewBusy_purgeHome (n : StationNum) (s : State) : s.NoNewBusy (s.purgeHome n) := by
  unfold State.purgeHome
  generalize allIndexes = l
  have h1 := State.NoNewBusy.foldl _ (State.noNewBusy_dropWaiters fun w => decide (w.requester = n)) l s
  exact State.NoNewBusy.trans (fun m r h => h1 m r h) (State.NoNewBusy.foldl _ (State.noNewBusy_reclaimAt n) l _)

/-! ### Nothing of a station -/

/-- No waiting record and no answer of station `n`, and of its hold records only those of `H`. -/
structure State.ClearOf (n : StationNum) (H : HoldRecord → Prop) (s : State) : Prop where
  waiting : ∀ i, ∀ w ∈ s.home.waitersAt i, w.requester ≠ n
  answers : ∀ x ∈ s.home.answers.items, x.dest ≠ n
  holds : ∀ r ∈ s.home.holds, r.holder = n → H r

/-- A grant pass keeps a state clear of a station. -/
theorem State.ClearOf.grantPass {n : StationNum} {H : HoldRecord → Prop} {s : State} (h : s.ClearOf n H) (i : ObjIndex) :
    (s.grantPass i).ClearOf n H := by
  refine State.grantPass_induction (P := State.ClearOf n H) i ?_ s h
  intro t e w rest ht he hw _ _
  have hwn : w.requester ≠ n := ht.waiting i w (by simp [Home.waitersAt, he, hw])
  refine ⟨fun j v hv => ?_, fun x hx => ?_, fun r hr hn => ?_⟩
  · obtain ⟨f, hf, hr, _⟩ := State.serveHead_entry t i j e w rest
    by_cases hj : j = i
    · rw [if_pos hj] at hf
      subst hj
      have hv' : v ∈ rest := by simpa [Home.waitersAt, hf, hr] using hv
      exact ht.waiting j v (by simp [Home.waitersAt, he, hw, hv'])
    · rw [if_neg hj] at hf
      exact ht.waiting j v (by simpa [Home.waitersAt, hf] using hv)
  · rcases State.items_serveHead t i e w rest x hx with h | ⟨a, b, rfl⟩
    · exact ht.answers x h
    · exact hwn
  · exact ht.holds r (State.holds_serveHead t i e w rest r hr (by rw [hn]; exact Ne.symm hwn)) hn

/-- Reclaim at one index keeps a state clear of the station, and takes its records at that index away. -/
theorem State.ClearOf.reclaimAt {n : StationNum} {H : HoldRecord → Prop} {s : State} (h : s.ClearOf n H) (i : ObjIndex)
    (ht : ∀ r ∈ s.home.holds, r.index = i → ∃ e, s.home.entry i = some e ∧ e.definition.isTracked = true) :
    (s.reclaimAt n i).ClearOf n fun r => H r ∧ r.index ≠ i := by
  have none_left : ∀ r ∈ s.home.holds.filter (fun x => !x.isFor i n), r.holder = n → H r ∧ r.index ≠ i := by
    intro r hr hn
    obtain ⟨hm, hf⟩ := List.mem_filter.mp hr
    refine ⟨h.holds r hm hn, fun hi => ?_⟩
    simp [HoldRecord.isFor, hi, hn] at hf
  unfold State.reclaimAt
  split
  · rename_i e r he hf
    have hr := List.mem_of_find?_eq_some hf
    have hri : r.index = i := by
      have := List.find?_some hf
      simp only [HoldRecord.isFor, Bool.and_eq_true, decide_eq_true_eq] at this
      exact this.1
    obtain ⟨e', he', htr⟩ := ht r hr hri
    have : e' = e := by rw [he] at he'; exact (Option.some.inj he').symm
    subst this
    rw [if_pos htr]
    refine State.ClearOf.grantPass ?_ i
    refine ⟨fun j w hw => ?_, h.answers, none_left⟩
    have hj := Home.entry_setEntry s.home i j { e' with level := e'.level + r.units }
    by_cases hji : j = i
    · subst hji
      rw [if_pos rfl] at hj
      have hw2 : w ∈ (((s.home.setEntry j { e' with level := e'.level + r.units }).entry j).map ObjectEntry.waiters).getD [] := hw
      rw [hj] at hw2
      exact h.waiting j w (by simpa [Home.waitersAt, he] using hw2)
    · rw [if_neg hji] at hj
      have hw2 : w ∈ (((s.home.setEntry i { e' with level := e'.level + r.units }).entry j).map ObjectEntry.waiters).getD [] := hw
      rw [hj] at hw2
      exact h.waiting j w hw2
  · rename_i hne
    refine ⟨h.waiting, h.answers, fun r hr hn => ⟨h.holds r hr hn, fun hi => ?_⟩⟩
    obtain ⟨e, he, _⟩ := ht r hr hi
    cases hf : s.home.holds.find? (HoldRecord.isFor i n) with
    | none =>
      have := List.find?_eq_none.mp hf r hr
      simp [HoldRecord.isFor, hi, hn] at this
    | some q => exact hne e q he hf

/-- A hold record of a TRACKED semaphore: its index is defined as one. -/
def Home.HoldsTracked (h : Home) : Prop := ∀ r ∈ h.holds, ∃ e, h.entry r.index = some e ∧ e.definition.isTracked = true

/-- What the definitions say about hold records holds on while definitions are kept and holds only name indexes held before. -/
theorem State.HomeKeeps.tracked {s t : State} (k : s.HomeKeeps t) {i : ObjIndex}
    (h : ∃ e, s.home.entry i = some e ∧ e.definition.isTracked = true) :
    ∃ e, t.home.entry i = some e ∧ e.definition.isTracked = true := by
  obtain ⟨e, he, ht⟩ := h
  obtain ⟨f, hf, hd, _⟩ := k.entry he
  exact ⟨f, hf, by rw [hd]; exact ht⟩

/-- The hold records after a grant name indexes held before, or the index granted at. -/
theorem index_obtainHold (i : ObjIndex) (st : StationNum) (u : Nat) (l m : List HoldRecord) (h : obtainHold i st u l = some m) :
    ∀ r ∈ m, r.index = i ∨ ∃ q ∈ l, q.index = r.index := by
  intro r hr
  unfold obtainHold at h
  split at h
  · simp only [Option.some.injEq] at h
    subst h
    obtain ⟨q, hq, hqr⟩ := List.mem_map.mp hr
    right
    refine ⟨q, hq, ?_⟩
    split at hqr <;> · subst hqr; rfl
  · split at h
    · simp only [Option.some.injEq] at h
      subst h
      rcases List.mem_append.mp hr with hr | hr
      · exact .inr ⟨r, hr, rfl⟩
      · rw [List.mem_singleton] at hr; subst hr; exact .inl rfl
    · exact nomatch h

theorem State.holdsTracked_serveHead (s : State) (i : ObjIndex) (e : ObjectEntry) (w : WaiterRecord) (rest : List WaiterRecord)
    (h : s.home.HoldsTracked) (he : s.home.entry i = some e) : (s.serveHead i e w rest).home.HoldsTracked := by
  have k := State.keeps_serveHead s i e w rest he
  suffices hs : ∀ r ∈ (s.serveHead i e w rest).home.holds, ∃ e, s.home.entry r.index = some e ∧ e.definition.isTracked = true from
    fun r hr => k.tracked (hs r hr)
  unfold State.serveHead
  simp only
  split
  · rename_i htr
    split
    · rename_i holds hh
      rw [State.produce_holds]
      intro r hr
      rcases index_obtainHold _ _ _ _ _ hh r hr with hi | ⟨q, hq, hi⟩
      · rw [hi]; exact ⟨e, he, htr⟩
      · rw [← hi]; exact h q hq
    · rw [State.produce_holds]; exact h
  · rw [State.produce_holds]; exact h

theorem State.holdsTracked_grantPass (s : State) (i : ObjIndex) (h : s.home.HoldsTracked) : (s.grantPass i).home.HoldsTracked :=
  State.grantPass_induction (P := fun t => t.home.HoldsTracked) i
    (fun t e w rest ht he _ _ _ => State.holdsTracked_serveHead t i e w rest ht he) s h

/-- An entry set to one of the same definition leaves every hold record on a TRACKED semaphore. -/
theorem State.holdsTracked_setEntry (s : State) (i : ObjIndex) (e f : ObjectEntry) (holds : List HoldRecord) (h : s.home.HoldsTracked)
    (he : s.home.entry i = some e) (hd : f.definition = e.definition) (hs : ∀ r ∈ holds, r ∈ s.home.holds) :
    Home.HoldsTracked { (s.setEntry i f).home with holds } := by
  intro r hr
  obtain ⟨g, hg, ht⟩ := h r (hs r hr)
  show ∃ e, (s.home.setEntry i f).entry r.index = some e ∧ _
  rw [Home.entry_setEntry]
  split
  · rename_i hi
    rw [hi, he] at hg
    cases hg
    exact ⟨f, rfl, by rw [hd]; exact ht⟩
  · exact ⟨g, hg, ht⟩

theorem State.holdsTracked_dropWaiters (p : WaiterRecord → Bool) (s : State) (i : ObjIndex) (h : s.home.HoldsTracked) :
    (s.dropWaiters p i).home.HoldsTracked := by
  unfold State.dropWaiters
  cases he : s.home.entry i with
  | none => exact h
  | some e =>
    simp only
    split
    · exact State.holdsTracked_grantPass _ i (State.holdsTracked_setEntry s i e _ s.home.holds h he rfl fun _ hr => hr)
    · exact h

theorem State.holdsTracked_reclaimAt (n : StationNum) (s : State) (i : ObjIndex) (h : s.home.HoldsTracked) :
    (s.reclaimAt n i).home.HoldsTracked := by
  unfold State.reclaimAt
  split
  · rename_i e r he _
    split
    · exact State.holdsTracked_grantPass _ i
        (State.holdsTracked_setEntry s i e _ _ h he rfl fun _ hr => (List.mem_filter.mp hr).1)
    · exact h
  · exact h

/-- What a loop keeps that its body keeps. -/
theorem foldl_keeps {β : Type} {P : State → Prop} (f : State → β → State) (h : ∀ s b, P s → P (f s b)) (l : List β) (s : State)
    (hs : P s) : P (l.foldl f s) := by
  induction l generalizing s with
  | nil => exact hs
  | cons b rest ih => exact ih _ (h s b hs)

/-- A loop of reclaims over indexes leaves of the station's hold records only those at other indexes. -/
theorem State.ClearOf.foldl_reclaimAt {n : StationNum} {H : HoldRecord → Prop} (l : List ObjIndex) {s : State} (h : s.ClearOf n H)
    (ht : s.home.HoldsTracked) : (l.foldl (State.reclaimAt n) s).ClearOf n fun r => H r ∧ r.index ∉ l := by
  induction l generalizing s H with
  | nil => exact ⟨h.waiting, h.answers, fun r hr hn => ⟨h.holds r hr hn, List.not_mem_nil⟩⟩
  | cons i rest ih =>
    have h1 := h.reclaimAt i fun r hr hi => by rw [← hi]; exact ht r hr
    have h2 := ih h1 (State.holdsTracked_reclaimAt n s i ht)
    refine ⟨h2.waiting, h2.answers, fun r hr hn => ?_⟩
    obtain ⟨⟨a, b⟩, c⟩ := h2.holds r hr hn
    exact ⟨a, by simp [b, c]⟩

/-- The home side of a purge leaves no record, answer or holding of the station. -/
theorem State.clearOf_purgeHome (n : StationNum) (s : State) (ht : s.home.HoldsTracked) :
    (s.purgeHome n).ClearOf n fun _ => False := by
  unfold State.purgeHome
  have hall := mem_allIndexes
  generalize allIndexes = l at *
  have hw := (State.foldl_dropWaiters (fun w => decide (w.requester = n)) l s).2
  have htr := foldl_keeps (P := fun t => t.home.HoldsTracked) _
    (fun t i h => State.holdsTracked_dropWaiters (fun w => decide (w.requester = n)) t i h) l s ht
  generalize l.foldl (State.dropWaiters fun w => decide (w.requester = n)) s = t at *
  have hc : (t.dropAnswers fun x => decide (x.dest = n)).ClearOf n fun _ => True := by
    refine ⟨fun i w h => ?_, fun x hx => ?_, fun _ _ _ => trivial⟩
    · simpa using hw i (hall i) w h
    · have hx : x ∈ (t.home.answers.removeIf fun x => decide (x.dest = n)).items := hx
      rw [OutList.items_removeIf] at hx
      simpa using (List.mem_filter.mp hx).2
  have h := hc.foldl_reclaimAt l htr
  exact ⟨h.waiting, h.answers, fun r hr hn => (h.holds r hr hn).2 (hall r.index)⟩

/-- The purge of a station leaves nothing of it. -/
theorem State.purgedOf_purge (n : StationNum) (s : State) (ht : s.home.HoldsTracked) : (s.purge n).PurgedOf n := by
  have hu : s.purge n = State.purgeHome n { s with client := s.client.purge n } := by rw [State.purge]
  have hc := State.clearOf_purgeHome n { s with client := s.client.purge n } ht
  have hnb := State.noNewBusy_purgeHome n { s with client := s.client.purge n }
  rw [hu]
  generalize State.purgeHome n { s with client := s.client.purge n } = t at hc hnb
  clear hu
  refine ⟨fun m r h => ?_, hc.waiting, hc.answers, fun r hr hn => hc.holds r hr hn⟩
  have hb := hnb m r h
  have hs := (Client.completes_purge s.client n).slots m
  intro hh
  generalize s.client.purge n = c at hb hs
  have hb' : (c.slot m).use.busy? = some r := hb
  rw [hs] at hb'
  split at hb'
  · rename_i q hq
    split at hb'
    · simp [SlotUse.busy?] at hb'
    · rename_i hqn
      rw [hq] at hb'
      cases hb'
      exact hqn hh
  · rename_i hq
    rw [hq] at hb'
    exact nomatch hb'

/-- What the purge of a station keeps. -/
theorem State.keeps_purge (n : StationNum) (s : State) : ({ s with client := s.client.purge n } : State).HomeKeeps (s.purge n) := by
  unfold State.purge
  exact State.keeps_purgeHome n _

/-! ### The purge as its steps, and what it leaves alone -/

/-- The waiting records of a station leave one list as R26 and R79 say. -/
theorem State.withoutWaiters_eq (n : StationNum) (s : State) (i : ObjIndex) :
    s.dropWaiters (fun w => decide (w.requester = n)) i = s.withoutWaiters n i := by
  unfold State.dropWaiters State.withoutWaiters
  cases he : s.home.entry i with
  | none => rfl
  | some e =>
    simp only [List.any_eq_true, decide_eq_true_eq, State.setEntry_eq_withEntry, ne_eq, decide_not]
    by_cases hs : e.definition.isSemaphore = true
    · simp only [hs, if_true]
    · rw [State.grantPass_eq_self]
      · simp only [hs, Bool.false_eq_true, if_false]
      · intro f w rest hf hfs
        have hf' : (s.home.setEntry i { e with waiters := e.waiters.filter fun w => !decide (w.requester = n) }).entry i = some f := hf
        rw [Home.entry_setEntry, if_pos rfl] at hf'
        cases hf'
        exact absurd hfs hs

/-- Reclaim of a station at one index is as R61 says. -/
theorem State.withUnitsBack_eq (n : StationNum) (s : State) (i : ObjIndex) : s.reclaimAt n i = s.withUnitsBack n i := by
  have hf : (fun r : HoldRecord => r.isFor i n) = fun r => decide (r.index = i ∧ r.holder = n) := by
    funext r; simp [HoldRecord.isFor]
  have hg : (fun x : HoldRecord => !x.isFor i n) = fun x => decide (¬ (x.index = i ∧ x.holder = n)) := by
    funext r; simp [HoldRecord.isFor, ← Bool.not_and]
  unfold State.reclaimAt State.withUnitsBack
  simp only [hg]
  rw [show HoldRecord.isFor i n = _ from hf]
  rfl

/-- The purge of a station is its steps in the order of R158 to R160. -/
theorem State.purge_runs (n : StationNum) (s : State) : s.PurgeRuns n (s.purge n) := by
  have h1 : State.dropWaiters (fun w => decide (w.requester = n)) = State.withoutWaiters n := by
    funext s i; exact State.withoutWaiters_eq n s i
  have h2 : State.reclaimAt n = State.withUnitsBack n := by funext s i; exact State.withUnitsBack_eq n s i
  refine ⟨s.client.purge n, Client.purgedTo_purge _ n, ?_⟩
  simp only [← OutList.removeIf_eq_without]
  unfold State.purge State.purgeHome
  rw [h1, h2]
  generalize allIndexes = l
  generalize s.client.purge n = c
  rfl

/-- A hold record of another semaphore is as it was before a grant. -/
theorem mem_obtainHold_other (i : ObjIndex) (st : StationNum) (u : Nat) (l m : List HoldRecord) (h : obtainHold i st u l = some m) :
    ∀ r ∈ m, r.index ≠ i → r ∈ l := by
  intro r hr hne
  unfold obtainHold at h
  split at h
  · simp only [Option.some.injEq] at h
    subst h
    obtain ⟨q, hq, hqr⟩ := List.mem_map.mp hr
    split at hqr
    · rename_i hf
      subst hqr
      simp only [HoldRecord.isFor, Bool.and_eq_true, decide_eq_true_eq] at hf
      exact absurd hf.1 hne
    · subst hqr; exact hq
  · split at h
    · simp only [Option.some.injEq] at h
      subst h
      rcases List.mem_append.mp hr with hr | hr
      · exact hr
      · rw [List.mem_singleton] at hr; subst hr; exact absurd rfl hne
    · exact nomatch h

/-- A hold record of another semaphore is as it was before a head was served. -/
theorem State.holds_serveHead_other (s : State) (i : ObjIndex) (e : ObjectEntry) (w : WaiterRecord) (rest : List WaiterRecord) :
    ∀ r ∈ (s.serveHead i e w rest).home.holds, r.index ≠ i → r ∈ s.home.holds := by
  unfold State.serveHead
  simp only
  split
  · split
    · rename_i holds hh
      rw [State.produce_holds]
      exact mem_obtainHold_other _ _ _ _ _ hh
    · rw [State.produce_holds]; exact fun r hr _ => hr
  · rw [State.produce_holds]; exact fun r hr _ => hr

/-- A hold record of another semaphore is as it was before a grant pass. -/
theorem State.holds_grantPass_other (s : State) (i : ObjIndex) : ∀ r ∈ (s.grantPass i).home.holds, r.index ≠ i → r ∈ s.home.holds :=
  State.grantPass_induction (P := fun t => ∀ r ∈ t.home.holds, r.index ≠ i → r ∈ s.home.holds) i
    (fun t e w rest h _ _ _ _ r hr hne => h r (State.holds_serveHead_other t i e w rest r hr hne) hne) s fun _ hr _ => hr

/-- Station `n` neither waits nor holds at `i`. -/
structure State.AbsentAt (n : StationNum) (i : ObjIndex) (s : State) : Prop where
  waiting : ∀ w ∈ s.home.waitersAt i, w.requester ≠ n
  holds : ∀ r ∈ s.home.holds, r.index = i → r.holder ≠ n

/-- A loop over indexes that does nothing at `i` and no step of which touches the entry of another index leaves the entry at `i`. -/
theorem State.AbsentAt.foldl {n : StationNum} {i : ObjIndex} {f : State → ObjIndex → State}
    (hi : ∀ s : State, s.AbsentAt n i → f s i = s)
    (hf : ∀ (s : State) j, j ≠ i → (f s j).home.entry i = s.home.entry i ∧ ∀ r ∈ (f s j).home.holds, r.index = i → r ∈ s.home.holds)
    (l : List ObjIndex) (s : State) (h : s.AbsentAt n i) :
    (l.foldl f s).home.entry i = s.home.entry i ∧ (l.foldl f s).AbsentAt n i := by
  induction l generalizing s with
  | nil => exact ⟨rfl, h⟩
  | cons j rest ih =>
    rw [List.foldl_cons]
    by_cases hj : j = i
    · subst hj; rw [hi s h]; exact ih s h
    · obtain ⟨h1, h2⟩ := hf s j hj
      have := ih (f s j) ⟨fun w hw => h.waiting w (by simpa [Home.waitersAt, h1] using hw), fun r hr hri => h.holds r (h2 r hr hri) hri⟩
      exact ⟨this.1.trans h1, this.2⟩

/-- The purge of a station leaves every object on which it neither waits nor holds as it was. -/
theorem State.entry_purge_other (n : StationNum) (s : State) (i : ObjIndex) (h : s.AbsentAt n i) :
    (s.purge n).home.entry i = s.home.entry i := by
  have set_entry : ∀ (s : State) (j : ObjIndex) (e : ObjectEntry), j ≠ i → (s.setEntry j e).home.entry i = s.home.entry i := fun s j e hj => by
    show (s.home.setEntry j e).entry i = _
    rw [Home.entry_setEntry, if_neg (Ne.symm hj)]
  have a1 := State.AbsentAt.foldl (n := n) (i := i) (f := State.dropWaiters fun w => decide (w.requester = n))
    (fun s h => State.dropWaiters_eq_self _ s i fun w hw => decide_eq_false (h.waiting w hw)) (fun s j hj => by
      unfold State.dropWaiters
      split
      · split
        · refine ⟨by rw [State.grantPass_other _ _ _ (Ne.symm hj), set_entry _ _ _ hj], fun r hr hri => ?_⟩
          have hm := State.holds_grantPass_other _ j r hr (by rw [hri]; exact Ne.symm hj)
          exact hm
        · exact ⟨rfl, fun r hr _ => hr⟩
      · exact ⟨rfl, fun r hr _ => hr⟩)
  have a2 := State.AbsentAt.foldl (n := n) (i := i) (f := State.reclaimAt n)
    (fun s h => by
      unfold State.reclaimAt
      split
      · rename_i e r he hr
        have := List.find?_some hr
        simp only [HoldRecord.isFor, Bool.and_eq_true, decide_eq_true_eq] at this
        exact absurd this.2 (h.holds r (List.mem_of_find?_eq_some hr) this.1)
      · rfl) (fun s j hj => by
      unfold State.reclaimAt
      split
      · split
        · refine ⟨by rw [State.grantPass_other _ _ _ (Ne.symm hj)]; exact set_entry _ _ _ hj, fun r hr hri => ?_⟩
          exact (List.mem_filter.mp (State.holds_grantPass_other _ j r hr (by rw [hri]; exact Ne.symm hj))).1
        · exact ⟨rfl, fun r hr _ => hr⟩
      · exact ⟨rfl, fun r hr _ => hr⟩)
  unfold State.purge State.purgeHome
  generalize allIndexes = l at *
  obtain ⟨b1, b2⟩ := a1 l { s with client := s.client.purge n } ⟨h.waiting, h.holds⟩
  generalize l.foldl (State.dropWaiters fun w => decide (w.requester = n)) { s with client := s.client.purge n } = t at *
  exact (a2 l (t.dropAnswers fun x => decide (x.dest = n)) ⟨b2.waiting, b2.holds⟩).1.trans b1

end Sys2Proof.Machine
end

