-- ==== Sys2Proof/Tests/Slice0.lean ====
section
/-! SUPPORT. The model's own tests: one step each on a small state, and for every statement with hypotheses a state that meets them. -/

namespace Sys2Proof.Tests

open Sys2Proof.Machine

set_option Elab.async false

/-! ### Small states -/

/-- The state after a command satisfies `p`. -/
def after (c : Instr) (s : State) (p : State → Bool) : Bool :=
  match exec c s with
  | .next t => p t
  | .fault _ | .refused _ => false

/-- Station 5 in a station state, everything else as after reset. -/
def station (mode : StationState) : State := { State.reset with control := { State.reset.control with mode, number := 5 } }

/-- `s` with the parameter registers P0-P4. -/
def params (p0 p1 p2 p3 p4 : Reg) (s : State) : State := { s with port := { s.port with params := #v[p0, p1, p2, p3, p4] } }

/-- `s` with what a slot holds, its tag 1. -/
def slot (n : SlotNum) (u : SlotUse) (s : State) : State := { s with client := { s.client with slots := s.client.slots.set n ⟨1, u⟩ } }

/-- `s` with a roster entry. -/
def roster (n : StationNum) (e : RosterEntry) (s : State) : State := { s with roster := s.roster.set n e }

/-- `s` with the request list. -/
def requests (l : OutList RequestEntry) (s : State) : State := { s with client := { s.client with requests := l } }

/-- `s` with the answer list. -/
def answers (l : OutList AnswerItem) (s : State) : State := { s with home := { s.home with answers := l } }

/-- `s` with the notice list. -/
def notices (l : OutList Notice) (s : State) : State := { s with link := { s.link with notices := l } }

/-- `s` with the transmitter. -/
def sending (x : Transmitter) (s : State) : State := { s with link := { s.link with transmitter := x } }

/-- `s` with the object at index 1. -/
def object (e : ObjectEntry) (s : State) : State := s.withEntry 1 e

/-- A request to object 5:1, which is 321, of tag 1 from slot 0. -/
def request (op : Operation) (units : BitVec 8) (limit : BitVec 16) : Request := ⟨op, 321, 2, limit, units, 0xABCD, false⟩

/-- The frame of that request from station 9. -/
def asks (op : Operation) (units : BitVec 8) (limit : BitVec 16) : Frame := (request op units limit).toFrame 9 0 1

/-- Station 5 in ACTIVE with the object at index 1 and the frame at the head of its receive queue. -/
def asked (f : Frame) (e : ObjectEntry) : State := (object e (station .active)).withQueue [.frame f]

/-- A waiter record of station `n`, slot 0, of priority 2. -/
def waiter (n : StationNum) (op : WaitOp) : WaiterRecord := ⟨1, n, 0, 1, op, 2, some 7, 0, true⟩

/-- A TRACKED semaphore of capacity 4 with a level and a waiter list. -/
def tracked (level : Nat) (w : List WaiterRecord) : ObjectEntry := ⟨.tracked 4, level, 0, w⟩

/-- A SIGNAL semaphore of maximum 4. -/
def signal (level : Nat) (w : List WaiterRecord) : ObjectEntry := ⟨.signal 4 0, level, 0, w⟩

/-- A mailbox of two words at pool word 0. -/
def mailbox (level head : Nat) (w : List WaiterRecord) : ObjectEntry := ⟨.mailbox 1 0, level, head, w⟩

/-! ### The WellFormed smoke test -/

theorem test_code_of_a_command_is_ill_formed : (Instr.undefinedCommandCode 5).wellFormed = false := by decide
theorem test_first_and_last_code_are_ill_formed :
    (Instr.undefinedCommandCode 1).wellFormed = false ∧ (Instr.undefinedCommandCode 10).wellFormed = false := by decide
theorem test_codes_without_a_command_are_well_formed :
    (Instr.undefinedCommandCode 0).wellFormed = true ∧ (Instr.undefinedCommandCode 11).wellFormed = true := by decide

/-! ### Definitions (1.8) -/

/-- Step 1 of 1.8. -/
theorem test_define_mailbox : after .define (params 0x0300 8 0 0 0 (station .config))
    (fun t => decide (t.home.entry 0 = some ⟨.mailbox 8 0, 0, 0, []⟩ ∧ t.home.poolUsed = 256 ∧ t.port.result1 = 3840)) = true := by
  decide +kernel
/-- Step 5 of 1.8: K = 9. -/
theorem test_define_exponent_nine : after .define (params 0x030A 9 0 0 0 (station .config))
    (fun t => decide (t.port.result0 = 0x010A ∧ t.home.poolUsed = 0)) = true := by decide +kernel
theorem test_clear_definitions : after .clearDefinitions (object (tracked 4 []) (station .config))
    (fun t => decide (t.home.entry 1 = none ∧ t.port.result1 = 4096)) = true := by decide +kernel
theorem test_read_object : after .readObject (params 1 0 0 0 0 (object (tracked 3 []) (station .evicted)))
    (fun t => decide (t.port.window = ⟨1, 1, 0, 4, 0, 3, 0, 0⟩ ∧ t.port.result0 = 0x0900)) = true := by decide +kernel

/-! ### The local port -/

/-- SUBMIT of an ACQUIRE of 3 units of 5:1: slot 0, tag 1. -/
theorem test_submit : after .submit (params 0x0301 321 5 0 0 (station .active))
    (fun t => decide ((t.client.slot 0).tag = 1 ∧ t.client.requests.items = [⟨0, .request⟩] ∧ t.port.result1 = 0x0100)) = true := by
  decide +kernel
theorem test_submit_to_a_departed_home : after .submit (params 0x0005 65 5 0 0 (roster 1 .departed (station .active)))
    (fun t => decide (t.client.ring = [⟨0, 1, .query, 65, .homeAbsent, 0⟩] ∧ t.client.requests.items = [])) = true := by decide +kernel
theorem test_cancel_sent : after .cancel (slot 0 (.sent (request .take 0 5)) (station .active))
    (fun t => decide ((t.client.slot 0).use = .cancelling (request .take 0 5) ∧ t.client.requests.items = [⟨0, .withdraw⟩])) = true := by
  decide +kernel
theorem test_cancel_try : after .cancel (slot 0 (.sent (request .take 0 0)) (station .active))
    (fun t => decide (t.port.result0 = 0x0707)) = true := by decide +kernel
theorem test_pop_empty : after .pop (station .active) (fun t => decide (t.port.result0 = 0x080C)) = true := by decide +kernel
theorem test_undefined_code : after (.undefinedCommandCode 11) (station .active)
    (fun t => decide (t.port.command = 11 ∧ t.port.result0 = 0x0B04)) = true := by decide +kernel
theorem test_vsel : after (.vselWrite 2) (station .active) (fun t => decide (t.port.views = #v[0x0052, 0, 0, 0, 0])) = true := by
  decide +kernel
theorem test_v0_read : after .v0Read (station .active) (fun t => decide (t.port.dataOut = 0)) = true := by decide +kernel
theorem test_parameter_write : after (.parameterRegisterWrite 4 7) (station .active)
    (fun t => decide (t.port.params = #v[0, 0, 0, 0, 7])) = true := by decide +kernel
theorem test_interrupt_at_once :
    after (.interruptEnableWrite 2) { station .active with control := { (station .active).control with events := ⟨true, false, false, false, none⟩ } }
      (fun t => t.lint) = true := by decide +kernel
theorem test_read_events :
    after .readEvents { station .evicted with control := { (station .evicted).control with events := ⟨false, false, false, true, some .stale⟩ } }
      (fun t => decide (t.port.result1 = 0x4108 ∧ t.control.events = Events.clear)) = true := by decide +kernel

/-! ### Station control -/

theorem test_join : after .joinCommand (station .config)
    (fun t => decide (t.control.mode = .joining ∧ t.link.notices.items = [.join])) = true := by decide +kernel
theorem test_leave_at_rest : after .leaveCommand (object (tracked 1 []) (station .active))
    (fun t => decide (t.control.mode = .leaving ∧ t.link.notices.items = [.leave] ∧ t.home.entry 1 = some (tracked 4 []))) = true := by
  decide +kernel
theorem test_leave_flushes : after .leaveCommand (object (signal 0 [waiter 9 (.acquire 2)]) (station .active))
    (fun t => decide (t.home.answers.items = [.record (waiter 9 (.acquire 2)) .homeAbsent 0] ∧ t.link.notices.items = [])) = true := by
  decide +kernel
theorem test_reset : after .resetCommand (slot 3 (.sent (request .take 0 5)) (station .active))
    (fun t => decide (t.client.slot 3 = ⟨1, .free⟩ ∧ t.control.mode = .config ∧ t.control.number = 5)) = true := by decide +kernel
theorem test_power_on : after (.powerOnReset 7 2) (station .active)
    (fun t => decide (t = { State.powerOn 7 2 with control := Control.powerOn 7 2 })) = true := by decide +kernel
theorem test_resetn : after (.resetnReset 7 2) (station .active)
    (fun t => decide (t.control.resetAsserted = true ∧ t.control.number = 7 ∧ t.readRegister 3 = 0)) = true := by decide +kernel
theorem test_resetn_release : after (.resetnRelease 8 1) { State.reset with control := { State.reset.control with resetAsserted := true } }
    (fun t => decide (t.control.number = 8 ∧ t.running = true)) = true := by decide +kernel
theorem test_power_loss : after .powerLoss (station .active) (fun t => !t.running) = true := by decide +kernel

/-! ### Time -/

theorem test_time_wraps : after .stationTimeAdvance { State.reset with control := { State.reset.control with time := 0xFFFFFFFF } }
    (fun t => decide (t.control.time = 0)) = true := by decide +kernel
theorem test_expiry : after (.expiry 1 9 0) (object (signal 1 [waiter 9 (.acquire 2), waiter 8 (.acquire 1)]) (station .active))
    (fun t => decide (t.home.answers.items =
      [.record (waiter 9 (.acquire 2)) .expired 0, .record (waiter 8 (.acquire 1)) .ok 1])) = true := by decide +kernel

/-! ### Requests at their objects -/

theorem test_try_granted : after .requestTaken (asked (asks .acquire 3 0) (tracked 4 []))
    (fun t => decide (t.home.entry 1 = some (tracked 1 []) ∧ t.home.holds = [⟨1, 9, 3⟩] ∧
      t.home.answers.items = [.immediate ⟨9, 0, 1, .acquire, 1, .ok, 3⟩])) = true := by decide +kernel
theorem test_urgent_post : after .requestTaken
    ((object (mailbox 1 0 []) (station .active)).withQueue [.frame { asks .post 0 0 with urgent := true }])
    (fun t => decide (t.home.entry 1 = some (mailbox 2 1 []) ∧ t.home.pool = [(1, 0xABCD)])) = true := by decide +kernel
theorem test_request_discarded : after .requestDiscarded (roster 9 .departed (asked (asks .query 0 0) (tracked 4 [])))
    (fun t => decide (t.link.queue = [] ∧ t.home.answers.items = [])) = true := by decide +kernel
theorem test_answer_taken : after .answerDispatched
    ((slot 0 (.sent ⟨.query, 577, 2, 0, 0, 0, false⟩) (station .active)).withQueue
      [.frame ((AnswerItem.immediate ⟨5, 0, 1, .query, 1, .ok, 0x40002⟩).toFrame 9)])
    (fun t => decide (t.client.ring = [⟨0, 1, .query, 577, .ok, 0x40002⟩])) = true := by decide +kernel

/-! ### The link -/

/-- The check sequence of nine ASCII digits is the known value of this division with preset and complement. -/
theorem test_check_sequence : crc ((List.range 72).map fun i => (0x313233343536373839#72).getMsbD i) = 0xD64E#16 := by decide +kernel
theorem test_frame_heard_as_sent : Frame.parse (asks .acquire 3 65535).encode = some (asks .acquire 3 65535) := by decide +kernel
/-- The leading bits of the JOIN of station 5, written out: class 00, sender 00101, destination 111111, kind 001. -/
theorem test_join_bits : (Notice.toFrame 5 .join).encode.extractLsb' 104 16 = 0b00_00101_111111_001#16 := by decide +kernel
theorem test_one_wrong_bit_is_not_heard : Frame.parse ((asks .acquire 3 65535).encode ^^^ 1#120) = none := by decide +kernel
theorem test_frame_begin : after .frameBegin (notices ⟨[.join], 0, 0, false⟩ (station .joining))
    (fun t => decide (t.link.transmitter = .line (Notice.toFrame 5 .join) ∧ t.link.notices.onLine = true)) = true := by decide +kernel
theorem test_loss_of_arbitration :
    after (.lossOfArbitration 4) (notices ⟨[.join], 0, 3, true⟩ (sending (.line (Notice.toFrame 5 .join)) (station .joining)))
      (fun t => decide (t.link.transmitter = .free ∧ t.link.notices = ⟨[.join], 0, 3, false⟩)) = true := by decide +kernel
theorem test_body_difference : after .bodyDifference (sending (.line (Notice.toFrame 5 .join)) (station .joining))
    (fun t => decide (t.control.mode = .evicted ∧ t.control.events.cause = some .duplicate)) = true := by decide +kernel
theorem test_frame_heard : after (.frameHeard ((request .query 0 0).toFrame 9 0 1).encode true) (station .active)
    (fun t => decide (t.link.queue = [.frame (asks .query 0 0)] ∧ t.link.driven = some .accept ∧ t.rosterOf 9 = .present)) = true := by
  decide +kernel
theorem test_place_settled : after (.broadcastPlaceSettled true) ((station .active).withQueue [.place (Notice.toFrame 9 .join)])
    (fun t => decide (t.link.queue = [])) = true := by decide +kernel
theorem test_stale_outcome : after (.unicastAttemptOutcome true false true) (sending (.line (asks .query 0 0)) (station .active))
    (fun t => decide (t.control.events = ⟨false, false, false, true, some .stale⟩)) = true := by decide +kernel
theorem test_join_delivered :
    after (.broadcastAttemptOutcome false) (notices ⟨[.join], 0, 0, true⟩ (sending (.line (Notice.toFrame 5 .join)) (station .joining)))
      (fun t => decide (t.control.mode = .active ∧ t.control.events.joined = true ∧ t.link.notices.items = [])) = true := by
  decide +kernel
/-- 10.5: the eighth silence. -/
theorem test_silence_limit :
    after .silenceLimit (answers ⟨[.immediate ⟨9, 0, 1, .query, 1, .ok, 0⟩], 7, 0, true⟩
      (sending (.line ((AnswerItem.immediate ⟨9, 0, 1, .query, 1, .ok, 0⟩).toFrame 5)) (station .active)))
      (fun t => decide (t.rosterOf 9 = .departed ∧ t.home.answers.items = [] ∧ t.link.notices.items = [.depart 9])) = true := by
  decide +kernel
theorem test_busy_limit :
    after .busyLimit (notices ⟨[.leave], 0, 63, true⟩ (sending (.line (Notice.toFrame 5 .leave)) (station .leaving)))
      (fun t => decide (t.control.mode = .config ∧ t.control.events.left = true)) = true := by decide +kernel
theorem test_own_path : after .ownPathAttemptEnd
    (requests ⟨[⟨0, .request⟩], 0, 0, true⟩ (slot 0 (.queued (request .query 0 0))
      (sending (.ownPath (asks .query 0 0)) (station .active))))
    (fun t => decide ((t.client.slot 0).use = .sent (request .query 0 0) ∧ t.link.queue = [.frame (asks .query 0 0)])) = true := by
  decide +kernel
theorem test_cut_short : after .frameCutShort (station .active) (fun t => decide (t = station .active)) = true := by decide +kernel
theorem test_join_dispatched :
    after .joinDispatched (roster 9 .departed ((station .active).withQueue [.frame (Notice.toFrame 9 .join)]))
      (fun t => decide (t.rosterOf 9 = .present ∧ t.link.queue = [])) = true := by decide +kernel
theorem test_leave_dispatched :
    after .leaveDispatched ((object (tracked 1 []) (station .active)).withHolds [⟨1, 9, 3⟩] |>.withQueue [.frame (Notice.toFrame 9 .leave)])
      (fun t => decide (t.rosterOf 9 = .departed ∧ t.home.entry 1 = some (tracked 4 []) ∧ t.home.holds = [])) = true := by
  decide +kernel
theorem test_depart_of_itself : after .departDispatched ((station .active).withQueue [.frame (Notice.toFrame 9 (.depart 5))])
    (fun t => decide (t.control.mode = .evicted ∧ t.control.events.cause = some .departNotice)) = true := by decide +kernel
theorem test_leave_notice_once : after .leaveNoticeQueued (station .leaving)
    (fun t => decide (t.link.notices.items = [.leave] ∧ t.control.leaveQueued = true)) = true := by decide +kernel

/-! ### Witnesses: for every statement with hypotheses, states that meet them, clause by clause -/

theorem witness_StepTakesFrontCommand : State.reset.pending = [] := rfl

/-- The station with RESETN held. -/
def heldInReset : State := { State.reset with control := { State.reset.control with resetAsserted := true } }

/-- The station without supply. -/
def unpowered : State := { State.reset with control := { State.reset.control with powered := false } }

/-- RESETN held with supply, no supply, and a command of the clause over commands. -/
theorem witness_ResetnAndSupply : heldInReset.control.resetAsserted = true ∧ heldInReset.control.powered = true ∧
    unpowered.control.powered = false ∧ Instr.frameBegin ≠ .powerLoss ∧ Instr.frameBegin ≠ .v0Read ∧
    ∀ sid rate, Instr.frameBegin ≠ .powerOnReset sid rate ∧ Instr.frameBegin ≠ .resetnReset sid rate ∧
      Instr.frameBegin ≠ .resetnRelease sid rate :=
  ⟨rfl, rfl, rfl, Instr.noConfusion, Instr.noConfusion, fun _ _ => ⟨Instr.noConfusion, Instr.noConfusion, Instr.noConfusion⟩⟩

/-- A running station with P0, P1, P2. -/
abbrev withBlock (mode : StationState) (p0 p1 p2 : Reg) : State := params p0 p1 p2 0 0 (station mode)

theorem witness_running (mode : StationState) (p0 p1 p2 : Reg) : (withBlock mode p0 p1 p2).running = true := rfl

/-- Outside CONFIG; index 64; kind 0; kind 4; a defined index; a capacity of 0; a maximum below the initial count; exponent 9; no room. -/
theorem witness_DefineRefusals :
    (withBlock .joining 0 0 0).control.mode ≠ .config ∧
    64 ≤ (withBlock .config 0x0140 1 0).port.params[0].toNat % 256 ∧
    (withBlock .config 0x0001 1 0).port.params[0].toNat / 256 % 8 = 0 ∧
    4 ≤ (withBlock .config 0x0401 1 0).port.params[0].toNat / 256 % 8 ∧
    (object (tracked 4 []) (withBlock .config 0x0101 1 0)).home.has 1 (tracked 4 []) ∧
    (withBlock .config 0x0101 0 0).port.params[1].toNat = 0 ∧
    (withBlock .config 0x0201 4 5).port.params[1].toNat < (withBlock .config 0x0201 4 5).port.params[2].toNat ∧
    8 < (withBlock .config 0x0301 9 0).port.params[1].toNat ∧
    (withBlock .config 0x0301 8 0).port.params[1].toNat ≤ 8 ∧ 4096 < 3841 + 2 ^ 8 := by decide +kernel

/-- TRACKED of capacity 1, SIGNAL of equal maximum and initial count, MAILBOX of exponent 8 at the last room there is. -/
theorem witness_DefineAccepted :
    (withBlock .config 0x013F 1 0).home.entry 63 = none ∧ (withBlock .config 0x013F 1 0).port.params[0].toNat % 256 = 63 ∧
    (withBlock .config 0x013F 1 0).port.params[0].toNat / 256 % 8 = 1 ∧
    1 ≤ (withBlock .config 0x023F 4 4).port.params[1].toNat ∧
    (withBlock .config 0x023F 4 4).port.params[2].toNat ≤ (withBlock .config 0x023F 4 4).port.params[1].toNat ∧
    (withBlock .config 0x033F 8 0).port.params[1].toNat ≤ 8 ∧ 3840 + 2 ^ 8 ≤ 4096 := by decide +kernel

theorem witness_ClearDefinitions : (station .config).running = true ∧ (station .config).control.mode = .config ∧
    (station .active).running = true ∧ (station .active).control.mode ≠ .config := by decide +kernel

/-- Index 64, and index 1 absent or of each kind. -/
theorem witness_ReadObjectCaptures :
    64 ≤ (withBlock .active 64 0 0).port.params[0].toNat % 256 ∧ (withBlock .active 1 0 0).home.entry 1 = none ∧
    (object (tracked 4 []) (withBlock .active 1 0 0)).home.has 1 (tracked 4 []) ∧
    (object (signal 4 []) (withBlock .active 1 0 0)).home.has 1 (signal 4 []) ∧
    (object (mailbox 2 1 []) (withBlock .active 1 0 0)).home.has 1 (mailbox 2 1 []) := by decide +kernel

theorem witness_StationTimeAdvances : (object (signal 0 [waiter 9 (.acquire 2)]) (station .active)).running = true := rfl

/-- A due record at the head, and one that is not due. -/
theorem witness_ExpiryTaken :
    (object (signal 0 [waiter 9 (.acquire 2)]) (station .active)).home.has 1 (signal 0 [waiter 9 (.acquire 2)]) ∧
    (signal 0 [waiter 9 (.acquire 2)]).waiters = [] ++ waiter 9 (.acquire 2) :: [] ∧ (waiter 9 (.acquire 2)).due = true ∧
    ∀ w ∈ (object (signal 0 [{ waiter 9 (.acquire 2) with due := false }]) (station .active)).home.waitersAt 1,
      ¬ (w.requester = 9 ∧ w.slot = 0 ∧ w.due = true) := by decide +kernel

/-- No record of the pair; one WAITING behind another station's; one ANSWERING at the head of the answer list, and one behind another's. -/
theorem witness_OldRecordsAreReplaced :
    ((∀ i, (station .active).home.waitersAt i = []) ∧ (station .active).home.answers.items = []) ∧
    ((object (signal 0 [waiter 8 (.acquire 2), waiter 9 (.acquire 2)]) (station .active)).home.has 1
        (signal 0 [waiter 8 (.acquire 2), waiter 9 (.acquire 2)]) ∧
      (∀ j, j ≠ 1 → (object (signal 0 [waiter 8 (.acquire 2), waiter 9 (.acquire 2)]) (station .active)).home.waitersAt j = []) ∧
      (signal 0 [waiter 8 (.acquire 2), waiter 9 (.acquire 2)]).waiters = [waiter 8 (.acquire 2)] ++ waiter 9 (.acquire 2) :: [] ∧
      (waiter 9 (.acquire 2)).requester = 9 ∧ (waiter 9 (.acquire 2)).slot = 0 ∧ (waiter 8 (.acquire 2)).requester ≠ 9) ∧
    (answers ⟨[.record (waiter 9 .take) .ok 1, .record (waiter 8 .take) .ok 1], 0, 0, false⟩ (station .active)).home.answers.items =
      [] ++ .record (waiter 9 .take) .ok 1 :: [.record (waiter 8 .take) .ok 1] ∧
    (answers ⟨[.record (waiter 8 .take) .ok 1, .record (waiter 9 .take) .ok 1], 0, 0, false⟩ (station .active)).home.answers.items =
      [.record (waiter 8 .take) .ok 1] ++ .record (waiter 9 .take) .ok 1 :: [] := by
  decide +kernel

/-- A request from station 9 at the head of the queue of an ACTIVE station is taken. -/
theorem witness_Takes (f : Frame) (op : Operation) (e : ObjectEntry) (hk : f.kind = .request op) : (asked f e).Takes f op [] :=
  ⟨rfl, rfl, rfl, hk, .inr (by simp [asked, object, State.withEntry, State.withQueue, State.rosterOf, station, State.reset, State.powerOn]),
    by show 0 < 16 - 0; omega⟩

theorem witness_Takes_acquire (u : BitVec 8) (l : BitVec 16) (e : ObjectEntry) :
    (asked (asks .acquire u l) e).Takes (asks .acquire u l) .acquire [] := witness_Takes _ _ _ rfl
theorem witness_Takes_release (u : BitVec 8) (l : BitVec 16) (e : ObjectEntry) :
    (asked (asks .release u l) e).Takes (asks .release u l) .release [] := witness_Takes _ _ _ rfl
theorem witness_Takes_post (u : BitVec 8) (l : BitVec 16) (e : ObjectEntry) :
    (asked (asks .post u l) e).Takes (asks .post u l) .post [] := witness_Takes _ _ _ rfl
theorem witness_Takes_take (u : BitVec 8) (l : BitVec 16) (e : ObjectEntry) :
    (asked (asks .take u l) e).Takes (asks .take u l) .take [] := witness_Takes _ _ _ rfl
theorem witness_Takes_query (u : BitVec 8) (l : BitVec 16) (e : ObjectEntry) :
    (asked (asks .query u l) e).Takes (asks .query u l) .query [] := witness_Takes _ _ _ rfl

/-- A WITHDRAW frame of slot 0, tag 1, from station 9. -/
def withdraws : Frame := (request .take 0 5).withdrawFrame 9 0 1

theorem witness_Takes_withdraw (e : ObjectEntry) : (asked withdraws e).Takes withdraws .withdraw [] := witness_Takes _ _ _ rfl

/-- Whatever the request, the object named is the one the state defines. -/
theorem witness_has (f : Frame) (e : ObjectEntry) (h : f.index = 1) : (asked f e).home.has f.index e := by
  rw [h]; simp [asked, object, State.withEntry, State.withQueue, Home.has, Home.entry]

theorem witness_object (f : Frame) (e : ObjectEntry) : (asked f e).home.has 1 e := by
  simp [asked, object, State.withEntry, State.withQueue, Home.has, Home.entry]

/-- The hold table does not matter to it. -/
theorem witness_Takes_withHolds (s : State) (f : Frame) (op : Operation) (rest : List QueueItem) (l : List HoldRecord)
    (h : s.Takes f op rest) : (s.withHolds l).Takes f op rest := ⟨h.running, h.active, h.head, h.request, h.sender, h.free⟩

/-- An ACQUIRE of the whole capacity with the longest limited wait and a TAKE with the shortest, a record FREE; no record FREE. -/
theorem witness_RequestsThatWait :
    (asked (asks .acquire 4 65534) (tracked 0 [])).Takes (asks .acquire 4 65534) .acquire [] ∧
    (asked (asks .acquire 4 65534) (tracked 0 [])).home.has 1 (tracked 0 []) ∧
    (asked (asks .take 0 1) (mailbox 0 0 [])).Takes (asks .take 0 1) .take [] ∧
    (asked (asks .take 0 1) (mailbox 0 0 [])).home.has 1 (mailbox 0 0 []) ∧
    (tracked 0 []).definition.isSemaphore = true ∧ Operation.acquire.unitsFit (tracked 0 []).definition (asks .acquire 4 65534).units.toNat ∧
    (asks .acquire 4 65534).waitLimit ≠ 0 ∧ (asks .take 0 1).waitLimit ≠ 0 ∧ (mailbox 0 0 []).definition.isSemaphore = false ∧
    (mailbox 0 0 []).level = 0 ∧ 0 < (((asked (asks .acquire 4 65534) (tracked 0 [])).withQueue []).replaceRecord 9 0).home.freeWaiters ∧
    (((asked (asks .acquire 4 65534) (tracked 0 [])).withQueue []).replaceRecord 9 0).home.has 1 (tracked 0 []) := by
  refine ⟨witness_Takes_acquire _ _ _, witness_has _ _ rfl, witness_Takes_take _ _ _, witness_has _ _ rfl, rfl, ?_, ?_, ?_, rfl, rfl,
    ?_, ?_⟩
  · show 1 ≤ 4 ∧ 4 ≤ 4; omega
  all_goals decide +kernel

/-- No record is FREE when 96 wait on the object. -/
theorem witness_RequestsThatWait_full :
    ({ (Home.powerOn) with answers := ⟨List.replicate 96 (.record (waiter 8 .take) .ok 0), 0, 0, false⟩ } : Home).freeWaiters = 0 := by
  decide +kernel

theorem witness_WithdrawTaken :
    (asked withdraws (mailbox 0 0 [waiter 9 .take])).Takes withdraws .withdraw [] ∧
    (asked withdraws (mailbox 0 0 [waiter 9 .take])).home.has withdraws.index (mailbox 0 0 [waiter 9 .take]) ∧
    (asked withdraws (mailbox 0 0 [])).Takes withdraws .withdraw [] ∧
    (asked withdraws (mailbox 0 0 [])).home.has withdraws.index (mailbox 0 0 []) ∧
    (mailbox 0 0 [waiter 9 .take]).waiters = [] ++ waiter 9 .take :: [] ∧ (waiter 9 .take).requester = withdraws.sender ∧
    (waiter 9 .take).slot = withdraws.slot ∧ (waiter 9 .take).tag = withdraws.tag ∧
    ∀ x ∈ (mailbox 0 0 []).waiters, ¬ (x.requester = withdraws.sender ∧ x.slot = withdraws.slot ∧ x.tag = withdraws.tag) :=
  ⟨witness_Takes_withdraw _, witness_has _ _ rfl, witness_Takes_withdraw _, witness_has _ _ rfl, rfl, rfl, rfl, rfl, by decide⟩

/-- No entry; a POST to a semaphore; an ACQUIRE of 0 units and of one more than the capacity. -/
theorem witness_RequestRefused :
    (asked { asks .query 0 0 with index := 2 } (tracked 4 [])).Takes { asks .query 0 0 with index := 2 } .query [] ∧
    (asked { asks .query 0 0 with index := 2 } (tracked 4 [])).home.entry 2 = none ∧
    (asked (asks .post 0 0) (tracked 4 [])).Takes (asks .post 0 0) .post [] ∧
    (asked (asks .acquire 5 0) (tracked 4 [])).Takes (asks .acquire 5 0) .acquire [] ∧
    (asked (asks .acquire 5 0) (tracked 4 [])).home.has 1 (tracked 4 []) ∧
    ((station .active).withQueue [.frame (asks .query 0 0)]).home.entry (asks .query 0 0).index = none ∧
    Operation.post.fitsKind (tracked 4 []).definition = false ∧ Operation.acquire.fitsKind (tracked 4 []).definition = true ∧
    ¬ Operation.acquire.unitsFit (tracked 4 []).definition 0 ∧ ¬ Operation.acquire.unitsFit (tracked 4 []).definition 5 := by
  refine ⟨witness_Takes _ _ _ rfl, by decide +kernel, witness_Takes_post _ _ _, witness_Takes_acquire _ _ _, witness_has _ _ rfl,
    by decide +kernel, rfl, rfl, ?_, ?_⟩
  · show ¬ (1 ≤ 0 ∧ 0 ≤ 4); omega
  · show ¬ (1 ≤ 5 ∧ 5 ≤ 4); omega

/-- One unit short; the last unit of a SIGNAL; the last units of a TRACKED with a record to merge into, with a free one, with none. -/
theorem witness_TryRule :
    (∀ e l, ((asked (asks .acquire 4 0) e).withHolds l).Takes (asks .acquire 4 0) .acquire []) ∧
    (∀ e l, ((asked (asks .acquire 4 0) e).withHolds l).home.has 1 e) ∧ (asks .acquire 4 0).waitLimit = 0 ∧
    (tracked 3 []).definition.isSemaphore = true ∧ Operation.acquire.unitsFit (tracked 3 []).definition 4 ∧
    ¬ (4 ≤ (tracked 3 []).level) ∧ 4 ≤ (signal 4 []).level ∧ (signal 4 []).definition.isTracked = false ∧
    (tracked 4 []).definition.isTracked = true ∧
    (∃ r ∈ [(⟨1, 9, 1⟩ : HoldRecord)], r.index = 1 ∧ r.holder = 9) ∧
    ([] : List HoldRecord).length < 128 ∧ 128 ≤ (List.replicate 128 (⟨2, 8, 1⟩ : HoldRecord)).length ∧
    (∀ r ∈ List.replicate 128 (⟨2, 8, 1⟩ : HoldRecord), ¬ (r.index = 1 ∧ r.holder = 9)) := by
  refine ⟨fun e l => witness_Takes_withHolds _ _ _ _ _ (witness_Takes_acquire _ _ _), fun e l => witness_object (asks .acquire 4 0) e, rfl,
    rfl, ⟨by decide, by decide⟩, ?_⟩
  decide +kernel

/-- A head that asks for all there is, and one that asks for one more. -/
theorem witness_GrantPassServesFromTheHead :
    (object (tracked 3 [waiter 9 (.acquire 3)]) (station .active)).home.has 1 (tracked 3 [waiter 9 (.acquire 3)]) ∧
    (waiter 9 (.acquire 3)).units ≤ (tracked 3 [waiter 9 (.acquire 3)]).level ∧
    (tracked 2 [waiter 9 (.acquire 3)]).level < (waiter 9 (.acquire 3)).units := by decide +kernel

/-- None held; one unit short; exactly the units held; one more held. -/
theorem witness_ReleaseTracked :
    (∀ u l, ((asked (asks .release u 0) (tracked 0 [])).withHolds l).Takes (asks .release u 0) .release []) ∧
    (∀ u l, ((asked (asks .release u 0) (tracked 0 [])).withHolds l).home.has 1 (tracked 0 [])) ∧
    (tracked 0 []).definition = .tracked 4 ∧ 1 ≤ (asks .release 1 0).units.toNat ∧
    (∀ r ∈ ([] : List HoldRecord), ¬ (r.index = (asks .release 1 0).index ∧ r.holder = (asks .release 1 0).sender)) ∧
    ((asked (asks .release 2 0) (tracked 0 [])).withHolds [⟨1, 9, 1⟩]).home.holds = [] ++ ⟨1, 9, 1⟩ :: [] ∧
    (1 : Nat) < (asks .release 2 0).units.toNat ∧ (2 : Nat) = (asks .release 2 0).units.toNat ∧
    (asks .release 2 0).units.toNat < 3 :=
  ⟨fun u l => witness_Takes_withHolds _ _ _ _ _ (witness_Takes_release _ _ _), fun u l => witness_object (asks .release u 0) _,
    by decide +kernel⟩

/-- A count at M - 1: two units overflow it, one fits. -/
theorem witness_ReleaseSignal :
    (∀ u, (asked (asks .release u 0) (signal 3 [])).Takes (asks .release u 0) .release []) ∧
    (∀ u, (asked (asks .release u 0) (signal 3 [])).home.has 1 (signal 3 [])) ∧
    (signal 3 []).definition = .signal 4 0 ∧ 1 ≤ (asks .release 1 0).units.toNat ∧ (asks .release 2 0).units.toNat ≤ 4 ∧
    4 < (signal 3 []).level + (asks .release 2 0).units.toNat ∧ (signal 3 []).level + (asks .release 1 0).units.toNat ≤ 4 :=
  ⟨fun _ => witness_Takes_release _ _ _, fun u => witness_object (asks .release u 0) _, by decide +kernel⟩

theorem witness_QueryAnswered :
    (asked (asks .query 0 0) ⟨.signal 65535 0, 65535, 0, []⟩).Takes (asks .query 0 0) .query [] ∧
    (asked (asks .query 0 0) ⟨.signal 65535 0, 65535, 0, []⟩).home.has 1 ⟨.signal 65535 0, 65535, 0, []⟩ ∧
    (⟨.signal 65535 0, 65535, 0, []⟩ : ObjectEntry).level ≤ 65535 := ⟨witness_Takes_query _ _ _, witness_object _ _, by decide⟩

/-- A waiting taker, and a full ring. -/
theorem witness_PostHandsOffOrMeetsFull :
    (∀ e, (asked (asks .post 0 0) e).Takes (asks .post 0 0) .post []) ∧ (∀ e, (asked (asks .post 0 0) e).home.has 1 e) ∧
    (mailbox 0 0 [waiter 9 .take]).waiters = waiter 9 .take :: [] ∧ (mailbox 2 0 []).waiters = [] ∧ (mailbox 2 0 []).level = 2 ^ 1 :=
  ⟨fun _ => witness_Takes_post _ _ _, fun e => witness_object (asks .post 0 0) e, rfl, rfl, rfl⟩

/-- The last room of a ring, its head at the last position and at the first. -/
theorem witness_PostPlacesItsWord :
    (∀ e, (asked (asks .post 0 0) e).Takes (asks .post 0 0) .post []) ∧ (∀ e, (asked (asks .post 0 0) e).home.has 1 e) ∧
    (mailbox 1 1 []).waiters = [] ∧ (mailbox 1 1 []).level < 2 ^ 1 ∧ (mailbox 1 1 []).head < 2 ^ 1 ∧ (mailbox 1 0 []).head = 0 ∧
    (asked (asks .post 0 0) (mailbox 1 1 [])).home.pool.wf := by
  exact ⟨fun _ => witness_Takes_post _ _ _, fun e => witness_object (asks .post 0 0) e, rfl, by decide, by decide, rfl,
    ⟨List.Pairwise.nil, fun _ h => (nomatch h)⟩⟩

/-- The last word of a ring, and an empty ring with wait limit 0. -/
theorem witness_TakeAnsweredAtOnce :
    (∀ e, (asked (asks .take 0 0) e).Takes (asks .take 0 0) .take []) ∧ (∀ e, (asked (asks .take 0 0) e).home.has 1 e) ∧
    (mailbox 1 1 []).head < 2 ^ 1 ∧ 0 < (mailbox 1 1 []).level ∧ (mailbox 0 1 []).level = 0 ∧ (asks .take 0 0).waitLimit = 0 :=
  ⟨fun _ => witness_Takes_take _ _ _, fun e => witness_object (asks .take 0 0) e, by decide +kernel⟩

/-- A DEPARTED sender; no entry FREE; LEAVING with one entry FREE. -/
theorem witness_RequestAtTheHead :
    (roster 9 .departed (asked (asks .query 0 0) (tracked 4 []))).rosterOf (asks .query 0 0).sender = .departed ∧
    (asks .query 0 0).sender ≠ (asked (asks .query 0 0) (tracked 4 [])).control.number ∧
    ({ Home.powerOn with answers := ⟨List.replicate 16 (.immediate ⟨9, 0, 1, .query, 1, .ok, 0⟩), 0, 0, false⟩ } : Home).freeImmediate = 0 ∧
    0 < ({ Home.powerOn with answers := ⟨List.replicate 15 (.immediate ⟨9, 0, 1, .query, 1, .ok, 0⟩), 0, 0, false⟩ } : Home).freeImmediate ∧
    ((station .leaving).withQueue [.frame (asks .query 0 0)]).running = true := by decide +kernel

/-- An answer to station 9. -/
def reply : AnswerItem := .immediate ⟨9, 0, 1, .query, 1, .ok, 0⟩

/-- An attempt on it with counters. -/
def answering (silence busy : Nat) (standing : Bool) : State :=
  answers ⟨[reply], silence, busy, standing⟩ (sending (.line (reply.toFrame 5)) (station .active))

/-- An item that has left; counters one before a limit and at the last value below it. -/
theorem witness_AnswerAttemptOutcomes :
    (answering 0 0 false).onLink = true ∧ (answering 0 0 false).link.transmitter = .line (reply.toFrame 5) ∧
    (reply.toFrame 5).kind = .answer .query ∧ (answering 0 0 false).home.answers.onLine = false ∧
    (answering 6 62 true).home.answers.items = reply :: [] ∧ (answering 6 62 true).home.answers.busyCount + 1 < 64 ∧
    (answering 6 63 true).home.answers.busyCount = 63 ∧ (answering 6 62 true).home.answers.silenceRun + 1 < 8 := by decide +kernel

/-- Operations 0, 6 and 7; units 0; no slot FREE. -/
theorem witness_SubmitRefusals :
    (withBlock .config 0x0101 0 0).control.mode ≠ .active ∧ (withBlock .active 0x0100 0 0).port.params[0].toNat % 8 = 0 ∧
    (withBlock .active 0x0006 0 0).port.params[0].toNat % 8 = 6 ∧ (withBlock .active 0x0007 0 0).port.params[0].toNat % 8 = 7 ∧
    (withBlock .active 0x0002 0 0).port.params[0].toNat / 256 = 0 ∧ 1 ≤ (withBlock .active 0x0101 0 0).port.params[0].toNat / 256 ∧
    ∀ n, (Client.slot { Client.powerOn with slots := Vector.replicate 32 ⟨1, .sent (request .query 0 0)⟩ } n).use ≠ .free := by
  decide +kernel

/-- The registers of an ACQUIRE of 1 unit of object 2047. -/
def asking : State := params 0x0171 2047 65535 1 2 (station .active)

theorem witness_SubmitTakesLowestFreeSlot :
    asking.port.Asks ⟨.acquire, 2047, 7, 65535, 1, 0x20001, false⟩ ∧ asking.running = true ∧ asking.control.mode = .active ∧
    (asking.client.slot 0).use = .free ∧ (∀ m < (0 : SlotNum), (asking.client.slot m).use ≠ .free) ∧ asking.client.RequestsSound ∧
    homeOf 2047 ≠ asking.control.number ∧ (roster 31 .departed asking).rosterOf (homeOf 2047) = .departed := by
  refine ⟨⟨⟨?_, ?_⟩, ?_, ?_, ?_, ?_, ?_, ?_, ?_⟩, rfl, rfl, ?_, ?_, ⟨?_, ?_, ?_⟩, ?_, ?_⟩
  case refine_1 => decide +kernel
  case refine_2 => decide +kernel
  case refine_6 => intro _; decide
  case refine_13 => intro e h; exact nomatch h
  case refine_14 =>
    have : ∀ n, (asking.client.slot n).use = .free := by decide +kernel
    intro n r h; rw [this n] at h; exact nomatch h
  all_goals decide +kernel

/-- Every slot state, an entry in an attempt and one that is not. -/
theorem witness_CancelBySlotState :
    (0 : SlotNum).val = (withBlock .active 0xFFE0 0 0).port.params[0].toNat % 32 ∧
    ((station .active).client.slot 0).use = .free ∧
    ((slot 0 (.queued (request .take 0 5)) (station .active)).client.slot 0).use = .queued (request .take 0 5) ∧
    (requests ⟨[⟨0, .request⟩], 0, 0, true⟩ (station .active)).client.requests.items.head?.map RequestEntry.slot = some 0 ∧
    (request .take 0 1).waitLimit ≠ 0 ∧ (request .take 0 0).waitLimit = 0 ∧
    ¬ ((request .query 0 1).operation = .acquire ∨ (request .query 0 1).operation = .take) := by decide +kernel

theorem witness_PopFreesTheHeadSlot :
    (station .active).client.ring = [] ∧
    ({ Client.powerOn with ring := [⟨0, 1, .query, 321, .ok, 0⟩] } : Client).ring = ⟨0, 1, .query, 321, .ok, 0⟩ :: [] := ⟨rfl, rfl⟩

/-- An attempt on the request entry of slot 0, in a state of its own. -/
def requesting (u : SlotUse) (sort : EntrySort) (silence busy : Nat) (standing : Bool) : State :=
  requests ⟨[⟨0, sort⟩], silence, busy, standing⟩ (slot 0 u (sending (.line (asks .query 0 0)) (station .active)))

/-- A request, a withdraw and a return entry; an entry that has left; counters at the last values below their limits, and at the limit. -/
theorem witness_RequestAttemptOutcomes :
    (requesting (.queued (request .query 0 0)) .request 6 62 true).onLink = true ∧
    (requesting (.queued (request .query 0 0)) .request 6 62 true).client.requests.items = ⟨0, .request⟩ :: [] ∧
    ((requesting (.queued (request .query 0 0)) .request 6 62 true).client.slot 0).use = .queued (request .query 0 0) ∧
    (requesting (.cancelling (request .take 0 5)) .withdraw 0 0 false).client.requests.onLine = false ∧
    (requesting (.cancelling (request .take 0 5)) .withdraw 6 62 true).client.requests.busyCount + 1 < 64 ∧
    (requesting (.cancelling (request .take 0 5)) .withdraw 6 62 true).client.requests.silenceRun + 1 < 8 ∧
    ((requesting (.returning (request .acquire 3 5) 3) .giveBack 0 63 true).client.slot 0).use.busy? = some (request .acquire 3 5) := by
  decide +kernel

/-- An answer of station 5 itself to slot 0, with a status code. -/
def told (op : Operation) (tag : Tag) (status : BitVec 4) : Frame :=
  { Frame.blank (.answer op) 5 (.station 5) with index := 1, slot := 0, tag, status, word := 3 }

/-- The station with slot 0 in use and that answer at the head. -/
def hearing (u : SlotUse) (f : Frame) : State := (slot 0 u (station .active)).withQueue [.frame f]

/-- No busy slot; another tag; another index or sender; a status code of 13. -/
theorem witness_UnmatchedAnswersAreDiscarded :
    (hearing .free (told .take 1 0)).onLink = true ∧ ((hearing .free (told .take 1 0)).client.slot 0).use.busy? = none ∧
    (told .take 2 0).tag ≠ ((hearing (.sent (request .take 0 5)) (told .take 2 0)).client.slot 0).tag ∧
    ({ told .take 1 0 with index := 2 } : Frame).index ≠ indexOf (request .take 0 5).objectId ∧
    ({ told .take 1 0 with sender := 6 } : Frame).sender ≠ homeOf (request .take 0 5).objectId ∧ 13 ≤ (told .take 1 13).status.toNat := by
  decide +kernel

theorem witness_Matches (u : SlotUse) (op : Operation) (status : BitVec 4) (h : u.busy? = some (request .take 0 5)) :
    (hearing u (told op 1 status)).Matches (told op 1 status) op (request .take 0 5) [] := by
  have hs : (hearing u (told op 1 status)).client.slot 0 = ⟨1, u⟩ := by
    have := Client.slot_set (station .active).client 0 0 ⟨1, u⟩
    rwa [if_pos rfl] at this
  refine ⟨rfl, rfl, rfl, ?_, ?_, rfl, rfl⟩
  · show ((hearing u (told op 1 status)).client.slot 0).use.busy? = _
    rw [hs]; exact h
  · show 1 = ((hearing u (told op 1 status)).client.slot 0).tag
    rw [hs]

/-- MISSED and the last status in SENT; every state the statement names is busy. -/
theorem witness_AnswersToSentSlots :
    (told .take 1 12).status.toNat ≤ 12 ∧ (told .take 1 4).status = 4 ∧ CompletionStatus.homeAbsent.code.toNat = (told .take 1 12).status.toNat ∧
    (SlotUse.queued (request .take 0 5)).busy? = some (request .take 0 5) ∧ (SlotUse.sent (request .take 0 5)).busy? = some (request .take 0 5) := by
  decide +kernel

/-- Every status of the table, and answers that it does not list. -/
theorem witness_AnswersToCancelledSlots :
    (SlotUse.cancelling (request .take 0 5)).busy? = some (request .take 0 5) ∧
    (SlotUse.returning (request .take 0 5) 3).busy? = some (request .take 0 5) ∧
    (∀ n ∈ [0, 2, 3, 4, 8, 9, 10, 11, 12], (BitVec.ofNat 4 n).toNat ≤ 12) ∧
    (∀ n ∈ [1, 5, 6, 7], (told .take 1 n).status ∈ [1, 5, 6, 7] ∧ (told .take 1 n).status.toNat ≤ 12) ∧
    Operation.query ≠ .take ∧ Operation.query ≠ .acquire ∧ Operation.query ≠ (request .take 0 5).operation ∧
    Operation.query ≠ .withdraw := by decide +kernel

/-- A request to object 9:1, which is 577. -/
def elsewhere : Request := ⟨.query, 577, 0, 0, 0, 0, false⟩

/-- A notice, an answer, a request to the station itself and to another at the head of its list, three empty lists, and a place held. -/
theorem witness_FrameBeginChooses :
    (station .active).onLink = true ∧ (station .active).link.transmitter = .free ∧ (station .active).link.placeHeld = false ∧
    (notices ⟨[.depart 9], 0, 0, false⟩ (station .active)).link.notices.items = .depart 9 :: [] ∧
    (answers ⟨[reply], 0, 0, false⟩ (station .active)).home.answers.items = reply :: [] ∧ reply.dest ≠ (station .active).control.number ∧
    (requests ⟨[⟨0, .giveBack⟩], 0, 0, false⟩ (slot 0 (.returning (request .acquire 3 5) 255) (station .active))).client.requests.items =
      ⟨0, .giveBack⟩ :: [] ∧
    ((slot 0 (.returning (request .acquire 3 5) 255) (station .active)).client.slot 0).use.busy? = some (request .acquire 3 5) ∧
    (255 : Word).toNat ≤ 255 ∧ (station .active).client.requests.items = [] ∧
    homeOf (request .acquire 3 5).objectId = (station .active).control.number ∧
    (requests ⟨[⟨0, .request⟩], 0, 0, false⟩ (slot 0 (.queued elsewhere) (station .active))).client.requests.items = ⟨0, .request⟩ :: [] ∧
    ((slot 0 (.queued elsewhere) (station .active)).client.slot 0).use.busy? = some elsewhere ∧
    homeOf elsewhere.objectId ≠ (station .active).control.number ∧
    ((station .active).withQueue [.place (Notice.toFrame 9 .join)]).link.placeHeld = true ∧
    ((station .active).withQueue [.place (Notice.toFrame 9 .join)]).onLink = true := by decide +kernel

/-- A JOIN of station 4 outranks one of station 5; a JOIN of station 5 does not outrank itself. -/
theorem witness_LowerLeadingFieldGoesOn :
    (sending (.line (Notice.toFrame 5 .join)) (station .joining)).link.transmitter = .line (Notice.toFrame 5 .join) ∧
    (∃ i < 7, (∀ j < i, (4#7).getMsbD j = (Notice.toFrame 5 .join).leading.getMsbD j) ∧ (Notice.toFrame 5 .join).leading.getMsbD i = true ∧
      (4#7).getMsbD i = false) ∧
    ¬ (∃ i < 7, (∀ j < i, (5#7).getMsbD j = (Notice.toFrame 5 .join).leading.getMsbD j) ∧
      (Notice.toFrame 5 .join).leading.getMsbD i = true ∧ (5#7).getMsbD i = false) := by decide +kernel

/-- A station on the link that does not send, and bits that are no frame's. -/
theorem witness_FramesNotHeard : (station .joining).onLink = true ∧ (∀ f, (station .joining).link.transmitter ≠ .line f) ∧
    (station .joining).link.placeHeld = false ∧ Frame.parse 0 = none := by
  refine ⟨rfl, fun f h => (nomatch h), rfl, by decide +kernel⟩

/-- A queue of `n` frames. -/
def full (n : Nat) : State := (station .active).withQueue (List.replicate n (.frame (asks .query 0 0)))

/-- A well-formed unicast to the station, one to another, JOINING, a DEPARTED sender, a queue of 16 and of 15. -/
theorem witness_UnicastDecision :
    Frame.parse (asks .query 0 0).encode = some (asks .query 0 0) ∧ (asks .query 0 0).sender ≠ (station .active).control.number ∧
    (asks .query 0 0).dest = .station 5 ∧ ((request .query 0 0).toFrame 9 0 1).dest = .station (station .joining).control.number ∧
    (roster 9 .departed (station .active)).rosterOf (asks .query 0 0).sender = .departed ∧
    (station .active).rosterOf (asks .query 0 0).sender ≠ .departed ∧ 16 ≤ (full 16).link.queue.length ∧
    (full 15).link.queue.length < 16 ∧ (full 16).link.placeHeld = false ∧ (full 15).link.placeHeld = false := by decide +kernel

theorem witness_BroadcastDecisionAndPlace :
    Frame.parse (Notice.toFrame 9 .leave).encode = some (Notice.toFrame 9 .leave) ∧ (Notice.toFrame 9 .leave).dest = .all ∧
    16 ≤ (full 16).link.queue.length ∧ (full 15).link.queue.length < 16 ∧
    ((station .active).withQueue ([.frame (asks .query 0 0)] ++ .place (Notice.toFrame 9 .join) :: [])).link.queue =
      [.frame (asks .query 0 0)] ++ .place (Notice.toFrame 9 .join) :: [] := by decide +kernel

/-- An attempt on a notice with a BUSY count. -/
def noticing (x : Notice) (mode : StationState) (busy : Nat) : State :=
  notices ⟨[x], 0, busy, true⟩ (sending (.line (Notice.toFrame 5 x)) (station mode))

/-- Each notice, at 62 and at 63 of its 64. -/
theorem witness_NoticeAttemptOutcomes :
    (∀ x ∈ [Notice.join, .leave, .depart 9], ∀ b ∈ [62, 63], (noticing x .leaving b).onLink = true ∧
      (noticing x .leaving b).link.transmitter = .line (Notice.toFrame 5 x) ∧ (noticing x .leaving b).link.notices.onLine = true ∧
      (noticing x .leaving b).link.notices.items = x :: []) ∧
    (noticing .join .joining 62).link.notices.busyCount + 1 < 64 ∧ (noticing .join .joining 63).link.notices.busyCount = 63 := by
  decide +kernel

/-- A request by the path to the station itself with 15 and with 16 frames in its queue. -/
def offering (n : Nat) (u : SlotUse) (sort : EntrySort) (busy : Nat) (standing : Bool) : State :=
  requests ⟨[⟨0, sort⟩], 0, busy, standing⟩ (slot 0 u (sending (.ownPath (asks .query 0 0)) (full n)))

theorem witness_OwnPathAttemptEnds :
    (offering 15 (.queued (request .query 0 0)) .request 0 true).onLink = true ∧
    (offering 15 (.queued (request .query 0 0)) .request 0 true).link.transmitter = .ownPath (asks .query 0 0) ∧
    (offering 15 (.queued (request .query 0 0)) .request 0 true).link.queue.length < 16 ∧
    16 ≤ (offering 16 (.queued (request .query 0 0)) .request 0 false).link.queue.length ∧
    (offering 16 (.queued (request .query 0 0)) .request 0 false).client.requests.onLine = false ∧
    (offering 16 (.cancelling (request .take 0 5)) .withdraw 62 true).client.requests.busyCount + 1 < 64 ∧
    (offering 16 (.returning (request .acquire 3 5) 3) .giveBack 63 true).client.requests.busyCount = 63 ∧
    ((offering 16 (.returning (request .acquire 3 5) 3) .giveBack 63 true).client.slot 0).use.busy? = some (request .acquire 3 5) := by
  decide +kernel

theorem witness_FrameBitsRoundTrip : (Notice.toFrame 9 .leave).wellFormed = true ∧
    Frame.parse (Notice.toFrame 9 .leave).encode = some (Notice.toFrame 9 .leave) := by decide +kernel

/-- Each cause: a sender on the line, a unicast of its own, a frame with its own number, a DEPART naming it. -/
theorem witness_EvictionOnEveryCause :
    (requesting (.queued (request .query 0 0)) .request 0 0 true).onLink = true ∧
    (requesting (.queued (request .query 0 0)) .request 0 0 true).link.transmitter = .line (asks .query 0 0) ∧
    Frame.parse (Notice.toFrame 5 .join).encode = some (Notice.toFrame 5 .join) ∧
    (Notice.toFrame 5 .join).sender = (station .active).control.number ∧
    (Notice.toFrame 9 (.depart 5)).kind = .notice .depart ∧ (Notice.toFrame 9 (.depart 5)).subject = (station .active).control.number := by
  decide +kernel

/-! ### States that keep the laws -/

/-- A station in ACTIVE whose home half is as after power-on, with a lawful client engine, queue and transmitter, keeps every law. -/
theorem laws_of_empty_home (s : State) (hh : s.home = Home.powerOn) (hr : s.control.resetAsserted = false) (hm : s.control.mode = .active)
    (hl : s.control.leaveQueued = false) (he : s.control.events = Events.clear) (hring : s.client.RingSound)
    (hreq : s.client.RequestsSound) (hb : s.NoBusyForDeparted) (hown : s.rosterOf s.control.number = .unknown)
    (hn : s.link.notices = OutList.empty) (hq : s.link.QueueSound) (hc : s.client.requests.CountersSound)
    (ha : s.client.requests.onLine → ∃ f op, (s.link.transmitter = .line f ∨ s.link.transmitter = .ownPath f) ∧ f.kind = .request op)
    (ho : ∀ f, s.link.transmitter = .ownPath f → ∃ op, f.kind = .request op) : DeviceLaws s := by
  have hen : ∀ i, s.home.entry i = none := by intro i; rw [hh]; simp [Home.powerOn, Home.entry]
  have hno : ∀ i e, ¬ s.home.has i e := fun i e h => nomatch (hen i).symm.trans h
  have hwa : ∀ i, s.home.waitersAt i = [] := by intro i; simp [Home.waitersAt, hen i]
  have han : s.home.answers = OutList.empty := by rw [hh]; rfl
  have hho : s.home.holds = [] := by rw [hh]; rfl
  refine ⟨fun i e h => absurd h (hno i e), ⟨by simp [hho], by simp [hho], by simp [hho]⟩, fun i e h => absurd h (hno i e),
    fun i e h => absurd h (hno i e), ⟨fun i => by simp [hwa i], fun i w h => by simp [hwa i] at h⟩, fun i e h => absurd h (hno i e),
    ?_, ?_, ?_, hring, hreq, hb, ?_, ?_, ?_, ?_, hq, ?_, ?_, ?_⟩
  · have : s.home.recordsInUse = [] := by
      have hf : ∀ l : List ObjIndex, l.flatMap s.home.waitersAt = [] := by
        intro l; induction l with
        | nil => rfl
        | cons a t ih => rw [List.flatMap_cons, hwa, ih]; rfl
      simp [Home.recordsInUse, hf, han, OutList.empty]
    show List.Pairwise _ s.home.recordsInUse
    rw [this]; exact List.Pairwise.nil
  · rw [hh]; exact ⟨by decide +kernel, by decide +kernel⟩
  · rw [hh]
    refine ⟨⟨List.Pairwise.nil, fun _ h => (nomatch h)⟩, by decide +kernel, by decide, ?_, ?_, fun _ _ => rfl⟩
    · intro i e h; rw [← hh] at h; exact absurd h (hno i e)
    · intro i j e f _ h; rw [← hh] at h; exact absurd h (hno i e)
  · exact ⟨fun i w h => by simp [hwa i] at h, by simp [han, OutList.empty], by simp [hho]⟩
  · exact ⟨fun h => by simp [hm] at h, fun h => by simp [hm] at h, fun h => by simp [hm] at h, fun h => by simp [hm] at h,
      fun h => by simp [hm] at h, fun h => by simp [hr] at h⟩
  · exact ⟨hown, by simp [han, OutList.empty]⟩
  · exact ⟨by simp [hn, OutList.empty], by simp [hn, OutList.empty], by simp [hn, OutList.empty], by simp [hn, OutList.empty],
      fun h => by simp [hl] at h, fun h => by simp [hm] at h⟩
  · exact ⟨by rw [hn]; exact OutList.countersSound_empty, by rw [han]; exact OutList.countersSound_empty, hc⟩
  · exact ⟨fun h => by simp [hn, OutList.empty] at h, fun h => by simp [han, OutList.empty] at h, ha, ho⟩
  · show s.control.events.evicted = true ↔ _
    rw [he]; simp [Events.clear]

/-- Station 5 in ACTIVE with one frame in its queue and one roster entry of another station. -/
def noticed (f : Frame) (n : StationNum) (e : RosterEntry) : State := roster n e ((station .active).withQueue [.frame f])

theorem laws_noticed (f : Frame) (n : StationNum) (e : RosterEntry) (h : n ≠ 5) : DeviceLaws (noticed f n e) := by
  have hs : ∀ m, (noticed f n e).client.slot m = ⟨0, .free⟩ := by
    intro m; simp [noticed, roster, station, State.withQueue, State.reset, State.powerOn, Client.powerOn, Client.slot]
  have hv : n.val ≠ 5 := fun hh => h (Fin.ext hh)
  refine laws_of_empty_home _ rfl rfl rfl rfl rfl ⟨List.nodup_nil, fun r h => (nomatch h), fun m h => ?_⟩
    ⟨List.nodup_nil, fun e h => (nomatch h), fun m r h => ?_⟩ (fun m r h => ?_) ?_ rfl ⟨?_, ?_⟩ OutList.countersSound_empty
    (fun h => (nomatch h)) (fun f h => (nomatch h))
  · rw [hs] at h; exact nomatch h
  · rw [hs] at h; exact nomatch h
  · rw [hs] at h; exact nomatch h
  · show ((station .active).roster.set n.val e)[5] = _
    rw [Vector.getElem_set_ne _ _ hv]
    simp [station, State.reset, State.powerOn]
  · show 1 ≤ 16; omega
  · show 0 ≤ 1; omega

/-- A JOIN of station 9 at the head, while a DEPART naming it is in an attempt on the line. -/
def departing : State :=
  notices ⟨[.depart 9], 0, 0, true⟩ (sending (.line (Notice.toFrame 5 (.depart 9))) (noticed (Notice.toFrame 9 .join) 9 .departed))

theorem laws_departing : DeviceLaws departing :=
  have laws := laws_noticed (Notice.toFrame 9 .join) 9 .departed (by decide)
  { laws with
    departed := ⟨laws.departed.waiting, laws.departed.answers, laws.departed.holds⟩
    own := ⟨laws.own.roster, laws.own.answers⟩
    quiet := ⟨fun h => (nomatch h), fun h => (nomatch h), fun h => (nomatch h), fun h => (nomatch h), fun h => (nomatch h), fun h => (nomatch h)⟩
    notices := ⟨by decide, by decide, by decide, by decide, fun h => (nomatch h), fun h => (nomatch h)⟩
    queue := ⟨by decide, by decide⟩
    counters := ⟨⟨by decide, by decide, fun h => (nomatch h)⟩, OutList.countersSound_empty, OutList.countersSound_empty⟩
    attempt := ⟨fun _ => ⟨_, .depart, rfl, rfl⟩, fun h => (nomatch h), fun h => (nomatch h), fun f h => (nomatch h)⟩ }

/-- A JOIN, a LEAVE and a DEPART at the head, the station PRESENT, and DEPARTED already; a JOIN while a DEPART is in an attempt. -/
theorem witness_NoticesPurgeTheirStation :
    (∀ k : Notice, k ∈ [Notice.join, .leave, .depart 9] → ∀ e : RosterEntry, e ∈ [RosterEntry.present, .departed] →
      DeviceLaws (noticed (Notice.toFrame 9 k) 9 e)) ∧
    (noticed (Notice.toFrame 9 .join) 9 .present).onLink = true ∧
    (noticed (Notice.toFrame 9 .join) 9 .present).link.queue = .frame (Notice.toFrame 9 .join) :: [] ∧
    (Notice.toFrame 9 .leave).sender ≠ 5 ∧ (Notice.toFrame 8 (.depart 9)).subject = 9 ∧
    (noticed (Notice.toFrame 9 .leave) 9 .departed).rosterOf 9 = .departed ∧
    (noticed (Notice.toFrame 9 .leave) 9 .present).rosterOf 9 ≠ .departed ∧
    (DeviceLaws departing ∧ departing.onLink = true ∧ departing.link.queue = .frame (Notice.toFrame 9 .join) :: [] ∧
      departing.link.notices.onLine = true ∧ departing.link.notices.items.head? = some (.depart 9)) :=
  ⟨fun k _ e _ => laws_noticed _ _ _ (by decide), rfl, rfl, by decide, rfl, by decide +kernel, by decide +kernel,
    laws_departing, rfl, rfl, rfl, rfl⟩

/-- A request to object 9:1 that has met silence seven times. -/
def unanswered : State :=
  requests ⟨[⟨0, .request⟩], 7, 0, true⟩ (slot 0 (.queued elsewhere) (sending (.line (elsewhere.toFrame 5 0 1)) (station .active)))

theorem laws_unanswered : DeviceLaws unanswered := by
  have hs : ∀ m, unanswered.client.slot m = if m = 0 then ⟨1, .queued elsewhere⟩ else ⟨0, .free⟩ := by decide +kernel
  refine laws_of_empty_home _ rfl rfl rfl rfl rfl ⟨List.nodup_nil, fun r h => (nomatch h), fun m h => ?_⟩
    ⟨by decide, fun e h => ?_, fun m r h => ?_⟩ (fun m r h => ?_) (by decide +kernel) rfl ⟨by decide, by decide⟩ ⟨by decide, by decide, ?_⟩
    (fun _ => ⟨_, .query, .inl rfl, rfl⟩) (fun f h => (nomatch h))
  · rw [hs] at h; split at h <;> exact nomatch h
  · have : e = ⟨0, .request⟩ := by simpa [unanswered, requests] using h
    subst this; rw [hs]; rfl
  · rw [hs] at h
    split at h
    · rename_i hm; subst hm; simp [unanswered, requests]
    · exact nomatch h
  · have : ∀ n, unanswered.rosterOf n ≠ .departed := by decide +kernel
    exact this _
  · intro h; exact nomatch h

/-- Station 5 in LEAVING, whose last answer, to station 9, has met silence seven times. -/
def unheard : State :=
  answers ⟨[reply], 7, 0, true⟩ (sending (.line (reply.toFrame 5)) { State.reset with
    control := { State.reset.control with mode := .leaving, number := 5 } })

theorem laws_unheard : DeviceLaws unheard := by
  have laws := laws_noticed (Notice.toFrame 9 .join) 9 .unknown (by decide)
  have entries : ∀ i, unheard.home.entry i = none := by decide +kernel
  have slots : ∀ n, unheard.client.slot n = ⟨0, .free⟩ := by decide +kernel
  have waiting : ∀ i, unheard.home.waitersAt i = [] := fun i => by rw [Home.waitersAt, entries]; rfl
  have known : ∀ n, unheard.rosterOf n = .unknown := by decide +kernel
  have used : unheard.home.recordsInUse = [] := by decide +kernel
  exact
    { conserves := laws.conserves, levels := laws.levels, heads := laws.heads, records := laws.records, events := laws.events
      holds := ⟨fun r h => (nomatch h), List.Pairwise.nil, by decide⟩
      order := ⟨laws.order.ordered, laws.order.earlier⟩
      single := by show List.Pairwise _ unheard.home.recordsInUse; rw [used]; exact List.Pairwise.nil
      pools := ⟨by decide +kernel, by decide⟩
      pool := ⟨laws.pool.canonical, laws.pool.account, laws.pool.fits, laws.pool.inside, laws.pool.apart, laws.pool.above⟩
      ring := ⟨List.nodup_nil, fun r h => (nomatch h), fun n h => by rw [slots] at h; exact nomatch h⟩
      requests := ⟨List.nodup_nil, fun e h => (nomatch h), fun n r h => by rw [slots] at h; exact nomatch h⟩
      busy := fun n r h => by rw [slots] at h; exact nomatch h
      departed := ⟨fun i w h => by rw [waiting] at h; exact (nomatch h), fun x _ => by rw [known]; decide, fun r h => (nomatch h)⟩
      quiet := ⟨fun h => absurd h (by decide), fun h => absurd h (by decide), fun h => (nomatch h), fun h => (nomatch h),
        fun _ => ⟨fun n => by rw [slots]; rfl, rfl, waiting, rfl⟩, fun h => (nomatch h)⟩
      own := ⟨known _, by decide⟩
      notices := ⟨List.nodup_nil, List.not_mem_nil, fun h => (nomatch h), fun h => (nomatch h), fun h => (nomatch h), fun _ h => (nomatch h)⟩
      queue := ⟨by decide, by decide⟩
      counters := ⟨OutList.countersSound_empty, ⟨by decide, by decide, fun h => (nomatch h)⟩, OutList.countersSound_empty⟩
      attempt := ⟨fun h => (nomatch h), fun _ => ⟨_, .query, rfl, rfl⟩, fun h => (nomatch h), fun f h => (nomatch h)⟩ }

/-- An answer and a request that have met silence seven times, the answer in LEAVING. -/
theorem witness_SilenceLimitDeclaresDeparted :
    (DeviceLaws unheard ∧ unheard.onLink = true ∧ unheard.link.transmitter = .line (reply.toFrame 5) ∧
      (reply.toFrame 5).kind = .answer .query ∧ (reply.toFrame 5).dest = .station 9 ∧ (9 : StationNum) ≠ unheard.control.number ∧
      unheard.rosterOf 9 ≠ .departed ∧ unheard.home.answers.onLine = true ∧ unheard.home.answers.silenceRun = 7) ∧
    DeviceLaws unanswered ∧ unanswered.onLink = true ∧
    unanswered.link.transmitter = .line (elsewhere.toFrame 5 0 1) ∧
    (elsewhere.toFrame 5 0 1).dest = .station 9 ∧ (9 : StationNum) ≠ unanswered.control.number ∧
    unanswered.rosterOf 9 ≠ .departed ∧ unanswered.client.requests.onLine = true ∧ unanswered.client.requests.silenceRun = 7 :=
  ⟨⟨laws_unheard, rfl, rfl, rfl, rfl, by decide, by decide +kernel, rfl, rfl⟩,
    laws_unanswered, by decide +kernel, rfl, by decide, by decide, by decide +kernel, rfl, rfl⟩

theorem witness_JoinCommandTaken : (station .config).running = true ∧ (station .config).control.mode = .config ∧
    (station .joining).control.mode ≠ .config := by decide +kernel

theorem witness_LeaveCommandTaken :
    (station .joining).control.mode ≠ .active ∧ (station .active).control.mode = .active ∧
    (∀ n, ((station .active).client.slot n).use.busy = false) ∧
    ((slot 0 (.queued (request .query 0 0)) (station .active)).client.slot 0).use.busy = true := by decide +kernel

theorem witness_LeaveNoticeAddedOnce :
    (station .leaving).control.mode = .leaving ∧ (station .leaving).home.answers.items = [] ∧ (station .leaving).control.leaveQueued = false ∧
    (answers ⟨[reply], 0, 0, false⟩ (station .leaving)).home.answers.items ≠ [] := by decide +kernel

theorem witness_ResetCommandTaken : (station .evicted).running = true := rfl
theorem witness_ReadEventsCapturesAndClears : (station .evicted).running = true := rfl

/-- Codes 0, 11 and 65535. -/
theorem witness_RegisterAccesses : (station .evicted).running = true ∧ (0 : Reg).toNat = 0 ∧ 11 ≤ (11 : Reg).toNat ∧ (255 : Reg).toNat < 256 ∧
    11 ≤ (65535 : Reg).toNat := by decide

/-- Every view number, on a state that keeps the laws. -/
theorem witness_ViewsShowTheState : DeviceLaws (noticed (Notice.toFrame 9 .join) 9 .present) ∧
    (∀ n ∈ [0, 1, 2, 3, 4, 5, 6, 7], (BitVec.ofNat 16 n).toNat % 8 = n) := ⟨laws_noticed _ _ _ (by decide), by decide⟩

/-- A state that keeps the laws and steps: the premise of every law's statement. -/
theorem witness_laws_step : ∃ s t, DeviceLaws s ∧ step s = .next t := ⟨_, _, laws_noticed (Notice.toFrame 9 .join) 9 .present (by decide), rfl⟩

theorem witness_StepsKeepListsOrdered : (station .active).home.ListsOrdered ∧ ∃ t, step (station .active) = .next t :=
  have h : ∀ i, (station .active).home.waitersAt i = [] := by decide +kernel
  ⟨⟨fun i => by rw [h i]; exact List.Pairwise.nil, fun i w hw => by rw [h i] at hw; exact nomatch hw⟩, _, rfl⟩

end Sys2Proof.Tests
end

section
/-! SUPPORT. DEFINE's refusals, CLEAR_DEFINITIONS and READ_OBJECT: the shared operations of Machine/Objects.lean case by case, and the
statements O5, O7 and O8 they settle. -/

namespace Sys2Proof.Machine

/-! ### The definition a block names (R3, check 4 of R7) -/

/-- Parameters out of range for their kind name no definition. -/
theorem definitionOf_eq_none (kind : BitVec 3) (first second base : Nat)
    (h : (kind.toNat = 1 ∧ first = 0) ∨ (kind.toNat = 2 ∧ (first = 0 ∨ first < second)) ∨ (kind.toNat = 3 ∧ 8 < first)) :
    definitionOf kind first second base = none := by
  unfold definitionOf
  rcases h with ⟨hk, hf⟩ | ⟨hk, hf⟩ | ⟨hk, hf⟩
  · simp [hk, hf]
  · simp only [hk]; exact if_neg (by omega)
  · simp [hk, hf]

/-- A size exponent in range names the mailbox with its ring at `base`. -/
theorem definitionOf_mailbox (kind : BitVec 3) (first second base : Nat) (hk : kind.toNat = 3) (hf : first ≤ 8) :
    definitionOf kind first second base = some (.mailbox first base) := by
  simp [definitionOf, hk, hf]

/-! ### The checks of DEFINE in their order (R7) -/

/-- Check 1, the station state: it comes before the block is looked at. -/
theorem State.checkDefine_of_not_config (s : State) (h : s.control.mode ≠ .config) : s.checkDefine = (.notConfig, none) := if_pos h

/-- Check 2, the index. -/
theorem State.checkDefine_of_index_outside (s : State) (hc : s.control.mode = .config) (h : tableIndex s.port.defineIndex = none) :
    s.checkDefine = (.badDefinition, none) := by
  simp [State.checkDefine, hc, h]

/-- Check 2, the kind, whether or not the index is in range. -/
theorem State.checkDefine_of_kind_unnamed (s : State) (hc : s.control.mode = .config) (h : kindNamed s.port.defineKind = false) :
    s.checkDefine = (.badDefinition, none) := by
  cases hi : tableIndex s.port.defineIndex <;> simp [State.checkDefine, hc, h, hi]

section
variable (s : State) {i : ObjIndex} (hc : s.control.mode = .config) (hi : tableIndex s.port.defineIndex = some i)
  (hk : kindNamed s.port.defineKind = true)
include hc hi hk

/-- Check 3: it comes before the parameters are looked at. -/
theorem State.checkDefine_of_defined {e : ObjectEntry} (he : s.home.has i e) : s.checkDefine = (.indexInUse, none) := by
  have he : s.home.entry i = some e := he
  simp [State.checkDefine, hc, hi, hk, he]

/-- Check 4, the parameters. -/
theorem State.checkDefine_of_parameters_outside (he : s.home.entry i = none)
    (hd : definitionOf s.port.defineKind s.port.defineFirst s.port.defineSecond s.home.poolUsed = none) :
    s.checkDefine = (.badDefinition, none) := by
  simp [State.checkDefine, hc, hi, hk, he, hd]

/-- Check 5, the room in the pool. -/
theorem State.checkDefine_of_no_room {d : Definition} (he : s.home.entry i = none)
    (hd : definitionOf s.port.defineKind s.port.defineFirst s.port.defineSecond s.home.poolUsed = some d)
    (hw : Config.poolWords - s.home.poolUsed < d.words) : s.checkDefine = (.poolExhausted, none) := by
  simp only [State.checkDefine, hc, hi, hk, he, hd]; simpa using hw

end

/-- A DEFINE that fails a check changes nothing but the answer, which is that check's refusal. -/
theorem exec_define_of_refused (s : State) {r : LocalResult} (hr : s.running = true) (h : s.checkDefine = (r, none)) :
    exec .define s = .next (s.told 1 r.code.toNat 0 0) := by
  rw [exec_define s hr, ← s.refuse_eq_told 1 r (by decide)]
  simp [State.define, h]

/-! ### CLEAR_DEFINITIONS (R9) -/

@[simp] theorem Home.clearDefinitions_entry (h : Home) (i : ObjIndex) : h.clearDefinitions.entry i = none := by
  simp [Home.entry, Home.clearDefinitions]

@[simp] theorem Home.clearDefinitions_read (h : Home) (a : Nat) : h.clearDefinitions.pool.read a = 0 := rfl

/-- CLEAR_DEFINITIONS taken, in CONFIG. -/
theorem State.clearDefinitions_of_config (s : State) (h : s.control.mode = .config) :
    s.clearDefinitions = ({ s with home := s.home.clearDefinitions }).told 2 0 4096 0 :=
  (if_pos h).trans (State.respond_eq_told _ 2 .ok _ _ (by decide))

/-- CLEAR_DEFINITIONS refused, in every other station state. -/
theorem State.clearDefinitions_of_not_config (s : State) (h : s.control.mode ≠ .config) :
    s.clearDefinitions = s.told 2 1 0 0 :=
  (if_neg h).trans (s.refuse_eq_told 2 .notConfig (by decide))

/-! ### The object window of an entry, column by column of R13 -/

theorem windowOf_index (i : ObjIndex) (holds : List HoldRecord) (o : Option ObjectEntry) :
    (windowOf i holds o).index = BitVec.ofNat 6 i.val := by
  have field : BitVec.ofFin (w := 6) i = BitVec.ofNat 6 i.val := BitVec.ofFin_eq_ofNat
  rw [← field]
  cases o with
  | none => rfl
  | some e => cases hd : e.definition <;> simp [windowOf, hd]

theorem windowOf_none (i : ObjIndex) (holds : List HoldRecord) :
    windowOf i holds none = ⟨BitVec.ofNat 6 i.val, 0, 0, 0, 0, 0, 0, 0⟩ := by
  rw [← windowOf_index i holds none]; rfl

section
variable (i : ObjIndex) (holds : List HoldRecord) (e : ObjectEntry)

theorem windowOf_tracked {c : Nat} (hd : e.definition = .tracked c) :
    windowOf i holds (some e) = ⟨BitVec.ofNat 6 i.val, 1, 0, BitVec.ofNat 16 c, 0, BitVec.ofNat 16 e.level,
      BitVec.ofNat 8 e.waiters.length, BitVec.ofNat 8 (holds.filter fun r => decide (r.index = i)).length⟩ := by
  rw [← windowOf_index i holds (some e), ← List.countP_eq_length_filter]
  simp [windowOf, hd, Definition.kindCode, regOf]

theorem windowOf_signal {m n : Nat} (hd : e.definition = .signal m n) :
    windowOf i holds (some e) = ⟨BitVec.ofNat 6 i.val, 2, 0, BitVec.ofNat 16 m, BitVec.ofNat 16 n, BitVec.ofNat 16 e.level,
      BitVec.ofNat 8 e.waiters.length, 0⟩ := by
  rw [← windowOf_index i holds (some e)]
  simp [windowOf, hd, Definition.kindCode, regOf]

theorem windowOf_mailbox {k base : Nat} (hd : e.definition = .mailbox k base) :
    windowOf i holds (some e) = ⟨BitVec.ofNat 6 i.val, 3, BitVec.ofNat 8 e.head, BitVec.ofNat 16 k, BitVec.ofNat 16 base,
      BitVec.ofNat 16 e.level, BitVec.ofNat 8 e.waiters.length, 0⟩ := by
  rw [← windowOf_index i holds (some e)]
  simp [windowOf, hd, Definition.kindCode, regOf]

/-- The rows of R13's table that do not depend on the kind. -/
theorem windowOf_level_waiters :
    (windowOf i holds (some e)).level = BitVec.ofNat 16 e.level ∧
    (windowOf i holds (some e)).waiters = BitVec.ofNat 8 e.waiters.length := by
  cases hd : e.definition with
  | tracked c => rw [windowOf_tracked i holds e hd]; exact ⟨rfl, rfl⟩
  | signal m n => rw [windowOf_signal i holds e hd]; exact ⟨rfl, rfl⟩
  | mailbox k base => rw [windowOf_mailbox i holds e hd]; exact ⟨rfl, rfl⟩

end

/-! ### READ_OBJECT (R13) -/

/-- `s` after READ_OBJECT has captured `w` into the object window. -/
def State.withCapture (s : State) (w : ObjectWindow) : State :=
  { s with port := { s.port.answered 9 0 0 0 with window := w } }

@[simp] theorem State.withCapture_window (s : State) (w : ObjectWindow) : (s.withCapture w).port.window = w := rfl

/-- READ_OBJECT of an index outside the table is refused. -/
theorem State.readObject_of_index_outside (s : State) (h : tableIndex s.port.readIndex = none) :
    s.readObject = s.told 9 4 0 0 := by
  simp only [State.readObject, h]
  exact s.refuse_eq_told 9 .badRequest (by decide)

/-- READ_OBJECT of an index in range captures the entry. -/
theorem State.readObject_of_index (s : State) {i : ObjIndex} (h : tableIndex s.port.readIndex = some i) :
    s.readObject = s.withCapture (windowOf i s.home.holds (s.home.entry i)) := by
  simp only [State.readObject, h]
  exact State.respond_eq_told _ 9 .ok 0 0 (by decide)

end Sys2Proof.Machine

/-! ### The statements -/

namespace Sys2Proof.Proofs
open Sys2Proof Sys2Proof.Machine

/-- Settles O5: each clause names the check of R7 that is the first to fail. -/
theorem defineRefusals : Obligations.DefineRefusals := by
  intro s hr index kind first second
  have index_eq : s.port.defineIndex.toNat = index := s.port.defineIndex_toNat
  have kind_eq : s.port.defineKind.toNat = kind := s.port.defineKind_toNat
  refine ⟨fun hm => exec_define_of_refused s hr (s.checkDefine_of_not_config hm), fun hc => ⟨fun h => ?_, fun h hk1 hk3 => ?_⟩⟩
  · apply exec_define_of_refused s (r := .badDefinition) hr
    rcases h with hi | hk
    · exact s.checkDefine_of_index_outside hc (tableIndex_of_le _ (index_eq ▸ hi))
    · exact s.checkDefine_of_kind_unnamed hc (decide_eq_false (by omega))
  · have hi : tableIndex s.port.defineIndex = some ⟨index, h⟩ := tableIndex_of_lt _ index_eq h
    have hk : kindNamed s.port.defineKind = true := decide_eq_true (by omega)
    refine ⟨fun e he => exec_define_of_refused s hr (s.checkDefine_of_defined hc hi hk he), fun he => ⟨fun hp => ?_, fun h3 hf hw => ?_⟩⟩
    · have hd := definitionOf_eq_none s.port.defineKind first second s.home.poolUsed (kind_eq ▸ hp)
      exact exec_define_of_refused s hr (s.checkDefine_of_parameters_outside hc hi hk he hd)
    · have hd := definitionOf_mailbox s.port.defineKind first second s.home.poolUsed (kind_eq.trans h3) hf
      have ring : 0 < 2 ^ first := Nat.two_pow_pos first
      have room : 4096 - s.home.poolUsed < 2 ^ first := by omega
      exact exec_define_of_refused s hr (s.checkDefine_of_no_room hc hi hk he hd room)

/-- Settles O7: the two branches of CLEAR_DEFINITIONS, with the reads of the emptied table and pool. -/
theorem clearDefinitions : Obligations.ClearDefinitions := by
  intro s hr
  rw [exec_clearDefinitions s hr]
  refine ⟨fun hc => ⟨_, rfl, ?_⟩, fun hm => by rw [s.clearDefinitions_of_not_config hm]⟩
  rw [s.clearDefinitions_of_config hc]
  exact ⟨s.home.clearDefinitions_entry, s.home.clearDefinitions_read, rfl⟩

/-- Settles O8: the window captured is `windowOf` of the entry read, which has one equation for each column of R13's table. -/
theorem readObjectCaptures : Obligations.ReadObjectCaptures := by
  intro s hr index
  have index_eq : s.port.readIndex.toNat = index := s.port.readIndex_toNat
  clear_value index
  rw [exec_readObject s hr]
  refine ⟨fun h => ?_, fun h => ?_⟩
  · rw [s.readObject_of_index_outside (tableIndex_of_le _ (index_eq ▸ h))]
  · rw [s.readObject_of_index (tableIndex_of_lt _ index_eq h)]
    refine ⟨_, rfl, rfl, windowOf_index _ _ _, fun absent => ?_, fun e defined => ?_⟩
    · rw [absent, State.withCapture_window, windowOf_none]
    · rw [defined, State.withCapture_window]
      obtain ⟨level, waiters⟩ := windowOf_level_waiters ⟨index, h⟩ s.home.holds e
      refine ⟨level, waiters, fun c hd => ?_, fun m n hd => ?_, fun k base hd => ?_⟩
      · rw [windowOf_tracked _ _ e hd]; exact ⟨rfl, rfl, rfl, rfl, rfl⟩
      · rw [windowOf_signal _ _ e hd]; exact ⟨rfl, rfl, rfl, rfl, rfl⟩
      · rw [windowOf_mailbox _ _ e hd]; exact ⟨rfl, rfl, rfl, rfl, rfl⟩

end Sys2Proof.Proofs
end

section
/-! SUPPORT. A request that passes the checks of R41, ACQUIRE with wait limit 0, and RELEASE by kind: the operations of
Machine/HomeOps.lean case by case, and the statements O15, O17 and O18 they settle. -/

namespace Sys2Proof.Machine

/-! ### From a request at the head of the queue to its object's rules (R41, R85) -/

/-- Both steps of R41 passed: the operation fits the kind and the units fit the definition. -/
theorem requestCheck_eq_none (op : Operation) (e : ObjectEntry) (u : Nat) (kind : op.fitsKind e.definition = true)
    (units : op.unitsFit e.definition u) : requestCheck op u (some e) = none := by
  cases hd : e.definition with
  | tracked c =>
    rw [hd] at kind units
    cases op with
    | acquire | release => simp only [requestCheck, hd]; exact if_pos units
    | query | withdraw => rfl
    | post | take => exact nomatch kind
  | signal m n =>
    rw [hd] at kind units
    cases op with
    | acquire | release => simp only [requestCheck, hd]; exact if_pos units
    | query | withdraw => rfl
    | post | take => exact nomatch kind
  | mailbox k base =>
    rw [hd] at kind
    cases op with
    | acquire | release => exact nomatch kind
    | query | withdraw => rfl
    | post | take => simp [requestCheck, hd]

/-- A request that an ACTIVE station takes and that passes the checks is decided at its entry. -/
theorem State.Takes.exec_eq_decideRequest {s : State} {f : Frame} {op : Operation} {rest : List QueueItem} {e : ObjectEntry}
    (h : s.Takes f op rest) (he : s.home.has f.index e) (kind : op.fitsKind e.definition = true)
    (units : op.unitsFit e.definition f.units.toNat) :
    exec .requestTaken s = .next ((s.withQueue rest).decideRequest f op e) := by
  have entry : (s.withQueue rest).home.entry f.index = some e := he
  rw [h.exec_eq, State.applyRequest, entry, requestCheck_eq_none op e _ kind units]

/-- An immediate answer with a count as its value, in the terms of the statements. -/
theorem State.answer_eq_handed (s : State) (f : Frame) (op : Operation) (status : AnswerStatus) (n : Nat) :
    s.answer f op status (valueOf n) = s.handed (f.reply op status n) := rfl

/-! ### ACQUIRE with wait limit 0 (R44, R45) -/

theorem tryGranted_iff (f : Frame) (e : ObjectEntry) :
    tryGranted f e = true ↔ f.units.toNat ≤ e.level ∧ ∀ w ∈ e.waiters, f.priority < w.priority := by
  simp [tryGranted]

section
variable (s : State) (f : Frame) (e : ObjectEntry)

theorem State.takeAcquire_of_waitLimit_zero (h : f.waitLimit = 0) : s.takeAcquire f e = s.tryAcquire f e := if_pos h

theorem State.tryAcquire_of_not_granted (h : ¬ tryGranted f e = true) :
    s.tryAcquire f e = s.handed (f.reply .acquire .notReady e.level) := if_neg h

/-- A grant of a SIGNAL semaphore needs no hold record. -/
theorem State.tryAcquire_of_not_tracked (h : tryGranted f e = true) (ht : e.definition.isTracked = false) :
    s.tryAcquire f e = (s.withEntry f.index { e with level := e.level - f.units.toNat }).handed
      (f.reply .acquire .ok f.units.toNat) := by
  simp only [State.tryAcquire, h, ht, State.setEntry_eq_withEntry, State.answer_eq_handed]
  rfl

/-- A grant of a TRACKED semaphore whose units enter the hold table. -/
theorem State.tryAcquire_of_hold {holds : List HoldRecord} (h : tryGranted f e = true) (ht : e.definition.isTracked = true)
    (obtained : obtainHold f.index f.sender f.units.toNat s.home.holds = some holds) :
    s.tryAcquire f e = ((s.withEntry f.index { e with level := e.level - f.units.toNat }).withHolds holds).handed
      (f.reply .acquire .ok f.units.toNat) := by
  simp only [State.tryAcquire, h, ht, obtained, if_true, State.answer_eq_handed]
  rfl

/-- A grant of a TRACKED semaphore for which no hold record can be had takes nothing. -/
theorem State.tryAcquire_of_no_hold (h : tryGranted f e = true) (ht : e.definition.isTracked = true)
    (unobtained : obtainHold f.index f.sender f.units.toNat s.home.holds = none) :
    s.tryAcquire f e = s.handed (f.reply .acquire .noHoldRecord 0) := by
  simp only [State.tryAcquire, h, ht, unobtained, if_true]
  exact s.answer_eq_handed f .acquire .noHoldRecord 0

/-! ### RELEASE to a TRACKED semaphore (R52) -/

theorem State.takeRelease_of_too_few_held (ht : e.definition.isTracked = true)
    (few : unitsHeld f.index f.sender s.home.holds < f.units.toNat) :
    s.takeRelease f e = s.handed (f.reply .release .notHolder (unitsHeld f.index f.sender s.home.holds)) :=
  (if_pos ht).trans (if_pos few)

theorem State.takeRelease_of_held (ht : e.definition.isTracked = true)
    (held : f.units.toNat ≤ unitsHeld f.index f.sender s.home.holds) :
    s.takeRelease f e = (((s.withEntry f.index { e with level := e.level + f.units.toNat }).withHolds
      (lowerHold f.index f.sender f.units.toNat s.home.holds)).handed
        (f.reply .release .ok (unitsHeld f.index f.sender s.home.holds - f.units.toNat))).grantPass f.index :=
  (if_pos ht).trans (if_neg (Nat.not_lt.mpr held))

/-! ### RELEASE to a SIGNAL semaphore (R53) -/

theorem State.takeRelease_of_overflow (ht : e.definition.isTracked = false) (exceeds : e.definition.bound < e.level + f.units.toNat) :
    s.takeRelease f e = s.handed (f.reply .release .overflow e.level) :=
  (if_neg (Bool.eq_false_iff.mp ht)).trans (if_pos exceeds)

theorem State.takeRelease_of_room (ht : e.definition.isTracked = false) (room : e.level + f.units.toNat ≤ e.definition.bound) :
    s.takeRelease f e = ((s.withEntry f.index { e with level := e.level + f.units.toNat }).handed
      (f.reply .release .ok 0)).grantPass f.index :=
  (if_neg (Bool.eq_false_iff.mp ht)).trans (if_neg (Nat.not_lt.mpr room))

end

end Sys2Proof.Machine

/-! ### The statements -/

namespace Sys2Proof.Proofs
open Sys2Proof Sys2Proof.Machine

/-- Settles O15: the try rule decides first, and for a TRACKED grant what the hold table can give (`obtainHold`). -/
theorem tryRule : Obligations.TryRule := by
  intro s f rest e takes has semaphore units wait u s0 lowered granted
  have taken : exec .requestTaken s = .next (s0.tryAcquire f e) := by
    rw [takes.exec_eq_decideRequest has semaphore units]
    exact congrArg Host.Outcome.next (s0.takeAcquire_of_waitLimit_zero f e wait)
  have rule : tryGranted f e = true ↔ granted := tryGranted_iff f e
  rw [taken]
  refine ⟨fun refused => ?_, fun grant signal => ?_, fun grant tracked => ⟨fun merge => ?_, fun new => ⟨fun free => ?_, fun full => ?_⟩⟩⟩
  · rw [s0.tryAcquire_of_not_granted f e (mt rule.mp refused)]
  · rw [s0.tryAcquire_of_not_tracked f e (rule.mpr grant) signal]
  · rw [s0.tryAcquire_of_hold f e (rule.mpr grant) tracked (obtainHold_merge _ _ _ s.home.holds merge)]
  · rw [s0.tryAcquire_of_hold f e (rule.mpr grant) tracked (obtainHold_new _ _ _ s.home.holds new free)]
  · rw [s0.tryAcquire_of_no_hold f e (rule.mpr grant) tracked (obtainHold_none _ _ _ s.home.holds new full)]

/-- Settles O17: the units held are those of the pair's one record, or none without a record, and decide between NOT_HOLDER and the
release. -/
theorem releaseTracked : Obligations.ReleaseTracked := by
  intro s f rest e c takes has definition least u s0 raised
  have tracked : e.definition.isTracked = true := by rw [definition]; rfl
  have taken : exec .requestTaken s = .next (s0.takeRelease f e) :=
    takes.exec_eq_decideRequest has (by rw [definition]; rfl) (by rw [definition]; exact least)
  rw [taken]
  refine ⟨fun no_record => ?_, fun pre r post holds index holder others => ?_⟩
  · have held : unitsHeld f.index f.sender s0.home.holds = 0 := unitsHeld_none _ _ _ no_record
    rw [s0.takeRelease_of_too_few_held f e tracked (by omega), held]
  · have holds : s0.home.holds = pre ++ r :: post := holds
    have held : unitsHeld f.index f.sender s0.home.holds = r.units := by
      rw [holds, unitsHeld_between _ _ r pre post index holder fun x hx => others x (List.mem_append_left _ hx)]
    have table := lowerHold_between f.index f.sender u r pre post index holder others
    refine ⟨fun few => ?_, fun all => ?_, fun some_left => ?_⟩
    · rw [s0.takeRelease_of_too_few_held f e tracked (by omega), held]
    · rw [if_pos (Nat.le_of_eq all)] at table
      rw [s0.takeRelease_of_held f e tracked (by omega), held, holds, table, all, Nat.sub_self]
    · rw [if_neg (Nat.not_le.mpr some_left)] at table
      rw [s0.takeRelease_of_held f e tracked (by omega), held, holds, table]

/-- Settles O18: M, the bound of the definition, decides between OVERFLOW and the release. -/
theorem releaseSignal : Obligations.ReleaseSignal := by
  intro s f rest e m n takes has definition least most
  have not_tracked : e.definition.isTracked = false := by rw [definition]; rfl
  have bound : e.definition.bound = m := by rw [definition]; rfl
  have taken : exec .requestTaken s = .next ((s.withQueue rest).takeRelease f e) :=
    takes.exec_eq_decideRequest has (by rw [definition]; rfl) (by rw [definition]; exact ⟨least, most⟩)
  rw [taken]
  refine ⟨fun exceeds => ?_, fun room => ?_⟩
  · rw [State.takeRelease_of_overflow _ f e not_tracked (bound ▸ exceeds)]
  · rw [State.takeRelease_of_room _ f e not_tracked (bound ▸ room)]

end Sys2Proof.Proofs
end

section
/-! SUPPORT. POST and TAKE at a mailbox: the ring's positions and the operations of Machine/HomeOps.lean case by case, and the statements
O20, O21 and O22 they settle. -/

namespace Sys2Proof.Machine

/-! ### Ring positions (R5, R71) -/

/-- One position back, from the first position round to the last. -/
theorem headBefore_eq {k p : Nat} (h : p < 2 ^ k) : headBefore k p = if p = 0 then 2 ^ k - 1 else p - 1 := by
  unfold headBefore
  split
  · next first => rw [first, Nat.zero_add, Nat.mod_eq_of_lt (by omega)]
  · next later =>
    have round : p + (2 ^ k - 1) = p - 1 + 2 ^ k := by omega
    rw [round, Nat.add_mod_right, Nat.mod_eq_of_lt (by omega)]

theorem headBefore_lt (k p : Nat) : headBefore k p < 2 ^ k := Nat.mod_lt _ (Nat.two_pow_pos k)

theorem ringAddress_of_lt {k p : Nat} (base : Nat) (h : p < 2 ^ k) : ringAddress k base p = base + p :=
  congrArg (base + ·) (Nat.mod_eq_of_lt h)

/-! ### From a request at the head of the queue to the mailbox (R12, R41) -/

/-- An immediate answer with a word as its value, in the terms of the statements. -/
theorem State.answer_word_eq_handed (s : State) (f : Frame) (op : Operation) (status : AnswerStatus) (v : Word) :
    s.answer f op status v = s.handed (f.reply op status v.toNat) := by
  rw [← s.answer_eq_handed, valueOf, BitVec.ofNat_toNat, BitVec.setWidth_eq]

section
variable {s : State} {f : Frame} {rest : List QueueItem} {e : ObjectEntry} {k base : Nat}

theorem State.Takes.exec_eq_takePost (h : s.Takes f .post rest) (he : s.home.has f.index e) (hd : e.definition = .mailbox k base) :
    exec .requestTaken s = .next ((s.withQueue rest).takePost f e k base) := by
  rw [h.exec_eq_decideRequest he (by rw [hd]; rfl) trivial]
  simp only [State.decideRequest, hd]

theorem State.Takes.exec_eq_takeTake (h : s.Takes f .take rest) (he : s.home.has f.index e) (hd : e.definition = .mailbox k base) :
    exec .requestTaken s = .next ((s.withQueue rest).takeTake f e k base) := by
  rw [h.exec_eq_decideRequest he (by rw [hd]; rfl) trivial]
  simp only [State.decideRequest, hd]

end

section
variable (s : State) (f : Frame) (e : ObjectEntry) (k base : Nat)

/-! ### POST (R68 to R71) -/

theorem State.takePost_of_taker {w : WaiterRecord} {others : List WaiterRecord} (h : e.waiters = w :: others) :
    s.takePost f e k base = ((s.withEntry f.index { e with waiters := others }).handed (f.reply .post .ok 0)).handed
      (.record w .ok f.word) := by
  simp only [State.takePost, h]
  rfl

theorem State.takePost_of_full (h : e.waiters = []) (full : 2 ^ k ≤ e.level) :
    s.takePost f e k base = s.handed (f.reply .post .full (2 ^ k)) := by
  simp only [State.takePost, h, if_pos full, State.answer_eq_handed]

/-- A word placed at the address `place`, the ring's head then at `head`. -/
theorem State.takePost_of_room {head place : Nat} (h : e.waiters = []) (room : e.level < 2 ^ k)
    (new_head : (if f.urgent then headBefore k e.head else e.head) = head)
    (address : ringAddress k base (if f.urgent then head else e.head + e.level) = place) :
    s.takePost f e k base = ({ s with home := { s.home with
      objects := s.home.objects.set f.index (some { e with level := e.level + 1, head })
      pool := s.home.pool.write place f.word } } : State).handed (f.reply .post .ok (e.level + 1)) := by
  subst new_head address
  simp only [State.takePost, h, if_neg (Nat.not_le.mpr room), State.answer_eq_handed]
  rfl

/-! ### TAKE (R73, R75) -/

theorem State.takeTake_of_word (h : 0 < e.level) :
    s.takeTake f e k base = (s.withEntry f.index { e with level := e.level - 1, head := (e.head + 1) % 2 ^ k }).handed
      (f.reply .take .ok (s.home.pool.read (ringAddress k base e.head)).toNat) := by
  rw [← State.answer_word_eq_handed]
  exact if_pos h

theorem State.takeTake_of_empty (h : e.level = 0) (wait : f.waitLimit = 0) :
    s.takeTake f e k base = s.handed (f.reply .take .notReady 0) :=
  (if_neg (Nat.not_lt.mpr (Nat.le_of_eq h))).trans (if_pos wait)

end

end Sys2Proof.Machine

/-! ### The statements -/

namespace Sys2Proof.Proofs
open Sys2Proof Sys2Proof.Machine

/-- Settles O20: a waiting taker comes before the fill level is looked at. -/
theorem postHandsOffOrMeetsFull : Obligations.PostHandsOffOrMeetsFull := by
  intro s f rest e k base takes has definition
  rw [takes.exec_eq_takePost has definition]
  refine ⟨fun w others taker => ?_, fun no_taker full => ?_⟩
  · rw [State.takePost_of_taker _ f e k base taker]
  · rw [State.takePost_of_full _ f e k base no_taker (Nat.le_of_eq full.symm)]

/-- Settles O21: the urgent flag decides the head and the place, both ring positions; the reads are those after one write. -/
theorem postPlacesItsWord : Obligations.PostPlacesItsWord := by
  intro s f rest e k base takes has definition no_taker room head_lt canonical head place
  have new_head : (if f.urgent then headBefore k e.head else e.head) = head := by rw [headBefore_eq head_lt]
  have address : ringAddress k base (if f.urgent then head else e.head + e.level) = place := by
    cases urgent : f.urgent with
    | false => simp [place, urgent, ringAddress]
    | true =>
      have head_lt : head < 2 ^ k := by rw [← new_head, if_pos urgent]; exact headBefore_lt k e.head
      simp [place, urgent, ringAddress_of_lt base head_lt]
  refine ⟨s.home.pool.write place f.word, fun a => s.home.pool.read_write place a f.word canonical,
    s.home.pool.wf_write place f.word canonical, ?_⟩
  rw [takes.exec_eq_takePost has definition, State.takePost_of_room _ f e k base no_taker room new_head address]
  rfl

/-- Settles O22: the fill level decides first, and the wait limit only at an empty ring; the head is the ring position read. -/
theorem takeAnsweredAtOnce : Obligations.TakeAnsweredAtOnce := by
  intro s f rest e k base takes has definition head_lt
  rw [takes.exec_eq_takeTake has definition]
  refine ⟨fun word => ?_, fun empty wait => ?_⟩
  · rw [State.takeTake_of_word _ f e k base word, ringAddress_of_lt base head_lt]
    rfl
  · rw [State.takeTake_of_empty _ f e k base empty wait]

end Sys2Proof.Proofs
end

section
/-! SUPPORT. SUBMIT's checks, CANCEL and POP: the operations of Machine/Client.lean case by case, and the statements O25, O27 and O28
they settle. -/

namespace Sys2Proof.Machine

/-! ### The checks of SUBMIT (R103) -/

/-- Kind codes 0 and 7 name no operation, and no other code does. -/
theorem Operation.ofCode_eq_none_iff (c : BitVec 3) : Operation.ofCode c = none ↔ c.toNat = 0 ∨ c.toNat = 7 := by
  revert c; decide

/-- Check 2 of R103: WITHDRAW is no operation to submit, and ACQUIRE and RELEASE need at least 1 unit. -/
theorem Port.submitRequest_eq_none_iff (p : Port) :
    p.submitRequest = none ↔ p.submitOperation.toNat = 0 ∨ p.submitOperation.toNat = 6 ∨ p.submitOperation.toNat = 7 ∨
      ((p.submitOperation.toNat = 1 ∨ p.submitOperation.toNat = 2) ∧ p.submitUnits.toNat = 0) := by
  unfold Port.submitRequest
  cases named : Operation.ofCode p.submitOperation with
  | none => rcases (Operation.ofCode_eq_none_iff _).mp named with code | code <;> simp [code]
  | some op =>
    rw [← Operation.code_of_ofCode _ op named]
    cases op with
    | acquire | release => simp [Operation.code]
    | post | take | query | withdraw => simp [Operation.code]

/-- Check 3 of R103. -/
theorem Client.freeSlot_eq_none_iff (c : Client) : c.freeSlot = none ↔ ∀ n, (c.slot n).use ≠ .free := by
  simp [Client.freeSlot]

section
variable (s : State)

theorem State.submit_of_not_active (h : s.control.mode ≠ .active) : s.submit = s.told 6 2 0 0 :=
  (if_pos h).trans (s.refuse_eq_told 6 .notActive (by decide))

theorem State.submit_of_no_request (active : s.control.mode = .active) (h : s.port.submitRequest = none) :
    s.submit = s.told 6 4 0 0 := by
  simp only [State.submit, active, h]
  exact s.refuse_eq_told 6 .badRequest (by decide)

theorem State.submit_of_no_slot (active : s.control.mode = .active) {r : Request} (request : s.port.submitRequest = some r)
    (h : s.client.freeSlot = none) : s.submit = s.told 6 3 0 0 := by
  simp only [State.submit, active, request, h]
  exact s.refuse_eq_told 6 .noSlot (by decide)

end

/-! ### CANCEL (R111) -/

theorem Client.inAttempt_iff (c : Client) (n : SlotNum) :
    c.inAttempt n = true ↔ c.requests.onLine = true ∧ c.requests.items.head?.map RequestEntry.slot = some n := by
  simp only [Client.inAttempt, head_any_slot, Bool.and_eq_true, decide_eq_true_eq]

theorem Request.waits_iff (r : Request) :
    r.waits = true ↔ (r.operation = .acquire ∨ r.operation = .take) ∧ r.waitLimit ≠ 0 := by
  simp [Request.waits]

section
variable (c : Client) (n : SlotNum)

theorem Client.cancel_of_free (h : (c.slot n).use = .free) : c.cancel n = (.slotIdle, c) := by
  simp only [Client.cancel, h]

theorem Client.cancel_of_queued {r : Request} (h : (c.slot n).use = .queued r) (apart : ¬ c.inAttempt n = true) :
    c.cancel n = (.ok, c.ended n r .cancelled 0) := by
  simp only [Client.cancel, h, if_neg apart, c.complete_eq_ended]

theorem Client.cancel_of_queued_in_attempt {r : Request} (h : (c.slot n).use = .queued r) (attempt : c.inAttempt n = true) :
    c.cancel n = (.tooLate, c) := by
  simp only [Client.cancel, h, if_pos attempt]

/-- A request that may wait at its home is withdrawn. -/
theorem Client.cancel_of_sent_waiting {r : Request} (h : (c.slot n).use = .sent r) (waits : r.waits = true) :
    c.cancel n = (.ok, { c with
      slots := c.slots.set n ⟨(c.slot n).tag, .cancelling r⟩
      requests := { c.requests with items := c.requests.items ++ [⟨n, .withdraw⟩] } }) := by
  simp only [Client.cancel, h, if_pos waits]
  rfl

theorem Client.cancel_of_sent_not_waiting {r : Request} (h : (c.slot n).use = .sent r) (stays : ¬ r.waits = true) :
    c.cancel n = (.notCancellable, c) := by
  simp only [Client.cancel, h, if_neg stays]

theorem Client.cancel_of_settling {r : Request} {v : Word} {st : CompletionStatus}
    (h : (c.slot n).use = .cancelling r ∨ (c.slot n).use = .returning r v ∨ (c.slot n).use = .done r st v) :
    c.cancel n = (.tooLate, c) := by
  rcases h with h | h | h <;> simp only [Client.cancel, h]

end

/-- CANCEL answers what the table of R111 gives for the slot named. -/
theorem exec_cancel_of {s : State} {n : SlotNum} {result : LocalResult} {c : Client} (running : s.running = true)
    (named : n.val = s.port.params[0].toNat % 32) (h : s.client.cancel n = (result, c)) :
    exec .cancel s = .next ((s.withClient c).told 7 result.code.toNat 0 0) := by
  have slot : s.port.cancelSlot = n := Fin.ext (s.port.cancelSlot_val.trans named.symm)
  rw [exec_cancel s running, ← State.respond_eq_told _ 7 result 0 0 (by decide)]
  simp only [State.cancel, slot, h]
  rfl

/-! ### POP (R121) -/

section
variable (s : State)

theorem State.pop_of_empty (h : s.client.ring = []) : s.pop = s.told 8 12 0 0 := by
  simp only [State.pop, h]
  exact s.refuse_eq_told 8 .ringEmpty (by decide)

theorem State.pop_of_record {r : CompletionRecord} {rest : List CompletionRecord} (h : s.client.ring = r :: rest) :
    s.pop = (s.withClient { s.client with
      slots := s.client.slots.set r.slot ⟨(s.client.slot r.slot).tag, .free⟩, ring := rest }).told 8 0 0 0 := by
  simp only [State.pop, h]
  exact State.respond_eq_told _ 8 .ok 0 0 (by decide)

end

end Sys2Proof.Machine

/-! ### The statements -/

namespace Sys2Proof.Proofs
open Sys2Proof Sys2Proof.Machine

/-- Settles O25: each clause names the check of R103 that is the first to fail. -/
theorem submitRefusals : Obligations.SubmitRefusals := by
  intro s running op units
  have check : s.port.submitRequest = none ↔ op = 0 ∨ op = 6 ∨ op = 7 ∨ ((op = 1 ∨ op = 2) ∧ units = 0) := by
    rw [s.port.submitRequest_eq_none_iff, s.port.submitOperation_toNat, s.port.submitUnits_toNat]
  rw [exec_submit s running]
  refine ⟨fun elsewhere => ?_, fun active => ⟨fun outside => ?_, fun named no_withdraw known least busy => ?_⟩⟩
  · rw [s.submit_of_not_active elsewhere]
  · rw [s.submit_of_no_request active (check.mpr outside)]
  · have passes : s.port.submitRequest ≠ none := fun fails => by have := check.mp fails; omega
    obtain ⟨r, request⟩ := Option.ne_none_iff_exists'.mp passes
    rw [s.submit_of_no_slot active request (s.client.freeSlot_eq_none_iff.mpr busy)]

/-- Settles O27: one clause for each row of R111's table, with the entry in an attempt and the wait at the home as its tests. -/
theorem cancelBySlotState : Obligations.CancelBySlotState := by
  intro s n running named use inAttempt
  have attempt_iff : s.client.inAttempt n = true ↔ inAttempt := s.client.inAttempt_iff n
  refine ⟨fun free => ?_, fun r queued apart => ?_, fun r queued attempt => ?_, fun r sent operation wait => ?_,
    fun r sent stays => ?_, fun r v st settling => ?_⟩
  · exact exec_cancel_of running named (s.client.cancel_of_free n free)
  · exact exec_cancel_of running named (s.client.cancel_of_queued n queued (mt attempt_iff.mp apart))
  · exact exec_cancel_of running named (s.client.cancel_of_queued_in_attempt n queued (attempt_iff.mpr attempt))
  · exact exec_cancel_of running named (s.client.cancel_of_sent_waiting n sent (r.waits_iff.mpr ⟨operation, wait⟩))
  · have no_wait : ¬ r.waits = true := fun waits => by
      obtain ⟨operation, wait⟩ := r.waits_iff.mp waits
      exact stays.elim (absurd operation) wait
    exact exec_cancel_of running named (s.client.cancel_of_sent_not_waiting n sent no_wait)
  · exact exec_cancel_of running named (s.client.cancel_of_settling n settling)

/-- Settles O28: the two branches of POP. -/
theorem popFreesTheHeadSlot : Obligations.PopFreesTheHeadSlot := by
  intro s running
  rw [exec_pop s running]
  refine ⟨fun empty => ?_, fun r rest record => ?_⟩
  · rw [s.pop_of_empty empty]
  · rw [s.pop_of_record record]

end Sys2Proof.Proofs
end

section
/-! SUPPORT. QUERY: the two halves of its value (R193), its answer at the object, and the statement O19 they settle. -/

namespace Sys2Proof.Machine

/-- Two counts that fit in 16 bits stand side by side in the value, neither cut off. -/
theorem queryValue_toNat (e : ObjectEntry) (level : e.level ≤ 65535) (waiters : e.waiters.length ≤ 65535) :
    (queryValue e).toNat = 65536 * e.level + e.waiters.length := by
  have level_mod : e.level % 2 ^ 16 = e.level := Nat.mod_eq_of_lt (by omega)
  have waiters_lt : e.waiters.length < 2 ^ 16 := by omega
  rw [queryValue, BitVec.toNat_append, BitVec.toNat_ofNat, BitVec.toNat_ofNat, level_mod, Nat.mod_eq_of_lt waiters_lt,
    ← Nat.shiftLeft_add_eq_or_of_lt waiters_lt, Nat.shiftLeft_eq, Nat.mul_comm]

/-- QUERY only reads its object: the answer is all it does. -/
theorem State.decideRequest_query (s : State) (f : Frame) (e : ObjectEntry) :
    s.decideRequest f .query e = s.handed (f.reply .query .ok (queryValue e).toNat) :=
  s.answer_word_eq_handed f .query .ok (queryValue e)

end Sys2Proof.Machine

/-! ### The statement -/

namespace Sys2Proof.Proofs
open Sys2Proof Sys2Proof.Machine

/-- Settles O19: QUERY fits every kind and has no units to check, so it always reaches its object's rules. -/
theorem queryAnswered : Obligations.QueryAnswered := by
  intro s f rest e takes has level waiters
  have fits : Operation.query.fitsKind e.definition = true := rfl
  rw [takes.exec_eq_decideRequest has fits trivial, State.decideRequest_query, queryValue_toNat e level waiters]

end Sys2Proof.Proofs
end

section
/-! SUPPORT. Lists whose items are among those of another list, and two facts about lists that core Lean does not have: the package's
proofs stand on core Lean alone. -/

namespace Sys2Proof.Machine

section
variable {α β : Type} {a b c d : List α}

/-- The items of `a` are among those of `b`, each at most as often, in any order. -/
def Among (a b : List α) : Prop := ∃ l : List α, l.Perm a ∧ l.Sublist b

theorem Among.of_sublist (sub : a.Sublist b) : Among a b := ⟨a, .refl a, sub⟩

theorem Among.of_perm (perm : a.Perm b) : Among a b := ⟨b, perm.symm, .refl b⟩

theorem Among.refl (a : List α) : Among a a := .of_perm (.refl a)

theorem Among.nil : Among [] a := .of_sublist a.nil_sublist

theorem Among.trans (h : Among a b) (k : Among b c) : Among a c := by
  obtain ⟨l, perm, sub⟩ := h
  obtain ⟨m, perm', sub'⟩ := k
  obtain ⟨n, perm'', sub''⟩ := List.exists_perm_sublist sub perm'.symm
  exact ⟨n, perm''.trans perm, sub''.trans sub'⟩

theorem Among.append (h : Among a b) (k : Among c d) : Among (a ++ c) (b ++ d) := by
  obtain ⟨l, perm, sub⟩ := h
  obtain ⟨m, perm', sub'⟩ := k
  exact ⟨l ++ m, perm.append perm', sub.append sub'⟩

theorem Among.filterMap (h : Among a b) (f : α → Option β) : Among (a.filterMap f) (b.filterMap f) := by
  obtain ⟨l, perm, sub⟩ := h
  exact ⟨l.filterMap f, perm.filterMap f, sub.filterMap f⟩

theorem Among.length_le (h : Among a b) : a.length ≤ b.length := by
  obtain ⟨l, perm, sub⟩ := h
  rw [← perm.length_eq]
  exact sub.length_le

theorem Among.countP_le (h : Among a b) (p : α → Bool) : a.countP p ≤ b.countP p := by
  obtain ⟨l, perm, sub⟩ := h
  rw [← perm.countP_eq]
  exact sub.countP_le

theorem Among.subset (h : Among a b) : a ⊆ b := by
  obtain ⟨l, perm, sub⟩ := h
  exact fun _ listed => sub.subset (perm.symm.subset listed)

theorem Among.eq_nil (h : Among a []) : a = [] := List.length_eq_zero_iff.mp (Nat.le_zero.mp h.length_le)

/-- Lists joined from the same parts. -/
theorem flatMap_same {f g : α → List β} : ∀ {l : List α}, (∀ x ∈ l, f x = g x) → l.flatMap f = l.flatMap g
  | [], _ => rfl
  | x :: l, same => by
    rw [List.flatMap_cons, List.flatMap_cons, same x List.mem_cons_self,
      flatMap_same fun y listed => same y (List.mem_cons_of_mem x listed)]

end

end Sys2Proof.Machine
end

section
/-! SUPPORT. The hold table and the waiter records in use as lists: what a grant, a return and a reclaim do to the hold table, and
what a record that joins or leaves a waiter list does to the records in use. -/

namespace Sys2Proof.Machine

/-! ### The hold table as a list (law 2, R54 to R56) -/

/-- Law 2 of the list alone: every record holds at least 1 unit, no pair has two, and at most 128 are in use. -/
structure HoldsWell (l : List HoldRecord) : Prop where
  least : ∀ r ∈ l, 1 ≤ r.units
  single : l.Pairwise fun a b => a.index ≠ b.index ∨ a.holder ≠ b.holder
  bounded : l.length ≤ Config.holdRecords

/-- The units held in all of semaphore `i`. -/
def heldIn (i : ObjIndex) (l : List HoldRecord) : Nat := ((l.filter fun r => decide (r.index = i)).map HoldRecord.units).sum

theorem Home.heldUnits_eq (h : Home) (i : ObjIndex) : h.heldUnits i = heldIn i h.holds := rfl

theorem heldIn_append (i : ObjIndex) (a b : List HoldRecord) : heldIn i (a ++ b) = heldIn i a + heldIn i b := by
  simp [heldIn]

theorem heldIn_cons (i : ObjIndex) (r : HoldRecord) (l : List HoldRecord) :
    heldIn i (r :: l) = (if r.index = i then r.units else 0) + heldIn i l := by
  unfold heldIn
  by_cases h : r.index = i <;> simp [h]

/-- Nothing is held of an index that no record names. -/
theorem heldIn_eq_zero (i : ObjIndex) (l : List HoldRecord) (h : ∀ r ∈ l, r.index ≠ i) : heldIn i l = 0 := by
  have none : (l.filter fun r => decide (r.index = i)) = [] := by simpa using h
  simp [heldIn, none]

/-- Two records of one pair cannot stand in one table. -/
theorem HoldsWell.split {l : List HoldRecord} (h : HoldsWell l) {r : HoldRecord} (hr : r ∈ l) :
    ∃ front back, l = front ++ r :: back ∧ ∀ x ∈ front ++ back, ¬ (x.index = r.index ∧ x.holder = r.holder) := by
  obtain ⟨front, back, rfl⟩ := List.append_of_mem hr
  refine ⟨front, back, rfl, fun x hx same => ?_⟩
  have apart := (List.pairwise_middle fun hab => hab.imp Ne.symm Ne.symm).mp h.single
  have := (List.pairwise_cons.mp apart).1 x hx
  exact this.elim (absurd same.1.symm) (absurd same.2.symm)

/-- A record of the table changes its units. -/
theorem HoldsWell.replace {front back : List HoldRecord} {r : HoldRecord} (h : HoldsWell (front ++ r :: back)) {k : Nat} (hk : 1 ≤ k) :
    HoldsWell (front ++ { r with units := k } :: back) := by
  obtain ⟨least, single, bounded⟩ := h
  refine ⟨fun x hx => ?_, ?_, ?_⟩
  · simp only [List.mem_append, List.mem_cons] at hx least
    rcases hx with hx | rfl | hx
    · exact least x (.inl hx)
    · exact hk
    · exact least x (.inr (.inr hx))
  · simpa [List.pairwise_append, List.pairwise_cons] using single
  · simpa using bounded

theorem remaining_mem {α : Type} {front back : List α} {r x : α} (h : x ∈ front ++ back) : x ∈ front ++ r :: back :=
  ((List.Sublist.refl front).append (List.sublist_cons_self r back)).subset h

/-- A record leaves the table. -/
theorem HoldsWell.remove {front back : List HoldRecord} {r : HoldRecord} (h : HoldsWell (front ++ r :: back)) :
    HoldsWell (front ++ back) := by
  have sub : (front ++ back).Sublist (front ++ r :: back) := (List.Sublist.refl _).append (List.sublist_cons_self _ _)
  exact ⟨fun x hx => h.least x (sub.subset hx), h.single.sublist sub, Nat.le_trans sub.length_le h.bounded⟩

/-- What a change of the table at semaphore `i` keeps: law 2, the units of every other semaphore, and the indexes named. -/
structure HoldsTurn (i : ObjIndex) (a b : List HoldRecord) : Prop where
  well : HoldsWell b
  others : ∀ j, j ≠ i → heldIn j b = heldIn j a
  indexes : ∀ r ∈ b, r.index = i ∨ ∃ q ∈ a, q.index = r.index

/-- A grant of at least 1 unit to a pair adds its units to what is held (R55). -/
theorem obtainHold_turn {i : ObjIndex} {st : StationNum} {u : Nat} {l m : List HoldRecord} (h : HoldsWell l) (hu : 1 ≤ u)
    (ho : obtainHold i st u l = some m) : HoldsTurn i l m ∧ heldIn i m = heldIn i l + u := by
  have indexes := index_obtainHold i st u l m ho
  by_cases merge : ∃ r ∈ l, r.index = i ∧ r.holder = st
  · rw [obtainHold_merge i st u l merge] at ho
    obtain ⟨r, hr, rfl, rfl⟩ := merge
    obtain ⟨front, back, rfl, apart⟩ := h.split hr
    have same : ∀ part : List HoldRecord, (∀ x ∈ part, x ∈ front ++ back) →
        (part.map fun x => if x.index = r.index ∧ x.holder = r.holder then { x with units := x.units + u } else x) = part :=
      fun part hp => (List.map_congr_left fun x hx => if_neg (apart x (hp x hx))).trans part.map_id
    have table : m = front ++ { r with units := r.units + u } :: back := by
      rw [← Option.some.inj ho, List.map_append, List.map_cons, same front fun x hx => List.mem_append_left _ hx,
        same back fun x hx => List.mem_append_right _ hx, if_pos ⟨rfl, rfl⟩]
    subst table
    refine ⟨⟨h.replace (by omega), fun j hj => ?_, indexes⟩, ?_⟩
    · simp [heldIn_append, heldIn_cons, Ne.symm hj]
    · simp [heldIn_append, heldIn_cons]; omega
  · have new : ∀ r ∈ l, ¬ (r.index = i ∧ r.holder = st) := fun r hr hh => merge ⟨r, hr, hh⟩
    by_cases room : l.length < 128
    · rw [obtainHold_new i st u l new room] at ho
      cases ho
      refine ⟨⟨⟨fun r hr => ?_, ?_, by rw [List.length_append]; exact room⟩, fun j hj => ?_, indexes⟩, ?_⟩
      · rcases List.mem_append.mp hr with hr | hr
        · exact h.least r hr
        · rw [List.mem_singleton.mp hr]; exact hu
      · refine List.pairwise_append.mpr ⟨h.single, List.pairwise_singleton _ _, fun a ha b hb => ?_⟩
        rw [List.mem_singleton.mp hb]
        exact Decidable.not_and_iff_not_or_not.mp (new a ha)
      · simp [heldIn, Ne.symm hj]
      · simp [heldIn]
    · rw [obtainHold_none i st u l new (Nat.not_lt.mp room)] at ho
      exact nomatch ho

/-- Units that a pair holds and gives back leave what is held (R52, R56). -/
theorem lowerHold_turn {i : ObjIndex} {st : StationNum} {u : Nat} {l : List HoldRecord} (h : HoldsWell l) (hu : u ≤ unitsHeld i st l) :
    HoldsTurn i l (lowerHold i st u l) ∧ heldIn i (lowerHold i st u l) + u = heldIn i l := by
  by_cases holds : ∃ r ∈ l, r.index = i ∧ r.holder = st
  · obtain ⟨r, hr, rfl, rfl⟩ := holds
    obtain ⟨front, back, rfl, apart⟩ := h.split hr
    rw [unitsHeld_between r.index r.holder r front back rfl rfl fun x hx => apart x (List.mem_append_left _ hx)] at hu
    rw [lowerHold_between r.index r.holder u r front back rfl rfl apart]
    split
    · next all =>
      refine ⟨⟨h.remove, fun j hj => ?_, fun x hx => .inr ⟨x, ?_, rfl⟩⟩, ?_⟩
      · simp [heldIn_append, heldIn_cons, Ne.symm hj]
      · exact remaining_mem hx
      · simp [heldIn_append, heldIn_cons]; omega
    · next some_left =>
      refine ⟨⟨h.replace (by omega), fun j hj => ?_, fun x hx => ?_⟩, ?_⟩
      · simp [heldIn_append, heldIn_cons, Ne.symm hj]
      · simp only [List.mem_append, List.mem_cons] at hx
        rcases hx with hx | rfl | hx
        · exact .inr ⟨x, by simp [hx], rfl⟩
        · exact .inl rfl
        · exact .inr ⟨x, by simp [hx], rfl⟩
      · simp [heldIn_append, heldIn_cons]; omega
  · have none : ∀ x ∈ l, ¬ (x.index = i ∧ x.holder = st) := fun x hx hh => holds ⟨x, hx, hh⟩
    rw [unitsHeld_none i st l none] at hu
    rw [lowerHold_other i st u l none]
    exact ⟨⟨h, fun _ _ => rfl, fun x hx => .inr ⟨x, hx, rfl⟩⟩, by omega⟩

/-- A pair's record that is taken back leaves the table with all its units (R61). -/
theorem reclaim_turn {i : ObjIndex} {n : StationNum} {l : List HoldRecord} {r : HoldRecord} (h : HoldsWell l)
    (hr : l.find? (HoldRecord.isFor i n) = some r) :
    HoldsTurn i l (l.filter fun x => !x.isFor i n) ∧ heldIn i (l.filter fun x => !x.isFor i n) + r.units = heldIn i l := by
  have is_for : ∀ x : HoldRecord, x.isFor i n = true ↔ x.index = i ∧ x.holder = n := fun x => by simp [HoldRecord.isFor]
  obtain ⟨rfl, rfl⟩ := (is_for r).mp (List.find?_some hr)
  obtain ⟨front, back, rfl, apart⟩ := h.split (List.mem_of_find?_eq_some hr)
  have same : ∀ part : List HoldRecord, (∀ x ∈ part, x ∈ front ++ back) →
      (part.filter fun x => !x.isFor r.index r.holder) = part := fun part hp => List.filter_eq_self.mpr fun x hx => by
    have := mt (is_for x).mp (apart x (hp x hx)); simpa using this
  have table : ((front ++ r :: back).filter fun x => !x.isFor r.index r.holder) = front ++ back := by
    rw [List.filter_append, List.filter_cons, same front fun x hx => List.mem_append_left _ hx,
      same back fun x hx => List.mem_append_right _ hx]
    simp [HoldRecord.isFor]
  rw [table]
  refine ⟨⟨h.remove, fun j hj => ?_, fun x hx => .inr ⟨x, ?_, rfl⟩⟩, ?_⟩
  · simp [heldIn_append, heldIn_cons, Ne.symm hj]
  · exact remaining_mem hx
  · simp [heldIn_append, heldIn_cons]; omega

/-! ### The records in use -/

/-- The object table as the list of its entries in index order. -/
theorem Home.objects_toList (h : Home) : h.objects.toList = allIndexes.map h.entry := by
  apply List.ext_getElem
  · simp [allIndexes]
  · intro n h1 h2
    simp [allIndexes, Home.entry]

/-- The count of WAITING records is that of the records on the lists. -/
theorem Home.waitingCount_eq (h : Home) : h.waitingCount = (allIndexes.flatMap h.waitersAt).length := by
  rw [Home.waitingCount, Home.objects_toList, List.map_map, List.length_flatMap]
  congr 2
  funext i
  cases he : h.entry i <;> simp [Home.waitersAt, he]

/-- The count of records in use: the WAITING and the ANSWERING ones. -/
theorem Home.recordsInUse_length (h : Home) :
    h.recordsInUse.length = h.waitingCount + h.answers.items.countP AnswerItem.isRecord := by
  have answering : ∀ l : List AnswerItem, (l.filterMap AnswerItem.record?).length = l.countP AnswerItem.isRecord := by
    intro l
    induction l with
    | nil => rfl
    | cons x rest ih =>
      cases x with
      | immediate e => exact ih
      | record w st v => exact (congrArg (· + 1) ih).trans (List.countP_cons_of_pos rfl).symm
  rw [Home.recordsInUse, List.length_append, answering, h.waitingCount_eq]

/-- The lists of all objects, the one at `i` first. -/
theorem Home.waiting_perm (h : Home) (i : ObjIndex) :
    (allIndexes.flatMap h.waitersAt).Perm (h.waitersAt i ++ (allIndexes.erase i).flatMap h.waitersAt) :=
  (List.perm_cons_erase (mem_allIndexes i)).flatMap_right _

/-- Two homes that agree but for one list agree on the others together. -/
theorem Home.waiting_others {h t : Home} {i : ObjIndex} (same : ∀ j, j ≠ i → t.waitersAt j = h.waitersAt j) :
    (allIndexes.erase i).flatMap t.waitersAt = (allIndexes.erase i).flatMap h.waitersAt :=
  flatMap_same fun j hj => same j (nodup_allIndexes.mem_erase_iff.mp hj).1

/-- A record on a list is in use. -/
theorem Home.mem_recordsInUse_of_waiting {h : Home} {i : ObjIndex} {w : WaiterRecord} (hw : w ∈ h.waitersAt i) : w ∈ h.recordsInUse :=
  List.mem_append_left _ (List.mem_flatMap.mpr ⟨i, mem_allIndexes i, hw⟩)

/-- A record that carries an answer is in use. -/
theorem Home.mem_recordsInUse_of_answering {h : Home} {w : WaiterRecord} {st : AnswerStatus} {v : Word}
    (hw : .record w st v ∈ h.answers.items) : w ∈ h.recordsInUse :=
  List.mem_append_right _ (List.mem_filterMap.mpr ⟨_, hw, rfl⟩)

/-- A record in use is on a list or carries an answer. -/
theorem Home.mem_recordsInUse {h : Home} {w : WaiterRecord} :
    w ∈ h.recordsInUse ↔ (∃ i, w ∈ h.waitersAt i) ∨ ∃ st v, .record w st v ∈ h.answers.items := by
  constructor
  · intro hw
    rcases List.mem_append.mp hw with hw | hw
    · obtain ⟨i, _, hi⟩ := List.mem_flatMap.mp hw
      exact .inl ⟨i, hi⟩
    · obtain ⟨x, hx, hr⟩ := List.mem_filterMap.mp hw
      cases x with
      | immediate e => exact nomatch hr
      | record v st a => cases hr; exact .inr ⟨st, a, hx⟩
  · rintro (⟨i, hi⟩ | ⟨st, v, hx⟩)
    · exact h.mem_recordsInUse_of_waiting hi
    · exact h.mem_recordsInUse_of_answering hx

/-- Law 7 asks nothing about the order of the records. -/
theorem pairs_apart_symm {a b : WaiterRecord} (h : a.requester ≠ b.requester ∨ a.slot ≠ b.slot) :
    b.requester ≠ a.requester ∨ b.slot ≠ a.slot := h.imp Ne.symm Ne.symm

/-- Law 7 of fewer records. -/
theorem Home.OnePerSlot.of_among {h t : Home} (one : h.OnePerSlot) (sub : Among t.recordsInUse h.recordsInUse) : t.OnePerSlot := by
  obtain ⟨l, perm, sub⟩ := sub
  exact (perm.pairwise_iff pairs_apart_symm).mp (one.sublist sub)

/-- A new record is on its list among the others. -/
theorem insertByPriority_perm (w : WaiterRecord) (l : List WaiterRecord) : (insertByPriority w l).Perm (w :: l) := by
  induction l with
  | nil => exact .refl _
  | cons x rest ih =>
    simp only [insertByPriority]
    split
    · exact (ih.cons x).trans (.swap w x rest)
    · exact .refl _

end Sys2Proof.Machine
end

section
/-! SUPPORT. The moves of the home half: the small changes that every operation of Machine/HomeOps.lean is made of, and the laws that
each of them keeps. -/

namespace Sys2Proof.Machine

/-! ### What changes at one object -/

/-- The entry `e` at `i` goes to a level and a head position, and the hold table with it: nothing; a grant to a record that waits or to
a station that `q` names; units given back; units taken back; another count of a SIGNAL; another fill of a mailbox's ring. -/
inductive ObjectEntry.Shift (q : StationNum → Prop) (i : ObjIndex) (e : ObjectEntry) (l : List HoldRecord) :
    Nat → Nat → List HoldRecord → Prop
  | none : e.Shift q i l e.level e.head l
  | grant {st : StationNum} {u : Nat} {m : List HoldRecord} (tracked : e.definition.isTracked = true) (there : u ≤ e.level)
      (asked : (∃ w ∈ e.waiters, w.units = u ∧ w.requester = st) ∨ 1 ≤ u ∧ q st) (obtained : obtainHold i st u l = some m) :
      e.Shift q i l (e.level - u) e.head m
  | back {st : StationNum} {u : Nat} (tracked : e.definition.isTracked = true) (held : u ≤ unitsHeld i st l) :
      e.Shift q i l (e.level + u) e.head (lowerHold i st u l)
  | reclaim {n : StationNum} {r : HoldRecord} (tracked : e.definition.isTracked = true) (found : l.find? (HoldRecord.isFor i n) = some r) :
      e.Shift q i l (e.level + r.units) e.head (l.filter fun x => !x.isFor i n)
  | count {level : Nat} (semaphore : e.definition.isSemaphore = true) (signal : e.definition.isTracked = false)
      (fits : level ≤ e.level ∨ level ≤ e.definition.bound) : e.Shift q i l level e.head l
  | ring {level head : Nat} (mailbox : e.definition.isSemaphore = false)
      (fits : level ≤ e.level ∨ e.waiters = [] ∧ level ≤ e.definition.bound) (place : head = e.head ∨ head < e.definition.words) :
      e.Shift q i l level head l

theorem Definition.isSemaphore_of_tracked {d : Definition} (h : d.isTracked = true) : d.isSemaphore = true := by
  cases d with
  | tracked c => rfl
  | signal m n => exact nomatch h
  | mailbox k base => exact nomatch h

section
variable {q : StationNum → Prop} {i : ObjIndex} {e : ObjectEntry} {l m : List HoldRecord} {level head : Nat}

/-- What a shift does to the hold table and to the units available. -/
theorem ObjectEntry.Shift.turn (shift : e.Shift q i l level head m) (well : HoldsWell l)
    (asks : ∀ w ∈ e.waiters, e.definition.isSemaphore = true → 1 ≤ w.units) :
    (m = l ∨ e.definition.isTracked = true) ∧ HoldsTurn i l m ∧
    (e.definition.isTracked = true → level + heldIn i m = e.level + heldIn i l) := by
  have stays : HoldsTurn i l l := ⟨well, fun _ _ => rfl, fun r hr => .inr ⟨r, hr, rfl⟩⟩
  cases shift with
  | none => exact ⟨.inl rfl, stays, fun _ => rfl⟩
  | @grant st u _ tracked there asked obtained =>
    have least : 1 ≤ u := by
      rcases asked with ⟨w, hw, rfl, _⟩ | ⟨least, _⟩
      · exact asks w hw (Definition.isSemaphore_of_tracked tracked)
      · exact least
    obtain ⟨turn, held⟩ := obtainHold_turn well least obtained
    exact ⟨.inr tracked, turn, fun _ => by omega⟩
  | back tracked held =>
    obtain ⟨turn, left⟩ := lowerHold_turn well held
    exact ⟨.inr tracked, turn, fun _ => by omega⟩
  | reclaim tracked found =>
    obtain ⟨turn, left⟩ := reclaim_turn well found
    exact ⟨.inr tracked, turn, fun _ => by omega⟩
  | count semaphore signal fits => exact ⟨.inl rfl, stays, fun tracked => by rw [signal] at tracked; exact nomatch tracked⟩
  | ring mailbox fits place =>
    exact ⟨.inl rfl, stays, fun tracked => by rw [Definition.isSemaphore_of_tracked tracked] at mailbox; exact nomatch mailbox⟩

/-- Where the law of conservation does not fix the level, it falls, or it rises within its bound where no taker waits. -/
theorem ObjectEntry.Shift.level_cases (shift : e.Shift q i l level head m) : e.definition.isTracked = true ∨ level ≤ e.level ∨
    (level ≤ e.definition.bound ∧ (e.definition.isSemaphore = true ∨ e.waiters = [])) := by
  cases shift with
  | none => exact .inr (.inl (Nat.le_refl _))
  | grant tracked | back tracked | reclaim tracked => exact .inl tracked
  | count semaphore signal fits => exact .inr (fits.imp id fun bound => ⟨bound, .inl semaphore⟩)
  | ring mailbox fits place => exact .inr (fits.imp id fun ⟨no_taker, bound⟩ => ⟨bound, .inr no_taker⟩)

/-- Only a mailbox's head position moves, and to a ring position. -/
theorem ObjectEntry.Shift.head_cases (shift : e.Shift q i l level head m) : head = e.head ∨ head < e.definition.words := by
  cases shift with
  | none | grant | back | reclaim | count => exact .inl rfl
  | ring mailbox fits place => exact place

/-- A holder that a shift brings in waited for the units, or is one that `q` names. -/
theorem ObjectEntry.Shift.holders (shift : e.Shift q i l level head m) :
    ∀ r ∈ m, (∃ x ∈ l, x.holder = r.holder) ∨ (∃ w ∈ e.waiters, w.requester = r.holder) ∨ q r.holder := by
  have stays : ∀ r ∈ l, (∃ x ∈ l, x.holder = r.holder) ∨ (∃ w ∈ e.waiters, w.requester = r.holder) ∨ q r.holder :=
    fun r hr => .inl ⟨r, hr, rfl⟩
  cases shift with
  | none | count | ring => exact stays
  | @grant st u _ tracked there asked obtained =>
    intro r hr
    by_cases hst : r.holder = st
    · refine .inr (asked.imp (fun ⟨w, hw, _, hn⟩ => ⟨w, hw, hn.trans hst.symm⟩) fun ⟨_, named⟩ => hst ▸ named)
    · exact stays r (mem_obtainHold i st u l m obtained r hr hst)
  | @back st u tracked held =>
    intro r hr
    obtain ⟨x, hx, hxr⟩ := List.mem_filterMap.mp hr
    refine .inl ⟨x, hx, ?_⟩
    split at hxr
    · split at hxr
      · exact nomatch hxr
      · cases hxr; rfl
    · cases hxr; rfl
  | reclaim tracked found => exact fun r hr => stays r (List.mem_filter.mp hr).1

end

/-! ### Moves -/

/-- The home half with the entry at `i` and the hold table set. -/
def Home.revised (h : Home) (i : ObjIndex) (e : ObjectEntry) (holds : List HoldRecord) : Home := { h.setEntry i e with holds }

theorem Home.revised_entry (h : Home) (i j : ObjIndex) (e : ObjectEntry) (holds : List HoldRecord) :
    (h.revised i e holds).entry j = if j = i then some e else h.entry j := h.entry_setEntry i j e

/-- A move of the home half of station `own`: answers leave the answer list or change places; an immediate answer joins it, to a station
that `p` names; an object's level, list and holdings shift, records leaving the list with or without an answer; a record joins a list,
of a station that `q` names; a word is written into a ring. -/
inductive Home.Move (own : StationNum) (p q : StationNum → Prop) (h : Home) : Home → Prop
  | listed (l : OutList AnswerItem) (sub : Among l.items h.answers.items) (counters : h.answers.CountersSound → l.CountersSound)
      (onLine : l.onLine = true → h.answers.onLine = true) : h.Move own p q { h with answers := l }
  | reply (x : ImmediateEntry) (free : 0 < h.freeImmediate) (other : x.dest ≠ own) (named : p x.dest) :
      h.Move own p q { h with answers := h.answers.push (.immediate x) }
  | revise {i : ObjIndex} {e : ObjectEntry} {level head : Nat} {waiters : List WaiterRecord} {holds : List HoldRecord}
      (defined : h.entry i = some e) (fewer : waiters.Sublist e.waiters) (shift : e.Shift q i h.holds level head holds) :
      h.Move own p q (h.revised i ⟨e.definition, level, head, waiters⟩ holds)
  | yield {i : ObjIndex} {e : ObjectEntry} {level head : Nat} {front back : List WaiterRecord} {w : WaiterRecord}
      {holds : List HoldRecord} (defined : h.entry i = some e) (list : e.waiters = front ++ w :: back) (other : w.requester ≠ own)
      (shift : e.Shift q i h.holds level head holds) (status : AnswerStatus) (value : Word) :
      h.Move own p q { h.revised i ⟨e.definition, level, head, front ++ back⟩ holds with
        answers := h.answers.push (.record w status value) }
  | enlist {i : ObjIndex} {e : ObjectEntry} {w : WaiterRecord} (defined : h.entry i = some e) (waits : w.Waits i e)
      (empty : e.definition.isSemaphore = false → e.level = 0) (free : 0 < h.freeWaiters)
      (fresh : ∀ x ∈ h.recordsInUse, w.requester ≠ x.requester ∨ w.slot ≠ x.slot) (arrival : w.arrival = h.arrivals)
      (named : q w.requester) :
      h.Move own p q { h.setEntry i { e with waiters := insertByPriority w e.waiters } with arrivals := h.arrivals + 1 }
  | word {i : ObjIndex} {e : ObjectEntry} {a : Nat} (defined : h.entry i = some e) (inside : e.ringHas a) (v : Word) :
      h.Move own p q { h with pool := h.pool.write a v }

/-! ### Laws 1 to 4 -/

/-- Laws 1 to 4 with the fit of every waiting record. -/
structure Home.Balanced (h : Home) : Prop where
  conserves : h.Conserves
  holds : h.HoldsSound
  levels : h.LevelsFit
  records : h.RecordsFit

/-- Law 2 is law 2 of the table alone, with every record on a TRACKED semaphore. -/
theorem Home.holdsSound_iff (h : Home) : h.HoldsSound ↔ HoldsWell h.holds ∧ h.HoldsTracked :=
  ⟨fun s => ⟨⟨fun r hr => (s.tracked r hr).1, s.single, s.bounded⟩, fun r hr => (s.tracked r hr).2⟩,
    fun ⟨w, t⟩ => ⟨fun r hr => ⟨w.least r hr, t r hr⟩, w.single, w.bounded⟩⟩

/-- A record that fits a semaphore asks for at least 1 unit. -/
theorem WaiterRecord.Waits.least {i : ObjIndex} {e : ObjectEntry} {w : WaiterRecord} (h : w.Waits i e)
    (semaphore : e.definition.isSemaphore = true) : 1 ≤ w.units := by
  obtain ⟨_, asked⟩ := h
  cases ho : w.operation with
  | acquire u => rw [ho] at asked; simpa [WaiterRecord.units, ho] using asked.2.1
  | take => rw [ho] at asked; exact absurd semaphore asked

/-- Laws 1 to 4 after an object's level, list and holdings shifted. -/
theorem Home.Balanced.revised {h : Home} (b : h.Balanced) {q : StationNum → Prop} {i : ObjIndex} {e : ObjectEntry} {level head : Nat}
    {waiters : List WaiterRecord} {holds : List HoldRecord} (defined : h.entry i = some e) (fewer : waiters.Sublist e.waiters)
    (shift : e.Shift q i h.holds level head holds) : (h.revised i ⟨e.definition, level, head, waiters⟩ holds).Balanced := by
  obtain ⟨well, tracked⟩ := h.holdsSound_iff.mp b.holds
  obtain ⟨which, turn, units⟩ := shift.turn well fun w hw => (b.records i e defined w hw).least
  have fits := b.levels i e defined
  have entry := h.revised_entry i (e := ⟨e.definition, level, head, waiters⟩) (holds := holds)
  have conserves : (h.revised i ⟨e.definition, level, head, waiters⟩ holds).Conserves := by
    intro j f hf hft
    rw [Home.has, entry] at hf
    split at hf
    · next at_i =>
      cases hf; subst at_i
      have before := b.conserves j e defined hft
      exact (units hft).trans before
    · next other =>
      rw [Home.heldUnits_eq]
      exact (congrArg (f.level + ·) (turn.others j other)).trans (b.conserves j f hf hft)
  refine ⟨conserves, (Home.holdsSound_iff _).mpr ⟨turn.well, fun r hr => ?_⟩, fun j f hf => ?_, fun j f hf w hw => ?_⟩
  · rw [entry]
    split
    · next at_i =>
      refine ⟨_, rfl, which.elim (fun same => ?_) id⟩
      obtain ⟨f, hf, ht⟩ := tracked r (same ▸ hr)
      rw [at_i, defined] at hf
      cases hf; exact ht
    · next other =>
      obtain ⟨x, hx, index⟩ := (turn.indexes r hr).resolve_left other
      exact index ▸ tracked x hx
  · have held := conserves j f hf
    rw [Home.has, entry] at hf
    split at hf
    · next at_i =>
      cases hf; subst at_i
      refine ⟨fits.range, ?_, ?_, fun mailbox some_left => ?_⟩
      · rcases shift.level_cases with tracked | falls | ⟨bound, _⟩
        · exact Nat.le_trans (Nat.le_add_right _ _) (Nat.le_of_eq (held tracked))
        · exact Nat.le_trans falls fits.level
        · exact bound
      · exact shift.head_cases.elim (fun same => same ▸ fits.head) .inl
      · have waited : e.waiters ≠ [] := fun none => some_left (List.sublist_nil.mp (none ▸ fewer))
        have before := fits.empty mailbox waited
        rcases shift.level_cases with tracked | falls | ⟨_, semaphore | none⟩
        · exact absurd (Definition.isSemaphore_of_tracked tracked) mailbox
        · exact Nat.le_zero.mp (before ▸ falls)
        · exact absurd semaphore mailbox
        · exact absurd none waited
    · exact b.levels j f hf
  · rw [Home.has, entry] at hf
    split at hf
    · next at_i =>
      cases hf; subst at_i
      exact b.records j e defined w (fewer.subset hw)
    · exact b.records j f hf w hw

/-- Laws 1 to 4 after a record that fits joined its list. -/
theorem Home.Balanced.enlisted {h : Home} (b : h.Balanced) {i : ObjIndex} {e : ObjectEntry} {w : WaiterRecord} (defined : h.entry i = some e)
    (waits : w.Waits i e) (empty : e.definition.isSemaphore = false → e.level = 0) :
    (h.setEntry i { e with waiters := insertByPriority w e.waiters }).Balanced := by
  have entry := h.entry_setEntry i (e := { e with waiters := insertByPriority w e.waiters })
  have fits := b.levels i e defined
  obtain ⟨well, tracked⟩ := h.holdsSound_iff.mp b.holds
  refine ⟨fun j f hf => ?_, (Home.holdsSound_iff _).mpr ⟨well, fun r hr => ?_⟩, fun j f hf => ?_, fun j f hf v hv => ?_⟩
  · rw [Home.has, entry] at hf
    split at hf
    · next at_i => cases hf; subst at_i; exact b.conserves j e defined
    · exact b.conserves j f hf
  · obtain ⟨f, hf, ht⟩ := tracked r hr
    rw [entry]
    split
    · next at_i => rw [at_i, defined] at hf; cases hf; exact ⟨_, rfl, ht⟩
    · exact ⟨f, hf, ht⟩
  · rw [Home.has, entry] at hf
    split at hf
    · next at_i =>
      cases hf; subst at_i
      exact ⟨fits.range, fits.level, fits.head, fun mailbox _ => empty (Bool.eq_false_iff.mpr mailbox)⟩
    · exact b.levels j f hf
  · rw [Home.has, entry] at hf
    split at hf
    · next at_i =>
      cases hf; subst at_i
      rcases List.mem_cons.mp ((insertByPriority_perm w e.waiters).subset hv) with rfl | hv
      · exact waits
      · exact b.records j e defined v hv
    · exact b.records j f hf v hv

/-! ### Laws 7 and 8 -/

/-- Law 8 of a home with no more records and no more immediate answers. -/
theorem Home.WithinPools.of_fewer {h t : Home} (pools : h.WithinPools) (records : t.recordsInUse.length ≤ h.recordsInUse.length)
    (immediate : (t.answers.items.countP fun x => !x.isRecord) ≤ h.answers.items.countP fun x => !x.isRecord) : t.WithinPools := by
  rw [Home.recordsInUse_length, Home.recordsInUse_length] at records
  exact ⟨Nat.le_trans records pools.records, Nat.le_trans immediate pools.immediate⟩

/-- The records in use, those of the list at `i` first. -/
theorem Home.recordsInUse_perm (h : Home) (i : ObjIndex) : h.recordsInUse.Perm
    (h.waitersAt i ++ ((allIndexes.erase i).flatMap h.waitersAt ++ h.answers.items.filterMap AnswerItem.record?)) := by
  rw [← List.append_assoc]
  exact (h.waiting_perm i).append_right _

theorem Home.waitersAt_of_entry {h : Home} {i : ObjIndex} {e : ObjectEntry} (defined : h.entry i = some e) : h.waitersAt i = e.waiters := by
  simp [Home.waitersAt, defined]

/-- A list not revised stays. -/
theorem Home.revised_waitersAt_other (h : Home) {i j : ObjIndex} (e : ObjectEntry) (holds : List HoldRecord) (other : j ≠ i) :
    (h.revised i e holds).waitersAt j = h.waitersAt j := by
  rw [Home.waitersAt, h.revised_entry, if_neg other, Home.waitersAt]

theorem Home.revised_waitersAt_same (h : Home) (i : ObjIndex) (e : ObjectEntry) (holds : List HoldRecord) :
    (h.revised i e holds).waitersAt i = e.waiters := by
  rw [Home.waitersAt, h.revised_entry, if_pos rfl]; rfl

/-- The records in use after a list was revised: those of the list, and the others. -/
theorem Home.recordsInUse_revised (h : Home) (i : ObjIndex) (e : ObjectEntry) (holds : List HoldRecord) :
    (h.revised i e holds).recordsInUse.Perm
      (e.waiters ++ ((allIndexes.erase i).flatMap h.waitersAt ++ h.answers.items.filterMap AnswerItem.record?)) := by
  have perm := (h.revised i e holds).recordsInUse_perm i
  rwa [h.revised_waitersAt_same, Home.waiting_others fun j other => h.revised_waitersAt_other e holds other] at perm

/-- Taking records off a list leaves fewer in use. -/
theorem Home.recordsInUse_revised_among {h : Home} {i : ObjIndex} {e f : ObjectEntry} (holds : List HoldRecord)
    (defined : h.entry i = some e) (fewer : f.waiters.Sublist e.waiters) :
    Among (h.revised i f holds).recordsInUse h.recordsInUse := by
  have before := h.recordsInUse_perm i
  rw [Home.waitersAt_of_entry defined] at before
  exact ((Among.of_perm (h.recordsInUse_revised i f holds)).trans (.of_sublist (fewer.append_right _))).trans (.of_perm before.symm)

/-- A record that leaves its list with an answer stays in use. -/
theorem Home.recordsInUse_yield {h : Home} {i : ObjIndex} {e f : ObjectEntry} {front back : List WaiterRecord} {w : WaiterRecord}
    (holds : List HoldRecord) (defined : h.entry i = some e) (list : e.waiters = front ++ w :: back) (left : f.waiters = front ++ back)
    (status : AnswerStatus) (value : Word) :
    Home.recordsInUse { h.revised i f holds with answers := h.answers.push (.record w status value) } |>.Perm h.recordsInUse := by
  have before := h.recordsInUse_perm i
  rw [Home.waitersAt_of_entry defined, list] at before
  have after := h.recordsInUse_revised i f holds
  have pushed : Home.recordsInUse { h.revised i f holds with answers := h.answers.push (.record w status value) } =
      (h.revised i f holds).recordsInUse ++ [w] := by
    rw [Home.recordsInUse, Home.recordsInUse, List.append_assoc, OutList.push, List.filterMap_append]
    rfl
  rw [pushed]
  refine (List.perm_append_singleton w _).trans (List.Perm.trans ?_ before.symm)
  rw [left] at after
  rw [List.append_assoc, List.cons_append]
  exact (after.cons w).trans (by rw [List.append_assoc]; exact List.perm_middle.symm)

/-- A record that joins a list joins the records in use. -/
theorem Home.recordsInUse_enlisted {h : Home} {i : ObjIndex} {e : ObjectEntry} (w : WaiterRecord) (arrivals : Nat)
    (defined : h.entry i = some e) :
    Home.recordsInUse { h.setEntry i { e with waiters := insertByPriority w e.waiters } with arrivals } |>.Perm (w :: h.recordsInUse) := by
  have before := h.recordsInUse_perm i
  rw [Home.waitersAt_of_entry defined] at before
  have after := h.recordsInUse_revised i { e with waiters := insertByPriority w e.waiters } h.holds
  exact after.trans (((insertByPriority_perm w e.waiters).append_right _).trans (before.symm.cons w))

/-- Laws 1 to 4, 7 and 8. -/
structure Home.Tight (h : Home) : Prop where
  balanced : h.Balanced
  single : h.OnePerSlot
  pools : h.WithinPools

/-- The count of records and immediate answers after an answer joined the list. -/
theorem countP_push (f : AnswerItem → Bool) (l : OutList AnswerItem) (x : AnswerItem) :
    (l.push x).items.countP f = l.items.countP f + if f x then 1 else 0 := by
  simp [OutList.push, List.countP_append, List.countP_singleton]

/-- Every move keeps laws 1 to 4, 7 and 8. -/
theorem Home.Move.tight {own : StationNum} {p q : StationNum → Prop} {h t : Home} (m : h.Move own p q t) (s : h.Tight) : t.Tight := by
  obtain ⟨b, one, pools⟩ := s
  cases m with
  | listed l sub counters onLine =>
    have records : Among (Home.recordsInUse { h with answers := l }) h.recordsInUse :=
      Among.append (.refl _) <| by
        obtain ⟨kept, perm, part⟩ := sub
        exact ⟨kept.filterMap _, perm.filterMap _, part.filterMap _⟩
    exact ⟨⟨b.conserves, ⟨b.holds.tracked, b.holds.single, b.holds.bounded⟩, b.levels, b.records⟩, one.of_among records,
      pools.of_fewer records.length_le (sub.countP_le _)⟩
  | reply x free other named =>
    have records : Home.recordsInUse { h with answers := h.answers.push (.immediate x) } = h.recordsInUse := by
      rw [Home.recordsInUse, Home.recordsInUse, OutList.push, List.filterMap_append]
      exact congrArg (_ ++ ·) (List.append_nil _)
    refine ⟨⟨b.conserves, ⟨b.holds.tracked, b.holds.single, b.holds.bounded⟩, b.levels, b.records⟩,
      one.of_among (records ▸ .refl _), ?_, ?_⟩
    · rw [← Home.recordsInUse_length, records, Home.recordsInUse_length]; exact pools.records
    · rw [countP_push]
      have room := free
      rw [Home.freeImmediate] at room
      exact Nat.lt_of_sub_pos room
  | @revise i e level head waiters holds defined fewer shift =>
    have records := Home.recordsInUse_revised_among (f := ⟨e.definition, level, head, waiters⟩) holds defined fewer
    exact ⟨b.revised defined fewer shift, one.of_among records, pools.of_fewer records.length_le (Nat.le_refl _)⟩
  | @yield i e level head front back w holds defined list other shift status value =>
    have fewer : (front ++ back).Sublist e.waiters := list ▸ (List.Sublist.refl _).append (List.sublist_cons_self _ _)
    have after := b.revised defined fewer shift
    have records := Home.recordsInUse_yield (f := ⟨e.definition, level, head, front ++ back⟩) holds defined list rfl status value
    refine ⟨⟨after.conserves, ⟨after.holds.tracked, after.holds.single, after.holds.bounded⟩, after.levels, after.records⟩,
      one.of_among (.of_perm records), pools.of_fewer (Nat.le_of_eq records.length_eq) ?_⟩
    rw [countP_push]; exact Nat.le_refl _
  | @enlist i e w defined waits empty free fresh arrival named =>
    have after := b.enlisted defined waits empty
    have records := Home.recordsInUse_enlisted w (h.arrivals + 1) defined
    refine ⟨⟨after.conserves, ⟨after.holds.tracked, after.holds.single, after.holds.bounded⟩, after.levels, after.records⟩,
      (records.pairwise_iff pairs_apart_symm).mpr (List.pairwise_cons.mpr ⟨fresh, one⟩), ?_, pools.immediate⟩
    have room := free
    rw [Home.freeWaiters, ← Home.recordsInUse_length] at room
    rw [← Home.recordsInUse_length, records.length_eq, List.length_cons]; omega
  | word defined inside v =>
    exact ⟨⟨b.conserves, ⟨b.holds.tracked, b.holds.single, b.holds.bounded⟩, b.levels, b.records⟩, one,
      ⟨pools.records, pools.immediate⟩⟩

end Sys2Proof.Machine
end

section
/-! SUPPORT. The other laws that moves of the home half keep: the pool, the order of the lists, the stations named, and rest. -/

namespace Sys2Proof.Machine

variable {own : StationNum} {p q : StationNum → Prop} {h t : Home}

/-! ### The pool (R5, R6) -/

/-- The pool words that a ring of the definition takes. -/
theorem ObjectEntry.ringHas_congr {e f : ObjectEntry} (same : f.definition = e.definition) (a : Nat) : f.ringHas a ↔ e.ringHas a := by
  rw [ObjectEntry.ringHas, ObjectEntry.ringHas, same]

/-- The words of the rings, object by object. -/
theorem Home.ringWords_eq (h : Home) :
    h.ringWords = (allIndexes.map fun i => (((h.entry i).map ObjectEntry.definition).map Definition.words).getD 0).sum := by
  rw [Home.ringWords, Home.objects_toList, List.map_map]
  congr 2
  funext i
  cases he : h.entry i <;> simp [he]

/-- Homes with the same definitions: an entry of one has its like in the other. -/
theorem Home.entry_of_definitions (same : ∀ i, (t.entry i).map ObjectEntry.definition = (h.entry i).map ObjectEntry.definition)
    {i : ObjIndex} {f : ObjectEntry} (hf : t.entry i = some f) : ∃ e, h.entry i = some e ∧ f.definition = e.definition := by
  have defined := same i
  rw [hf] at defined
  cases he : h.entry i with
  | none => rw [he] at defined; exact nomatch defined
  | some e => rw [he] at defined; exact ⟨e, rfl, Option.some.inj defined⟩

/-- R5 and R6 where the definitions stay, the account stays, and the pool changes inside the words in use only. -/
theorem Home.PoolSound.of_definitions (s : h.PoolSound)
    (same : ∀ i, (t.entry i).map ObjectEntry.definition = (h.entry i).map ObjectEntry.definition) (used : t.poolUsed = h.poolUsed)
    (canonical : t.pool.wf) (above : ∀ a, h.poolUsed ≤ a → t.pool.read a = 0) : t.PoolSound := by
  have words : t.ringWords = h.ringWords := by
    rw [Home.ringWords_eq, Home.ringWords_eq]; simp only [same]
  refine ⟨canonical, by rw [used, words, s.account], used ▸ s.fits, fun i f hf a ha => ?_, fun i j f g hij hf hg a ha hga => ?_,
    used ▸ above⟩
  · obtain ⟨e, he, hd⟩ := Home.entry_of_definitions same hf
    exact used ▸ s.inside i e he a ((ObjectEntry.ringHas_congr hd a).mp ha)
  · obtain ⟨e, he, hd⟩ := Home.entry_of_definitions same hf
    obtain ⟨e', he', hd'⟩ := Home.entry_of_definitions same hg
    exact s.apart i j e e' hij he he' a ((ObjectEntry.ringHas_congr hd a).mp ha) ((ObjectEntry.ringHas_congr hd' a).mp hga)

/-- Setting an entry of the same definition keeps every definition. -/
theorem Home.definitions_setEntry {i : ObjIndex} {e f : ObjectEntry} (defined : h.entry i = some e) (same : f.definition = e.definition)
    (j : ObjIndex) : ((h.setEntry i f).entry j).map ObjectEntry.definition = (h.entry j).map ObjectEntry.definition := by
  rw [h.entry_setEntry]
  split
  · next at_i => rw [at_i, defined, Option.map_some, Option.map_some, same]
  · rfl

/-- A move keeps every definition and the count of words in use. -/
theorem Home.Move.definitions (m : h.Move own p q t) :
    (∀ i, (t.entry i).map ObjectEntry.definition = (h.entry i).map ObjectEntry.definition) ∧ t.poolUsed = h.poolUsed := by
  cases m with
  | listed | reply | word => exact ⟨fun _ => rfl, rfl⟩
  | revise defined | yield defined | enlist defined => exact ⟨Home.definitions_setEntry defined rfl, rfl⟩

/-- A move keeps the pool sound. -/
theorem Home.Move.poolSound (m : h.Move own p q t) (s : h.PoolSound) : t.PoolSound := by
  obtain ⟨same, used⟩ := m.definitions
  cases m with
  | listed | reply | revise | yield | enlist => exact s.of_definitions same used s.canonical s.above
  | @word i e a defined inside v =>
    refine s.of_definitions same used (Memory.wf_write _ a v s.canonical) fun b hb => ?_
    have := s.inside i e defined a inside
    rw [Memory.read_write _ a b v s.canonical, if_neg (by omega)]
    exact s.above b hb

/-! ### The order of the lists (law 6) -/

/-- Records that come of others one by one, with their priorities and arrivals. -/
theorem Home.ListsOrdered.of_sublists (s : h.ListsOrdered) (lists : ∀ i, (t.waitersAt i).Sublist (h.waitersAt i))
    (arrivals : t.arrivals = h.arrivals) : t.ListsOrdered :=
  ⟨fun i => (s.ordered i).sublist (lists i), fun i w hw => arrivals ▸ s.earlier i w ((lists i).subset hw)⟩

/-- A record of the latest arrival keeps its list ordered. -/
theorem insertByPriority_ordered {w : WaiterRecord} {l : List WaiterRecord} (ordered : l.Pairwise WaiterRecord.before)
    (latest : ∀ x ∈ l, x.arrival < w.arrival) : (insertByPriority w l).Pairwise WaiterRecord.before := by
  induction l with
  | nil => exact List.pairwise_singleton _ _
  | cons x rest ih =>
    obtain ⟨first, others⟩ := List.pairwise_cons.mp ordered
    simp only [insertByPriority]
    split
    · next behind =>
      refine List.pairwise_cons.mpr ⟨fun y hy => ?_, ih others fun y hy => latest y (List.mem_cons_of_mem _ hy)⟩
      rcases List.mem_cons.mp ((insertByPriority_perm w rest).subset hy) with rfl | hy
      · rcases Nat.lt_or_eq_of_le behind with more | same
        · exact .inl more
        · exact .inr ⟨Fin.ext same, latest x List.mem_cons_self⟩
      · exact first y hy
    · next ahead =>
      have urgent : w.priority < x.priority := Fin.not_le.mp ahead
      refine List.pairwise_cons.mpr ⟨fun y hy => .inl ?_, ordered⟩
      rcases List.mem_cons.mp hy with rfl | hy
      · exact urgent
      · exact (first y hy).elim (Nat.lt_trans urgent) fun ⟨same, _⟩ => same ▸ urgent

/-- The list revised is a part of what it was, and so is every other. -/
theorem Home.revised_sublists {i : ObjIndex} {e f : ObjectEntry} (holds : List HoldRecord) (defined : h.entry i = some e)
    (fewer : f.waiters.Sublist e.waiters) (j : ObjIndex) : ((h.revised i f holds).waitersAt j).Sublist (h.waitersAt j) := by
  by_cases at_i : j = i
  · subst at_i
    rwa [h.revised_waitersAt_same, Home.waitersAt_of_entry defined]
  · exact h.revised_waitersAt_other f holds at_i ▸ List.Sublist.refl _

theorem erased_sublist {e : ObjectEntry} {front back : List WaiterRecord} {w : WaiterRecord} (list : e.waiters = front ++ w :: back) :
    (front ++ back).Sublist e.waiters := list ▸ (List.Sublist.refl _).append (List.sublist_cons_self _ _)

/-- Either a move leaves of every list a part, and the count of arrivals, or it puts the latest arrival on its list. -/
theorem Home.Move.lists (m : h.Move own p q t) :
    ((∀ i, (t.waitersAt i).Sublist (h.waitersAt i)) ∧ t.arrivals = h.arrivals) ∨
    ∃ i w, w.arrival = h.arrivals ∧ q w.requester ∧ t.waitersAt i = insertByPriority w (h.waitersAt i) ∧
      (∀ j, j ≠ i → t.waitersAt j = h.waitersAt j) ∧ t.arrivals = h.arrivals + 1 := by
  cases m with
  | listed | reply | word => exact .inl ⟨fun _ => List.Sublist.refl _, rfl⟩
  | revise defined fewer => exact .inl ⟨Home.revised_sublists _ defined fewer, rfl⟩
  | @yield i e level head front back w holds defined list =>
    exact .inl ⟨Home.revised_sublists (f := ⟨e.definition, level, head, front ++ back⟩) holds defined (erased_sublist list), rfl⟩
  | @enlist i e w defined waits empty free fresh arrival named =>
    refine .inr ⟨i, w, arrival, named, ?_, fun j other => h.revised_waitersAt_other _ h.holds other, rfl⟩
    rw [Home.waitersAt_of_entry defined]
    exact h.revised_waitersAt_same i _ h.holds

/-- A move keeps the lists ordered. -/
theorem Home.Move.listsOrdered (m : h.Move own p q t) (s : h.ListsOrdered) : t.ListsOrdered := by
  rcases m.lists with ⟨lists, arrivals⟩ | ⟨i, w, arrival, _, list, others, arrivals⟩
  · exact s.of_sublists lists arrivals
  · refine ⟨fun j => ?_, fun j v hv => ?_⟩
    · by_cases at_i : j = i
      · subst at_i
        rw [list]
        exact insertByPriority_ordered (s.ordered j) fun x hx => arrival ▸ s.earlier j x hx
      · rw [others j at_i]; exact s.ordered j
    · rw [arrivals]
      by_cases at_i : j = i
      · subst at_i
        rw [list] at hv
        rcases List.mem_cons.mp ((insertByPriority_perm w _).subset hv) with rfl | hv
        · omega
        · exact Nat.lt_succ_of_lt (s.earlier j v hv)
      · rw [others j at_i] at hv
        exact Nat.lt_succ_of_lt (s.earlier j v hv)

/-! ### The stations named (R161) -/

/-- Every station that waits, that an answer is for, or that holds units is one of `r`. -/
structure Home.OnlyNames (r : StationNum → Prop) (h : Home) : Prop where
  waiting : ∀ i, ∀ w ∈ h.waitersAt i, r w.requester
  answers : ∀ x ∈ h.answers.items, r x.dest
  holds : ∀ x ∈ h.holds, r x.holder

/-- The stations named after an object's level, list and holdings shifted. -/
theorem Home.OnlyNames.revised {r : StationNum → Prop} (s : h.OnlyNames r) (known : ∀ n, q n → r n) {i : ObjIndex} {e f : ObjectEntry}
    {level head : Nat} {holds : List HoldRecord} (defined : h.entry i = some e) (fewer : f.waiters.Sublist e.waiters)
    (shift : e.Shift q i h.holds level head holds) : (h.revised i f holds).OnlyNames r := by
  refine ⟨fun j w hw => s.waiting j w ((Home.revised_sublists holds defined fewer j).subset hw), s.answers, fun x hx => ?_⟩
  rcases shift.holders x hx with ⟨y, hy, same⟩ | ⟨w, hw, same⟩ | named
  · exact same ▸ s.holds y hy
  · exact same ▸ s.waiting i w (by rw [Home.waitersAt_of_entry defined]; exact hw)
  · exact known _ named

/-- A move names only stations named before, or the ones it is given. -/
theorem Home.Move.onlyNames {r : StationNum → Prop} (m : h.Move own p q t) (answered : ∀ n, p n → r n) (known : ∀ n, q n → r n)
    (s : h.OnlyNames r) : t.OnlyNames r := by
  cases m with
  | listed l sub => exact ⟨s.waiting, fun x hx => s.answers x (sub.subset hx), s.holds⟩
  | reply x free other named =>
    refine ⟨s.waiting, fun y hy => ?_, s.holds⟩
    rcases List.mem_append.mp hy with hy | hy
    · exact s.answers y hy
    · rw [List.mem_singleton.mp hy]; exact answered _ named
  | revise defined fewer shift => exact s.revised known defined fewer shift
  | @yield i e level head front back w holds defined list other shift status value =>
    have after := s.revised known (f := ⟨e.definition, level, head, front ++ back⟩) defined (erased_sublist list) shift
    refine ⟨after.waiting, fun y hy => ?_, after.holds⟩
    rcases List.mem_append.mp hy with hy | hy
    · exact s.answers y hy
    · rw [List.mem_singleton.mp hy]
      exact s.waiting i w (by rw [Home.waitersAt_of_entry defined, list]; simp)
  | @enlist i e w defined waits empty free fresh arrival named =>
    refine ⟨fun j v hv => ?_, s.answers, s.holds⟩
    by_cases at_i : j = i
    · subst at_i
      have list := h.revised_waitersAt_same j { e with waiters := insertByPriority w e.waiters } h.holds
      have hv : v ∈ insertByPriority w e.waiters := (congrArg (v ∈ ·) list).mp hv
      rcases List.mem_cons.mp ((insertByPriority_perm w _).subset hv) with rfl | hv
      · exact known _ named
      · exact s.waiting j v (by rw [Home.waitersAt_of_entry defined]; exact hv)
    · have list := h.revised_waitersAt_other { e with waiters := insertByPriority w e.waiters } h.holds at_i
      exact s.waiting j v (list ▸ hv)
  | word => exact ⟨s.waiting, s.answers, s.holds⟩

/-- No move puts an answer for the station itself on the answer list (R29). -/
theorem Home.Move.answers_own (m : h.Move own p q t) (s : ∀ x ∈ h.answers.items, x.dest ≠ own) : ∀ x ∈ t.answers.items, x.dest ≠ own := by
  cases m with
  | listed l sub => exact fun x hx => s x (sub.subset hx)
  | reply x _ other | yield _ _ other =>
    intro y hy
    rcases List.mem_append.mp hy with hy | hy
    · exact s y hy
    · rw [List.mem_singleton.mp hy]; exact other
  | revise | enlist | word => exact s

/-! ### The answer list's counters (R134) -/

/-- A move keeps the counters of the answer list sound, and begins no attempt. -/
theorem Home.Move.answers_counters (m : h.Move own p q t) :
    (h.answers.CountersSound → t.answers.CountersSound) ∧ (t.answers.onLine = true → h.answers.onLine = true) := by
  cases m with
  | listed l sub counters onLine => exact ⟨counters, onLine⟩
  | reply | yield => exact ⟨OutList.countersSound_push _ _, id⟩
  | revise | enlist | word => exact ⟨id, id⟩

/-! ### Rest (law 11) -/

/-- With no record waiting, no unit held, and no station that moves could bring in, none comes to wait or to hold. -/
theorem Home.Move.still (m : h.Move own p q t) (nobody : ∀ n, ¬ q n) (waiting : ∀ i, h.waitersAt i = []) (holds : h.holds = []) :
    (∀ i, t.waitersAt i = []) ∧ t.holds = [] := by
  have no_shift : ∀ {i e level head m}, h.entry i = some e → e.Shift q i h.holds level head m → m = [] := by
    intro i e level head m defined shift
    refine List.eq_nil_iff_forall_not_mem.mpr fun r hr => ?_
    rcases shift.holders r hr with ⟨x, hx, _⟩ | ⟨w, hw, _⟩ | named
    · rw [holds] at hx; exact nomatch hx
    · rw [← Home.waitersAt_of_entry defined, waiting i] at hw; exact nomatch hw
    · exact nobody _ named
  rcases m.lists with ⟨lists, _⟩ | ⟨_, w, _, named, _⟩
  · refine ⟨fun i => List.sublist_nil.mp (waiting i ▸ lists i), ?_⟩
    cases m with
    | listed | reply | enlist | word => exact holds
    | revise defined _ shift => exact no_shift defined shift
    | yield defined _ _ shift => exact no_shift defined shift
  · exact absurd named (nobody _)

/-- With besides no answer on the list and no station to answer, no answer comes. -/
theorem Home.Move.silent (m : h.Move own p q t) (no_answer : ∀ n, ¬ p n) (waiting : ∀ i, h.waitersAt i = []) (answers : h.answers.items = []) :
    t.answers.items = [] := by
  cases m with
  | listed l sub => exact Among.eq_nil (answers ▸ sub)
  | reply x _ _ named => exact absurd named (no_answer _)
  | @yield i _ _ _ _ _ _ _ defined list =>
    have := waiting i
    rw [Home.waitersAt_of_entry defined, list] at this
    simp at this
  | revise | enlist | word => exact answers

end Sys2Proof.Machine
end

section
/-! SUPPORT. What a grant pass and the search and replacement leave of the answer list and of mailboxes (R19, R25). -/

namespace Sys2Proof.Machine

/-! ### Answers that a grant pass adds -/

/-- A record that carries an answer after a head was served carried it before, or is that head. -/
theorem State.answering_serveHead (s : State) (i : ObjIndex) (e : ObjectEntry) (w : WaiterRecord) (rest : List WaiterRecord)
    {v : WaiterRecord} {st : AnswerStatus} {a : Word} (hv : .record v st a ∈ (s.serveHead i e w rest).home.answers.items) :
    .record v st a ∈ s.home.answers.items ∨ v = w :=
  (s.items_serveHead i e w rest _ hv).imp id fun ⟨_, _, same⟩ => by cases same; rfl

/-- A record that carries an answer after a grant pass carried it before, or waited at the semaphore. -/
theorem State.answering_grantPass (s : State) (i : ObjIndex) {v : WaiterRecord} {st : AnswerStatus} {a : Word}
    (hv : .record v st a ∈ (s.grantPass i).home.answers.items) : .record v st a ∈ s.home.answers.items ∨ v ∈ s.home.waitersAt i := by
  refine (State.grantPass_induction (P := fun t => (t.home.waitersAt i ⊆ s.home.waitersAt i) ∧
    (.record v st a ∈ t.home.answers.items → .record v st a ∈ s.home.answers.items ∨ v ∈ s.home.waitersAt i)) i ?_ s
    ⟨List.Subset.refl _, .inl⟩).2 hv
  intro t e w rest ⟨part, answering⟩ defined list _ _
  have waiting : w ∈ t.home.waitersAt i := by rw [Home.waitersAt_of_entry defined, list]; exact List.mem_cons_self
  obtain ⟨f, hf, left, _⟩ := t.serveHead_entry i i e w rest
  rw [if_pos rfl] at hf
  refine ⟨fun x hx => part ?_, fun hx => ?_⟩
  · rw [Home.waitersAt_of_entry hf, left] at hx
    rw [Home.waitersAt_of_entry defined, list]
    exact List.mem_cons_of_mem _ hx
  · rcases t.answering_serveHead i e w rest hx with before | rfl
    · exact answering before
    · exact .inr (part waiting)

/-- A record that carries an answer after records of `p` were dropped carried it before, or is not of `p`. -/
theorem State.answering_dropWaiters (p : WaiterRecord → Bool) (s : State) (i : ObjIndex) {v : WaiterRecord} {st : AnswerStatus} {a : Word}
    (hv : .record v st a ∈ (s.dropWaiters p i).home.answers.items) : .record v st a ∈ s.home.answers.items ∨ p v = false := by
  unfold State.dropWaiters at hv
  split at hv
  · next e defined =>
    split at hv
    · refine (State.answering_grantPass _ i hv).imp id fun left => ?_
      have kept : v ∈ e.waiters.filter fun w => !p w := by
        rwa [State.setEntry_home, Home.waitersAt_of_entry (s.home.entry_setEntry_same i _)] at left
      simpa using (List.mem_filter.mp kept).2
    · exact .inl hv
  · exact .inl hv

/-! ### The search and replacement (R19) -/

/-- After the search and replacement no record in use is of the pair. -/
theorem State.replaceRecord_fresh (s : State) (st : StationNum) (sl : SlotNum) :
    ∀ w ∈ (s.replaceRecord st sl).home.recordsInUse, w.isOf st sl = false := by
  intro w hw
  rcases Home.mem_recordsInUse.mp hw with ⟨i, hi⟩ | ⟨status, value, hx⟩
  · exact (State.foldl_dropWaiters (WaiterRecord.isOf st sl) allIndexes _).2 i (mem_allIndexes i) w hi
  · have dropped : ∀ w status value, .record w status value ∈ (s.dropAnswers (AnswerItem.isRecordOf st sl)).home.answers.items →
        w.isOf st sl = false := by
      intro w status value hx
      have hx : AnswerItem.record w status value ∈ (s.home.answers.removeIf (AnswerItem.isRecordOf st sl)).items := hx
      rw [OutList.items_removeIf] at hx
      simpa [AnswerItem.isRecordOf] using (List.mem_filter.mp hx).2
    have answering : ∀ w status value, AnswerItem.record w status value ∈ (s.replaceRecord st sl).home.answers.items → w.isOf st sl = false := by
      unfold State.replaceRecord
      generalize allIndexes = l
      exact foldl_keeps (P := fun t => ∀ w status value, AnswerItem.record w status value ∈ t.home.answers.items → w.isOf st sl = false)
        (State.dropWaiters (WaiterRecord.isOf st sl))
        (fun t i before w status value hx => (t.answering_dropWaiters _ i hx).elim (before w status value) id) l _ dropped
    exact answering w status value hx

/-- An answer that a waiter record carries takes no immediate answer entry. -/
theorem State.freeImmediate_produce_record (s : State) (w : WaiterRecord) (status : AnswerStatus) (value : Word) :
    (s.produce (.record w status value)).home.freeImmediate = s.home.freeImmediate := by
  unfold State.produce
  split
  · rfl
  · show Config.immediateEntries - _ = _
    rw [countP_push]; rfl

theorem State.freeImmediate_grantPass (s : State) (i : ObjIndex) : (s.grantPass i).home.freeImmediate = s.home.freeImmediate := by
  refine State.grantPass_induction (P := fun t => t.home.freeImmediate = s.home.freeImmediate) i ?_ s rfl
  intro t e w rest before _ _ _ _
  rw [← before]
  unfold State.serveHead
  simp only
  split
  · split <;> exact State.freeImmediate_produce_record _ _ _ _
  · exact State.freeImmediate_produce_record _ _ _ _

theorem State.freeImmediate_dropWaiters (p : WaiterRecord → Bool) (s : State) (i : ObjIndex) :
    (s.dropWaiters p i).home.freeImmediate = s.home.freeImmediate := by
  unfold State.dropWaiters
  split
  · split
    · exact State.freeImmediate_grantPass _ i
    · rfl
  · rfl

/-- The search and replacement frees no immediate answer entry and takes none. -/
theorem State.freeImmediate_replaceRecord (s : State) (st : StationNum) (sl : SlotNum) :
    (s.replaceRecord st sl).home.freeImmediate = s.home.freeImmediate := by
  have dropped : (s.dropAnswers (AnswerItem.isRecordOf st sl)).home.freeImmediate = s.home.freeImmediate := by
    have count : ((s.home.answers.removeIf (AnswerItem.isRecordOf st sl)).items.countP fun x => !x.isRecord) =
        s.home.answers.items.countP fun x => !x.isRecord := by
      rw [OutList.items_removeIf, List.countP_filter]
      refine List.countP_congr fun x _ => ?_
      cases x <;> simp [AnswerItem.isRecord, AnswerItem.isRecordOf]
    exact congrArg (Config.immediateEntries - ·) count
  exact foldl_keeps (P := fun t => t.home.freeImmediate = s.home.freeImmediate) _
    (fun t i before => (t.freeImmediate_dropWaiters _ i).trans before) allIndexes _ dropped

/-- Every mailbox stays as full as it is. -/
def State.KeepsFill (s t : State) : Prop :=
  ∀ i e, s.home.entry i = some e → e.definition.isSemaphore = false →
    ∃ f, t.home.entry i = some f ∧ f.definition = e.definition ∧ f.level = e.level

theorem State.KeepsFill.trans {s t u : State} (a : s.KeepsFill t) (b : t.KeepsFill u) : s.KeepsFill u := by
  intro i e defined mailbox
  obtain ⟨f, hf, definition, level⟩ := a i e defined mailbox
  obtain ⟨g, hg, definition', level'⟩ := b i f hf (definition ▸ mailbox)
  exact ⟨g, hg, definition'.trans definition, level'.trans level⟩

theorem State.keepsFill_dropWaiters (p : WaiterRecord → Bool) (s : State) (i : ObjIndex) : s.KeepsFill (s.dropWaiters p i) := by
  intro j e defined mailbox
  by_cases at_i : j = i
  · subst at_i
    rw [State.dropWaiters, defined]
    simp only
    split
    · rw [State.grantPass_eq_self]
      · exact ⟨_, s.home.entry_setEntry_same j _, rfl, rfl⟩
      · intro f w rest hf semaphore
        rw [State.setEntry_home, s.home.entry_setEntry_same] at hf
        cases hf
        rw [mailbox] at semaphore; exact nomatch semaphore
    · exact ⟨e, defined, rfl, rfl⟩
  · refine ⟨e, ?_, rfl, rfl⟩
    unfold State.dropWaiters
    split
    · split
      · rw [State.grantPass_other _ _ _ at_i]
        exact (s.home.entry_setEntry_other _ at_i).trans defined
      · exact defined
    · exact defined

/-- The search and replacement leaves every mailbox as full as it is. -/
theorem State.keepsFill_replaceRecord (s : State) (st : StationNum) (sl : SlotNum) : s.KeepsFill (s.replaceRecord st sl) :=
  foldl_keeps (P := s.KeepsFill) _ (fun t i before => before.trans (t.keepsFill_dropWaiters _ i)) allIndexes _
    fun _ e defined _ => ⟨e, defined, rfl, rfl⟩

end Sys2Proof.Machine
end

section
/-! SUPPORT. Every operation of the home half is a chain of moves, with answers handed to the own client engine between them. -/

namespace Sys2Proof.Machine

/-! ### Chains of moves -/

/-- One move of the home half, or one answer of its own that the client engine takes (R29, R95). -/
inductive State.Work (p q : StationNum → Prop) (s : State) : State → Prop
  | home {h : Home} (m : s.home.Move s.control.number p q h) : s.Work p q { s with home := h }
  | own (a : ImmediateEntry) : s.Work p q { s with client := s.client.receive s.control.number a }

/-- A chain of them. -/
inductive State.Works (p q : StationNum → Prop) (s : State) : State → Prop
  | refl : s.Works p q s
  | tail {t u : State} (chain : s.Works p q t) (last : t.Work p q u) : s.Works p q u

section
variable {p q : StationNum → Prop} {s t u : State}

theorem State.Work.works (w : s.Work p q t) : s.Works p q t := .tail .refl w

theorem State.Works.trans (w : s.Works p q t) (v : t.Works p q u) : s.Works p q u := by
  induction v with
  | refl => exact w
  | tail _ last ih => exact ih.tail last

/-- A chain of work leaves the controller, the roster and the link as they are. -/
theorem State.Works.keeps (w : s.Works p q t) : t.control = s.control ∧ t.roster = s.roster ∧ t.link = s.link := by
  induction w with
  | refl => exact ⟨rfl, rfl, rfl⟩
  | tail _ last ih => cases last <;> exact ih

/-- What every move keeps, a chain of work keeps. -/
theorem State.Works.home_induction {P : Home → Prop} (w : s.Works p q t)
    (step : ∀ h k, Home.Move s.control.number p q h k → P h → P k) (before : P s.home) : P t.home := by
  induction w with
  | refl => exact before
  | tail chain last ih =>
    cases last with
    | home m => exact step _ _ ((State.Works.keeps chain).1 ▸ m) ih
    | own => exact ih

/-- What every answer taken keeps, a chain of work keeps. -/
theorem State.Works.client_induction {P : Client → Prop} (w : s.Works p q t)
    (step : ∀ c a, P c → P (c.receive s.control.number a)) (before : P s.client) : P t.client := by
  induction w with
  | refl => exact before
  | tail chain last ih =>
    cases last with
    | home => exact ih
    | own a => rw [(State.Works.keeps chain).1]; exact step _ a ih

theorem State.Works.foldl {β : Type} (f : State → β → State) (h : ∀ s b, State.Works p q s (f s b)) (l : List β) (s : State) :
    s.Works p q (l.foldl f s) :=
  foldl_keeps (P := s.Works p q) f (fun t b before => before.trans (h t b)) l s .refl

end

section
variable {p q : StationNum → Prop} {s : State}

/-! ### Answers, and records that leave their lists -/

/-- An immediate answer takes an entry, unless the own client engine takes it. -/
theorem State.works_answer {f : Frame} (op : Operation) (status : AnswerStatus) (value : Word) (free : 0 < s.home.freeImmediate)
    (named : p f.sender) : s.Works p q (s.answer f op status value) := by
  unfold State.answer State.produce
  split
  · exact (State.Work.own _).works
  · next other => exact (State.Work.home (.reply _ free other named)).works

/-- An object's level, list and holdings shift. -/
theorem State.works_revise {i : ObjIndex} {e : ObjectEntry} {level head : Nat} {waiters : List WaiterRecord} {holds : List HoldRecord}
    (defined : s.home.entry i = some e) (fewer : waiters.Sublist e.waiters) (shift : e.Shift q i s.home.holds level head holds) :
    s.Works p q { s with home := s.home.revised i ⟨e.definition, level, head, waiters⟩ holds } :=
  (State.Work.home (.revise defined fewer shift)).works

/-- A record leaves its list with an answer. -/
theorem State.works_yield {i : ObjIndex} {e : ObjectEntry} {level head : Nat} {front back : List WaiterRecord} {w : WaiterRecord}
    {holds : List HoldRecord} (defined : s.home.entry i = some e) (list : e.waiters = front ++ w :: back)
    (shift : e.Shift q i s.home.holds level head holds) (status : AnswerStatus) (value : Word) :
    s.Works p q (State.produce (.record w status value)
      { s with home := s.home.revised i ⟨e.definition, level, head, front ++ back⟩ holds }) := by
  unfold State.produce
  split
  · exact (State.works_revise defined (erased_sublist list) shift).tail (.own _)
  · next other => exact (State.Work.home (.yield defined list other shift status value)).works

/-! ### The grant pass (R47, R48) -/

theorem State.works_serveHead {i : ObjIndex} {e : ObjectEntry} {w : WaiterRecord} {rest : List WaiterRecord}
    (defined : s.home.entry i = some e) (list : e.waiters = w :: rest) (semaphore : e.definition.isSemaphore = true)
    (there : w.units ≤ e.level) : s.Works p q (s.serveHead i e w rest) := by
  unfold State.serveHead
  simp only
  split
  · next tracked =>
    split
    · next holds obtained =>
      have asked : (∃ v ∈ e.waiters, v.units = w.units ∧ v.requester = w.requester) ∨ 1 ≤ w.units ∧ q w.requester :=
        .inl ⟨w, by rw [list]; exact List.mem_cons_self, rfl, rfl⟩
      exact State.works_yield (front := []) defined list (.grant tracked there asked obtained) _ _
    · exact State.works_yield (front := []) defined list .none _ _
  · next signal =>
    have falls : e.level - w.units ≤ e.level := Nat.sub_le _ _
    exact State.works_yield (front := []) defined list (.count semaphore (Bool.eq_false_iff.mpr signal) (.inl falls)) _ _

theorem State.works_grantPass (i : ObjIndex) : s.Works p q (s.grantPass i) :=
  State.grantPass_induction (P := s.Works p q) i
    (fun _ _ _ _ before defined list semaphore there => before.trans (State.works_serveHead defined list semaphore there)) s .refl

/-! ### Records and answers removed without an answer (R19, R94) -/

theorem State.works_dropWaiters (f : WaiterRecord → Bool) (s : State) (i : ObjIndex) : s.Works p q (s.dropWaiters f i) := by
  unfold State.dropWaiters
  split
  · next e defined =>
    split
    · exact (State.works_revise defined List.filter_sublist .none).trans (State.works_grantPass i)
    · exact .refl
  · exact .refl

theorem State.works_dropAnswers (f : AnswerItem → Bool) : s.Works p q (s.dropAnswers f) := by
  refine (State.Work.home (.listed (s.home.answers.removeIf f) ?_ (OutList.countersSound_removeIf f _) ?_)).works
  · rw [OutList.items_removeIf]; exact .of_sublist List.filter_sublist
  · unfold OutList.removeIf
    split
    · exact fun on => nomatch on
    · exact id

theorem State.works_replaceRecord (st : StationNum) (sl : SlotNum) : s.Works p q (s.replaceRecord st sl) :=
  (State.works_dropAnswers _).trans (State.Works.foldl _ (State.works_dropWaiters _) allIndexes _)

/-! ### The end of a wait (R24, R34) -/

theorem State.works_endWait {i : ObjIndex} {e : ObjectEntry} {w : WaiterRecord} (status : AnswerStatus) (defined : s.home.entry i = some e)
    (waiting : w ∈ e.waiters) : s.Works p q (s.endWait i e w status) := by
  obtain ⟨front, back, _, list, erased⟩ := List.exists_erase_eq waiting
  unfold State.endWait
  rw [erased]
  exact (State.works_yield defined list .none status 0).trans (State.works_grantPass i)

theorem State.works_expire (i : ObjIndex) (st : StationNum) (sl : SlotNum) : s.Works p q (s.expire i st sl) := by
  unfold State.expire
  split
  · next e defined =>
    split
    · next w found => exact State.works_endWait _ defined (List.mem_of_find?_eq_some found)
    · exact .refl
  · exact .refl

/-! ### The purge and reclaim (R61, R160) -/

theorem State.works_reclaimAt (n : StationNum) (s : State) (i : ObjIndex) : s.Works p q (s.reclaimAt n i) := by
  unfold State.reclaimAt
  split
  · next e r defined found =>
    split
    · next tracked =>
      exact (State.works_revise defined (List.Sublist.refl _) (.reclaim tracked found)).trans (State.works_grantPass i)
    · exact .refl
  · exact .refl

theorem State.works_purgeHome (n : StationNum) (s : State) : s.Works p q (s.purgeHome n) := by
  unfold State.purgeHome
  generalize allIndexes = l
  exact ((State.Works.foldl _ (State.works_dropWaiters _) l s).trans (State.works_dropAnswers _)).trans
    (State.Works.foldl _ (State.works_reclaimAt n) l _)

/-! ### The flush (R27) -/

theorem State.setEntry_produce (i : ObjIndex) (e : ObjectEntry) (x : AnswerItem) (s : State) :
    (s.produce x).setEntry i e = (s.setEntry i e).produce x := by
  rw [State.produce, State.produce, State.setEntry_control]
  split <;> rfl

theorem State.setEntry_setEntry (i : ObjIndex) (e f : ObjectEntry) (s : State) : (s.setEntry i e).setEntry i f = s.setEntry i f := by
  simp [State.setEntry, Home.setEntry]

/-- Records that leave their list together, each with its answer, leave it one by one. -/
theorem State.works_flush_list (i : ObjIndex) (l : List WaiterRecord) (s : State) (e : ObjectEntry) (defined : s.home.entry i = some e)
    (list : e.waiters = l) :
    s.Works p q (l.foldl (fun t w => t.produce (.record w .homeAbsent 0)) (s.setEntry i { e with waiters := [] })) := by
  induction l generalizing s e with
  | nil =>
    have same : s.setEntry i { e with waiters := [] } = { s with home := s.home.revised i { e with waiters := [] } s.home.holds } := rfl
    rw [List.foldl_nil, same]
    exact State.works_revise defined (list ▸ List.Sublist.refl _) .none
  | cons w rest ih =>
    have first : s.Works p q ((s.setEntry i { e with waiters := rest }).produce (.record w .homeAbsent 0)) :=
      State.works_yield (front := []) defined list .none _ _
    have others := ih ((s.setEntry i { e with waiters := rest }).produce (.record w .homeAbsent 0)) { e with waiters := rest }
      (by rw [State.produce_entry]; exact s.home.entry_setEntry_same i _) rfl
    rw [State.setEntry_produce, State.setEntry_setEntry] at others
    exact first.trans others

theorem State.works_flush (s : State) : s.Works p q s.flush := by
  refine State.Works.foldl _ (fun s i => ?_) allIndexes s
  unfold State.flushObject
  split
  · next e defined => exact State.works_flush_list i e.waiters s e defined rfl
  · exact .refl

/-! ### Requests at their objects -/

variable {f : Frame} {e : ObjectEntry}

/-- A request that must wait (R46, R75). -/
theorem State.works_wait (op : WaitOp) (free : 0 < s.home.freeImmediate) (answered : p f.sender) (named : q f.sender)
    (defined : s.home.entry f.index = some e)
    (fits : match op with
      | .acquire u => e.definition.isSemaphore = true ∧ 1 ≤ u ∧ u ≤ e.definition.bound
      | .take => e.definition.isSemaphore = false)
    (empty : e.definition.isSemaphore = false → e.level = 0) : s.Works p q (s.wait op f) := by
  have fresh := s.replaceRecord_fresh f.sender f.slot
  have free' := s.freeImmediate_replaceRecord f.sender f.slot
  have chain : s.Works p q (s.replaceRecord f.sender f.slot) := State.works_replaceRecord _ _
  obtain ⟨e', defined', definition, _⟩ := (State.keeps_replaceRecord f.sender f.slot s).entry defined
  have fill : e'.definition.isSemaphore = false → e'.level = 0 := by
    intro mailbox
    rw [definition] at mailbox
    obtain ⟨g, hg, _, level⟩ := s.keepsFill_replaceRecord f.sender f.slot f.index e defined mailbox
    rw [defined'] at hg; cases hg
    exact level.trans (empty mailbox)
  refine chain.trans ?_
  rw [State.wait_eq op f s _ rfl]
  generalize s.replaceRecord f.sender f.slot = t at *
  split
  · exact State.works_answer _ _ _ (free' ▸ free) answered
  · next room =>
    refine State.Works.trans ?_ (State.works_grantPass f.index)
    unfold State.insertRecord
    rw [defined']
    refine (State.Work.home (.enlist defined' ⟨rfl, ?_⟩ fill (Nat.pos_of_ne_zero room) (fun x hx => ?_) rfl named)).works
    · cases op with
      | acquire u => exact definition ▸ fits
      | take => exact Bool.eq_false_iff.mp (definition ▸ fits)
    · have := fresh x hx
      simp only [WaiterRecord.isOf, Bool.and_eq_false_iff, decide_eq_false_iff_not] at this
      exact this.imp Ne.symm Ne.symm

/-- ACQUIRE (R43 to R46). -/
theorem State.works_takeAcquire (free : 0 < s.home.freeImmediate) (answered : p f.sender) (named : q f.sender)
    (defined : s.home.entry f.index = some e) (semaphore : e.definition.isSemaphore = true) (least : 1 ≤ f.units.toNat)
    (most : f.units.toNat ≤ e.definition.bound) : s.Works p q (s.takeAcquire f e) := by
  have answer : ∀ t : State, t.home.freeImmediate = s.home.freeImmediate → ∀ status value,
      t.Works p q (t.answer f .acquire status value) := fun t same status value =>
    State.works_answer _ _ _ (same ▸ free) answered
  unfold State.takeAcquire
  split
  · unfold State.tryAcquire
    simp only
    split
    · next granted =>
      have there : f.units.toNat ≤ e.level := ((tryGranted_iff f e).mp granted).1
      split
      · next tracked =>
        split
        · next holds obtained =>
          have lowered : s.Works p q { s with home := s.home.revised f.index { e with level := e.level - f.units.toNat } holds } :=
            State.works_revise defined (List.Sublist.refl _) (.grant tracked there (.inr ⟨least, named⟩) obtained)
          refine lowered.trans (answer _ ?_ _ _); rfl
        · exact answer s rfl _ _
      · next signal =>
        have falls : e.level - f.units.toNat ≤ e.level := Nat.sub_le _ _
        have lowered : s.Works p q (s.setEntry f.index { e with level := e.level - f.units.toNat }) :=
          State.works_revise defined (List.Sublist.refl _) (.count semaphore (Bool.eq_false_iff.mpr signal) (.inl falls))
        refine lowered.trans (answer _ ?_ _ _); rfl
    · exact answer s rfl _ _
  · exact State.works_wait (.acquire f.units.toNat) free answered named defined ⟨semaphore, least, most⟩
      fun mailbox => by rw [semaphore] at mailbox; exact nomatch mailbox

/-- RELEASE (R52, R53). -/
theorem State.works_takeRelease (free : 0 < s.home.freeImmediate) (answered : p f.sender) (defined : s.home.entry f.index = some e)
    (semaphore : e.definition.isSemaphore = true) : s.Works p q (s.takeRelease f e) := by
  have answer : ∀ t : State, t.home.freeImmediate = s.home.freeImmediate → ∀ status value,
      t.Works p q (t.answer f .release status value) := fun t same status value =>
    State.works_answer _ _ _ (same ▸ free) answered
  unfold State.takeRelease
  simp only
  split
  · next tracked =>
    split
    · exact answer s rfl _ _
    · next held =>
      have raised := State.works_revise (p := p) (q := q) defined (List.Sublist.refl _) (.back tracked (Nat.not_lt.mp held))
      refine (raised.trans (answer _ ?_ _ _)).trans (State.works_grantPass _); rfl
  · next signal =>
    split
    · exact answer s rfl _ _
    · next room =>
      have raised : s.Works p q (s.setEntry f.index { e with level := e.level + f.units.toNat }) :=
        State.works_revise defined (List.Sublist.refl _)
          (.count semaphore (Bool.eq_false_iff.mpr signal) (.inr (Nat.not_lt.mp room)))
      refine (raised.trans (answer _ ?_ _ _)).trans (State.works_grantPass _); rfl

theorem State.produce_own {x : AnswerItem} (s : State) (own : x.dest = s.control.number) :
    s.produce x = { s with client := s.client.receive s.control.number x.entry } := if_pos own

theorem State.produce_other {x : AnswerItem} (s : State) (other : x.dest ≠ s.control.number) :
    s.produce x = { s with home := { s.home with answers := s.home.answers.push x } } := if_neg other

/-- Two answers at the tail of the answer list in the other order are a move away. -/
theorem Home.move_swap (own : StationNum) (h : Home) (x y : AnswerItem) :
    Home.Move own p q { h with answers := (h.answers.push x).push y } { h with answers := (h.answers.push y).push x } := by
  refine .listed ((h.answers.push y).push x) (.of_perm ?_) (fun c => ⟨c.silence, c.busy, fun none => ?_⟩) id
  · simp only [OutList.push, List.append_assoc, List.cons_append, List.nil_append]
    exact (List.Perm.swap x y []).append_left _
  · simp [OutList.push] at none

/-- POST to a waiting taker (R68, R69): the sender's answer comes before the taker's. -/
theorem State.works_handOff {w : WaiterRecord} {rest : List WaiterRecord} (free : 0 < s.home.freeImmediate) (answered : p f.sender)
    (defined : s.home.entry f.index = some e) (list : e.waiters = w :: rest) :
    s.Works p q (((s.setEntry f.index { e with waiters := rest }).answer f .post .ok 0).produce (.record w .ok f.word)) := by
  by_cases taker : w.requester = s.control.number
  · rw [State.produce_own (x := .record w .ok f.word) _ (by rw [State.answer, State.produce_control]; exact taker)]
    have left : s.Works p q (s.setEntry f.index { e with waiters := rest }) :=
      State.works_revise defined (list ▸ List.sublist_cons_self w rest) .none
    exact (left.trans (State.works_answer .post .ok 0 free answered)).tail (.own _)
  · have served : s.Works p q ((s.setEntry f.index { e with waiters := rest }).produce (.record w .ok f.word)) :=
      State.works_yield (front := []) defined list .none _ _
    rw [State.produce_other _ (by exact taker)] at served
    rw [State.produce_other (x := .record w .ok f.word) _ (by rw [State.answer, State.produce_control]; exact taker)]
    have same := (s.setEntry f.index { e with waiters := rest }).freeImmediate_produce_record w .ok f.word
    rw [State.produce_other _ (by exact taker)] at same
    have reply := State.works_answer (q := q) .post .ok 0 (Nat.lt_of_lt_of_eq free same.symm) answered
    by_cases sender : f.sender = s.control.number
    · rw [State.answer, State.produce_own _ (by exact sender)] at reply ⊢
      exact served.trans reply
    · rw [State.answer, State.produce_other _ (by exact sender)] at reply ⊢
      have swap := Home.move_swap (p := p) (q := q) s.control.number (s.setEntry f.index { e with waiters := rest }).home
        (.record w .ok f.word) (.immediate ⟨f.sender, f.slot, f.tag, .post, f.index, .ok, 0⟩)
      exact (served.trans reply).tail (.home swap)

/-- POST (R68 to R71). -/
theorem State.works_takePost (free : 0 < s.home.freeImmediate) (answered : p f.sender) (defined : s.home.entry f.index = some e)
    {k base : Nat} (definition : e.definition = .mailbox k base) : s.Works p q (s.takePost f e k base) := by
  have mailbox : e.definition.isSemaphore = false := by rw [definition]; rfl
  have ring : e.definition.bound = 2 ^ k ∧ e.definition.words = 2 ^ k := by rw [definition]; exact ⟨rfl, rfl⟩
  unfold State.takePost
  split
  · next w rest list => exact State.works_handOff free answered defined list
  · next no_taker =>
    split
    · exact State.works_answer _ _ _ free answered
    · next room =>
      simp only
      generalize position : (if f.urgent = true then _ else e.head + e.level) = place
      generalize moved : (if f.urgent = true then headBefore k e.head else e.head) = head
      have head_place : head = e.head ∨ head < e.definition.words := by
        rw [← moved]
        split
        · exact .inr (ring.2 ▸ headBefore_lt k e.head)
        · exact .inl rfl
      have filled : s.Works p q (s.setEntry f.index { e with level := e.level + 1, head }) :=
        State.works_revise defined (List.Sublist.refl _) (.ring mailbox (.inr ⟨no_taker, by omega⟩) head_place)
      have inside : ({ e with level := e.level + 1, head } : ObjectEntry).ringHas (ringAddress k base place) := by
        simp only [ObjectEntry.ringHas, definition]
        exact ⟨Nat.le_add_right _ _, Nat.add_lt_add_left (Nat.mod_lt _ (Nat.two_pow_pos k)) _⟩
      have placed := filled.tail (.home (.word (s.home.entry_setEntry_same f.index _) inside f.word))
      exact placed.trans (State.works_answer .post .ok _ free answered)

/-- TAKE (R73, R75). -/
theorem State.works_takeTake (free : 0 < s.home.freeImmediate) (answered : p f.sender) (named : q f.sender)
    (defined : s.home.entry f.index = some e) {k base : Nat} (definition : e.definition = .mailbox k base) :
    s.Works p q (s.takeTake f e k base) := by
  have mailbox : e.definition.isSemaphore = false := by rw [definition]; rfl
  unfold State.takeTake
  split
  · have head : (e.head + 1) % 2 ^ k < e.definition.words := by rw [definition]; exact Nat.mod_lt _ (Nat.two_pow_pos k)
    have taken : s.Works p q (s.setEntry f.index { e with level := e.level - 1, head := (e.head + 1) % 2 ^ k }) :=
      State.works_revise defined (List.Sublist.refl _) (.ring mailbox (.inl (Nat.sub_le _ _)) (.inr head))
    exact taken.trans (State.works_answer .take .ok _ free answered)
  · next empty =>
    split
    · exact State.works_answer _ _ _ free answered
    · exact State.works_wait .take free answered named defined mailbox fun _ => Nat.eq_zero_of_not_pos empty

/-- WITHDRAW (R37 to R39). -/
theorem State.works_takeWithdraw (free : 0 < s.home.freeImmediate) (answered : p f.sender) (defined : s.home.entry f.index = some e) :
    s.Works p q (s.takeWithdraw f e) := by
  unfold State.takeWithdraw
  split
  · next w found => exact State.works_endWait _ defined (List.mem_of_find?_eq_some found)
  · exact State.works_answer _ _ _ free answered

/-- What a request that passed the checks of R41 is known by. -/
theorem requestCheck_passed {op : Operation} {u : Nat} (h : requestCheck op u (some e) = none) :
    match op with
    | .acquire => e.definition.isSemaphore = true ∧ 1 ≤ u ∧ u ≤ e.definition.bound
    | .release => e.definition.isSemaphore = true
    | .post | .take => ∃ k base, e.definition = .mailbox k base
    | .query | .withdraw => True := by
  unfold requestCheck at h
  cases op with
  | query | withdraw => trivial
  | acquire =>
    cases hd : e.definition with
    | tracked c => simpa [hd, Definition.isSemaphore, Definition.bound] using h
    | signal m n => simpa [hd, Definition.isSemaphore, Definition.bound] using h
    | mailbox k base => simp [hd] at h
  | release =>
    cases hd : e.definition with
    | tracked c | signal m n => rfl
    | mailbox k base => simp [hd] at h
  | post | take =>
    cases hd : e.definition with
    | tracked c | signal m n => simp [hd] at h
    | mailbox k base => exact ⟨k, base, rfl⟩

/-- A request taken in ACTIVE (R85). -/
theorem State.works_applyRequest (op : Operation) (free : 0 < s.home.freeImmediate) (answered : p f.sender) (named : q f.sender) :
    s.Works p q (s.applyRequest f op) := by
  unfold State.applyRequest
  split
  · exact State.works_answer _ _ _ free answered
  · next passed =>
    split
    · next e defined =>
      rw [defined] at passed
      have known := requestCheck_passed passed
      cases op with
      | acquire => exact State.works_takeAcquire free answered named defined known.1 known.2.1 known.2.2
      | release => exact State.works_takeRelease free answered defined known
      | query => exact State.works_answer _ _ _ free answered
      | withdraw => exact State.works_takeWithdraw free answered defined
      | post =>
        obtain ⟨k, base, definition⟩ := known
        simp only [State.decideRequest, definition]
        exact State.works_takePost free answered defined definition
      | take =>
        obtain ⟨k, base, definition⟩ := known
        simp only [State.decideRequest, definition]
        exact State.works_takeTake free answered named defined definition
    · exact .refl

end

end Sys2Proof.Machine
end

section
/-! SUPPORT. Law 5: after every operation of the home half each semaphore's head still asks for more units than are there. -/

namespace Sys2Proof.Machine

section
variable {s t : State} {i : ObjIndex} {e : ObjectEntry}

/-- Law 5 where the entries stay. -/
theorem Home.HeadsWait.of_entries {h k : Home} (heads : h.HeadsWait) (same : ∀ j, k.entry j = h.entry j) : k.HeadsWait :=
  fun j e he => heads j e ((same j).symm.trans he)

/-- Law 5 where one entry is set to one that meets it. -/
theorem Home.HeadsWait.of_entry {h k : Home} (heads : h.HeadsWait) (defined : k.entry i = some e) (others : ∀ j, j ≠ i → k.entry j = h.entry j)
    (head : e.definition.isSemaphore = true → ∀ w ∈ e.waiters.head?, e.level < w.units) : k.HeadsWait := by
  intro j f hf semaphore
  by_cases at_i : j = i
  · subst at_i
    have hf : k.entry j = some f := hf
    rw [defined] at hf; cases hf
    exact head semaphore
  · exact heads j f ((others j at_i).symm.trans hf) semaphore

/-- The grant pass restores law 5 at its semaphore. -/
theorem State.headsWait_pass (heads : s.home.HeadsWait) (others : ∀ j, j ≠ i → t.home.entry j = s.home.entry j) :
    (t.grantPass i).home.HeadsWait := by
  intro j e he semaphore w hw
  by_cases at_i : j = i
  · subst at_i
    exact t.grantPass_settled j e he semaphore w hw
  · rw [Home.has, t.grantPass_other i j at_i] at he
    exact heads j e ((others j at_i).symm.trans he) semaphore w hw

theorem State.headsWait_answer {f : Frame} (op : Operation) (status : AnswerStatus) (value : Word) (heads : s.home.HeadsWait) :
    (s.answer f op status value).home.HeadsWait := heads.of_entries fun j => s.produce_entry _ j

theorem State.headsWait_dropWaiters (p : WaiterRecord → Bool) (s : State) (i : ObjIndex) (heads : s.home.HeadsWait) :
    (s.dropWaiters p i).home.HeadsWait := by
  unfold State.dropWaiters
  split
  · split
    · exact State.headsWait_pass heads fun j other => s.home.entry_setEntry_other _ other
    · exact heads
  · exact heads

theorem State.headsWait_replaceRecord (st : StationNum) (sl : SlotNum) (heads : s.home.HeadsWait) :
    (s.replaceRecord st sl).home.HeadsWait :=
  foldl_keeps (P := fun t => t.home.HeadsWait) _ (State.headsWait_dropWaiters _) allIndexes _ heads

theorem State.headsWait_endWait (w : WaiterRecord) (status : AnswerStatus) (heads : s.home.HeadsWait) :
    (s.endWait i e w status).home.HeadsWait :=
  State.headsWait_pass heads fun j other => (State.produce_entry _ _ j).trans (s.home.entry_setEntry_other _ other)

theorem State.headsWait_expire (st : StationNum) (sl : SlotNum) (heads : s.home.HeadsWait) : (s.expire i st sl).home.HeadsWait := by
  unfold State.expire
  split
  · split
    · exact State.headsWait_endWait _ _ heads
    · exact heads
  · exact heads

theorem State.headsWait_reclaimAt (n : StationNum) (s : State) (i : ObjIndex) (heads : s.home.HeadsWait) :
    (s.reclaimAt n i).home.HeadsWait := by
  unfold State.reclaimAt
  split
  · split
    · exact State.headsWait_pass heads fun j other => s.home.entry_setEntry_other _ other
    · exact heads
  · exact heads

theorem State.headsWait_purgeHome (n : StationNum) (heads : s.home.HeadsWait) : (s.purgeHome n).home.HeadsWait := by
  unfold State.purgeHome
  generalize allIndexes = l
  have dropped := foldl_keeps (P := fun t => t.home.HeadsWait) (State.dropWaiters fun w => decide (w.requester = n))
    (State.headsWait_dropWaiters _) l s heads
  exact foldl_keeps (P := fun t => t.home.HeadsWait) (State.reclaimAt n) (State.headsWait_reclaimAt n) l _ dropped

theorem State.headsWait_flush (heads : s.home.HeadsWait) : s.flush.home.HeadsWait := by
  refine foldl_keeps (P := fun t => t.home.HeadsWait) State.flushObject (fun s i heads => ?_) allIndexes s heads
  unfold State.flushObject
  split
  · next e defined =>
    have emptied : (s.setEntry i { e with waiters := [] }).home.HeadsWait :=
      heads.of_entry (s.home.entry_setEntry_same i _) (fun j other => s.home.entry_setEntry_other _ other) fun _ w hw => nomatch hw
    exact foldl_keeps (P := fun t => t.home.HeadsWait) _ (fun t w heads => heads.of_entries fun j => t.produce_entry _ j) e.waiters _
      emptied
  · exact heads

/-! ### Requests at their objects -/

variable {f : Frame}

theorem State.headsWait_wait (op : WaitOp) (heads : s.home.HeadsWait) : (s.wait op f).home.HeadsWait := by
  have replaced := State.headsWait_replaceRecord f.sender f.slot heads
  rw [State.wait_eq op f s _ rfl]
  generalize s.replaceRecord f.sender f.slot = t at *
  split
  · exact State.headsWait_answer _ _ _ replaced
  · refine State.headsWait_pass replaced fun j other => ?_
    unfold State.insertRecord
    split
    · exact t.home.entry_setEntry_other _ other
    · rfl

/-- Units that leave a semaphore leave its head waiting. -/
theorem Home.HeadsWait.lowered {h k : Home} (heads : h.HeadsWait) (defined : h.entry i = some e) (u : Nat)
    (same : ∀ j, k.entry j = (h.setEntry i { e with level := e.level - u }).entry j) : k.HeadsWait :=
  heads.of_entry ((same i).trans (h.entry_setEntry_same i _)) (fun j other => (same j).trans (h.entry_setEntry_other _ other))
    fun semaphore w hw => Nat.lt_of_le_of_lt (Nat.sub_le _ _) (heads i e defined semaphore w hw)

/-- Law 5 is not about mailboxes. -/
theorem Home.HeadsWait.mailbox {h k : Home} (heads : h.HeadsWait) (mailbox : e.definition.isSemaphore = false)
    (same : ∀ j, k.entry j = (h.setEntry i e).entry j) : k.HeadsWait :=
  heads.of_entry ((same i).trans (h.entry_setEntry_same i _)) (fun j other => (same j).trans (h.entry_setEntry_other _ other))
    fun semaphore => by rw [mailbox] at semaphore; exact nomatch semaphore

theorem State.headsWait_takeAcquire (defined : s.home.entry f.index = some e) (heads : s.home.HeadsWait) :
    (s.takeAcquire f e).home.HeadsWait := by
  unfold State.takeAcquire
  split
  · unfold State.tryAcquire
    simp only
    split
    · split
      · split
        · exact heads.lowered defined f.units.toNat fun j => State.produce_entry _ _ j
        · exact State.headsWait_answer _ _ _ heads
      · exact heads.lowered defined f.units.toNat fun j => State.produce_entry _ _ j
    · exact State.headsWait_answer _ _ _ heads
  · exact State.headsWait_wait _ heads

theorem State.headsWait_takeRelease (heads : s.home.HeadsWait) : (s.takeRelease f e).home.HeadsWait := by
  unfold State.takeRelease
  simp only
  split
  · split
    · exact State.headsWait_answer _ _ _ heads
    · exact State.headsWait_pass heads fun j other => (State.produce_entry _ _ j).trans (s.home.entry_setEntry_other _ other)
  · split
    · exact State.headsWait_answer _ _ _ heads
    · exact State.headsWait_pass heads fun j other => (State.produce_entry _ _ j).trans (s.home.entry_setEntry_other _ other)

theorem State.headsWait_takePost {k base : Nat} (definition : e.definition = .mailbox k base) (heads : s.home.HeadsWait) :
    (s.takePost f e k base).home.HeadsWait := by
  have mailbox : e.definition.isSemaphore = false := by rw [definition]; rfl
  unfold State.takePost
  split
  · next rest _ =>
    refine heads.mailbox (e := { e with waiters := rest }) (i := f.index) mailbox fun j => ?_
    rw [State.produce_entry, State.answer, State.produce_entry]; rfl
  · split
    · exact State.headsWait_answer _ _ _ heads
    · exact heads.mailbox (e := { e with level := e.level + 1, head := _ }) (i := f.index) mailbox fun j => State.produce_entry _ _ j

theorem State.headsWait_takeTake {k base : Nat} (definition : e.definition = .mailbox k base) (heads : s.home.HeadsWait) :
    (s.takeTake f e k base).home.HeadsWait := by
  have mailbox : e.definition.isSemaphore = false := by rw [definition]; rfl
  unfold State.takeTake
  split
  · exact heads.mailbox (e := { e with level := e.level - 1, head := _ }) (i := f.index) mailbox fun j => State.produce_entry _ _ j
  · split
    · exact State.headsWait_answer _ _ _ heads
    · exact State.headsWait_wait _ heads

theorem State.headsWait_takeWithdraw (heads : s.home.HeadsWait) : (s.takeWithdraw f e).home.HeadsWait := by
  unfold State.takeWithdraw
  split
  · exact State.headsWait_endWait _ _ heads
  · exact State.headsWait_answer _ _ _ heads

/-- A request taken in ACTIVE leaves every head waiting. -/
theorem State.headsWait_applyRequest (op : Operation) (heads : s.home.HeadsWait) : (s.applyRequest f op).home.HeadsWait := by
  unfold State.applyRequest
  split
  · exact State.headsWait_answer _ _ _ heads
  · split
    · next e defined =>
      unfold State.decideRequest
      split
      · exact State.headsWait_takeAcquire defined heads
      · exact State.headsWait_takeRelease heads
      · exact State.headsWait_answer _ _ _ heads
      · exact State.headsWait_takeWithdraw heads
      · split
        · next definition => exact State.headsWait_takePost definition heads
        · exact heads
        · exact heads
      · split
        · next definition => exact State.headsWait_takeTake definition heads
        · exact heads
        · exact heads
    · exact heads

end

end Sys2Proof.Machine
end

section
/-! SUPPORT. The laws of the home half together, and the changes that are no moves: definitions, initial values, station time, and the
settling at the start of a leave sequence. -/

namespace Sys2Proof.Machine

/-- Laws 1 to 8 of the home half, with the pool. -/
structure Home.Lawful (h : Home) : Prop where
  tight : h.Tight
  heads : h.HeadsWait
  order : h.ListsOrdered
  pool : h.PoolSound

/-- The laws of the home half hold where the laws of the device do. -/
theorem DeviceLaws.home {s : State} (laws : DeviceLaws s) : s.home.Lawful :=
  ⟨⟨⟨laws.conserves, laws.holds, laws.levels, laws.records⟩, laws.single, laws.pools⟩, laws.heads, laws.order, laws.pool⟩

/-- A chain of work that leaves every head waiting keeps the laws of the home half. -/
theorem State.Works.lawful {p q : StationNum → Prop} {s t : State} (w : s.Works p q t) (heads : s.home.HeadsWait → t.home.HeadsWait)
    (laws : s.home.Lawful) : t.home.Lawful :=
  ⟨w.home_induction (fun _ _ m => m.tight) laws.tight, heads laws.heads, w.home_induction (fun _ _ m => m.listsOrdered) laws.order,
    w.home_induction (fun _ _ m => m.poolSound) laws.pool⟩

/-! ### Homes at which no record waits and no unit is held -/

theorem Home.waiters_of_quiet {h : Home} (waiting : ∀ i, h.waitersAt i = []) {i : ObjIndex} {e : ObjectEntry} (defined : h.entry i = some e) :
    e.waiters = [] := by rw [← Home.waitersAt_of_entry defined, waiting i]

/-- Laws 7 and 8 of a home at which no record waits, its answers being some of those of a lawful one. -/
theorem Home.quiet_pools {h t : Home} (laws : h.Lawful) (waiting : ∀ i, t.waitersAt i = []) (answers : Among t.answers.items h.answers.items) :
    t.OnePerSlot ∧ t.WithinPools := by
  have no_list : allIndexes.flatMap t.waitersAt = [] := List.flatMap_eq_nil_iff.mpr fun i _ => waiting i
  have records : Among t.recordsInUse h.recordsInUse := by
    rw [Home.recordsInUse, no_list, List.nil_append]
    exact (answers.filterMap AnswerItem.record?).trans (.of_sublist (List.sublist_append_right _ _))
  exact ⟨laws.tight.single.of_among records, laws.tight.pools.of_fewer records.length_le (answers.countP_le _)⟩

/-- The laws of a home at which no record waits and no unit is held. -/
theorem Home.lawful_of_quiet {t : Home} (waiting : ∀ i, t.waitersAt i = []) (holds : t.holds = [])
    (entries : ∀ i e, t.entry i = some e → e.Fits ∧ (e.definition.isTracked = true → e.level = e.definition.bound))
    (pool : t.PoolSound) (pools : t.OnePerSlot ∧ t.WithinPools) : t.Lawful := by
  have none_waits := fun {i e} (defined : t.entry i = some e) => Home.waiters_of_quiet waiting defined
  refine ⟨⟨⟨fun i e he tracked => ?_, ⟨fun r hr => ?_, ?_, ?_⟩, fun i e he => (entries i e he).1, fun i e he w hw => ?_⟩, pools.1, pools.2⟩,
    fun i e he _ w hw => ?_, ⟨fun i => ?_, fun i w hw => ?_⟩, pool⟩
  · rw [Home.heldUnits_eq, holds]; exact (entries i e he).2 tracked
  · rw [holds] at hr; exact nomatch hr
  · rw [holds]; exact List.Pairwise.nil
  · rw [holds]; exact Nat.zero_le _
  · rw [none_waits he] at hw; exact nomatch hw
  · rw [none_waits he] at hw; exact nomatch hw
  · rw [waiting i]; exact List.Pairwise.nil
  · rw [waiting i] at hw; exact nomatch hw

/-- An entry at its initial values fits. -/
theorem ObjectEntry.fits_initial {d : Definition} (range : d.inRange) : (ObjectEntry.initial d).Fits := by
  refine ⟨range, ?_, ?_, fun _ some_left => absurd rfl some_left⟩
  · cases d with
    | tracked c => exact Nat.le_refl _
    | signal m n => exact range.2.2
    | mailbox k base => exact Nat.zero_le _
  · cases d with
    | tracked c => exact .inr ⟨rfl, rfl⟩
    | signal m n => exact .inr ⟨rfl, rfl⟩
    | mailbox k base => exact .inl (Nat.two_pow_pos k)

theorem ObjectEntry.initial_tracked {d : Definition} (tracked : d.isTracked = true) : (ObjectEntry.initial d).level = d.bound := by
  cases d with
  | tracked c => rfl
  | signal m n => exact nomatch tracked
  | mailbox k base => exact nomatch tracked

/-! ### Initial values (R11) -/

theorem Home.initRuntime_entry (h : Home) (i : ObjIndex) :
    h.initRuntime.entry i = (h.entry i).map fun e => ObjectEntry.initial e.definition := by
  simp [Home.initRuntime, Home.entry]

/-- The pool after the ring words of every mailbox were cleared. -/
theorem Home.PoolSound.initRuntime {h : Home} (s : h.PoolSound) : h.initRuntime.PoolSound := by
  refine s.of_definitions (fun i => ?_) rfl (wf_foldl_clearRing _ _ s.canonical) fun a ha => ?_
  · rw [Home.initRuntime_entry, Option.map_map]; rfl
  · obtain ⟨inside, outside⟩ := read_foldl_clearRing h.objects.toList h.pool a
    by_cases ring : ∃ o ∈ h.objects.toList, ∃ e, o = some e ∧ e.ringHas a
    · exact inside ring
    · exact (outside fun o ho e he hr => ring ⟨o, ho, e, he, hr⟩).trans (s.above a ha)

/-- With initial values no record waits. -/
theorem Home.initRuntime_waitersAt (h : Home) (i : ObjIndex) : h.initRuntime.waitersAt i = [] := by
  rw [Home.waitersAt, Home.initRuntime_entry]
  cases h.entry i <;> rfl

/-- Initial values keep the laws, and so do fewer answers with them. -/
theorem Home.Lawful.renewed {h : Home} (laws : h.Lawful) (arrivals : Nat) {answers : OutList AnswerItem}
    (fewer : Among answers.items h.answers.items) : Home.Lawful { h.initRuntime with arrivals, answers } := by
  refine Home.lawful_of_quiet h.initRuntime_waitersAt rfl (fun i f hf => ?_)
    ⟨laws.pool.initRuntime.canonical, laws.pool.initRuntime.account, laws.pool.initRuntime.fits, laws.pool.initRuntime.inside,
      laws.pool.initRuntime.apart, laws.pool.initRuntime.above⟩ (Home.quiet_pools laws h.initRuntime_waitersAt fewer)
  have hf : h.initRuntime.entry i = some f := hf
  rw [Home.initRuntime_entry] at hf
  obtain ⟨e, he, rfl⟩ := Option.map_eq_some_iff.mp hf
  exact ⟨ObjectEntry.fits_initial (laws.tight.balanced.levels i e he).range, ObjectEntry.initial_tracked⟩

theorem Home.Lawful.initRuntime {h : Home} (laws : h.Lawful) : h.initRuntime.Lawful :=
  laws.renewed h.arrivals (.refl _)

theorem Home.Lawful.restart {h : Home} (laws : h.Lawful) : h.restart.Lawful :=
  laws.renewed 0 .nil

/-! ### No definitions (R9, R183) -/

/-- The pool with nothing carved out of it. -/
theorem Home.poolSound_of_undefined {t : Home} (entries : ∀ i, t.entry i = none) (used : t.poolUsed = 0) (pool : t.pool = []) :
    t.PoolSound := by
  have absent : ∀ {i e}, t.entry i = some e → False := fun {i e} he => by rw [entries i] at he; exact nomatch he
  refine ⟨pool ▸ ⟨List.Pairwise.nil, fun c hc => nomatch hc⟩, ?_, used ▸ Nat.zero_le _, fun i e he => (absent he).elim,
    fun i j e f _ he => (absent he).elim, fun a _ => pool ▸ rfl⟩
  rw [used, Home.ringWords_eq, List.map_congr_left (g := fun _ => 0) fun i _ => by rw [entries i]; rfl, List.map_const',
    List.sum_replicate_nat, Nat.mul_zero]

/-- The laws of a home without definitions. -/
theorem Home.lawful_of_undefined {t : Home} (entries : ∀ i, t.entry i = none) (used : t.poolUsed = 0) (pool : t.pool = [])
    (holds : t.holds = []) (pools : t.OnePerSlot ∧ t.WithinPools) : t.Lawful :=
  Home.lawful_of_quiet (fun i => by rw [Home.waitersAt, entries i]; rfl) holds
    (fun i e he => by rw [entries i] at he; exact nomatch he) (Home.poolSound_of_undefined entries used pool) pools

theorem Home.Lawful.clearDefinitions {h : Home} (laws : h.Lawful) (holds : h.holds = []) : h.clearDefinitions.Lawful := by
  refine Home.lawful_of_undefined h.clearDefinitions_entry rfl rfl holds (Home.quiet_pools laws (fun i => ?_) (.refl _))
  rw [Home.waitersAt, h.clearDefinitions_entry]; rfl

theorem Home.powerOn_entry (i : ObjIndex) : Home.powerOn.entry i = none := by simp [Home.entry, Home.powerOn]

theorem Home.powerOn_waitersAt (i : ObjIndex) : Home.powerOn.waitersAt i = [] := by
  rw [Home.waitersAt, Home.powerOn_entry]; rfl

theorem Home.lawful_powerOn : Home.powerOn.Lawful := by
  have none_used : Home.powerOn.recordsInUse = [] := by
    rw [Home.recordsInUse, List.flatMap_eq_nil_iff.mpr fun i _ => Home.powerOn_waitersAt i]; rfl
  refine Home.lawful_of_undefined Home.powerOn_entry rfl rfl rfl ⟨?_, ?_, Nat.zero_le _⟩
  · rw [Home.OnePerSlot, none_used]; exact List.Pairwise.nil
  · rw [← Home.recordsInUse_length, none_used]; exact Nat.zero_le _

/-! ### DEFINE (R5, R8) -/

/-- The words of the rings after an absent entry was defined. -/
theorem Home.ringWords_setEntry {h : Home} {i : ObjIndex} (absent : h.entry i = none) (e : ObjectEntry) :
    (h.setEntry i e).ringWords = h.ringWords + e.definition.words := by
  have split : ∀ t : Home, t.ringWords =
      (((t.entry i).map ObjectEntry.definition).map Definition.words).getD 0 + ((allIndexes.erase i).map fun j =>
        (((t.entry j).map ObjectEntry.definition).map Definition.words).getD 0).sum := fun t => by
    rw [Home.ringWords_eq, ((List.perm_cons_erase (mem_allIndexes i)).map _).sum_nat, List.map_cons, List.sum_cons]
  have others : ((allIndexes.erase i).map fun j => ((((h.setEntry i e).entry j).map ObjectEntry.definition).map Definition.words).getD 0) =
      (allIndexes.erase i).map fun j => (((h.entry j).map ObjectEntry.definition).map Definition.words).getD 0 :=
    List.map_congr_left fun j hj => by rw [h.entry_setEntry_other e (nodup_allIndexes.mem_erase_iff.mp hj).1]
  rw [split, split h, others, h.entry_setEntry_same, absent]
  simp [Nat.add_comm]

/-- A mailbox definition carves its ring at `base`. -/
def Definition.carvedAt (d : Definition) (base : Nat) : Prop := ∀ k b, d = .mailbox k b → b = base

/-- A new ring takes the words from its base on and no others. -/
theorem ObjectEntry.ringHas_carved {d : Definition} {base a : Nat} (carved : d.carvedAt base) (inside : (ObjectEntry.initial d).ringHas a) :
    base ≤ a ∧ a < base + d.words := by
  cases d with
  | tracked c => exact inside.elim
  | signal m n => exact inside.elim
  | mailbox k b => rw [← carved k b rfl]; exact inside

/-- An accepted DEFINE keeps the pool sound. -/
theorem Home.PoolSound.define {h : Home} (s : h.PoolSound) {i : ObjIndex} {d : Definition} (absent : h.entry i = none)
    (carved : d.carvedAt h.poolUsed) (room : h.poolUsed + d.words ≤ Config.poolWords) : (h.define i d).PoolSound := by
  have entry : ∀ j, (h.define i d).entry j = if j = i then some (ObjectEntry.initial d) else h.entry j := fun j => h.entry_setEntry i j _
  have new : ∀ a, (ObjectEntry.initial d).ringHas a → h.poolUsed ≤ a ∧ a < h.poolUsed + d.words := fun a => ObjectEntry.ringHas_carved carved
  have old : ∀ j f a, h.entry j = some f → f.ringHas a → a < h.poolUsed := fun j f a hf ha => s.inside j f hf a ha
  refine ⟨wf_foldl_clearRing [some (ObjectEntry.initial d)] _ s.canonical, ?_, room, fun j f hf a ha => ?_,
    fun j k f g hjk hf hg a ha hga => ?_, fun a ha => ?_⟩
  · exact (congrArg (· + d.words) s.account).trans (Home.ringWords_setEntry absent (ObjectEntry.initial d)).symm
  · rw [Home.has, entry] at hf
    split at hf
    · cases hf; exact (new a ha).2
    · exact Nat.lt_of_lt_of_le (old j f a hf ha) (Nat.le_add_right _ _)
  · rw [Home.has, entry] at hf hg
    split at hf
    · cases hf
      split at hg
      · next hj hk => exact hjk (hj.trans hk.symm)
      · exact absurd (new a ha).1 (Nat.not_le.mpr (old k g a hg hga))
    · split at hg
      · cases hg; exact absurd (new a hga).1 (Nat.not_le.mpr (old j f a hf ha))
      · exact s.apart j k f g hjk hf hg a ha hga
  · obtain ⟨inside, outside⟩ := read_clearRing h.pool (some (ObjectEntry.initial d)) a
    by_cases ring : (ObjectEntry.initial d).ringHas a
    · exact inside ⟨_, rfl, ring⟩
    · exact (outside fun e he => by cases he; exact ring).trans (s.above a (Nat.le_trans (Nat.le_add_right _ _) ha))

/-- An accepted DEFINE keeps the laws, with no record waiting and no unit held. -/
theorem Home.Lawful.define {h : Home} (laws : h.Lawful) (waiting : ∀ i, h.waitersAt i = []) (holds : h.holds = []) {i : ObjIndex}
    {d : Definition} (absent : h.entry i = none) (range : d.inRange) (carved : d.carvedAt h.poolUsed)
    (room : h.poolUsed + d.words ≤ Config.poolWords) : (h.define i d).Lawful := by
  have entry : ∀ j, (h.define i d).entry j = if j = i then some (ObjectEntry.initial d) else h.entry j := fun j => h.entry_setEntry i j _
  have waiting' : ∀ j, (h.define i d).waitersAt j = [] := fun j => by
    rw [Home.waitersAt, entry]
    split
    · rfl
    · exact waiting j
  refine Home.lawful_of_quiet waiting' holds (fun j f hf => ?_) (laws.pool.define absent carved room)
    (Home.quiet_pools laws waiting' (.refl _))
  rw [entry] at hf
  split at hf
  · cases hf; exact ⟨ObjectEntry.fits_initial range, ObjectEntry.initial_tracked⟩
  · refine ⟨laws.tight.balanced.levels j f hf, fun tracked => ?_⟩
    have := laws.tight.balanced.conserves j f hf tracked
    rwa [Home.heldUnits_eq, holds] at this

/-! ### The settling at the start of a leave sequence (R58) -/

theorem Home.settle_entry (h : Home) (i : ObjIndex) : h.settle.entry i = (h.entry i).map ObjectEntry.settled :=
  h.entry_mapVec (Option.map ObjectEntry.settled) i

theorem ObjectEntry.settled_same (e : ObjectEntry) :
    e.settled.definition = e.definition ∧ e.settled.head = e.head ∧ e.settled.waiters = e.waiters := by
  unfold ObjectEntry.settled
  split <;> exact ⟨rfl, rfl, rfl⟩

theorem ObjectEntry.settled_level (e : ObjectEntry) :
    e.settled.level = if e.definition.isTracked = true then e.definition.bound else e.level := by
  unfold ObjectEntry.settled
  cases hd : e.definition <;> rfl

theorem Home.settle_waitersAt (h : Home) (i : ObjIndex) : h.settle.waitersAt i = h.waitersAt i := by
  rw [Home.waitersAt, Home.waitersAt, h.settle_entry]
  cases h.entry i with
  | none => rfl
  | some e => exact e.settled_same.2.2

/-- The settling keeps the laws, with no record waiting. -/
theorem Home.Lawful.settle {h : Home} (laws : h.Lawful) (waiting : ∀ i, h.waitersAt i = []) : h.settle.Lawful := by
  have waiting' : ∀ i, h.settle.waitersAt i = [] := fun i => (h.settle_waitersAt i).trans (waiting i)
  refine Home.lawful_of_quiet waiting' rfl (fun i f hf => ?_) ?_ (Home.quiet_pools laws waiting' (.refl _))
  · rw [Home.settle_entry] at hf
    obtain ⟨e, he, rfl⟩ := Option.map_eq_some_iff.mp hf
    have fits := laws.tight.balanced.levels i e he
    obtain ⟨definition, head, waiters⟩ := e.settled_same
    have level := e.settled_level
    refine ⟨⟨definition ▸ fits.range, ?_, definition.symm ▸ head.symm ▸ fits.head, fun _ some_left => ?_⟩, fun tracked => ?_⟩
    · rw [level, definition]
      split
      · exact Nat.le_refl _
      · exact fits.level
    · exact absurd (waiters.trans (Home.waiters_of_quiet waiting he)) some_left
    · rw [definition] at tracked ⊢
      rw [level, if_pos tracked]
  · refine laws.pool.of_definitions (fun i => ?_) rfl laws.pool.canonical laws.pool.above
    rw [Home.settle_entry, Option.map_map]
    congr 1
    funext e
    exact e.settled_same.1

/-! ### Station time (R34) -/

theorem Home.advance_entry (h : Home) (time : Word) (i : ObjIndex) :
    (h.advance time).entry i = (h.entry i).map fun e => { e with waiters := e.waiters.map (WaiterRecord.reach time) } :=
  h.entry_mapVec _ i

theorem Home.advance_waitersAt (h : Home) (time : Word) (i : ObjIndex) :
    (h.advance time).waitersAt i = (h.waitersAt i).map (WaiterRecord.reach time) := by
  rw [Home.waitersAt, Home.advance_entry, Home.waitersAt]
  cases h.entry i <;> rfl

/-- The records in use after an advance: the WAITING ones may have become due. -/
theorem Home.advance_recordsInUse (h : Home) (time : Word) : (h.advance time).recordsInUse =
    ((allIndexes.flatMap h.waitersAt).map (WaiterRecord.reach time)) ++ h.answers.items.filterMap AnswerItem.record? := by
  rw [Home.recordsInUse, List.map_flatMap]
  exact congrArg (· ++ _) (flatMap_same fun i _ => h.advance_waitersAt time i)

theorem Home.Lawful.advance {h : Home} (laws : h.Lawful) (time : Word) : (h.advance time).Lawful := by
  have entry := fun {i f} (hf : (h.advance time).entry i = some f) => Option.map_eq_some_iff.mp ((h.advance_entry time i).symm.trans hf)
  obtain ⟨⟨balanced, one, pools⟩, heads, order, pool⟩ := laws
  obtain ⟨well, tracked⟩ := h.holdsSound_iff.mp balanced.holds
  have length : (h.advance time).recordsInUse.length = h.recordsInUse.length := by
    rw [Home.advance_recordsInUse, List.length_append, List.length_map, ← List.length_append]; rfl
  refine ⟨⟨⟨fun i f hf => ?_, (Home.holdsSound_iff _).mpr ⟨well, fun r hr => ?_⟩, fun i f hf => ?_, fun i f hf w hw => ?_⟩, ?_,
    pools.of_fewer (Nat.le_of_eq length) (Nat.le_refl _)⟩, fun i f hf semaphore w hw => ?_, ⟨fun i => ?_, fun i w hw => ?_⟩,
    pool.of_definitions (fun i => ?_) rfl pool.canonical pool.above⟩
  · obtain ⟨e, he, rfl⟩ := entry hf
    exact balanced.conserves i e he
  · obtain ⟨e, he, ht⟩ := tracked r hr
    exact ⟨_, (h.advance_entry time _).trans (congrArg _ he), ht⟩
  · obtain ⟨e, he, rfl⟩ := entry hf
    have fits := balanced.levels i e he
    exact ⟨fits.range, fits.level, fits.head, fun mailbox some_left => fits.empty mailbox (mt (congrArg _) some_left)⟩
  · obtain ⟨e, he, rfl⟩ := entry hf
    obtain ⟨v, hv, rfl⟩ := List.mem_map.mp hw
    exact balanced.records i e he v hv
  · rw [Home.OnePerSlot, Home.advance_recordsInUse]
    have one' := List.pairwise_append.mp one
    refine List.pairwise_append.mpr ⟨List.pairwise_map.mpr one'.1, one'.2.1, fun a ha b hb => ?_⟩
    obtain ⟨v, hv, rfl⟩ := List.mem_map.mp ha
    exact one'.2.2 v hv b hb
  · obtain ⟨e, he, rfl⟩ := entry hf
    rw [List.head?_map, Option.mem_def, Option.map_eq_some_iff] at hw
    obtain ⟨v, hv, rfl⟩ := hw
    exact heads i e he semaphore v hv
  · rw [Home.advance_waitersAt]
    exact List.pairwise_map.mpr (order.ordered i)
  · rw [Home.advance_waitersAt] at hw
    obtain ⟨v, hv, rfl⟩ := List.mem_map.mp hw
    exact order.earlier i v hv
  · rw [Home.advance_entry, Option.map_map]; rfl

end Sys2Proof.Machine
end

section
/-! SUPPORT. Laws 9 and 10: every operation of the client engine keeps the ring with the DONE slots and the request list with the
busy ones. -/

namespace Sys2Proof.Machine

/-- Laws 9 and 10. -/
structure Client.Lawful (c : Client) : Prop where
  ring : c.RingSound
  requests : c.RequestsSound

theorem DeviceLaws.client {s : State} (laws : DeviceLaws s) : s.client.Lawful := ⟨laws.ring, laws.requests⟩

section
variable {c t : Client} {n : SlotNum}

/-! ### One slot changes -/

/-- A completion record's slot is in DONE. -/
theorem CompletionRecord.IsOf.isDone {r : CompletionRecord} {k : TaskSlot} (h : r.IsOf k) : k.use.isDone = true := by
  obtain ⟨_, hu⟩ := h
  cases hk : k.use with
  | done q st v => rfl
  | free | queued _ | sent _ | cancelling _ | returning _ _ => rw [hk] at hu; exact hu.elim

/-- A slot that is not in DONE has no record in the ring. -/
theorem Client.RingSound.not_mem (s : c.RingSound) (not_done : (c.slot n).use.isDone = false) : n ∉ c.ring.map CompletionRecord.slot := by
  intro hn
  obtain ⟨r, hr, rfl⟩ := List.mem_map.mp hn
  rw [(s.holds r hr).isDone] at not_done
  exact nomatch not_done

/-- Law 9 where one slot outside DONE stays outside DONE. -/
theorem Client.RingSound.of_slot (s : c.RingSound) (others : ∀ m, m ≠ n → t.slot m = c.slot m) (before : (c.slot n).use.isDone = false)
    (after : (t.slot n).use.isDone = false) (ring : t.ring = c.ring) : t.RingSound := by
  refine ⟨ring ▸ s.single, fun r hr => ?_, fun m hm => ?_⟩
  · rw [ring] at hr
    have apart : r.slot ≠ n := fun same => s.not_mem before (same ▸ List.mem_map_of_mem hr)
    rw [others _ apart]; exact s.holds r hr
  · have apart : m ≠ n := by rintro rfl; rw [after] at hm; exact nomatch hm
    rw [others m apart] at hm
    rw [ring]; exact s.complete m hm

/-- Law 9 where one slot outside DONE goes to DONE and its record joins the ring. -/
theorem Client.RingSound.of_done (s : c.RingSound) (others : ∀ m, m ≠ n → t.slot m = c.slot m) (before : (c.slot n).use.isDone = false)
    {r : CompletionRecord} (named : r.slot = n) (record : r.IsOf (t.slot n)) (ring : t.ring = c.ring ++ [r]) : t.RingSound := by
  have new := s.not_mem before
  refine ⟨?_, fun q hq => ?_, fun m hm => ?_⟩
  · rw [ring, List.map_append, List.map_singleton, named]
    refine List.nodup_append.mpr ⟨s.single, List.pairwise_singleton _ _, fun a ha b hb => ?_⟩
    rw [List.mem_singleton.mp hb]; rintro rfl; exact new ha
  · rw [ring] at hq
    rcases List.mem_append.mp hq with hq | hq
    · have apart : q.slot ≠ n := fun same => new (same ▸ List.mem_map_of_mem hq)
      rw [others _ apart]; exact s.holds q hq
    · rw [List.mem_singleton.mp hq, named]; exact record
  · rw [ring, List.map_append, List.mem_append]
    by_cases at_n : m = n
    · subst at_n; exact .inr (by simp [named])
    · rw [others m at_n] at hm; exact .inl (s.complete m hm)

/-- An entry's slot is busy. -/
theorem EntrySort.belongs_busy {sort : EntrySort} {u : SlotUse} (h : sort.belongs u = true) : ∃ r, u.busy? = some r := by
  cases u with
  | free => cases sort <;> exact nomatch h
  | done _ _ _ => cases sort <;> exact nomatch h
  | queued r | sent r | cancelling r => exact ⟨r, rfl⟩
  | returning r v => exact ⟨r, rfl⟩

/-- A slot whose use no entry belongs to has none on the list. -/
theorem Client.RequestsSound.no_entry (s : c.RequestsSound) (none_belongs : ∀ sort : EntrySort, sort.belongs (c.slot n).use = false) :
    (c.requests.items.filter fun e => decide (e.slot ≠ n)) = c.requests.items := by
  refine List.filter_eq_self.mpr fun e he => decide_eq_true ?_
  rintro rfl
  have := s.belongs e he
  rw [none_belongs] at this
  exact nomatch this

/-- Law 10 where one slot changes: its entry leaves the list, and at most one of its new state joins. -/
theorem Client.RequestsSound.of_slot (s : c.RequestsSound) (others : ∀ m, m ≠ n → t.slot m = c.slot m) {extra : List RequestEntry}
    (items : t.requests.items = (c.requests.items.filter fun e => decide (e.slot ≠ n)) ++ extra) (one : extra.length ≤ 1)
    (fits : ∀ e ∈ extra, e.slot = n ∧ e.sort.belongs (t.slot n).use = true)
    (queued : ∀ r, (t.slot n).use = .queued r → ⟨n, .request⟩ ∈ extra) : t.RequestsSound := by
  have kept : ∀ e ∈ c.requests.items.filter fun e => decide (e.slot ≠ n), e.slot ≠ n ∧ e ∈ c.requests.items := fun e he =>
    ⟨of_decide_eq_true (List.mem_filter.mp he).2, (List.mem_filter.mp he).1⟩
  refine ⟨?_, fun e he => ?_, fun m r hm => ?_⟩
  · rw [items, List.map_append]
    refine List.nodup_append.mpr ⟨s.single.sublist (List.filter_sublist.map _), ?_, fun a ha b hb => ?_⟩
    · match extra, one with
      | [], _ => exact List.nodup_nil
      | [e], _ => exact List.pairwise_singleton _ _
    · obtain ⟨e, he, rfl⟩ := List.mem_map.mp ha
      obtain ⟨x, hx, rfl⟩ := List.mem_map.mp hb
      rw [(fits x hx).1]; exact (kept e he).1
  · rw [items] at he
    rcases List.mem_append.mp he with he | he
    · rw [others _ (kept e he).1]; exact s.belongs e (kept e he).2
    · obtain ⟨slot, belongs⟩ := fits e he
      rw [slot]; exact belongs
  · rw [items, List.mem_append]
    by_cases at_n : m = n
    · subst at_n; exact .inr (queued r hm)
    · rw [others m at_n] at hm
      exact .inl (List.mem_filter.mpr ⟨s.queued m r hm, decide_eq_true at_n⟩)

/-- With no busy slot the request list is empty. -/
theorem Client.RequestsSound.items_at_rest (s : c.RequestsSound) (rest : ∀ n, (c.slot n).use.busy = false) : c.requests.items = [] := by
  refine List.eq_nil_iff_forall_not_mem.mpr fun e he => ?_
  obtain ⟨r, hr⟩ := EntrySort.belongs_busy (s.belongs e he)
  have := rest e.slot
  rw [SlotUse.busy, hr] at this
  exact nomatch this

/-! ### What follows without new requests -/

/-- `t` follows `c` with no slot newly busy: the laws are kept, and the request list's counters, and no attempt begins. -/
structure Client.Follows (c t : Client) : Prop where
  lawful : c.Lawful → t.Lawful
  busy : ∀ n r, (t.slot n).use.busy? = some r → (c.slot n).use.busy? = some r
  counters : c.requests.CountersSound → t.requests.CountersSound
  onLine : t.requests.onLine = true → c.requests.onLine = true

theorem Client.Follows.refl (c : Client) : c.Follows c := ⟨id, fun _ _ => id, id, id⟩

theorem Client.Follows.trans {u : Client} (a : c.Follows t) (b : t.Follows u) : c.Follows u :=
  ⟨b.lawful ∘ a.lawful, fun n r h => a.busy n r (b.busy n r h), b.counters ∘ a.counters, a.onLine ∘ b.onLine⟩

theorem Client.Follows.foldl {β : Type} (f : Client → β → Client) (h : ∀ c b, Client.Follows c (f c b)) (l : List β) (c : Client) :
    c.Follows (l.foldl f c) := by
  induction l generalizing c with
  | nil => exact .refl c
  | cons b rest ih => exact (h c b).trans (ih (f c b))

/-- A slot in use but not in DONE. -/
theorem SlotUse.not_done_of_busy {u : SlotUse} {r : Request} (h : u.busy? = some r) : u.isDone = false := by
  cases u with
  | done _ _ _ => exact nomatch h
  | free | queued _ | sent _ | cancelling _ | returning _ _ => rfl

/-- An item that leaves begins no attempt. -/
theorem OutList.onLine_removeIf {α : Type} (p : α → Bool) (l : OutList α) : (l.removeIf p).onLine = true → l.onLine = true := by
  unfold OutList.removeIf
  split
  · exact fun on => nomatch on
  · exact id

theorem filter_not_slot (l : List RequestEntry) (n : SlotNum) :
    (l.filter fun e => !decide (e.slot = n)) = l.filter fun e => decide (e.slot ≠ n) := by simp only [ne_eq, decide_not]

/-- A busy slot completes (R119). -/
theorem Client.follows_complete {r : Request} (busy : (c.slot n).use.busy? = some r) (st : CompletionStatus) (v : Word) :
    c.Follows (c.complete n r st v) := by
  have slot := fun m => c.slot_complete n m r st v
  have others : ∀ m, m ≠ n → (c.complete n r st v).slot m = c.slot m := fun m hm => (slot m).trans (if_neg hm)
  have own : (c.complete n r st v).slot n = ⟨(c.slot n).tag, .done r st v⟩ := (slot n).trans (if_pos rfl)
  refine ⟨fun laws => ⟨?_, ?_⟩, fun m q hq => ?_, OutList.countersSound_removeIf _ _, OutList.onLine_removeIf _ _⟩
  · exact laws.ring.of_done others (SlotUse.not_done_of_busy busy) rfl (by rw [own]; exact ⟨rfl, rfl, rfl, rfl, rfl⟩) rfl
  · refine laws.requests.of_slot others (extra := []) ?_ (Nat.zero_le _) (fun e he => nomatch he) fun q hq => ?_
    · rw [List.append_nil, Client.requests_complete, OutList.items_removeIf, filter_not_slot]
    · rw [own] at hq; exact nomatch hq
  · by_cases at_n : m = n
    · subst at_n; rw [own] at hq; exact nomatch hq
    · rwa [others m at_n] at hq

/-- A CANCELLING slot goes to RETURNING (R116, R117). -/
theorem Client.follows_gaveBack {r : Request} (cancelling : (c.slot n).use = .cancelling r) (units : Word) :
    c.Follows (c.gaveBack n r units) := by
  have slot : ∀ m, (c.gaveBack n r units).slot m = if m = n then { c.slot n with use := .returning r units } else c.slot m :=
    fun m => (c.dropEntry n).slot_setUse n m _
  have others : ∀ m, m ≠ n → (c.gaveBack n r units).slot m = c.slot m := fun m hm => (slot m).trans (if_neg hm)
  have own := (slot n).trans (if_pos rfl)
  refine ⟨fun laws => ⟨?_, ?_⟩, fun m q hq => ?_, fun sound => OutList.countersSound_push _ _ (OutList.countersSound_removeIf _ _ sound),
    OutList.onLine_removeIf _ _⟩
  · exact laws.ring.of_slot others (by rw [cancelling]; rfl) (by rw [own]; rfl) rfl
  · refine laws.requests.of_slot others (extra := [⟨n, .giveBack⟩]) ?_ (Nat.le_refl _) (fun e he => ?_) fun q hq => ?_
    · exact congrArg (· ++ _) ((OutList.items_removeIf _ _).trans (filter_not_slot _ _))
    · rw [List.mem_singleton.mp he, own]; exact ⟨rfl, rfl⟩
    · rw [own] at hq; exact nomatch hq
  · by_cases at_n : m = n
    · subst at_n; rw [own] at hq; rw [cancelling]; exact hq
    · rwa [others m at_n] at hq

/-- An answer that the client engine takes (R114). -/
theorem Client.follows_receive (c : Client) (sender : StationNum) (a : ImmediateEntry) : c.Follows (c.receive sender a) := by
  rcases c.receive_cases sender a with same | ⟨r, st, v, busy, _, _, same⟩ | ⟨r, units, cancelling, _, same⟩
  · rw [same]; exact .refl c
  · rw [same]; exact Client.follows_complete busy st v
  · rw [same]; exact Client.follows_gaveBack cancelling units

/-- A SENT request is withdrawn (R111). -/
theorem Client.follows_withdraw {r : Request} (sent : (c.slot n).use = .sent r) :
    c.Follows { c.setUse n (.cancelling r) with requests := c.requests.push ⟨n, .withdraw⟩ } := by
  have slot : ∀ m, Client.slot { c.setUse n (.cancelling r) with requests := c.requests.push ⟨n, .withdraw⟩ } m =
      if m = n then { c.slot n with use := .cancelling r } else c.slot m := fun m => c.slot_setUse n m _
  generalize turned : ({ c.setUse n (.cancelling r) with requests := c.requests.push ⟨n, .withdraw⟩ } : Client) = t at slot
  have requests : t.requests = c.requests.push ⟨n, .withdraw⟩ := by rw [← turned]
  have ring : t.ring = c.ring := by rw [← turned]; rfl
  have others : ∀ m, m ≠ n → t.slot m = c.slot m := fun m hm => (slot m).trans (if_neg hm)
  have own := (slot n).trans (if_pos rfl)
  refine ⟨fun laws => ⟨?_, ?_⟩, fun m q hq => ?_, fun sound => requests ▸ OutList.countersSound_push _ _ sound, fun on => by
    rw [requests] at on; exact on⟩
  · exact laws.ring.of_slot others (by rw [sent]; rfl) (by rw [own]; rfl) ring
  · refine laws.requests.of_slot others (extra := [⟨n, .withdraw⟩]) ?_ (Nat.le_refl _) (fun e he => ?_) fun q hq => ?_
    · rw [requests, laws.requests.no_entry fun sort => by rw [sent]; cases sort <;> rfl]; rfl
    · rw [List.mem_singleton.mp he, own]; exact ⟨rfl, rfl⟩
    · rw [own] at hq; exact nomatch hq
  · by_cases at_n : m = n
    · subst at_n; rw [own] at hq; rw [sent]; exact hq
    · rwa [others m at_n] at hq

/-- The table of R111. -/
theorem Client.follows_cancel (c : Client) (n : SlotNum) : c.Follows (c.cancel n).2 := by
  unfold Client.cancel
  split
  · exact .refl c
  · next r queued =>
    split
    · exact .refl c
    · exact Client.follows_complete (by rw [queued]; rfl) _ _
  · next r sent =>
    split
    · exact Client.follows_withdraw sent
    · exact .refl c
  · exact .refl c
  · exact .refl c
  · exact .refl c

/-- The head record leaves the ring and frees its slot (R121). -/
theorem Client.follows_pop {r : CompletionRecord} {rest : List CompletionRecord} (head : c.ring = r :: rest) :
    c.Follows { c.setUse r.slot .free with ring := rest } := by
  have slot : ∀ m, Client.slot { c.setUse r.slot .free with ring := rest } m = if m = r.slot then { c.slot r.slot with use := .free } else c.slot m :=
    fun m => c.slot_setUse r.slot m _
  generalize turned : ({ c.setUse r.slot .free with ring := rest } : Client) = t at slot
  have requests : t.requests = c.requests := by rw [← turned]; rfl
  have ring : t.ring = rest := by rw [← turned]
  have others : ∀ m, m ≠ r.slot → t.slot m = c.slot m := fun m hm => (slot m).trans (if_neg hm)
  have own := (slot r.slot).trans (if_pos rfl)
  refine ⟨fun laws => ⟨?_, ?_⟩, fun m q hq => ?_, fun sound => requests ▸ sound, fun on => requests ▸ on⟩
  · have single := laws.ring.single
    rw [head, List.map_cons] at single
    obtain ⟨first, single⟩ := List.nodup_cons.mp single
    refine ⟨ring ▸ single, fun q hq => ?_, fun m hm => ?_⟩
    · rw [ring] at hq
      have apart : q.slot ≠ r.slot := fun same => first (same ▸ List.mem_map_of_mem hq)
      rw [others _ apart]
      exact laws.ring.holds q (by rw [head]; exact List.mem_cons_of_mem _ hq)
    · have apart : m ≠ r.slot := by rintro rfl; rw [own] at hm; exact nomatch hm
      rw [others m apart] at hm
      have := laws.ring.complete m hm
      rw [head, List.map_cons] at this
      rw [ring]; exact (List.mem_cons.mp this).resolve_left apart
  · have done := (laws.ring.holds r (by rw [head]; exact List.mem_cons_self)).isDone
    have no_sort : ∀ sort : EntrySort, sort.belongs (c.slot r.slot).use = false := by
      intro sort
      cases hu : (c.slot r.slot).use with
      | done _ _ _ => cases sort <;> rfl
      | free | queued _ | sent _ | cancelling _ | returning _ _ => rw [hu] at done; exact nomatch done
    refine laws.requests.of_slot others (extra := []) ?_ (Nat.zero_le _) (fun e he => nomatch he) fun q hq => ?_
    · rw [requests, List.append_nil, laws.requests.no_entry no_sort]
    · rw [own] at hq; exact nomatch hq
  · by_cases at_r : m = r.slot
    · subst at_r; rw [own] at hq; exact nomatch hq
    · rwa [others m at_r] at hq

/-- The request list with its items as they are and other counters. -/
theorem Client.follows_counters (l : OutList RequestEntry) (items : l.items = c.requests.items)
    (counters : c.requests.CountersSound → l.CountersSound) (onLine : l.onLine = true → c.requests.onLine = true) :
    c.Follows { c with requests := l } :=
  ⟨fun laws => ⟨⟨laws.ring.single, laws.ring.holds, laws.ring.complete⟩,
    ⟨items ▸ laws.requests.single, fun e he => laws.requests.belongs e (items ▸ he), fun m r hm => items ▸ laws.requests.queued m r hm⟩⟩,
    fun _ _ => id, counters, onLine⟩

/-- ACCEPT of the head entry (R107). -/
theorem Client.follows_acceptHead (c : Client) : c.Follows c.acceptHead := by
  cases hi : c.requests.items with
  | nil =>
    have same : c.acceptHead = c := by simp [Client.acceptHead, hi]
    rw [same]; exact .refl c
  | cons x rest =>
    have tail : c.Lawful → rest = c.requests.items.filter fun e => decide (e.slot ≠ x.slot) := fun laws => by
      have single := laws.requests.single
      rw [hi, List.map_cons] at single
      rw [hi, List.filter_cons_of_neg (by simp)]
      refine (List.filter_eq_self.mpr fun e he => decide_eq_true ?_).symm
      intro same
      exact (List.nodup_cons.mp single).1 (same ▸ List.mem_map_of_mem he)
    have head_belongs : c.Lawful → x.sort.belongs (c.slot x.slot).use = true := fun laws =>
      laws.requests.belongs x (by rw [hi]; exact List.mem_cons_self)
    by_cases sent : x.sort = .request ∧ ∃ r, (c.slot x.slot).use = .queued r
    · obtain ⟨sort, r, queued⟩ := sent
      have accepted := c.acceptHead_request x rest r hi sort queued
      have slot : ∀ m, c.acceptHead.slot m = if m = x.slot then ⟨(c.slot x.slot).tag, .sent r⟩ else c.slot m := fun m => by
        rw [accepted]; exact c.slot_set x.slot m _
      have requests : c.acceptHead.requests = ⟨rest, 0, 0, false⟩ := by rw [accepted]
      have ring : c.acceptHead.ring = c.ring := by rw [accepted]
      generalize c.acceptHead = t at *
      have others : ∀ m, m ≠ x.slot → t.slot m = c.slot m := fun m hm => (slot m).trans (if_neg hm)
      have own := (slot x.slot).trans (if_pos rfl)
      refine ⟨fun laws => ⟨?_, ?_⟩, fun m q hq => ?_, fun _ => requests ▸ OutList.countersSound_dropHead (⟨x :: rest, 0, 0, false⟩ : OutList RequestEntry),
        fun on => by rw [requests] at on; exact nomatch on⟩
      · exact laws.ring.of_slot others (by rw [queued]; rfl) (by rw [own]; rfl) ring
      · refine laws.requests.of_slot others (extra := []) ?_ (Nat.zero_le _) (fun e he => nomatch he) fun q hq => ?_
        · rw [requests, List.append_nil, ← tail laws]
        · rw [own] at hq; exact nomatch hq
      · by_cases at_x : m = x.slot
        · subst at_x; rw [own] at hq; rw [queued]; exact hq
        · rwa [others m at_x] at hq
    · have same : c.acceptHead = { c with requests := ⟨rest, 0, 0, false⟩ } := by
        simp only [Client.acceptHead, hi, List.head?_cons, OutList.dropHead, List.tail_cons]
        split
        · next r sort queued => exact absurd ⟨sort, r, queued⟩ sent
        · rfl
      rw [same]
      refine ⟨fun laws => ⟨⟨laws.ring.single, laws.ring.holds, laws.ring.complete⟩, ?_⟩, fun _ _ => id,
        fun _ => OutList.countersSound_dropHead (⟨x :: rest, 0, 0, false⟩ : OutList RequestEntry), fun on => nomatch on⟩
      refine laws.requests.of_slot (n := x.slot) (fun _ _ => rfl) (extra := []) (by rw [List.append_nil, ← tail laws]) (Nat.zero_le _)
        (fun e he => nomatch he) fun q hq => ?_
      have belongs := head_belongs laws
      have hq : (c.slot x.slot).use = .queued q := hq
      rw [hq] at belongs
      refine absurd ⟨?_, q, hq⟩ sent
      cases hs : x.sort with
      | request => rfl
      | withdraw | giveBack => rw [hs] at belongs; exact nomatch belongs

/-- The head entry at the BUSY limit (R108). -/
theorem Client.follows_busyLimitHead (c : Client) : c.Follows c.busyLimitHead := by
  cases hi : c.requests.items with
  | nil =>
    have same : c.busyLimitHead = c := by simp [Client.busyLimitHead, hi]
    rw [same]; exact .refl c
  | cons x rest =>
    have zeroed : c.Follows { c with requests := ⟨x :: rest, 0, 0, false⟩ } :=
      Client.follows_counters _ hi.symm (fun _ => OutList.countersSound_zeroCounters (⟨x :: rest, 0, 0, false⟩ : OutList RequestEntry))
        fun on => nomatch on
    cases hb : (c.slot x.slot).use.busy? with
    | some r =>
      rw [c.busyLimitHead_eq x rest r hi hb, ← Client.complete_eq_ended]
      exact zeroed.trans (Client.follows_complete (c := { c with requests := ⟨x :: rest, 0, 0, false⟩ }) hb _ _)
    | none =>
      have same : c.busyLimitHead = { c with requests := ⟨rest, 0, 0, false⟩ } := by
        simp [Client.busyLimitHead, hi, hb, OutList.dropHead]
      rw [same]
      refine ⟨fun laws => ?_, fun _ _ => id, fun _ => OutList.countersSound_dropHead (⟨x :: rest, 0, 0, false⟩ : OutList RequestEntry),
        fun on => nomatch on⟩
      obtain ⟨r, hr⟩ := EntrySort.belongs_busy (laws.requests.belongs x (by rw [hi]; exact List.mem_cons_self))
      rw [hb] at hr; exact nomatch hr

theorem Client.follows_endSlot (p : Request → Bool) (st : CompletionStatus) (c : Client) (n : SlotNum) : c.Follows (c.endSlot p st n) := by
  unfold Client.endSlot
  split
  · next r busy =>
    split
    · exact Client.follows_complete busy _ _
    · exact .refl c
  · exact .refl c

theorem Client.follows_purge (c : Client) (n : StationNum) : c.Follows (c.purge n) :=
  Client.Follows.foldl _ (Client.follows_endSlot _ _) allSlots c

/-! ### New requests, and the end of all -/

theorem Client.slot_takeSlot (c : Client) (n m : SlotNum) (u : SlotUse) :
    (c.takeSlot n u).slot m = if m = n then ⟨(c.slot n).tag + 1, u⟩ else c.slot m := c.slot_set n m _

/-- A new request takes a FREE slot and joins the request list (R104, R105). -/
theorem Client.Lawful.submit (laws : c.Lawful) (free : (c.slot n).use = .free) (r : Request) :
    Client.Lawful { c.takeSlot n (.queued r) with requests := c.requests.push ⟨n, .request⟩ } := by
  have slot : ∀ m, Client.slot { c.takeSlot n (.queued r) with requests := c.requests.push ⟨n, .request⟩ } m =
      if m = n then ⟨(c.slot n).tag + 1, .queued r⟩ else c.slot m := fun m => c.slot_takeSlot n m _
  generalize turned : ({ c.takeSlot n (.queued r) with requests := c.requests.push ⟨n, .request⟩ } : Client) = t at slot
  have requests : t.requests = c.requests.push ⟨n, .request⟩ := by rw [← turned]
  have ring : t.ring = c.ring := by rw [← turned]; rfl
  have others : ∀ m, m ≠ n → t.slot m = c.slot m := fun m hm => (slot m).trans (if_neg hm)
  have own := (slot n).trans (if_pos rfl)
  refine ⟨laws.ring.of_slot others (by rw [free]; rfl) (by rw [own]; rfl) ring, ?_⟩
  refine laws.requests.of_slot others (extra := [⟨n, .request⟩]) ?_ (Nat.le_refl _) (fun e he => ?_) fun q hq => List.mem_singleton_self _
  · rw [requests, laws.requests.no_entry fun sort => by rw [free]; cases sort <;> rfl]; rfl
  · rw [List.mem_singleton.mp he, own]; exact ⟨rfl, rfl⟩

/-- A new request that completes at once takes a FREE slot to DONE (R105). -/
theorem Client.Lawful.submitDone (laws : c.Lawful) (free : (c.slot n).use = .free) (r : Request) (st : CompletionStatus) (v : Word) :
    Client.Lawful ((c.takeSlot n (.queued r)).complete n r st v) := by
  have taken := fun m => c.slot_takeSlot n m (.queued r)
  have others : ∀ m, m ≠ n → ((c.takeSlot n (.queued r)).complete n r st v).slot m = c.slot m := fun m hm => by
    rw [Client.slot_complete, if_neg hm, taken, if_neg hm]
  have own : ((c.takeSlot n (.queued r)).complete n r st v).slot n = ⟨(c.slot n).tag + 1, .done r st v⟩ := by
    rw [Client.slot_complete, if_pos rfl, taken, if_pos rfl]
  refine ⟨laws.ring.of_done others (by rw [free]; rfl) (r := ⟨n, (c.slot n).tag + 1, r.operation, r.objectId, st, v⟩) rfl
    (by rw [own]; exact ⟨rfl, rfl, rfl, rfl, rfl⟩) ?_, ?_⟩
  · rw [Client.ring_complete, taken, if_pos rfl]; rfl
  · refine laws.requests.of_slot others (extra := []) ?_ (Nat.zero_le _) (fun e he => nomatch he) fun q hq => ?_
    · rw [List.append_nil, Client.requests_complete, OutList.items_removeIf, filter_not_slot]; rfl
    · rw [own] at hq; exact nomatch hq

/-- With no slot busy and no entry on the list, law 10 asks nothing. -/
theorem Client.requestsSound_at_rest (rest : ∀ n, (c.slot n).use.busy = false) (items : c.requests.items = []) : c.RequestsSound :=
  ⟨by rw [items]; exact List.nodup_nil, fun e he => (List.not_mem_nil (items ▸ he)).elim, fun n r hn => absurd (hn ▸ rest n) nofun⟩

/-- After an eviction no slot is busy. -/
theorem Client.evict_at_rest (c : Client) (n : SlotNum) : (c.evict.slot n).use.busy = false := by
  have after := (Client.completes_evict c).1.slots n
  simp only [if_true] at after
  rw [after]
  cases hb : (c.slot n).use.busy? with
  | none => simp [SlotUse.busy, hb]
  | some r => rfl

/-- An eviction keeps laws 9 and 10. -/
theorem Client.Lawful.evict (laws : c.Lawful) : c.evict.Lawful := by
  have ended := (Client.Follows.foldl _ (Client.follows_endSlot (fun _ => true) .evicted) allSlots c).lawful laws
  have rest := c.evict_at_rest
  refine ⟨?_, Client.requestsSound_at_rest rest rfl⟩
  unfold Client.evict
  generalize allSlots.foldl (Client.endSlot (fun _ => true) .evicted) c = t at ended
  exact ⟨ended.ring.single, ended.ring.holds, ended.ring.complete⟩

theorem Client.clear_slot (c : Client) (n : SlotNum) : c.clear.slot n = ⟨(c.slot n).tag, .free⟩ := by
  simp [Client.slot, Client.clear]

/-- RESET leaves every slot FREE and nothing listed. -/
theorem Client.lawful_clear (c : Client) : c.clear.Lawful :=
  ⟨⟨List.nodup_nil, fun r hr => (nomatch hr), fun n hn => absurd (c.clear_slot n ▸ hn) nofun⟩,
    Client.requestsSound_at_rest (fun n => by rw [c.clear_slot]; rfl) rfl⟩

theorem Client.powerOn_slot (n : SlotNum) : Client.powerOn.slot n = ⟨0, .free⟩ := by
  simp [Client.slot, Client.powerOn]

theorem Client.lawful_powerOn : Client.powerOn.Lawful :=
  ⟨⟨List.nodup_nil, fun r hr => (nomatch hr), fun n hn => absurd (Client.powerOn_slot n ▸ hn) nofun⟩,
    Client.requestsSound_at_rest (fun n => by rw [Client.powerOn_slot]; rfl) rfl⟩

end

end Sys2Proof.Machine
end

section
/-! SUPPORT. The laws of the station but for the one that a report of the answer list restores, and the changes that keep them. -/

namespace Sys2Proof.Machine

/-! ### The laws apart from law 11's LEAVE -/

/-- R138 and R179 but for the LEAVE that an empty answer list has added. -/
structure State.NoticesFirm (s : State) : Prop where
  single : s.link.notices.items.Nodup
  own : Notice.depart s.control.number ∉ s.link.notices.items
  join : Notice.join ∈ s.link.notices.items → s.control.mode = .joining
  leave : Notice.leave ∈ s.link.notices.items → s.control.leaveQueued = true
  leaving : s.control.leaveQueued = true → s.control.mode = .leaving

/-- In LEAVING an empty answer list has added the LEAVE (R179). -/
def State.LeaveAdded (s : State) : Prop := s.control.mode = .leaving → s.home.answers.items = [] → s.control.leaveQueued = true

/-- The laws of the device but for `LeaveAdded`. -/
structure State.Firm (s : State) : Prop where
  home : s.home.Lawful
  client : s.client.Lawful
  busy : s.NoBusyForDeparted
  departed : s.NothingOfDeparted
  quiet : s.QuietStates
  own : s.OwnNumberUnused
  notices : s.NoticesFirm
  queue : s.link.QueueSound
  counters : s.CountersSound
  attempt : s.AttemptSound
  events : s.control.events.CauseSound

theorem DeviceLaws.firm {s : State} (laws : DeviceLaws s) : s.Firm :=
  ⟨laws.home, laws.client, laws.busy, laws.departed, laws.quiet, laws.own,
    ⟨laws.notices.single, laws.notices.own, laws.notices.join, laws.notices.leave, laws.notices.leaving⟩, laws.queue, laws.counters,
    laws.attempt, laws.events⟩

theorem DeviceLaws.leaveAdded {s : State} (laws : DeviceLaws s) : s.LeaveAdded := laws.notices.added

theorem State.Firm.laws {s : State} (f : s.Firm) (added : s.LeaveAdded) : DeviceLaws s where
  conserves := f.home.tight.balanced.conserves
  holds := f.home.tight.balanced.holds
  levels := f.home.tight.balanced.levels
  heads := f.home.heads
  order := f.home.order
  records := f.home.tight.balanced.records
  single := f.home.tight.single
  pools := f.home.tight.pools
  pool := f.home.pool
  ring := f.client.ring
  requests := f.client.requests
  busy := f.busy
  departed := f.departed
  quiet := f.quiet
  own := f.own
  notices := ⟨f.notices.single, f.notices.own, f.notices.join, f.notices.leave, f.notices.leaving, added⟩
  queue := f.queue
  counters := f.counters
  attempt := f.attempt
  events := f.events

section
variable {s t : State}

/-- The laws say nothing about the register window and the queue of commands. -/
theorem DeviceLaws.of_same (laws : DeviceLaws s) (control : t.control = s.control) (roster : t.roster = s.roster) (home : t.home = s.home)
    (client : t.client = s.client) (link : t.link = s.link) : DeviceLaws t := by
  obtain ⟨_, _, _, _, _, _, _⟩ := s
  obtain ⟨_, _, _, _, _, _, _⟩ := t
  simp only at control roster home client link
  subst control roster home client link
  have f := laws.firm
  exact State.Firm.laws ⟨f.home, f.client, f.busy, ⟨f.departed.waiting, f.departed.answers, f.departed.holds⟩,
    ⟨fun m => have r := f.quiet.rest m; ⟨r.slots, r.requests, r.waiting, r.holds, r.answers⟩, f.quiet.silent, f.quiet.joining, f.quiet.sending,
      f.quiet.leaving, f.quiet.held⟩,
    ⟨f.own.roster, f.own.answers⟩, ⟨f.notices.single, f.notices.own, f.notices.join, f.notices.leave, f.notices.leaving⟩, f.queue,
    ⟨f.counters.notices, f.counters.answers, f.counters.requests⟩,
    ⟨f.attempt.notices, f.attempt.answers, f.attempt.requests, f.attempt.ownPath⟩, f.events⟩ laws.leaveAdded

theorem State.Firm.onlyNames (f : s.Firm) : s.home.OnlyNames fun n => s.rosterOf n ≠ .departed :=
  ⟨f.departed.waiting, f.departed.answers, f.departed.holds⟩

/-! ### The home half and the client engine -/

theorem State.Works.follows {p q : StationNum → Prop} (w : s.Works p q t) : s.client.Follows t.client :=
  w.client_induction (fun c a before => before.trans (c.follows_receive _ a)) (.refl _)

/-- A client engine that goes on from idle slots has idle slots. -/
theorem Client.Follows.idle {a b : Client} (follows : a.Follows b) (rest : ∀ n, (a.slot n).use.busy = false) (n : SlotNum) :
    (b.slot n).use.busy = false := by
  cases hb : (b.slot n).use.busy? with
  | none => rw [SlotUse.busy, hb]; rfl
  | some r =>
    have := rest n
    rw [SlotUse.busy, follows.busy n r hb] at this; exact nomatch this

/-- The mode in which the home half and the client engine are at rest. -/
abbrev StationState.resting (m : StationState) : Prop := m = .config ∨ m = .joining ∨ m = .evicted

/-- Work of the home half. Stations that it answers or brings in are none that the roster holds DEPARTED, and only in ACTIVE does it bring
in any. -/
theorem State.Firm.works {p q : StationNum → Prop} (f : s.Firm) (w : s.Works p q t) (heads : s.home.HeadsWait → t.home.HeadsWait)
    (answered : ∀ n, p n → ¬ s.control.mode.resting ∧ s.rosterOf n ≠ .departed)
    (named : ∀ n, q n → s.control.mode = .active ∧ s.rosterOf n ≠ .departed) : t.Firm := by
  obtain ⟨control, roster, link⟩ := w.keeps
  have follows := w.follows
  have rosterOf : ∀ n, t.rosterOf n = s.rosterOf n := fun n => by rw [State.rosterOf, State.rosterOf, roster]
  have names := w.home_induction (fun _ _ m => m.onlyNames (fun n h => (answered n h).2) fun n h => (named n h).2) f.onlyNames
  have answers := w.home_induction (P := fun h => ∀ x ∈ h.answers.items, x.dest ≠ s.control.number) (fun _ _ m => m.answers_own) f.own.answers
  have counters := w.home_induction (fun _ _ m => m.answers_counters.1) f.counters.answers
  have onLine : t.home.answers.onLine = true → s.home.answers.onLine = true :=
    w.home_induction (P := fun h => h.answers.onLine = true → s.home.answers.onLine = true) (fun _ _ m k => k ∘ m.answers_counters.2) id
  have client := follows.lawful f.client
  have idle := follows.idle
  have still : (∀ n, ¬ q n) → (∀ i, s.home.waitersAt i = []) → s.home.holds = [] → (∀ i, t.home.waitersAt i = []) ∧ t.home.holds = [] :=
    fun nobody waiting holds => w.home_induction (P := fun h => (∀ i, h.waitersAt i = []) ∧ h.holds = [])
      (fun _ _ m before => m.still nobody before.1 before.2) ⟨waiting, holds⟩
  refine ⟨w.lawful heads f.home, client, fun n r hr => ?_, ⟨fun i v hv => ?_, fun x hx => ?_, fun x hx => ?_⟩,
    ⟨fun mode => ?_, ?_, ?_, ?_, fun mode => ?_, fun held => ?_⟩, ⟨?_, ?_⟩, ⟨?_, ?_, ?_, ?_, ?_⟩, link ▸ f.queue,
    ⟨link ▸ f.counters.notices, counters, follows.counters f.counters.requests⟩, ⟨?_, fun on => ?_, fun on => ?_, ?_⟩, control ▸ f.events⟩
  · rw [rosterOf]; exact f.busy n r (follows.busy n r hr)
  · rw [rosterOf]; exact names.waiting i v hv
  · rw [rosterOf]; exact names.answers x hx
  · rw [rosterOf]; exact names.holds x hx
  · rw [control] at mode
    have rest := f.quiet.rest mode
    have nobody : ∀ n, ¬ q n := fun n h => by
      have active := (named n h).1
      rw [active] at mode; exact (by rcases mode with m | m | m <;> exact nomatch m)
    have quiet := still nobody rest.waiting rest.holds
    have silent := w.home_induction (P := fun h => ((∀ i, h.waitersAt i = []) ∧ h.holds = []) ∧ h.answers.items = [])
      (fun _ _ m before => ⟨m.still nobody before.1.1 before.1.2, m.silent (fun n h => (answered n h).1 mode) before.1.1 before.2⟩)
      ⟨⟨rest.waiting, rest.holds⟩, rest.answers⟩
    exact ⟨idle rest.slots, client.requests.items_at_rest (idle rest.slots), quiet.1, quiet.2, silent.2⟩
  · rw [control, link]; exact f.quiet.silent
  · rw [control, link]; exact f.quiet.joining
  · rw [control, link]; exact f.quiet.sending
  · rw [control] at mode
    obtain ⟨slots, _, waiting, holds⟩ := f.quiet.leaving mode
    have quiet := still (fun n h => by have := (named n h).1; rw [mode] at this; exact nomatch this) waiting holds
    exact ⟨idle slots, client.requests.items_at_rest (idle slots), quiet.1, quiet.2⟩
  · rw [control] at held ⊢
    exact ⟨(f.quiet.held held).1, fun n => (rosterOf n).trans ((f.quiet.held held).2 n)⟩
  · rw [rosterOf, control]; exact f.own.roster
  · rw [control]; exact answers
  · rw [link]; exact f.notices.single
  · rw [link, control]; exact f.notices.own
  · rw [link, control]; exact f.notices.join
  · rw [link, control]; exact f.notices.leave
  · rw [control]; exact f.notices.leaving
  · rw [link]; exact f.attempt.notices
  · rw [link]; exact f.attempt.answers (onLine on)
  · rw [link]; exact f.attempt.requests (follows.onLine on)
  · rw [link]; exact f.attempt.ownPath

/-- The client engine goes on without new requests. -/
theorem State.Firm.follows (f : s.Firm) {c : Client} (follows : s.client.Follows c) : State.Firm { s with client := c } := by
  have client := follows.lawful f.client
  have idle := follows.idle
  refine ⟨f.home, client, fun n r hr => f.busy n r (follows.busy n r hr), ⟨f.departed.waiting, f.departed.answers, f.departed.holds⟩,
    ⟨fun mode => ?_, f.quiet.silent, f.quiet.joining, f.quiet.sending, fun mode => ?_, f.quiet.held⟩, ⟨f.own.roster, f.own.answers⟩,
    ⟨f.notices.single, f.notices.own, f.notices.join, f.notices.leave, f.notices.leaving⟩, f.queue,
    ⟨f.counters.notices, f.counters.answers, follows.counters f.counters.requests⟩,
    ⟨f.attempt.notices, f.attempt.answers, fun on => f.attempt.requests (follows.onLine on), f.attempt.ownPath⟩, f.events⟩
  · have rest := f.quiet.rest mode
    exact ⟨idle rest.slots, client.requests.items_at_rest (idle rest.slots), rest.waiting, rest.holds, rest.answers⟩
  · obtain ⟨slots, _, waiting, holds⟩ := f.quiet.leaving mode
    exact ⟨idle slots, client.requests.items_at_rest (idle slots), waiting, holds⟩

/-- The client engine takes a new request, in ACTIVE, of a home that is not DEPARTED. -/
theorem State.Firm.submit (f : s.Firm) {c : Client} (active : s.control.mode = .active) (lawful : c.Lawful)
    (busy : ∀ n r, (c.slot n).use.busy? = some r → s.rosterOf (homeOf r.objectId) ≠ .departed)
    (counters : c.requests.CountersSound) (onLine : c.requests.onLine = true → s.client.requests.onLine = true) :
    State.Firm { s with client := c } := by
  have mode : ∀ m, m ≠ StationState.active → s.control.mode ≠ m := fun m hm h => hm (h.symm.trans active)
  exact ⟨f.home, lawful, busy, ⟨f.departed.waiting, f.departed.answers, f.departed.holds⟩,
    ⟨fun resting => by rcases resting with m | m | m <;> exact absurd m (mode _ nofun), f.quiet.silent, f.quiet.joining, f.quiet.sending,
      fun leaving => absurd leaving (mode _ nofun), f.quiet.held⟩, ⟨f.own.roster, f.own.answers⟩,
    ⟨f.notices.single, f.notices.own, f.notices.join, f.notices.leave, f.notices.leaving⟩, f.queue,
    ⟨f.counters.notices, f.counters.answers, counters⟩,
    ⟨f.attempt.notices, f.attempt.answers, fun on => f.attempt.requests (onLine on), f.attempt.ownPath⟩, f.events⟩

/-! ### The link -/

/-- The receive queue changes, and what the receiver drives. -/
theorem State.Firm.queued (f : s.Firm) {items : List QueueItem} (driven : Option AckMark) (sound : Link.QueueSound { s.link with queue := items })
    (silent : s.control.mode = .config ∨ s.control.mode = .evicted → items = [])
    (joining : s.control.mode = .joining → ∀ x ∈ items, x.content.isNotice = true) :
    State.Firm { s with link := { s.link with queue := items, driven } } :=
  ⟨f.home, f.client, f.busy, ⟨f.departed.waiting, f.departed.answers, f.departed.holds⟩,
    ⟨fun m => have r := f.quiet.rest m; ⟨r.slots, r.requests, r.waiting, r.holds, r.answers⟩,
      fun m => ⟨silent m, (f.quiet.silent m).2⟩, joining, f.quiet.sending, f.quiet.leaving, f.quiet.held⟩,
    ⟨f.own.roster, f.own.answers⟩, ⟨f.notices.single, f.notices.own, f.notices.join, f.notices.leave, f.notices.leaving⟩,
    ⟨sound.bounded, sound.place⟩, ⟨f.counters.notices, f.counters.answers, f.counters.requests⟩,
    ⟨f.attempt.notices, f.attempt.answers, f.attempt.requests, f.attempt.ownPath⟩, f.events⟩

/-- Items leave the receive queue. -/
theorem State.Firm.unqueued (f : s.Firm) {items : List QueueItem} (driven : Option AckMark) (fewer : items.Sublist s.link.queue) :
    State.Firm { s with link := { s.link with queue := items, driven } } :=
  f.queued driven ⟨Nat.le_trans fewer.length_le f.queue.bounded, Nat.le_trans fewer.countP_le f.queue.place⟩
    (fun m => List.sublist_nil.mp ((f.quiet.silent m).1 ▸ fewer)) fun m _ hx => f.quiet.joining m _ (fewer.subset hx)

theorem State.Firm.drive (f : s.Firm) (m : Option AckMark) : (s.drive m).Firm := f.unqueued m (List.Sublist.refl _)

theorem State.Firm.dropHeadFrame (f : s.Firm) : s.dropHeadFrame.Firm := f.unqueued s.link.driven (List.tail_sublist _)

/-- The notice list changes. -/
theorem State.Firm.noticed (f : s.Firm) {l : OutList Notice} (counters : l.CountersSound)
    (onLine : l.onLine = true → s.link.notices.onLine = true) (silent : s.control.mode = .config ∨ s.control.mode = .evicted → l.items = [])
    (single : l.items.Nodup) (known : ∀ x ∈ l.items, x ∈ s.link.notices.items ∨ ∃ n, n ≠ s.control.number ∧ x = .depart n) :
    State.Firm { s with link := { s.link with notices := l } } := by
  have old : ∀ x ∈ l.items, (∀ n, x ≠ .depart n) → x ∈ s.link.notices.items := fun x hx other =>
    (known x hx).resolve_right fun ⟨n, _, hn⟩ => other n hn
  refine ⟨f.home, f.client, f.busy, ⟨f.departed.waiting, f.departed.answers, f.departed.holds⟩,
    ⟨fun m => have r := f.quiet.rest m; ⟨r.slots, r.requests, r.waiting, r.holds, r.answers⟩,
      fun m => ⟨(f.quiet.silent m).1, silent m, (f.quiet.silent m).2.2⟩, f.quiet.joining, f.quiet.sending, f.quiet.leaving, f.quiet.held⟩,
    ⟨f.own.roster, f.own.answers⟩,
    ⟨single, fun h => ?_, fun h => f.notices.join (old _ h nofun), fun h => f.notices.leave (old _ h nofun), f.notices.leaving⟩,
    ⟨f.queue.bounded, f.queue.place⟩, ⟨counters, f.counters.answers, f.counters.requests⟩,
    ⟨fun on => f.attempt.notices (onLine on), f.attempt.answers, f.attempt.requests, f.attempt.ownPath⟩, f.events⟩
  rcases known _ h with h | ⟨n, hn, same⟩
  · exact f.notices.own h
  · cases same; exact hn rfl

/-- Notices leave the notice list, or only its counters change. -/
theorem State.Firm.unnoticed (f : s.Firm) {l : OutList Notice} (counters : l.CountersSound)
    (onLine : l.onLine = true → s.link.notices.onLine = true) (fewer : l.items.Sublist s.link.notices.items) :
    State.Firm { s with link := { s.link with notices := l } } :=
  f.noticed counters onLine (fun m => List.sublist_nil.mp ((f.quiet.silent m).2.1 ▸ fewer)) (f.notices.single.sublist fewer)
    fun _ hx => .inl (fewer.subset hx)

/-- A chain of work that is one move of the answer list. -/
theorem State.Firm.listed (f : s.Firm) {l : OutList AnswerItem} (sub : Among l.items s.home.answers.items)
    (counters : s.home.answers.CountersSound → l.CountersSound) (onLine : l.onLine = true → s.home.answers.onLine = true) :
    State.Firm { s with home := { s.home with answers := l } } :=
  f.works (p := fun _ => False) (q := fun _ => False) (State.Work.home (.listed l sub counters onLine)).works id (fun _ h => h.elim)
    fun _ h => h.elim

/-- A list's head enters an attempt or leaves it. -/
def OutList.attempting {α : Type} (on : Bool) (l : OutList α) : OutList α := { l with onLine := on }

theorem OutList.attempting_of_off {α : Type} {l : OutList α} (off : l.onLine = false) : l.attempting false = l := by
  obtain ⟨_, _, _, _⟩ := l
  subst off; rfl

theorem OutList.countersSound_attempting {α : Type} {l : OutList α} {on : Bool} (s : l.CountersSound) (items : on = true → l.items ≠ []) :
    (l.attempting on).CountersSound :=
  ⟨s.silence, s.busy, fun empty => ⟨(s.empty empty).1, (s.empty empty).2.1, by
    cases on with
    | false => rfl
    | true => exact absurd empty (items rfl)⟩⟩

/-- `s` with the heads of the three lists in an attempt or out of it, the transmitter and the driven mark set. -/
def State.attempting (s : State) (notices answers requests : Bool) (x : Transmitter) (driven : Option AckMark) : State :=
  { s with
    link := { s.link with notices := s.link.notices.attempting notices, transmitter := x, driven }
    home := { s.home with answers := s.home.answers.attempting answers }
    client := { s.client with requests := s.client.requests.attempting requests } }

/-- The laws of the home half do not speak of the attempt. -/
theorem Home.Lawful.attempting {h : Home} (laws : h.Lawful) (on : Bool) : Home.Lawful { h with answers := h.answers.attempting on } :=
  ⟨⟨⟨laws.tight.balanced.conserves, ⟨laws.tight.balanced.holds.tracked, laws.tight.balanced.holds.single, laws.tight.balanced.holds.bounded⟩,
      laws.tight.balanced.levels, laws.tight.balanced.records⟩, laws.tight.single, ⟨laws.tight.pools.records, laws.tight.pools.immediate⟩⟩,
    laws.heads, ⟨laws.order.ordered, laws.order.earlier⟩,
    ⟨laws.pool.canonical, laws.pool.account, laws.pool.fits, laws.pool.inside, laws.pool.apart, laws.pool.above⟩⟩

/-- The laws of the client engine do not speak of the attempt. -/
theorem Client.Lawful.attempting {c : Client} (laws : c.Lawful) (on : Bool) : Client.Lawful { c with requests := c.requests.attempting on } :=
  ⟨⟨laws.ring.single, laws.ring.holds, laws.ring.complete⟩, ⟨laws.requests.single, laws.requests.belongs, laws.requests.queued⟩⟩

/-- An attempt begins or ends. -/
theorem State.Firm.attempting (f : s.Firm) {notices answers requests : Bool} {x : Transmitter} {driven : Option AckMark}
    (entered : (notices = true → s.link.notices.items ≠ []) ∧ (answers = true → s.home.answers.items ≠ []) ∧
      (requests = true → s.client.requests.items ≠ []))
    (sound : (s.attempting notices answers requests x driven).AttemptSound)
    (silent : s.control.mode = .config ∨ s.control.mode = .evicted → x = .free)
    (sending : s.control.mode = .joining → x = .free ∨ ∃ g, x = .line g ∧ g.isNotice = true) :
    (s.attempting notices answers requests x driven).Firm :=
  ⟨f.home.attempting _, f.client.attempting _, f.busy, ⟨f.departed.waiting, f.departed.answers, f.departed.holds⟩,
    ⟨fun m => have r := f.quiet.rest m; ⟨r.slots, r.requests, r.waiting, r.holds, r.answers⟩,
      fun m => ⟨(f.quiet.silent m).1, (f.quiet.silent m).2.1, silent m⟩, f.quiet.joining, sending, f.quiet.leaving, f.quiet.held⟩,
    ⟨f.own.roster, f.own.answers⟩, ⟨f.notices.single, f.notices.own, f.notices.join, f.notices.leave, f.notices.leaving⟩,
    ⟨f.queue.bounded, f.queue.place⟩,
    ⟨OutList.countersSound_attempting f.counters.notices entered.1, OutList.countersSound_attempting f.counters.answers entered.2.1,
      OutList.countersSound_attempting f.counters.requests entered.2.2⟩, sound, f.events⟩

/-- The attempt ends without a count (R131). -/
theorem State.Firm.endAttempts (f : s.Firm) : s.endAttempts.Firm :=
  f.attempting (notices := false) (answers := false) (requests := false) (driven := s.link.driven) ⟨nofun, nofun, nofun⟩
    ⟨fun on => (nomatch on), fun on => (nomatch on), fun on => (nomatch on), fun _ h => (nomatch h)⟩ (fun _ => rfl) fun _ => .inl rfl

/-! ### The roster -/

/-- A station that is not held DEPARTED is marked PRESENT, or any station whose purge left nothing of it is marked. -/
theorem State.Firm.mark (f : s.Firm) (n : StationNum) (e : RosterEntry) (released : s.control.resetAsserted = false)
    (purged : e = .departed → s.PurgedOf n) : (s.mark n e).Firm := by
  by_cases own : n = s.control.number
  · rw [State.mark, if_pos own]; exact f
  · have roster : ∀ m, (s.mark n e).rosterOf m = if m = n then e else s.rosterOf m := fun m => by
      rw [State.rosterOf_mark]; simp [own]
    have kept : ∀ m, s.rosterOf m ≠ .departed → (m = n → e ≠ .departed) → (s.mark n e).rosterOf m ≠ .departed := fun m before at_n => by
      rw [roster]; split
      · next same => exact at_n same
      · exact before
    have eq : s.mark n e = { s with roster := s.roster.set n e } := if_neg own
    rw [eq] at kept roster ⊢
    refine ⟨f.home, f.client, fun m r hr => kept _ (f.busy m r hr) fun same gone => (purged gone).slots m r hr same,
      ⟨fun i w hw => kept _ (f.departed.waiting i w hw) fun same gone => (purged gone).waiting i w hw same,
        fun x hx => kept _ (f.departed.answers x hx) fun same gone => (purged gone).answers x hx same,
        fun x hx => kept _ (f.departed.holds x hx) fun same gone => (purged gone).holds x hx same⟩,
      ⟨fun m => have r := f.quiet.rest m; ⟨r.slots, r.requests, r.waiting, r.holds, r.answers⟩, f.quiet.silent, f.quiet.joining,
        f.quiet.sending, f.quiet.leaving, fun held => by rw [released] at held; exact nomatch held⟩,
      ⟨?_, f.own.answers⟩, ⟨f.notices.single, f.notices.own, f.notices.join, f.notices.leave, f.notices.leaving⟩, f.queue,
      ⟨f.counters.notices, f.counters.answers, f.counters.requests⟩,
      ⟨f.attempt.notices, f.attempt.answers, f.attempt.requests, f.attempt.ownPath⟩, f.events⟩
    rw [roster, if_neg (Ne.symm own)]; exact f.own.roster

/-! ### The controller -/

/-- The supply, station time and the pending events change. -/
theorem State.Firm.controlled (f : s.Firm) (powered : Bool) (time : Word) {events : Events} (cause : events.CauseSound) :
    State.Firm { s with control := { s.control with powered, time, events } } :=
  ⟨f.home, f.client, f.busy, ⟨f.departed.waiting, f.departed.answers, f.departed.holds⟩,
    ⟨fun m => have r := f.quiet.rest m; ⟨r.slots, r.requests, r.waiting, r.holds, r.answers⟩, f.quiet.silent, f.quiet.joining, f.quiet.sending,
      f.quiet.leaving, f.quiet.held⟩,
    ⟨f.own.roster, f.own.answers⟩, ⟨f.notices.single, f.notices.own, f.notices.join, f.notices.leave, f.notices.leaving⟩, f.queue,
    ⟨f.counters.notices, f.counters.answers, f.counters.requests⟩,
    ⟨f.attempt.notices, f.attempt.answers, f.attempt.requests, f.attempt.ownPath⟩, cause⟩

/-- The report of the answer list restores what the laws say of the LEAVE (R179). -/
theorem State.Firm.reportAnswers (f : s.Firm) : DeviceLaws s.reportAnswers := by
  unfold State.reportAnswers
  split
  · next due =>
    simp only [State.leaveIsDue, Bool.and_eq_true, decide_eq_true_eq, List.isEmpty_iff, Bool.not_eq_true'] at due
    obtain ⟨⟨leaving, empty⟩, not_queued⟩ := due
    have no_leave : Notice.leave ∉ s.link.notices.items := fun h => by
      rw [f.notices.leave h] at not_queued; exact nomatch not_queued
    have mode : ∀ m, m ≠ StationState.leaving → s.control.mode ≠ m := fun m hm h => hm (h.symm.trans leaving)
    have old : ∀ x ∈ s.link.notices.items ++ [.leave], x ≠ .leave → x ∈ s.link.notices.items := fun x hx other =>
      (List.mem_append.mp hx).resolve_right fun h => other (List.mem_singleton.mp h)
    refine State.Firm.laws ⟨f.home, f.client, f.busy, ⟨f.departed.waiting, f.departed.answers, f.departed.holds⟩,
      ⟨fun m => have r := f.quiet.rest m; ⟨r.slots, r.requests, r.waiting, r.holds, r.answers⟩,
        fun m => by rcases m with m | m <;> exact absurd m (mode _ nofun), f.quiet.joining, f.quiet.sending, f.quiet.leaving, f.quiet.held⟩,
      ⟨f.own.roster, f.own.answers⟩,
      ⟨?_, fun h => f.notices.own (old _ h nofun), fun h => f.notices.join (old _ h nofun), fun _ => rfl, fun _ => leaving⟩,
      ⟨f.queue.bounded, f.queue.place⟩, ⟨OutList.countersSound_push _ _ f.counters.notices, f.counters.answers, f.counters.requests⟩,
      ⟨f.attempt.notices, f.attempt.answers, f.attempt.requests, f.attempt.ownPath⟩, f.events⟩ fun _ _ => rfl
    refine List.nodup_append.mpr ⟨f.notices.single, List.pairwise_singleton _ _, fun a ha b hb => ?_⟩
    rw [List.mem_singleton.mp hb]
    rintro rfl
    exact no_leave ha
  · next not_due =>
    refine f.laws fun leaving empty => ?_
    simp only [State.leaveIsDue, leaving, empty, decide_true, List.isEmpty_nil, Bool.true_and, Bool.not_eq_true', Bool.not_eq_false] at not_due
    exact not_due

/-! ### A station at rest off the link -/

/-- The link interface has nothing queued, listed or sent. -/
structure Link.Idle (l : Link) : Prop where
  queue : l.queue = []
  notices : l.notices.items = []
  transmitter : l.transmitter = .free
  counters : l.notices.CountersSound

theorem Link.idle_powerOn : Link.powerOn.Idle := ⟨rfl, rfl, rfl, OutList.countersSound_empty⟩

/-- Off the link with nothing listed, queued or held, the laws ask only the laws of the home half and of the client engine. -/
theorem State.Firm.of_rest (home : t.home.Lawful) (client : t.client.Lawful) (rest : t.AtRest) (answers : t.home.answers.CountersSound)
    (requests : t.client.requests.CountersSound) (link : t.link.Idle) (own : t.rosterOf t.control.number = .unknown)
    (mode : t.control.mode = .config ∨ t.control.mode = .evicted)
    (held : t.control.resetAsserted = true → t.control.mode = .config ∧ ∀ n, t.rosterOf n = .unknown)
    (leave : t.control.leaveQueued = false) (cause : t.control.events.CauseSound) : DeviceLaws t := by
  have not_mode : ∀ m, m ≠ StationState.config → m ≠ .evicted → t.control.mode ≠ m := fun m hc he h =>
    mode.elim (fun c => hc (h.symm.trans c)) fun e => he (h.symm.trans e)
  have no_notice := link.notices
  have off : t.home.answers.onLine = false ∧ t.client.requests.onLine = false :=
    ⟨(answers.empty rest.answers).2.2, (requests.empty rest.requests).2.2⟩
  refine State.Firm.laws ⟨home, client, fun n r hr => ?_, ⟨fun i w hw => ?_, fun x hx => ?_, fun x hx => ?_⟩,
    ⟨fun _ => rest, fun _ => ⟨link.queue, link.notices, link.transmitter⟩, fun m => absurd m (not_mode _ nofun nofun),
      fun m => absurd m (not_mode _ nofun nofun), fun m => absurd m (not_mode _ nofun nofun), held⟩,
    ⟨own, fun x hx => ?_⟩, ⟨by rw [no_notice]; exact List.nodup_nil, by rw [no_notice]; exact List.not_mem_nil, by rw [no_notice]; exact nofun,
      by rw [no_notice]; exact nofun, fun queued => by rw [leave] at queued; exact nomatch queued⟩,
    ⟨by rw [link.queue]; exact Nat.zero_le _, by rw [link.queue]; exact Nat.zero_le _⟩, ⟨link.counters, answers, requests⟩,
    ⟨fun on => ?_, fun on => ?_, fun on => ?_, fun f h => ?_⟩, cause⟩ fun m => absurd m (not_mode _ nofun nofun)
  · have := rest.slots n
    rw [SlotUse.busy, hr] at this; exact nomatch this
  · rw [rest.waiting i] at hw; exact nomatch hw
  · rw [rest.answers] at hx; exact nomatch hx
  · rw [rest.holds] at hx; exact nomatch hx
  · rw [rest.answers] at hx; exact nomatch hx
  · rw [(link.counters.empty link.notices).2.2] at on; exact nomatch on
  · rw [off.1] at on; exact nomatch on
  · rw [off.2] at on; exact nomatch on
  · rw [link.transmitter] at h; exact nomatch h

end

end Sys2Proof.Machine
end

section
/-! SUPPORT. The local commands, the resets and the ends of the join and leave sequences keep the laws of the station. -/

namespace Sys2Proof.Machine

section
variable {s t : State}

/-! ### From the laws but one to the laws -/

/-- The law of the LEAVE stays where the controller is kept and no answer list becomes empty. -/
theorem DeviceLaws.of_firm (laws : DeviceLaws s) (f : t.Firm) (control : t.control = s.control)
    (emptied : t.home.answers.items = [] → s.home.answers.items = []) : DeviceLaws t :=
  f.laws fun leaving empty => by
    rw [control] at leaving ⊢
    exact laws.leaveAdded leaving (emptied empty)

/-- Outside LEAVING the law of the LEAVE says nothing. -/
theorem State.Firm.laws_of_mode (f : s.Firm) (mode : s.control.mode ≠ .leaving) : DeviceLaws s := f.laws fun leaving => absurd leaving mode

/-- RESETN is held only in CONFIG. -/
theorem State.Firm.released (f : s.Firm) (mode : s.control.mode ≠ .config) : s.control.resetAsserted = false := by
  cases held : s.control.resetAsserted with
  | false => rfl
  | true => exact absurd (f.quiet.held held).1 mode

/-- The answer to a local command says nothing about the laws. -/
theorem DeviceLaws.respond (laws : DeviceLaws s) (command : Reg) (r : LocalResult) (first second : Reg) :
    DeviceLaws (s.respond command r first second) := laws.of_same rfl rfl rfl rfl rfl

theorem DeviceLaws.capture (laws : DeviceLaws s) : DeviceLaws s.capture := laws.of_same rfl rfl rfl rfl rfl

/-- The client engine goes on without new requests. -/
theorem DeviceLaws.follows (laws : DeviceLaws s) {c : Client} (follows : s.client.Follows c) : DeviceLaws { s with client := c } :=
  laws.of_firm (laws.firm.follows follows) rfl id

/-! ### The object table changes as a whole -/

/-- The home half changes without a new record, answer or holding. -/
theorem State.Firm.housed (f : s.Firm) {h : Home} (lawful : h.Lawful) (answers : h.answers = s.home.answers)
    (waiting : ∀ i, ∀ w ∈ h.waitersAt i, ∃ v ∈ s.home.waitersAt i, v.requester = w.requester)
    (holds : ∀ r ∈ h.holds, r ∈ s.home.holds) : State.Firm { s with home := h } := by
  have still : (∀ i, s.home.waitersAt i = []) → ∀ i, h.waitersAt i = [] := fun none i =>
    List.eq_nil_iff_forall_not_mem.mpr fun w hw => by
      obtain ⟨v, hv, _⟩ := waiting i w hw
      rw [none i] at hv; exact nomatch hv
  have unheld : s.home.holds = [] → h.holds = [] := fun none => List.eq_nil_iff_forall_not_mem.mpr fun r hr => by
    have := holds r hr
    rw [none] at this; exact nomatch this
  refine ⟨lawful, f.client, f.busy, ⟨fun i w hw => ?_, fun x hx => ?_, fun r hr => f.departed.holds r (holds r hr)⟩,
    ⟨fun mode => ?_, f.quiet.silent, f.quiet.joining, f.quiet.sending, fun mode => ?_, f.quiet.held⟩, ⟨f.own.roster, fun x hx => ?_⟩,
    ⟨f.notices.single, f.notices.own, f.notices.join, f.notices.leave, f.notices.leaving⟩, f.queue,
    ⟨f.counters.notices, ?_, f.counters.requests⟩, ⟨f.attempt.notices, fun on => ?_, f.attempt.requests, f.attempt.ownPath⟩, f.events⟩
  · obtain ⟨v, hv, same⟩ := waiting i w hw
    have := f.departed.waiting i v hv
    rw [same] at this; exact this
  · exact f.departed.answers x (answers ▸ hx)
  · have rest := f.quiet.rest mode
    exact ⟨rest.slots, rest.requests, still rest.waiting, unheld rest.holds, (congrArg OutList.items answers).trans rest.answers⟩
  · obtain ⟨slots, requests, waits, held⟩ := f.quiet.leaving mode
    exact ⟨slots, requests, still waits, unheld held⟩
  · exact f.own.answers x (answers ▸ hx)
  · exact answers ▸ f.counters.answers
  · exact f.attempt.answers (answers ▸ on)

theorem Definition.inRange_of_definitionOf {kind : BitVec 3} {p q base : Nat} {d : Definition} (hp : p < 65536)
    (h : definitionOf kind p q base = some d) : d.inRange := by
  unfold definitionOf at h
  split at h
  · split at h
    · cases h; exact ⟨by assumption, by omega⟩
    · exact nomatch h
  · split at h
    · next range => cases h; exact ⟨range.1, by omega, range.2⟩
    · exact nomatch h
  · split at h
    · cases h; assumption
    · exact nomatch h
  · exact nomatch h

theorem Definition.carvedAt_of_definitionOf {kind : BitVec 3} {p q base : Nat} {d : Definition} (h : definitionOf kind p q base = some d) :
    d.carvedAt base := by
  rintro k b rfl
  unfold definitionOf at h
  split at h
  · split at h <;> exact nomatch h
  · split at h <;> exact nomatch h
  · split at h
    · cases h; rfl
    · exact nomatch h
  · exact nomatch h

/-- What an accepted DEFINE has checked (R7). -/
theorem State.checkDefine_accepted {r : LocalResult} {i : ObjIndex} {d : Definition} (h : s.checkDefine = (r, some (i, d))) :
    s.control.mode = .config ∧ s.home.entry i = none ∧ d.inRange ∧ d.carvedAt s.home.poolUsed ∧
      d.words ≤ Config.poolWords - s.home.poolUsed := by
  unfold State.checkDefine at h
  simp only at h
  split at h
  · exact nomatch h
  · next config =>
    split at h
    · exact nomatch h
    · next j _ =>
      split at h
      · split at h
        · exact nomatch h
        · next absent =>
          split at h
          · exact nomatch h
          · next e named =>
            split at h
            · next room =>
              cases h
              refine ⟨Decidable.not_not.mp config, ?_, Definition.inRange_of_definitionOf (s.port.param 1).isLt named,
                Definition.carvedAt_of_definitionOf named, room⟩
              simpa using absent
            · exact nomatch h
      · exact nomatch h

theorem DeviceLaws.define (laws : DeviceLaws s) : DeviceLaws s.define := by
  unfold State.define
  split
  · next r i d accepted =>
    obtain ⟨config, absent, range, carved, room⟩ := State.checkDefine_accepted accepted
    have rest := laws.quiet.rest (.inl config)
    have lawful := laws.home.define rest.waiting rest.holds absent range carved (by have := laws.pool.fits; omega)
    refine (laws.of_firm (laws.firm.housed lawful rfl (fun j w hw => ?_) fun r hr => hr) rfl id).respond _ _ _ _
    have : (s.home.define i d).waitersAt j = [] := by
      have entry : (s.home.define i d).entry j = if j = i then some (ObjectEntry.initial d) else s.home.entry j := s.home.entry_setEntry i j _
      rw [Home.waitersAt, entry]
      split
      · rfl
      · exact rest.waiting j
    rw [this] at hw; exact nomatch hw
  · exact laws.respond _ _ _ _

theorem DeviceLaws.clearDefinitions (laws : DeviceLaws s) : DeviceLaws s.clearDefinitions := by
  unfold State.clearDefinitions
  split
  · next config =>
    have rest := laws.quiet.rest (.inl config)
    refine (laws.of_firm (laws.firm.housed (laws.home.clearDefinitions rest.holds) rfl (fun j w hw => ?_) fun r hr => hr) rfl id).respond _ _ _ _
    simp [Home.clearDefinitions, Home.waitersAt, Home.entry] at hw
  · exact laws.respond _ _ _ _

/-! ### JOIN, LEAVE and the ends of their sequences -/

/-- The join sequence begins in CONFIG (R173). -/
theorem DeviceLaws.startJoin (laws : DeviceLaws s) (config : s.control.mode = .config) (released : s.control.resetAsserted = false) :
    DeviceLaws s.startJoin := by
  have rest := laws.quiet.rest (.inl config)
  obtain ⟨queue, notices, transmitter⟩ := laws.quiet.silent (.inl config)
  have unknown : ∀ n, s.startJoin.rosterOf n = .unknown := State.rosterOf_of_unknown rfl
  have known : ∀ n, s.startJoin.rosterOf n ≠ .departed := fun n h => by rw [unknown n] at h; exact nomatch h
  have items : (s.link.notices.push .join).items = [.join] := by rw [OutList.push, notices]; rfl
  have queued : s.control.leaveQueued = false := by
    cases h : s.control.leaveQueued with
    | false => rfl
    | true => have := laws.notices.leaving h; rw [config] at this; exact nomatch this
  refine State.Firm.laws_of_mode ⟨laws.home.initRuntime, laws.client, fun n r _ => known _, ⟨fun _ _ _ => known _, fun _ _ => known _, fun _ _ => known _⟩,
    ⟨fun _ => ⟨rest.slots, rest.requests, s.home.initRuntime_waitersAt, rfl, rest.answers⟩, fun m => ?_, fun _ x hx => ?_,
      fun _ => .inl transmitter, fun m => (nomatch m), fun held => ?_⟩, ⟨unknown _, fun x hx => laws.own.answers x hx⟩,
    ⟨?_, fun h => ?_, fun _ => rfl, fun h => ?_, fun h => ?_⟩, ⟨laws.queue.bounded, laws.queue.place⟩,
    ⟨OutList.countersSound_push _ _ laws.counters.notices, laws.counters.answers, laws.counters.requests⟩,
    ⟨laws.attempt.notices, laws.attempt.answers, laws.attempt.requests, laws.attempt.ownPath⟩, laws.events⟩ nofun
  · rcases m with m | m <;> exact nomatch m
  · have : x ∈ s.link.queue := hx
    rw [queue] at this; exact nomatch this
  · have : s.control.resetAsserted = true := held
    rw [released] at this; exact nomatch this
  · exact items ▸ List.pairwise_singleton _ _
  · have : Notice.depart s.control.number ∈ (s.link.notices.push .join).items := h
    rw [items] at this; simp at this
  · have : Notice.leave ∈ (s.link.notices.push .join).items := h
    rw [items] at this; simp at this
  · have : s.control.leaveQueued = true := h
    rw [queued] at this; exact nomatch this

/-- The own JOIN is delivered (R175). -/
theorem State.Firm.joinDelivered (f : s.Firm) (head : s.link.notices.items.head? = some .join) : DeviceLaws s.joinDelivered := by
  have joining := f.notices.join (List.mem_of_head? head)
  obtain ⟨tail, items⟩ : ∃ tail, s.link.notices.items = .join :: tail := List.head?_eq_some_iff.mp head
  have single := f.notices.single
  rw [items, List.nodup_cons] at single
  have queued : s.control.leaveQueued = false := by
    cases h : s.control.leaveQueued with
    | false => rfl
    | true => have := f.notices.leaving h; rw [joining] at this; exact nomatch this
  have dropped : s.joinDelivered.link.notices.items = tail := congrArg List.tail items
  have old : ∀ x ∈ tail, x ∈ s.link.notices.items := fun x hx => items ▸ List.mem_cons_of_mem _ hx
  refine State.Firm.laws_of_mode ⟨f.home, f.client, f.busy, ⟨f.departed.waiting, f.departed.answers, f.departed.holds⟩,
    ⟨fun m => ?_, fun m => ?_, fun m => (nomatch m), fun m => (nomatch m), fun m => (nomatch m), fun held => ?_⟩,
    ⟨f.own.roster, f.own.answers⟩, ⟨dropped ▸ single.2, fun h => f.notices.own (old _ (dropped ▸ h)),
      fun h => absurd (dropped ▸ h) single.1, fun h => f.notices.leave (old _ (dropped ▸ h)), fun h => ?_⟩,
    ⟨f.queue.bounded, f.queue.place⟩, ⟨OutList.countersSound_dropHead _, f.counters.answers, f.counters.requests⟩,
    ⟨fun on => (nomatch on), f.attempt.answers, f.attempt.requests, f.attempt.ownPath⟩, f.events⟩ nofun
  · rcases m with m | m | m <;> exact nomatch m
  · rcases m with m | m <;> exact nomatch m
  · have := (f.quiet.held held).1
    rw [joining] at this; exact nomatch this
  · have : s.control.leaveQueued = true := h
    rw [queued] at this; exact nomatch this

/-- The own JOIN reaches its BUSY limit (R176). -/
theorem State.Firm.joinFailed (f : s.Firm) (joining : s.control.mode = .joining) : DeviceLaws s.joinFailed := by
  have rest := f.quiet.rest (.inr (.inl joining))
  have zeroed := (f.listed (l := s.home.answers.zeroCounters) (.refl _) (fun _ => OutList.countersSound_zeroCounters _)
    fun on => (nomatch on)).follows (Client.follows_counters (c := s.client) s.client.requests.zeroCounters rfl
      (fun _ => OutList.countersSound_zeroCounters _) fun on => (nomatch on))
  refine State.Firm.of_rest zeroed.home zeroed.client ⟨rest.slots, rest.requests, rest.waiting, rest.holds, rest.answers⟩
    (OutList.countersSound_zeroCounters _) (OutList.countersSound_zeroCounters _) Link.idle_powerOn f.own.roster (.inl rfl) (fun held => ?_)
    ?_ f.events
  · have := (f.quiet.held held).1
    rw [joining] at this; exact nomatch this
  · have h : s.control.leaveQueued ≠ true := fun h => by
      have := f.notices.leaving h; rw [joining] at this; exact nomatch this
    exact Bool.eq_false_iff.mpr h

/-- The leave sequence ends (R180). -/
theorem State.Firm.leaveEnded (f : s.Firm) (leaving : s.control.mode = .leaving) : DeviceLaws s.leaveEnded := by
  obtain ⟨slots, requests, waiting, holds⟩ := f.quiet.leaving leaving
  have zeroed := f.follows (Client.follows_counters (c := s.client) s.client.requests.zeroCounters rfl
    (fun _ => OutList.countersSound_zeroCounters _) fun on => (nomatch on))
  have unknown : ∀ n, s.leaveEnded.rosterOf n = .unknown := State.rosterOf_of_unknown rfl
  exact State.Firm.of_rest f.home.restart zeroed.client ⟨slots, requests, s.home.initRuntime_waitersAt, rfl, rfl⟩
    OutList.countersSound_empty (OutList.countersSound_zeroCounters _) Link.idle_powerOn (unknown _) (.inl rfl) (fun _ => ⟨rfl, unknown⟩) rfl
    f.events

theorem Client.idle_of_not_anyBusy {c : Client} (h : c.anyBusy = false) (n : SlotNum) : (c.slot n).use.busy = false := by
  unfold Client.anyBusy at h
  rw [List.any_eq_false] at h
  exact Bool.eq_false_iff.mpr (h _ (by simp [Client.slot]))

/-- ACTIVE gives way to LEAVING where nothing waits, is held or is busy. -/
theorem State.Firm.leaving (f : s.Firm) (active : s.control.mode = .active) (idle : ∀ n, (s.client.slot n).use.busy = false)
    (waiting : ∀ i, s.home.waitersAt i = []) (holds : s.home.holds = []) :
    State.Firm { s with control := { s.control with mode := .leaving, leaveQueued := false } } := by
  have queued : s.control.leaveQueued ≠ true := fun h => by
    have := f.notices.leaving h; rw [active] at this; exact nomatch this
  refine ⟨f.home, f.client, f.busy, ⟨f.departed.waiting, f.departed.answers, f.departed.holds⟩,
    ⟨fun m => ?_, fun m => ?_, fun m => (nomatch m), fun m => (nomatch m),
      fun _ => ⟨idle, f.client.requests.items_at_rest idle, waiting, holds⟩, fun held => ?_⟩, ⟨f.own.roster, f.own.answers⟩,
    ⟨f.notices.single, f.notices.own, fun h => ?_, fun h => absurd (f.notices.leave h) queued, fun h => (nomatch h)⟩, f.queue,
    ⟨f.counters.notices, f.counters.answers, f.counters.requests⟩,
    ⟨f.attempt.notices, f.attempt.answers, f.attempt.requests, f.attempt.ownPath⟩, f.events⟩
  · rcases m with m | m | m <;> exact nomatch m
  · rcases m with m | m <;> exact nomatch m
  · have := (f.quiet.held held).1
    rw [active] at this; exact nomatch this
  · have := f.notices.join h
    rw [active] at this; exact nomatch this

/-- With no record waiting, the semaphores are settled (R58). -/
theorem State.Firm.settle (f : s.Firm) (waiting : ∀ i, s.home.waitersAt i = []) : State.Firm { s with home := s.home.settle } :=
  f.housed (f.home.settle waiting) rfl (fun i w hw => ⟨w, s.home.settle_waitersAt i ▸ hw, rfl⟩) fun _ hr => (nomatch hr)

theorem State.startLeave_of_flush (flushed : State.flush { s with control := { s.control with mode := .leaving, leaveQueued := false } } =
    { t with control := { t.control with mode := .leaving, leaveQueued := false } }) :
    s.startLeave = State.reportAnswers { { t with home := t.home.settle } with
      control := { t.control with mode := .leaving, leaveQueued := false } } := by
  unfold State.startLeave
  simp only [flushed]

/-- The leave sequence begins in ACTIVE with no busy slot (R178). -/
theorem DeviceLaws.startLeave (laws : DeviceLaws s) (active : s.control.mode = .active) (idle : ∀ n, (s.client.slot n).use.busy = false) :
    DeviceLaws s.startLeave := by
  have f := laws.firm.works (p := fun _ => False) (q := fun _ => False) (State.works_flush s) State.headsWait_flush
    (fun _ h => h.elim) fun _ h => h.elim
  obtain ⟨objects, flushed, entries⟩ := State.flush_eq s idle
  have again : State.flush { s with control := { s.control with mode := .leaving, leaveQueued := false } } =
      { s.flush with control := { s.flush.control with mode := .leaving, leaveQueued := false } } := by
    obtain ⟨objects', flushed', entries'⟩ := State.flush_eq { s with control := { s.control with mode := .leaving, leaveQueued := false } } idle
    have same : objects' = objects := Vector.ext fun i hi => (entries' ⟨i, hi⟩).trans (entries ⟨i, hi⟩).symm
    rw [flushed', flushed, same]
    simp only [State.withObjects, State.appendAnswers]
  have empty : ∀ i, s.flush.home.waitersAt i = [] := fun i => by
    have entry : s.flush.home.entry i = (s.home.entry i).map fun e => { e with waiters := [] } := by rw [flushed]; exact entries i
    rw [Home.waitersAt, entry]
    cases s.home.entry i <;> rfl
  have control : s.flush.control = s.control := by rw [flushed]; rfl
  have client : s.flush.client = s.client := by rw [flushed]; rfl
  have begun := (f.settle empty).leaving (by rw [control]; exact active) (by rw [client]; exact idle)
    (fun i => (s.flush.home.settle_waitersAt i).trans (empty i)) rfl
  generalize s.flush = u at again begun
  rw [State.startLeave_of_flush again]
  exact begun.reportAnswers

/-! ### RESET, the resets and eviction -/

theorem Events.causeSound_raiseEvicted {e : Events} (sound : e.CauseSound) (cause : EvictionCause) : (e.raiseEvicted cause).CauseSound := by
  unfold Events.raiseEvicted
  split
  · exact sound
  · exact ⟨fun _ => nofun, fun _ => rfl⟩

/-- Eviction keeps the laws, whatever the station state (R165, R169). -/
theorem DeviceLaws.evict (laws : DeviceLaws s) (cause : EvictionCause) : DeviceLaws (s.evict cause) := by
  unfold State.evict
  split
  · next onLink =>
    have released : s.control.resetAsserted = false := laws.firm.released fun config => by
      rw [config] at onLink; exact nomatch onLink
    exact State.Firm.of_rest laws.home.restart laws.client.evict
      ⟨s.client.evict_at_rest, rfl, s.home.initRuntime_waitersAt, rfl, rfl⟩ OutList.countersSound_empty OutList.countersSound_empty
      Link.idle_powerOn (State.rosterOf_of_unknown rfl _) (.inr rfl)
      (fun held => by
        have : s.control.resetAsserted = true := held
        rw [released] at this; exact nomatch this)
      rfl (Events.causeSound_raiseEvicted laws.events cause)
  · exact laws

theorem Events.causeSound_clear : Events.clear.CauseSound := ⟨nofun, fun h => (h rfl).elim⟩

/-- RESET keeps the laws (R182). -/
theorem DeviceLaws.resetStation (laws : DeviceLaws s) : DeviceLaws s.resetStation :=
  have unknown : ∀ n, s.resetStation.rosterOf n = .unknown := State.rosterOf_of_unknown rfl
  State.Firm.of_rest laws.home.restart s.client.lawful_clear
    ⟨fun n => by rw [State.resetStation, Client.clear_slot]; rfl, rfl, s.home.initRuntime_waitersAt, rfl, rfl⟩ OutList.countersSound_empty
    OutList.countersSound_empty Link.idle_powerOn (unknown _) (.inl rfl) (fun _ => ⟨rfl, unknown⟩) rfl Events.causeSound_clear

/-- What a power-on or RESETN reset leaves keeps the laws, whatever stood before (R183). -/
theorem laws_of_powerOn {sid : StationNum} {rate : RateCode} {powered held : Bool}
    (control : t.control = { Control.powerOn sid rate with powered, resetAsserted := held }) (roster : t.roster = rosterUnknown)
    (home : t.home = Home.powerOn) (client : t.client = Client.powerOn) (link : t.link = Link.powerOn) : DeviceLaws t := by
  have unknown := State.rosterOf_of_unknown roster
  refine State.Firm.of_rest (home ▸ Home.lawful_powerOn) (client ▸ Client.lawful_powerOn) ⟨fun n => ?_, ?_, fun i => ?_, ?_, ?_⟩ ?_ ?_
    (link ▸ Link.idle_powerOn) (unknown _) (.inl ?_) (fun _ => ⟨?_, unknown⟩) ?_ ?_
  · rw [client, Client.powerOn_slot]; rfl
  · rw [client]; rfl
  · rw [home]; exact Home.powerOn_waitersAt i
  · rw [home]; rfl
  · rw [home]; rfl
  · rw [home]; exact OutList.countersSound_empty
  · rw [client]; exact OutList.countersSound_empty
  · rw [control]; rfl
  · rw [control]; rfl
  · rw [control]; rfl
  · rw [control]; exact Events.causeSound_clear

/-- The release of RESETN keeps the laws: the held station is at rest with every roster entry UNKNOWN (R183). -/
theorem DeviceLaws.resetnRelease (laws : DeviceLaws s) (held : s.control.resetAsserted = true) (sid : StationNum) (rate : RateCode) :
    DeviceLaws { s with control := { s.control with resetAsserted := false, number := sid, rate, time := 0, mode := .config } } := by
  obtain ⟨config, unknown⟩ := laws.quiet.held held
  have rest := laws.quiet.rest (.inl config)
  obtain ⟨queue, notices, transmitter⟩ := laws.quiet.silent (.inl config)
  refine State.Firm.of_rest laws.home laws.client ⟨rest.slots, rest.requests, rest.waiting, rest.holds, rest.answers⟩ laws.counters.answers
    laws.counters.requests ⟨queue, notices, transmitter, laws.counters.notices⟩ (unknown _) (.inl rfl) (fun h => (nomatch h)) ?_ laws.events
  have queued : s.control.leaveQueued ≠ true := fun h => by
    have := laws.notices.leaving h; rw [config] at this; exact nomatch this
  exact Bool.eq_false_iff.mpr queued

/-- The loss of supply keeps the laws (R148). -/
theorem DeviceLaws.powerLoss (laws : DeviceLaws s) :
    DeviceLaws { s.endAttempts with
      link := { s.endAttempts.link with driven := none }, control := { s.endAttempts.control with powered := false } } := by
  have f := (laws.firm.endAttempts.drive none).controlled false s.control.time laws.events
  exact f.laws fun leaving empty => laws.leaveAdded leaving empty

/-! ### Station time -/

/-- Station time advances (R32, R34). -/
theorem DeviceLaws.advanceTime (laws : DeviceLaws s) : DeviceLaws s.advanceTime := by
  have f := (laws.firm.housed (laws.home.advance (s.control.time + 1)) rfl (fun i w hw => ?_) fun r hr => hr).controlled s.control.powered
    (s.control.time + 1) laws.events
  · exact f.laws fun leaving empty => laws.leaveAdded leaving empty
  · rw [Home.advance_waitersAt] at hw
    obtain ⟨v, hv, rfl⟩ := List.mem_map.mp hw
    exact ⟨v, hv, rfl⟩

/-! ### SUBMIT, CANCEL, POP -/

theorem Client.freeSlot_free {c : Client} {n : SlotNum} (h : c.freeSlot = some n) : (c.slot n).use = .free := by
  unfold Client.freeSlot at h
  generalize allSlots = l at h
  exact of_decide_eq_true (List.find?_some (p := fun n => decide ((c.slot n).use = .free)) h)

/-- A slot is taken for a request in ACTIVE (R105). -/
theorem DeviceLaws.submitOn (laws : DeviceLaws s) (active : s.control.mode = .active) {n : SlotNum} (free : (s.client.slot n).use = .free)
    (r : Request) : DeviceLaws (s.submitOn n r) := by
  have mode : s.control.mode ≠ .leaving := fun h => by rw [active] at h; exact nomatch h
  have taken := fun m => s.client.slot_takeSlot n m (.queued r)
  unfold State.submitOn
  simp only
  split
  · refine State.Firm.laws_of_mode (laws.firm.submit active (laws.client.submitDone free r .homeAbsent 0) (fun m q hq => ?_) ?_ ?_) mode
    · rw [Client.slot_complete] at hq
      split at hq
      · exact nomatch hq
      · next other =>
        rw [taken, if_neg other] at hq
        exact laws.busy m q hq
    · exact OutList.countersSound_removeIf _ _ laws.counters.requests
    · exact OutList.onLine_removeIf _ _
  · next stays =>
    refine State.Firm.laws_of_mode (laws.firm.submit active (laws.client.submit free r) (fun m q hq => ?_)
      (OutList.countersSound_push _ _ laws.counters.requests) id) mode
    have hq : ((s.client.takeSlot n (.queued r)).slot m).use.busy? = some q := hq
    rw [taken] at hq
    split at hq
    · cases hq
      intro gone
      refine stays ⟨fun own => ?_, gone⟩
      rw [own, laws.own.roster] at gone; exact nomatch gone
    · exact laws.busy m q hq

theorem DeviceLaws.submit (laws : DeviceLaws s) : DeviceLaws s.submit := by
  unfold State.submit
  split
  · exact laws.respond _ _ _ _
  · next active =>
    split
    · exact laws.respond _ _ _ _
    · next r _ =>
      split
      · exact laws.respond _ _ _ _
      · next n found => exact (laws.submitOn (Decidable.not_not.mp active) (Client.freeSlot_free found) r).respond _ _ _ _

theorem DeviceLaws.cancel (laws : DeviceLaws s) : DeviceLaws s.cancel :=
  (laws.follows (s.client.follows_cancel s.port.cancelSlot)).respond _ _ _ _

theorem DeviceLaws.pop (laws : DeviceLaws s) : DeviceLaws s.pop := by
  unfold State.pop
  split
  · exact laws.respond _ _ _ _
  · next r rest head => exact (laws.follows (Client.follows_pop head)).respond _ _ _ _

/-! ### The other local commands -/

theorem DeviceLaws.join (laws : DeviceLaws s) (running : s.running = true) : DeviceLaws s.join := by
  unfold State.join
  split
  · next config =>
    simp only [State.running, Bool.and_eq_true, Bool.not_eq_true'] at running
    exact (laws.startJoin config running.2).respond _ _ _ _
  · exact laws.respond _ _ _ _

theorem DeviceLaws.leave (laws : DeviceLaws s) : DeviceLaws s.leave := by
  unfold State.leave
  split
  · exact laws.respond _ _ _ _
  · next active =>
    split
    · exact laws.respond _ _ _ _
    · next idle =>
      exact (laws.startLeave (Decidable.not_not.mp active) (Client.idle_of_not_anyBusy (Bool.eq_false_iff.mpr idle))).respond _ _ _ _

theorem DeviceLaws.resetCommand (laws : DeviceLaws s) : DeviceLaws s.resetCommand := (laws.resetStation.respond _ _ _ _).capture

theorem DeviceLaws.readEvents (laws : DeviceLaws s) : DeviceLaws s.readEvents :=
  have f := laws.firm.controlled s.control.powered s.control.time Events.causeSound_clear
  DeviceLaws.respond (f.laws fun leaving empty => laws.leaveAdded leaving empty) _ _ _ _

theorem DeviceLaws.readObject (laws : DeviceLaws s) : DeviceLaws s.readObject := by
  unfold State.readObject
  split
  · exact laws.respond _ _ _ _
  · exact laws.of_same rfl rfl rfl rfl rfl

end

end Sys2Proof.Machine
end

section
/-! SUPPORT. The requests taken, the departures and the events of the link keep the laws of the station. -/

namespace Sys2Proof.Machine

section
variable {s : State} {f : Frame}

/-! ### Occasions -/

/-- On the link the station is in none of CONFIG and EVICTED. -/
theorem State.onLink_mode (onLink : s.onLink = true) : ¬ (s.control.mode = .config ∨ s.control.mode = .evicted) := by
  have mode := State.mode_of_onLink onLink
  rintro (h | h) <;> rw [h] at mode <;> exact nomatch mode

theorem State.released_of_running (running : s.running = true) : s.control.resetAsserted = false := by
  simp only [State.running, Bool.and_eq_true, Bool.not_eq_true'] at running
  exact running.2

theorem State.takesRequests_mode (takes : s.takesRequests = true) : s.control.mode = .active ∨ s.control.mode = .leaving := by
  simp only [State.takesRequests, Bool.and_eq_true, Bool.or_eq_true, decide_eq_true_eq] at takes
  exact takes.2

/-- A sender that is not DEPARTED, the own number counted, is not held DEPARTED. -/
theorem DeviceLaws.sender_known (laws : DeviceLaws s) (sender : s.senderDeparted f = false) : s.rosterOf f.sender ≠ .departed := by
  intro gone
  simp only [State.senderDeparted, gone, decide_true, Bool.and_true, decide_eq_false_iff_not, Decidable.not_not] at sender
  rw [sender, laws.own.roster] at gone
  exact nomatch gone

/-! ### The head of the receive queue -/

theorem DeviceLaws.dropHeadFrame (laws : DeviceLaws s) : DeviceLaws s.dropHeadFrame := laws.of_firm laws.firm.dropHeadFrame rfl id

theorem DeviceLaws.drive (laws : DeviceLaws s) (m : Option AckMark) : DeviceLaws (s.drive m) := laws.of_firm (laws.firm.drive m) rfl id

/-- An answer that is produced leaves no answer list empty that was not. -/
theorem State.answers_produce (x : AnswerItem) (empty : (s.produce x).home.answers.items = []) : s.home.answers.items = [] := by
  rw [State.items_produce] at empty
  split at empty
  · exact empty
  · exact (List.append_eq_nil_iff.mp empty).1

/-- A request is taken (R84, R85, R96). -/
theorem DeviceLaws.takeRequest (laws : DeviceLaws s) (op : Operation) (takes : s.takesRequests = true)
    (sender : s.rosterOf f.sender ≠ .departed) (free : 0 < s.home.freeImmediate) : DeviceLaws (s.takeRequest f op) := by
  have dropped := laws.dropHeadFrame
  have mode := State.takesRequests_mode takes
  unfold State.takeRequest
  simp only
  split
  · next leaving =>
    have works : s.dropHeadFrame.Works (fun n => n = f.sender) (fun _ => False) (s.dropHeadFrame.answer f op .homeAbsent 0) :=
      State.works_answer op .homeAbsent 0 free rfl
    refine dropped.of_firm (dropped.firm.works works (State.headsWait_answer op .homeAbsent 0)
      (fun n hn => ⟨fun resting => ?_, hn ▸ sender⟩) fun _ h => h.elim) works.keeps.1 (State.answers_produce _)
    rcases resting with m | m | m <;> rw [State.dropHeadFrame_control, leaving] at m <;> exact nomatch m
  · next not_leaving =>
    have active := mode.resolve_right not_leaving
    have works : s.dropHeadFrame.Works (fun n => n = f.sender) (fun n => n = f.sender) (s.dropHeadFrame.applyRequest f op) :=
      State.works_applyRequest op free rfl rfl
    refine State.Firm.laws_of_mode (dropped.firm.works works (State.headsWait_applyRequest op)
      (fun n hn => ⟨fun resting => ?_, hn ▸ sender⟩) fun n hn => ⟨active, hn ▸ sender⟩) ?_
    · rcases resting with m | m | m <;> rw [State.dropHeadFrame_control, active] at m <;> exact nomatch m
    · rw [works.keeps.1]; exact not_leaving

/-- An answer at the head is taken (R114). -/
theorem DeviceLaws.takeAnswer (laws : DeviceLaws s) : DeviceLaws (s.takeAnswer f) := by
  unfold State.takeAnswer
  split
  · exact laws.follows (s.client.follows_receive _ _)
  · exact laws

/-- A due expiry is taken; in LEAVING none is left (R34). -/
theorem DeviceLaws.expire (laws : DeviceLaws s) (i : ObjIndex) (st : StationNum) (sl : SlotNum) : DeviceLaws (s.expire i st sl) := by
  have works : s.Works (fun _ => False) (fun _ => False) (s.expire i st sl) := State.works_expire i st sl
  have firm := laws.firm.works works (State.headsWait_expire st sl) (fun _ h => h.elim) fun _ h => h.elim
  refine firm.laws fun leaving empty => ?_
  rw [works.keeps.1] at leaving ⊢
  have unchanged : s.expire i st sl = s := by
    unfold State.expire
    cases entry : s.home.entry i with
    | none => rfl
    | some e =>
      have none_waits := (Home.waitersAt_of_entry entry).symm.trans ((laws.quiet.leaving leaving).2.2.1 i)
      simp only [none_waits, List.find?_nil]
  exact laws.leaveAdded leaving (unchanged ▸ empty)

/-! ### Purge and departure -/

theorem State.Firm.purge (law : s.Firm) (n : StationNum) : (s.purge n).Firm :=
  (law.follows (s.client.follows_purge n)).works (p := fun _ => False) (q := fun _ => False) (State.works_purgeHome n _)
    (State.headsWait_purgeHome n) (fun _ h => h.elim) fun _ h => h.elim

theorem State.purge_control (n : StationNum) : (s.purge n).control = s.control :=
  (State.works_purgeHome (p := fun _ => False) (q := fun _ => False) n { s with client := s.client.purge n }).keeps.1

/-- A station is purged and marked (R158). -/
theorem State.Firm.purgeMark (law : s.Firm) (n : StationNum) (e : RosterEntry) (released : s.control.resetAsserted = false) :
    ((s.purge n).mark n e).Firm :=
  (law.purge n).mark n e (by rw [State.purge_control]; exact released) fun _ =>
    State.purgedOf_purge n s ((Home.holdsSound_iff _).mp law.home.tight.balanced.holds).2

theorem DeviceLaws.depart (laws : DeviceLaws s) (n : StationNum) (released : s.control.resetAsserted = false) : DeviceLaws (s.depart n) := by
  unfold State.depart
  split
  · exact laws
  · exact (laws.firm.purgeMark n .departed released).reportAnswers

/-- A DEPART naming another station is queued, on the link (R156). -/
theorem State.Firm.queueDepart (law : s.Firm) {n : StationNum} (other : n ≠ s.control.number)
    (mode : ¬ (s.control.mode = .config ∨ s.control.mode = .evicted)) : (s.queueDepart n).Firm := by
  unfold State.queueDepart
  split
  · exact law
  · next absent =>
    refine law.noticed (OutList.countersSound_push _ _ law.counters.notices) id (fun m => absurd m mode) ?_ fun x hx => ?_
    · refine List.nodup_append.mpr ⟨law.notices.single, List.pairwise_singleton _ _, fun a ha b hb => ?_⟩
      rw [List.mem_singleton.mp hb]
      rintro rfl
      exact absent (List.contains_iff_mem.mpr ha)
    · rcases List.mem_append.mp hx with hx | hx
      · exact .inl hx
      · exact .inr ⟨n, other, List.mem_singleton.mp hx⟩

theorem State.Firm.withdrawDepart (law : s.Firm) (n : StationNum) : (s.withdrawDepart n).Firm := by
  unfold State.withdrawDepart
  split
  · exact law
  · exact law.unnoticed (OutList.countersSound_removeIf _ _ law.counters.notices) (OutList.onLine_removeIf _ _)
      (by rw [OutList.items_removeIf]; exact List.filter_sublist)

/-- A station is declared departed, on the link (R156). -/
theorem DeviceLaws.declareDeparted (laws : DeviceLaws s) (n : StationNum) (released : s.control.resetAsserted = false)
    (mode : ¬ (s.control.mode = .config ∨ s.control.mode = .evicted)) : DeviceLaws (s.declareDeparted n) := by
  unfold State.declareDeparted
  split
  · exact laws
  · next other =>
    have control : ((s.purge n).mark n .departed).control = s.control := by rw [State.mark_control, State.purge_control]
    exact ((laws.firm.purgeMark n .departed released).queueDepart (by rw [control]; exact fun own => other (.inl own))
      (by rw [control]; exact mode)).reportAnswers

theorem DeviceLaws.rejoin (laws : DeviceLaws s) (n : StationNum) (released : s.control.resetAsserted = false) : DeviceLaws (s.rejoin n) := by
  unfold State.rejoin
  split
  · exact laws
  · exact ((laws.firm.purgeMark n .present released).withdrawDepart n).reportAnswers

theorem DeviceLaws.takeDepart (laws : DeviceLaws s) (released : s.control.resetAsserted = false) : DeviceLaws (s.takeDepart f) := by
  unfold State.takeDepart
  split
  · exact laws.evict _
  · exact laws.depart _ released

/-! ### The beginning of an attempt -/

/-- With the transmitter free no list's head is in an attempt. -/
theorem State.AttemptSound.idle (sound : s.AttemptSound) (free : s.link.transmitter = .free) :
    s.link.notices.onLine = false ∧ s.home.answers.onLine = false ∧ s.client.requests.onLine = false := by
  refine ⟨Bool.eq_false_iff.mpr fun on => ?_, Bool.eq_false_iff.mpr fun on => ?_, Bool.eq_false_iff.mpr fun on => ?_⟩
  · obtain ⟨_, _, line, _⟩ := sound.notices on
    rw [free] at line; exact nomatch line
  · obtain ⟨_, _, line, _⟩ := sound.answers on
    rw [free] at line; exact nomatch line
  · obtain ⟨_, _, line | line, _⟩ := sound.requests on <;> rw [free] at line <;> exact nomatch line

/-- The frame a station chooses, by the list it comes from (R133). -/
inductive State.Chosen (s : State) (f : Frame) : Prop
  | notice (k : NoticeKind) (kind : f.kind = .notice k) (items : s.link.notices.items ≠ []) (dest : f.dest = .all)
  | answer (op : Operation) (kind : f.kind = .answer op) (items : s.home.answers.items ≠ [])
      (dest : ∃ x ∈ s.home.answers.items, f.dest = .station x.dest)
  | request (op : Operation) (kind : f.kind = .request op) (items : s.client.requests.items ≠ [])

theorem Notice.toFrame_kind (own : StationNum) (n : Notice) : ∃ k, (n.toFrame own).kind = .notice k := by
  cases n <;> exact ⟨_, rfl⟩

theorem Notice.toFrame_dest (own : StationNum) (n : Notice) : (n.toFrame own).dest = .all := by cases n <;> rfl

theorem Request.toFrame_kind (own : StationNum) (slot : SlotNum) (tag : Tag) (r : Request) :
    (r.toFrame own slot tag).kind = .request r.operation := by
  unfold Request.toFrame
  split <;> rfl

theorem State.entryFrame_request {e : RequestEntry} (h : s.entryFrame e = some f) : ∃ op, f.kind = .request op := by
  unfold State.entryFrame at h
  simp only at h
  split at h
  · exact nomatch h
  · split at h <;> cases h
    · exact ⟨_, Request.toFrame_kind _ _ _ _⟩
    · exact ⟨_, rfl⟩
    · exact ⟨_, rfl⟩

theorem State.chosen_sound (h : s.chosen = some f) : s.Chosen f := by
  unfold State.chosen at h
  cases notices : s.link.notices.items with
  | cons n _ =>
    simp only [notices, Option.some.injEq] at h
    subst h
    obtain ⟨k, kind⟩ := n.toFrame_kind s.control.number
    exact .notice k kind (by rw [notices]; exact nofun) (n.toFrame_dest _)
  | nil =>
    cases answers : s.home.answers.items with
    | cons x _ =>
      simp only [notices, answers, Option.some.injEq] at h
      subst h
      exact .answer _ rfl (by rw [answers]; exact nofun) ⟨x, by rw [answers]; exact List.mem_cons_self, rfl⟩
    | nil =>
      cases requests : s.client.requests.items with
      | nil => simp [notices, answers, requests] at h
      | cons e _ =>
        simp only [notices, answers, requests] at h
        obtain ⟨op, kind⟩ := State.entryFrame_request h
        exact .request op kind (by rw [requests]; exact nofun)

/-- The attempt of the chosen frame begins (R130, R133, R144). -/
theorem DeviceLaws.beginFrame (laws : DeviceLaws s) (chosen : s.chosen = some f) (onLink : s.onLink = true)
    (free : s.link.transmitter = .free) : DeviceLaws (s.beginFrame f) := by
  obtain ⟨notices_off, answers_off, requests_off⟩ := laws.attempt.idle free
  have mode := State.onLink_mode onLink
  have notices := OutList.attempting_of_off notices_off
  have answers := OutList.attempting_of_off answers_off
  have requests := OutList.attempting_of_off requests_off
  have keep : ∀ {a b c x d}, s.beginFrame f = s.attempting a b c x d → (s.attempting a b c x d).Firm → DeviceLaws (s.beginFrame f) :=
    fun eq firm => eq ▸ laws.of_firm firm rfl id
  by_cases held : s.link.placeHeld = true ∧ s.toItself f = false
  · have unchanged : s.beginFrame f = s := by simp [State.beginFrame, held.1, held.2]
    rw [unchanged]; exact laws
  cases State.chosen_sound chosen with
  | notice k kind items dest =>
    have away : s.toItself f = false := by simp [State.toItself, dest]
    have clear : s.link.placeHeld = false := Bool.eq_false_iff.mpr fun h => held ⟨h, away⟩
    refine keep (a := true) (b := false) (c := false) (x := .line f) (d := none) ?_ (laws.firm.attempting ⟨fun _ => items, nofun, nofun⟩
      ⟨fun _ => ⟨f, k, rfl, kind⟩, fun on => (nomatch on), fun on => (nomatch on), fun _ h => (nomatch h)⟩ (fun m => absurd m mode)
      fun _ => .inr ⟨f, rfl, by rw [Frame.isNotice, kind]⟩)
    simp only [State.beginFrame, away, clear, State.beginOn, kind, State.attempting, answers, requests]
    rfl
  | answer op kind items dest =>
    obtain ⟨x, listed, dest⟩ := dest
    have away : s.toItself f = false := by simp [State.toItself, dest, laws.own.answers x listed]
    have clear : s.link.placeHeld = false := Bool.eq_false_iff.mpr fun h => held ⟨h, away⟩
    refine keep (a := false) (b := true) (c := false) (x := .line f) (d := none) ?_ (laws.firm.attempting ⟨nofun, fun _ => items, nofun⟩
      ⟨fun on => (nomatch on), fun _ => ⟨f, op, rfl, kind⟩, fun on => (nomatch on), fun _ h => (nomatch h)⟩ (fun m => absurd m mode)
      fun m => absurd (laws.quiet.rest (.inr (.inl m))).answers items)
    simp only [State.beginFrame, away, clear, State.beginOn, kind, State.attempting, notices, requests]
    rfl
  | request op kind items =>
    have not_joining : s.control.mode ≠ .joining := fun m => absurd (laws.quiet.rest (.inr (.inl m))).requests items
    cases away : s.toItself f with
    | true =>
      refine keep (a := false) (b := false) (c := true) (x := .ownPath f) (d := s.link.driven) ?_
        (laws.firm.attempting ⟨nofun, nofun, fun _ => items⟩ ⟨fun on => (nomatch on), fun on => (nomatch on), fun _ => ⟨f, op, .inr rfl, kind⟩,
          fun g same => by cases same; exact ⟨op, kind⟩⟩ (fun m => absurd m mode) fun m => absurd m not_joining)
      simp only [State.beginFrame, away, State.beginOn, kind, State.attempting, notices, answers]
      rfl
    | false =>
      have clear : s.link.placeHeld = false := Bool.eq_false_iff.mpr fun h => held ⟨h, away⟩
      refine keep (a := false) (b := false) (c := true) (x := .line f) (d := none) ?_
        (laws.firm.attempting ⟨nofun, nofun, fun _ => items⟩ ⟨fun on => (nomatch on), fun on => (nomatch on), fun _ => ⟨f, op, .inl rfl, kind⟩,
          fun _ h => (nomatch h)⟩ (fun m => absurd m mode) fun m => absurd m not_joining)
      simp only [State.beginFrame, away, clear, State.beginOn, kind, State.attempting, notices, answers]
      rfl

end

end Sys2Proof.Machine
end

section
/-! SUPPORT. The outcomes of an attempt and the frames heard keep the laws of the station. -/

namespace Sys2Proof.Machine

section
variable {s : State} {f : Frame}

/-! ### The counters of a list's head (R134) -/

theorem OutList.countersSound_countBusy {α : Type} {l : OutList α} (below : l.busyReachesLimit = false) (items : l.items ≠ []) :
    l.countBusy.CountersSound := by
  simp only [OutList.busyReachesLimit, decide_eq_false_iff_not, Nat.not_le] at below
  exact ⟨(by decide : 0 < Config.silenceLimit), below, fun empty => absurd empty items⟩

theorem OutList.countersSound_countSilence {α : Type} {l : OutList α} (sound : l.CountersSound) (below : l.silenceReachesLimit = false)
    (items : l.items ≠ []) : l.countSilence.CountersSound := by
  simp only [OutList.silenceReachesLimit, decide_eq_false_iff_not, Nat.not_le] at below
  exact ⟨below, sound.busy, fun empty => absurd empty items⟩

/-- The list that the frame `f` comes from is not empty. -/
def State.Heads (f : Frame) (s : State) : Prop :=
  match f.kind with
  | .notice _ => s.link.notices.items ≠ []
  | .answer _ => s.home.answers.items ≠ []
  | .request _ => s.client.requests.items ≠ []

theorem State.heads_of_itemStands (stands : s.itemStands f = true) : s.endAttempts.Heads f := by
  unfold State.itemStands at stands
  unfold State.Heads
  cases kind : f.kind with
  | notice k =>
    simp only [kind, Bool.and_eq_true, Bool.not_eq_true', List.isEmpty_eq_false_iff] at stands ⊢
    exact stands.2
  | answer op =>
    simp only [kind, Bool.and_eq_true, Bool.not_eq_true', List.isEmpty_eq_false_iff] at stands ⊢
    exact stands.2
  | request op =>
    simp only [kind, Bool.and_eq_true, Bool.not_eq_true', List.isEmpty_eq_false_iff] at stands ⊢
    exact stands.2

/-! ### Outcomes of a unicast -/

theorem DeviceLaws.endAttempts (laws : DeviceLaws s) : DeviceLaws s.endAttempts := laws.of_firm laws.firm.endAttempts rfl id

/-- The answer list's counters change, or its items change places. -/
theorem DeviceLaws.listed (laws : DeviceLaws s) {l : OutList AnswerItem} (perm : l.items.Perm s.home.answers.items)
    (counters : l.CountersSound) (off : l.onLine = false) : DeviceLaws { s with home := { s.home with answers := l } } :=
  laws.of_firm (laws.firm.listed (.of_perm perm) (fun _ => counters) fun on => by rw [off] at on; exact nomatch on) rfl
    fun empty => by
      have none : l.items = [] := empty
      rw [none] at perm
      exact perm.nil_eq.symm

/-- The request list's counters change. -/
theorem DeviceLaws.requested (laws : DeviceLaws s) {l : OutList RequestEntry} (items : l.items = s.client.requests.items)
    (counters : l.CountersSound) (off : l.onLine = false) : DeviceLaws { s with client := { s.client with requests := l } } :=
  laws.follows (Client.follows_counters l items (fun _ => counters) fun on => by rw [off] at on; exact nomatch on)

theorem DeviceLaws.accepted (laws : DeviceLaws s) : DeviceLaws (s.accepted f) := by
  unfold State.accepted
  split
  · exact (laws.firm.listed (l := s.home.answers.dropHead) (.of_sublist (List.tail_sublist _)) (fun _ => OutList.countersSound_dropHead _)
      fun on => (nomatch on)).reportAnswers
  · exact laws.follows s.client.follows_acceptHead
  · exact laws

theorem DeviceLaws.deferHead (laws : DeviceLaws s) : DeviceLaws { s with home := s.home.deferHead } := by
  unfold Home.deferHead
  split
  · exact laws.listed (OutList.perm_moveToTail _ _) (OutList.countersSound_moveToTail _ _) rfl
  · exact laws

theorem DeviceLaws.busied (laws : DeviceLaws s) (heads : s.Heads f) : DeviceLaws (s.busied f) := by
  unfold State.busied
  unfold State.Heads at heads
  cases kind : f.kind with
  | answer op =>
    simp only [kind] at heads ⊢
    split
    · exact laws.deferHead
    · next below => exact laws.listed (List.Perm.refl _) (OutList.countersSound_countBusy (Bool.eq_false_iff.mpr below) heads) rfl
  | request op =>
    simp only [kind] at heads ⊢
    split
    · exact laws.follows s.client.follows_busyLimitHead
    · next below => exact laws.requested rfl (OutList.countersSound_countBusy (Bool.eq_false_iff.mpr below) heads) rfl
  | notice k => exact laws

theorem DeviceLaws.silenceLimit (laws : DeviceLaws s) (onLink : s.onLink = true) : DeviceLaws (s.silenceLimit f) := by
  have mode := State.onLink_mode onLink
  have released := State.released_of_running (State.running_of_onLink onLink)
  unfold State.silenceLimit
  cases f.kind with
  | answer op =>
    have zeroed := laws.listed (l := s.home.answers.zeroCounters) (List.Perm.refl _) (OutList.countersSound_zeroCounters _) rfl
    cases f.dest.station? with
    | none => exact zeroed
    | some n => exact zeroed.declareDeparted n released mode
  | request op =>
    have zeroed := laws.requested (l := s.client.requests.zeroCounters) rfl (OutList.countersSound_zeroCounters _) rfl
    cases f.dest.station? with
    | none => exact zeroed
    | some n => exact zeroed.declareDeparted n released mode
  | notice k =>
    cases f.dest.station? with
    | none => exact laws
    | some n => exact laws.declareDeparted n released mode

theorem DeviceLaws.silenced (laws : DeviceLaws s) (onLink : s.onLink = true) (heads : s.Heads f) : DeviceLaws (s.silenced f) := by
  unfold State.silenced
  unfold State.Heads at heads
  cases kind : f.kind with
  | answer op =>
    simp only [kind] at heads ⊢
    split
    · exact laws.silenceLimit onLink
    · next below =>
      exact laws.listed (List.Perm.refl _) (OutList.countersSound_countSilence laws.counters.answers (Bool.eq_false_iff.mpr below) heads) rfl
  | request op =>
    simp only [kind] at heads ⊢
    split
    · exact laws.silenceLimit onLink
    · next below =>
      exact laws.requested rfl (OutList.countersSound_countSilence laws.counters.requests (Bool.eq_false_iff.mpr below) heads) rfl
  | notice k => exact laws

theorem DeviceLaws.unicastOutcome (laws : DeviceLaws s) (onLink : s.onLink = true) (o : AttemptOutcome) :
    DeviceLaws (s.unicastOutcome f o) := by
  have ended := laws.endAttempts
  unfold State.unicastOutcome
  cases o with
  | stale => exact ended.evict _
  | accept =>
    simp only
    split
    · exact ended.accepted
    · exact ended
  | busy =>
    simp only
    split
    · next stands => exact ended.busied (State.heads_of_itemStands stands)
    · exact ended
  | silence =>
    simp only
    split
    · next stands => exact ended.silenced onLink (State.heads_of_itemStands stands)
    · exact ended

/-! ### Outcomes of a broadcast -/

/-- The head notice leaves the notice list. -/
theorem DeviceLaws.dropNotice (laws : DeviceLaws s) :
    DeviceLaws { s with link := { s.link with notices := s.link.notices.dropHead } } :=
  laws.of_firm (laws.firm.unnoticed (OutList.countersSound_dropHead _) (fun on => (nomatch on)) (List.tail_sublist _)) rfl id

theorem DeviceLaws.noticeDelivered (laws : DeviceLaws s) : DeviceLaws s.noticeDelivered := by
  unfold State.noticeDelivered
  split
  · next head => exact laws.firm.joinDelivered head
  · next head => exact laws.firm.leaveEnded (laws.notices.leaving (laws.notices.leave (List.mem_of_head? head)))
  · exact laws.dropNotice
  · exact laws

theorem DeviceLaws.noticeLimit (laws : DeviceLaws s) : DeviceLaws s.noticeLimit := by
  unfold State.noticeLimit
  split
  · next head => exact laws.firm.joinFailed (laws.notices.join (List.mem_of_head? head))
  · next head => exact laws.firm.leaveEnded (laws.notices.leaving (laws.notices.leave (List.mem_of_head? head)))
  · exact laws.dropNotice
  · exact laws

theorem DeviceLaws.broadcastOutcome (laws : DeviceLaws s) (notice : f.isNotice = true) (busy : Bool) :
    DeviceLaws (s.broadcastOutcome f busy) := by
  have ended := laws.endAttempts
  unfold State.broadcastOutcome
  simp only
  split
  · next stands =>
    split
    · split
      · exact ended.noticeLimit
      · next below =>
        have heads := State.heads_of_itemStands stands
        unfold State.Heads at heads
        unfold Frame.isNotice at notice
        cases kind : f.kind with
        | notice k =>
          simp only [kind] at heads
          exact ended.of_firm (ended.firm.unnoticed (OutList.countersSound_countBusy (Bool.eq_false_iff.mpr below) heads)
            (fun on => (nomatch on)) (List.Sublist.refl _)) rfl id
        | answer op => simp only [kind] at notice; exact nomatch notice
        | request op => simp only [kind] at notice; exact nomatch notice
    · exact ended.noticeDelivered
  · exact ended

/-! ### The receive queue -/

/-- A frame or a place joins the receive queue, which is not full, on the link. -/
theorem DeviceLaws.enqueue (laws : DeviceLaws s) {x : QueueItem} (onLink : s.onLink = true) (room : s.link.queueFull = false)
    (single : x.isFrame = true ∨ s.link.placeHeld = false) (joining : s.control.mode = .joining → x.content.isNotice = true) :
    DeviceLaws { s with link := s.link.enqueue x } := by
  refine laws.of_firm (laws.firm.queued s.link.driven ⟨?_, ?_⟩ (fun m => absurd m (State.onLink_mode onLink)) fun m y hy => ?_) rfl id
  · simp only [Link.queueFull, decide_eq_false_iff_not, Nat.not_le] at room
    rw [List.length_append]
    exact room
  · rw [List.countP_append]
    rcases single with frame | clear
    · simpa [frame] using laws.queue.place
    · have : s.link.queue.countP (fun y => !y.isFrame) = 0 := List.countP_eq_zero.mpr (by
        simpa [Link.placeHeld, List.any_eq_false] using clear)
      rw [this, Nat.zero_add]
      exact List.countP_le_length
  · rcases List.mem_append.mp hy with hy | hy
    · exact laws.quiet.joining m y hy
    · rw [List.mem_singleton.mp hy]; exact joining m

/-- The own path's attempt ends (R144). -/
theorem DeviceLaws.ownPathEnd (laws : DeviceLaws s) (onLink : s.onLink = true) (path : s.link.transmitter = .ownPath f) :
    DeviceLaws (s.ownPathEnd f) := by
  have ended := laws.endAttempts
  have not_joining : s.control.mode ≠ .joining := fun m => by
    rcases laws.quiet.sending m with free | ⟨_, line, _⟩
    · rw [path] at free; exact nomatch free
    · rw [path] at line; exact nomatch line
  unfold State.ownPathEnd
  simp only
  split
  · split
    · next stands => exact ended.busied (State.heads_of_itemStands stands)
    · exact ended
  · next room =>
    have queued := ended.enqueue (x := .frame f) onLink (Bool.eq_false_iff.mpr room) (.inl rfl) fun m => absurd m not_joining
    split
    · exact queued.accepted
    · exact queued

/-! ### The frames heard -/

/-- A frame for every station is a notice (R129). -/
theorem Frame.isNotice_of_all (formed : f.wellFormed = true) (all : f.dest = .all) : f.isNotice = true := by
  unfold Frame.wellFormed at formed
  rw [all] at formed
  unfold Frame.isNotice
  cases kind : f.kind with
  | notice k => rfl
  | answer op => rw [kind] at formed; exact nomatch formed
  | request op => rw [kind] at formed; exact nomatch formed

theorem DeviceLaws.report (laws : DeviceLaws s) (released : s.control.resetAsserted = false) : DeviceLaws (s.report f) := by
  unfold State.report
  split
  · exact laws.of_firm (laws.firm.mark _ _ released nofun) (State.mark_control _ _ _) (by rw [State.mark_home]; exact id)
  · exact laws

theorem State.report_control : (s.report f).control = s.control := by
  unfold State.report
  split
  · exact State.mark_control _ _ _
  · rfl

theorem State.report_link : (s.report f).link = s.link := by
  unfold State.report
  split
  · exact State.mark_link _ _ _
  · rfl

theorem DeviceLaws.decideUnicast (laws : DeviceLaws s) (onLink : s.onLink = true) : DeviceLaws (s.decideUnicast f) := by
  unfold State.decideUnicast
  split
  · exact laws.drive _
  · next not_joining =>
    split
    · exact laws.drive _
    · split
      · exact laws.drive _
      · next room =>
        exact (laws.enqueue (x := .frame f) onLink (Bool.eq_false_iff.mpr room) (.inl rfl) fun m => absurd m not_joining).drive _

theorem DeviceLaws.decideBroadcast (laws : DeviceLaws s) (onLink : s.onLink = true) (clear : s.link.placeHeld = false)
    (notice : f.isNotice = true) : DeviceLaws (s.decideBroadcast f) := by
  unfold State.decideBroadcast
  split
  · exact laws.drive _
  · next room => exact (laws.enqueue (x := .place f) onLink (Bool.eq_false_iff.mpr room) (.inr clear) fun _ => notice).drive _

theorem DeviceLaws.hear (laws : DeviceLaws s) (bits : BitVec 120) (whole : Bool) (onLink : s.onLink = true)
    (clear : s.link.placeHeld = false) : DeviceLaws (s.hear bits whole) := by
  have released := State.released_of_running (State.running_of_onLink onLink)
  unfold State.hear
  split
  · exact laws.drive _
  · next f parsed =>
    have formed : f.wellFormed = true := by
      split at parsed
      · exact Frame.wellFormed_of_parse bits f parsed
      · exact nomatch parsed
    split
    · exact (laws.drive _).evict _
    · have reported := laws.report (f := f) released
      have still : (s.report f).onLink = true := by
        rw [State.onLink, State.running, State.report_control]; exact onLink
      unfold State.decideFrame
      simp only
      split
      · next all => exact reported.decideBroadcast still (by rw [State.report_link]; exact clear) (Frame.isNotice_of_all formed all)
      · split
        · exact reported.decideUnicast still
        · exact reported.drive _

/-- Every item that a settled place leaves is a frame that stood in the queue. -/
theorem settlePlace_frames (busy : Bool) (l : List QueueItem) :
    ∀ x ∈ settlePlace busy l, x.isFrame = true ∧ ∃ y ∈ l, y.content = x.content := by
  induction l with
  | nil => exact fun _ h => (nomatch h)
  | cons a rest ih =>
    have later : ∀ x ∈ settlePlace busy rest, x.isFrame = true ∧ ∃ y ∈ a :: rest, y.content = x.content := fun x hx => by
      obtain ⟨frame, y, hy, same⟩ := ih x hx
      exact ⟨frame, y, List.mem_cons_of_mem _ hy, same⟩
    have here : ∀ f, a.content = f → ∀ x ∈ QueueItem.frame f :: settlePlace busy rest, x.isFrame = true ∧ ∃ y ∈ a :: rest, y.content = x.content :=
      fun f same x hx => by
        rcases List.mem_cons.mp hx with rfl | hx
        · exact ⟨rfl, a, List.mem_cons_self, same⟩
        · exact later x hx
    cases a with
    | frame f => exact here f rfl
    | place f =>
      rw [settlePlace]
      split
      · exact later
      · exact here f rfl

theorem settlePlace_length_le (busy : Bool) (l : List QueueItem) : (settlePlace busy l).length ≤ l.length := by
  induction l with
  | nil => exact Nat.le_refl _
  | cons a rest ih =>
    cases a with
    | frame f => exact Nat.succ_le_succ ih
    | place f =>
      rw [settlePlace]
      split
      · exact Nat.le_succ_of_le ih
      · exact Nat.succ_le_succ ih

/-- The place held is settled (R137). -/
theorem DeviceLaws.settlePlace (laws : DeviceLaws s) (busy : Bool) (onLink : s.onLink = true) :
    DeviceLaws { s with link := { s.link with queue := settlePlace busy s.link.queue, driven := none } } := by
  have frames := settlePlace_frames busy s.link.queue
  refine laws.of_firm (laws.firm.queued none ⟨Nat.le_trans (settlePlace_length_le _ _) laws.queue.bounded, ?_⟩
    (fun m => absurd m (State.onLink_mode onLink)) fun m x hx => ?_) rfl id
  · have : (Machine.settlePlace busy s.link.queue).countP (fun x => !x.isFrame) = 0 :=
      List.countP_eq_zero.mpr fun x hx => by rw [(frames x hx).1]; exact nofun
    exact this ▸ Nat.zero_le _
  · obtain ⟨_, y, hy, same⟩ := frames x hx
    exact same ▸ laws.quiet.joining m y hy

end

end Sys2Proof.Machine
end

section
/-! SUPPORT. Every command and every event keeps the laws of the station; then the statements about one step. -/

namespace Sys2Proof.Machine

section
variable {s t u : State}

/-- An occasion keeps what its effect keeps. -/
theorem whenever_keeps {P : State → Prop} {b : Bool} (kept : P s) (effect : b = true → P t) (h : whenever b t s = .next u) : P u := by
  rcases whenever_next h with ⟨occasion, rfl⟩ | ⟨_, rfl⟩
  · exact effect occasion
  · exact kept

/-- A local command of a running station keeps the laws that its answer keeps. -/
theorem DeviceLaws.localCommand (laws : DeviceLaws s) (kept : s.running = true → DeviceLaws t) (h : s.localCommand t = .next u) :
    DeviceLaws u := whenever_keeps laws kept h

/-- The laws do not speak of the register window. -/
theorem DeviceLaws.withPort (laws : DeviceLaws s) (port : Port) : DeviceLaws { s with port } := laws.of_same rfl rfl rfl rfl rfl

theorem DeviceLaws.addLeave (laws : DeviceLaws s) (due : s.leaveIsDue = true) : DeviceLaws s.addLeave := by
  have added : s.reportAnswers = s.addLeave := if_pos due
  rw [← added]; exact laws.firm.reportAnswers

theorem Transmitter.eq_line {x : Transmitter} {f : Frame} (h : x.lineFrame = some f) : x = .line f := by
  cases x <;> cases h
  rfl

/-- A notice that is dispatched keeps the laws that its effect keeps. -/
theorem DeviceLaws.dispatchNotice (laws : DeviceLaws s) {kind : NoticeKind} {effect : Frame → State → State}
    (kept : ∀ f, s.onLink = true → DeviceLaws (effect f s.dropHeadFrame)) (h : s.dispatchNotice kind effect = .next u) : DeviceLaws u := by
  unfold State.dispatchNotice at h
  split at h
  · exact whenever_keeps laws (fun occasion => kept _ (Bool.and_eq_true_iff.mp occasion).1) h
  · cases h; exact laws

/-! ### The events of the home engine and of the receive queue -/

theorem DeviceLaws.requestTaken (laws : DeviceLaws s) (h : execRequestTaken s = .next u) : DeviceLaws u := by
  unfold execRequestTaken at h
  split at h
  · split at h
    · refine whenever_keeps laws (fun occasion => ?_) h
      simp only [Bool.and_eq_true, Bool.not_eq_true', decide_eq_true_eq] at occasion
      obtain ⟨⟨takes, sender⟩, free⟩ := occasion
      exact laws.takeRequest _ takes (laws.sender_known sender) free
    · cases h; exact laws
  · cases h; exact laws

theorem DeviceLaws.requestDiscarded (laws : DeviceLaws s) (h : execRequestDiscarded s = .next u) : DeviceLaws u := by
  unfold execRequestDiscarded at h
  split at h
  · exact whenever_keeps laws (fun _ => laws.dropHeadFrame) h
  · cases h; exact laws

theorem DeviceLaws.answerDispatched (laws : DeviceLaws s) (h : execAnswerDispatched s = .next u) : DeviceLaws u := by
  unfold execAnswerDispatched at h
  split at h
  · exact whenever_keeps laws (fun _ => laws.dropHeadFrame.takeAnswer) h
  · cases h; exact laws

/-! ### The events of the link -/

theorem DeviceLaws.frameBegin (laws : DeviceLaws s) (h : execFrameBegin s = .next u) : DeviceLaws u := by
  unfold execFrameBegin at h
  split at h
  · next f chosen =>
    refine whenever_keeps laws (fun occasion => ?_) h
    rw [Bool.and_eq_true, decide_eq_true_eq] at occasion
    exact laws.beginFrame chosen occasion.1 occasion.2
  · cases h; exact laws

theorem DeviceLaws.lossOfArbitration (laws : DeviceLaws s) {line : BitVec 7} (h : execLossOfArbitration line s = .next u) :
    DeviceLaws u := by
  unfold execLossOfArbitration at h
  split at h
  · exact whenever_keeps laws (fun _ => laws.endAttempts) h
  · cases h; exact laws

theorem DeviceLaws.bodyDifference (laws : DeviceLaws s) (h : execBodyDifference s = .next u) : DeviceLaws u := by
  unfold execBodyDifference at h
  split at h
  · exact whenever_keeps laws (fun _ => laws.evict _) h
  · cases h; exact laws

theorem DeviceLaws.unicastAttemptOutcome (laws : DeviceLaws s) {accept busy stale : Bool}
    (h : execUnicastAttemptOutcome accept busy stale s = .next u) : DeviceLaws u := by
  unfold execUnicastAttemptOutcome at h
  split at h
  · exact whenever_keeps laws (fun occasion => laws.unicastOutcome (Bool.and_eq_true_iff.mp occasion).1 _) h
  · cases h; exact laws

theorem DeviceLaws.broadcastAttemptOutcome (laws : DeviceLaws s) {busy : Bool} (h : execBroadcastAttemptOutcome busy s = .next u) :
    DeviceLaws u := by
  unfold execBroadcastAttemptOutcome at h
  split at h
  · exact whenever_keeps laws (fun occasion => laws.broadcastOutcome (Bool.and_eq_true_iff.mp occasion).2 _) h
  · cases h; exact laws

theorem DeviceLaws.silenceLimitEvent (laws : DeviceLaws s) (h : execSilenceLimit s = .next u) : DeviceLaws u := by
  unfold execSilenceLimit at h
  split at h
  · exact whenever_keeps laws (fun occasion => laws.unicastOutcome (Bool.and_eq_true_iff.mp occasion).1 _) h
  · cases h; exact laws

theorem DeviceLaws.busyLimitEvent (laws : DeviceLaws s) (h : execBusyLimit s = .next u) : DeviceLaws u := by
  unfold execBusyLimit at h
  split at h
  · refine whenever_keeps laws (fun occasion => ?_) h
    split
    · next notice => exact laws.broadcastOutcome notice _
    · exact laws.unicastOutcome (Bool.and_eq_true_iff.mp occasion).1 _
  · next f path =>
    refine whenever_keeps laws (fun occasion => ?_) h
    simp only [Bool.and_eq_true] at occasion
    exact laws.ownPathEnd occasion.1.1 path
  · cases h; exact laws

theorem DeviceLaws.ownPathAttemptEnd (laws : DeviceLaws s) (h : execOwnPathAttemptEnd s = .next u) : DeviceLaws u := by
  unfold execOwnPathAttemptEnd at h
  split at h
  · next f path => exact whenever_keeps laws (fun onLink => laws.ownPathEnd onLink path) h
  · cases h; exact laws
  · cases h; exact laws

theorem DeviceLaws.frameHeard (laws : DeviceLaws s) {bits : BitVec 120} {whole : Bool} (h : execFrameHeard bits whole s = .next u) :
    DeviceLaws u := by
  refine whenever_keeps laws (fun occasion => ?_) h
  simp only [State.receiving, Bool.and_eq_true, Bool.not_eq_true'] at occasion
  obtain ⟨⟨onLink, _⟩, clear⟩ := occasion
  exact laws.hear bits whole onLink clear

theorem DeviceLaws.v0Read (laws : DeviceLaws s) (h : execV0Read s = .next u) : DeviceLaws u := by
  unfold execV0Read at h
  split at h
  · cases h; exact laws.withPort _
  · exact whenever_keeps laws (fun _ => laws.withPort _) h

/-! ### Every command and every event -/

/-- Every command and every event keeps the laws of the device. -/
theorem DeviceLaws.exec (laws : DeviceLaws s) (i : Instr) (h : Machine.exec i s = .next t) : DeviceLaws t := by
  cases i with
  | define => exact laws.localCommand (fun _ => laws.define) h
  | clearDefinitions => exact laws.localCommand (fun _ => laws.clearDefinitions) h
  | joinCommand => exact laws.localCommand laws.join h
  | leaveCommand => exact laws.localCommand (fun _ => laws.leave) h
  | resetCommand => exact laws.localCommand (fun _ => laws.resetCommand) h
  | submit => exact laws.localCommand (fun _ => laws.submit) h
  | cancel => exact laws.localCommand (fun _ => laws.cancel) h
  | pop => exact laws.localCommand (fun _ => laws.pop) h
  | readObject => exact laws.localCommand (fun _ => laws.readObject) h
  | readEvents => exact laws.localCommand (fun _ => laws.readEvents) h
  | undefinedCommandCode code => exact whenever_keeps laws (fun _ => laws.respond _ _ _ _) h
  | interruptEnableWrite value => exact whenever_keeps laws (fun _ => laws.withPort _) h
  | vselWrite value => exact whenever_keeps laws (fun _ => (laws.withPort _).capture) h
  | v0Read => exact laws.v0Read h
  | parameterRegisterWrite register value => exact whenever_keeps laws (fun _ => laws.withPort _) h
  | powerOnReset sid rate => cases h; exact laws_of_powerOn rfl rfl rfl rfl rfl
  | resetnReset sid rate => cases h; exact laws_of_powerOn rfl rfl rfl rfl rfl
  | resetnRelease sid rate => exact whenever_keeps laws (fun held => laws.resetnRelease held sid rate) h
  | stationTimeAdvance => exact whenever_keeps laws (fun _ => laws.advanceTime) h
  | expiry index requester slot => exact whenever_keeps laws (fun _ => laws.expire index requester slot) h
  | frameBegin => exact laws.frameBegin h
  | lossOfArbitration line => exact laws.lossOfArbitration h
  | bodyDifference => exact laws.bodyDifference h
  | frameHeard bits whole => exact laws.frameHeard h
  | broadcastPlaceSettled busy =>
    exact whenever_keeps laws (fun occasion => laws.settlePlace busy (Bool.and_eq_true_iff.mp occasion).1) h
  | unicastAttemptOutcome accept busy stale => exact laws.unicastAttemptOutcome h
  | broadcastAttemptOutcome busy => exact laws.broadcastAttemptOutcome h
  | silenceLimit => exact laws.silenceLimitEvent h
  | busyLimit => exact laws.busyLimitEvent h
  | ownPathAttemptEnd => exact laws.ownPathAttemptEnd h
  | requestTaken => exact laws.requestTaken h
  | requestDiscarded => exact laws.requestDiscarded h
  | joinDispatched =>
    exact laws.dispatchNotice (fun _ onLink => laws.dropHeadFrame.rejoin _ (State.released_of_running (State.running_of_onLink onLink))) h
  | leaveDispatched =>
    exact laws.dispatchNotice (fun _ onLink => laws.dropHeadFrame.depart _ (State.released_of_running (State.running_of_onLink onLink))) h
  | departDispatched =>
    exact laws.dispatchNotice (fun _ onLink => laws.dropHeadFrame.takeDepart (State.released_of_running (State.running_of_onLink onLink))) h
  | answerDispatched => exact laws.answerDispatched h
  | leaveNoticeQueued => exact whenever_keeps laws (fun occasion => laws.addLeave (Bool.and_eq_true_iff.mp occasion).2) h
  | frameCutShort => exact whenever_keeps laws (fun _ => laws.drive none) h
  | powerLoss => cases h; exact laws.powerLoss

/-- A step keeps the laws of the device. -/
theorem DeviceLaws.step (laws : DeviceLaws s) (h : Machine.step s = .next t) : DeviceLaws t := by
  unfold Machine.step at h
  split at h
  · cases h; exact laws
  · next c rest _ => exact DeviceLaws.exec (s := { s with pending := rest }) (laws.of_same rfl rfl rfl rfl rfl) c h

end

end Sys2Proof.Machine

/-! ### The statements -/

namespace Sys2Proof.Proofs

open Sys2Proof Sys2Proof.Machine

/-- Settles O51, from the laws of the state that power-on leaves. -/
theorem lawsHoldAtReset : Obligations.LawsHoldAtReset := laws_of_powerOn (powered := true) (held := false) rfl rfl rfl rfl rfl

/-- Settles O52, as part of what every command and every event keeps. -/
theorem stepsConserveTrackedUnits : Obligations.StepsConserveTrackedUnits := fun _ _ laws h =>
  have after := laws.step h
  ⟨after.conserves, after.holds⟩

/-- Settles O53, as part of what every command and every event keeps. -/
theorem stepsKeepLevelsAndHeads : Obligations.StepsKeepLevelsAndHeads := fun _ _ laws h =>
  have after := laws.step h
  ⟨after.levels, after.heads, after.records⟩

/-- Settles O55, as part of what every command and every event keeps. -/
theorem stepsKeepOneRecordPerSlot : Obligations.StepsKeepOneRecordPerSlot := fun _ _ laws h =>
  have after := laws.step h
  after.single

/-- Settles O56, as part of what every command and every event keeps. -/
theorem stepsKeepCapacities : Obligations.StepsKeepCapacities := fun _ _ laws h =>
  have after := laws.step h
  ⟨after.pools, after.queue, after.counters⟩

/-- Settles O57, as part of what every command and every event keeps. -/
theorem stepsKeepThePool : Obligations.StepsKeepThePool := fun _ _ laws h =>
  have after := laws.step h
  after.pool

/-- Settles O58, as part of what every command and every event keeps. -/
theorem stepsKeepRingAndRequests : Obligations.StepsKeepRingAndRequests := fun _ _ laws h =>
  have after := laws.step h
  ⟨after.ring, after.requests⟩

/-- Settles O59, as part of what every command and every event keeps. -/
theorem stepsKeepQuietStates : Obligations.StepsKeepQuietStates := fun _ _ laws h =>
  have after := laws.step h
  ⟨after.quiet, after.notices, after.attempt, after.events⟩

/-- Settles O60, as part of what every command and every event keeps. -/
theorem stepsLeaveNothingOfTheDeparted : Obligations.StepsLeaveNothingOfTheDeparted := fun _ _ laws h =>
  have after := laws.step h
  ⟨after.busy, after.departed, after.own⟩

end Sys2Proof.Proofs
end

section
/-! SUPPORT. Law 6 for itself: whatever else holds, every command and every event keeps the waiter lists ordered. -/

namespace Sys2Proof.Machine

section
variable {s t u : State} {f : Frame}

/-- Law 6 of the home half of a station, written out: a change of anything else keeps it by definition. -/
def State.Ordered (s : State) : Prop :=
  (∀ i, (s.home.waitersAt i).Pairwise WaiterRecord.before) ∧ ∀ i, ∀ w ∈ s.home.waitersAt i, w.arrival < s.home.arrivals

theorem State.ordered_iff : s.Ordered ↔ s.home.ListsOrdered := ⟨fun o => ⟨o.1, o.2⟩, fun o => ⟨o.ordered, o.earlier⟩⟩

/-- Law 6 speaks only of the object table and the order of arrival. -/
theorem State.Ordered.of_same (o : s.Ordered) (objects : t.home.objects = s.home.objects) (arrivals : t.home.arrivals = s.home.arrivals) :
    t.Ordered := by
  have lists : ∀ i, t.home.waitersAt i = s.home.waitersAt i := fun i => by
    rw [Home.waitersAt, Home.waitersAt, Home.entry, Home.entry, objects]
  exact ⟨fun i => lists i ▸ o.1 i, fun i w hw => arrivals ▸ o.2 i w (lists i ▸ hw)⟩

/-- With no record waiting the lists are ordered. -/
theorem State.Ordered.of_empty (empty : ∀ i, t.home.waitersAt i = []) : t.Ordered :=
  ⟨fun i => by rw [empty]; exact List.Pairwise.nil, fun i w hw => by rw [empty] at hw; exact nomatch hw⟩

theorem State.Works.ordered {p q : StationNum → Prop} (w : s.Works p q t) (o : s.Ordered) : t.Ordered :=
  State.ordered_iff.mpr (w.home_induction (fun _ _ m => m.listsOrdered) (State.ordered_iff.mp o))

/-! ### Station time, the definitions and the settling -/

theorem State.Ordered.advanceTime (o : s.Ordered) : s.advanceTime.Ordered := by
  refine ⟨fun i => ?_, fun i w hw => ?_⟩
  · have lists : s.advanceTime.home.waitersAt i = _ := s.home.advance_waitersAt (s.control.time + 1) i
    rw [lists, List.pairwise_map]
    exact o.1 i
  · have hw : w ∈ (s.home.advance (s.control.time + 1)).waitersAt i := hw
    rw [Home.advance_waitersAt] at hw
    obtain ⟨v, hv, rfl⟩ := List.mem_map.mp hw
    exact o.2 i v hv

theorem State.Ordered.define (o : s.Ordered) : s.define.Ordered := by
  unfold State.define
  split
  · next r i d _ =>
    refine State.ordered_iff.mpr (Home.ListsOrdered.of_sublists (State.ordered_iff.mp o) (fun j => ?_) rfl)
    have entry : (s.home.define i d).entry j = if j = i then some (ObjectEntry.initial d) else s.home.entry j := s.home.entry_setEntry i j _
    have lists : ((s.home.define i d).waitersAt j).Sublist (s.home.waitersAt j) := by
      rw [Home.waitersAt, entry]
      split
      · exact List.nil_sublist _
      · exact List.Sublist.refl _
    exact lists
  · exact o

theorem State.Ordered.clearDefinitions (o : s.Ordered) : s.clearDefinitions.Ordered := by
  unfold State.clearDefinitions
  split
  · exact .of_empty fun i => by
      have none : s.home.clearDefinitions.entry i = none := s.home.clearDefinitions_entry i
      exact congrArg (fun e => (Option.map ObjectEntry.waiters e).getD []) none
  · exact o

theorem State.Ordered.reportAnswers (o : s.Ordered) : s.reportAnswers.Ordered :=
  o.of_same (by rw [State.reportAnswers_home]) (by rw [State.reportAnswers_home])

theorem State.Ordered.settle (o : s.Ordered) : State.Ordered { s with home := s.home.settle } :=
  ⟨fun i => (s.home.settle_waitersAt i).symm ▸ o.1 i, fun i w hw => o.2 i w (s.home.settle_waitersAt i ▸ hw)⟩

/-! ### JOIN, LEAVE and eviction -/

theorem State.Ordered.join (o : s.Ordered) : s.join.Ordered := by
  unfold State.join
  split
  · exact .of_empty s.home.initRuntime_waitersAt
  · exact o

theorem State.Ordered.startLeave (o : s.Ordered) : s.startLeave.Ordered := by
  unfold State.startLeave
  simp only
  have begun : State.Ordered { s with control := { s.control with mode := .leaving, leaveQueued := false } } := o
  generalize ({ s with control := { s.control with mode := .leaving, leaveQueued := false } } : State) = t at begun ⊢
  have flushed := (State.works_flush (p := fun _ => False) (q := fun _ => False) t).ordered begun
  generalize t.flush = u at flushed ⊢
  exact flushed.settle.reportAnswers

theorem State.Ordered.leave (o : s.Ordered) : s.leave.Ordered := by
  unfold State.leave
  split
  · exact o
  · split
    · exact o
    · have begun := o.startLeave
      generalize s.startLeave = t at begun ⊢
      exact begun

theorem State.Ordered.evict (o : s.Ordered) (cause : EvictionCause) : (s.evict cause).Ordered := by
  unfold State.evict
  split
  · exact .of_empty s.home.initRuntime_waitersAt
  · exact o

theorem State.ordered_resetStation : s.resetStation.Ordered := .of_empty s.home.initRuntime_waitersAt

theorem State.ordered_leaveEnded : s.leaveEnded.Ordered := .of_empty s.home.initRuntime_waitersAt

/-! ### Purge and departure -/

theorem State.Ordered.mark (o : s.Ordered) (n : StationNum) (e : RosterEntry) : (s.mark n e).Ordered :=
  o.of_same (by rw [State.mark_home]) (by rw [State.mark_home])

theorem State.Ordered.purge (o : s.Ordered) (n : StationNum) : (s.purge n).Ordered := by
  unfold State.purge
  exact (State.works_purgeHome (p := fun _ => False) (q := fun _ => False) n { s with client := s.client.purge n }).ordered (o.of_same rfl rfl)

theorem State.Ordered.queueDepart (o : s.Ordered) (n : StationNum) : (s.queueDepart n).Ordered := by
  unfold State.queueDepart
  split <;> exact o

theorem State.Ordered.withdrawDepart (o : s.Ordered) (n : StationNum) : (s.withdrawDepart n).Ordered := by
  unfold State.withdrawDepart
  split <;> exact o

theorem State.Ordered.depart (o : s.Ordered) (n : StationNum) : (s.depart n).Ordered := by
  unfold State.depart
  split
  · exact o
  · exact ((o.purge n).mark n _).reportAnswers

theorem State.Ordered.declareDeparted (o : s.Ordered) (n : StationNum) : (s.declareDeparted n).Ordered := by
  unfold State.declareDeparted
  split
  · exact o
  · exact (((o.purge n).mark n _).queueDepart n).reportAnswers

theorem State.Ordered.rejoin (o : s.Ordered) (n : StationNum) : (s.rejoin n).Ordered := by
  unfold State.rejoin
  split
  · exact o
  · exact (((o.purge n).mark n _).withdrawDepart n).reportAnswers

theorem State.Ordered.takeDepart (o : s.Ordered) : (s.takeDepart f).Ordered := by
  unfold State.takeDepart
  split
  · exact o.evict _
  · exact o.depart _

/-! ### Requests -/

theorem State.Ordered.takeRequest (o : s.Ordered) (op : Operation) (free : 0 < s.home.freeImmediate) : (s.takeRequest f op).Ordered := by
  have dropped : s.dropHeadFrame.Ordered := o
  have free : 0 < s.dropHeadFrame.home.freeImmediate := free
  unfold State.takeRequest
  simp only
  generalize s.dropHeadFrame = d at *
  split
  · exact (State.works_answer (p := fun _ => True) (q := fun _ => True) op .homeAbsent 0 free trivial).ordered dropped
  · exact (State.works_applyRequest (p := fun _ => True) (q := fun _ => True) op free trivial trivial).ordered dropped

/-! ### The attempts -/

theorem State.Ordered.beginFrame (o : s.Ordered) : (s.beginFrame f).Ordered := by
  have begun : (s.beginOn f).Ordered := by
    unfold State.beginOn
    split <;> exact o
  unfold State.beginFrame
  simp only
  split
  · exact begun
  · split
    · exact o
    · exact begun

theorem State.Ordered.accepted (o : s.Ordered) : (s.accepted f).Ordered := by
  unfold State.accepted
  split
  · exact State.Ordered.reportAnswers (s := { s with home := { s.home with answers := s.home.answers.dropHead } }) o
  · exact o
  · exact o

theorem State.Ordered.busied (o : s.Ordered) : (s.busied f).Ordered := by
  unfold State.busied
  split
  · split
    · refine o.of_same ?_ ?_ <;> (unfold Home.deferHead; split <;> rfl)
    · exact o
  · split <;> exact o
  · exact o

theorem State.Ordered.silenceLimit (o : s.Ordered) : (s.silenceLimit f).Ordered := by
  unfold State.silenceLimit
  simp only
  split
  · refine State.Ordered.declareDeparted ?_ _
    split <;> exact o
  · split <;> exact o

theorem State.Ordered.silenced (o : s.Ordered) : (s.silenced f).Ordered := by
  unfold State.silenced
  split
  · split
    · exact o.silenceLimit
    · exact o
  · split
    · exact o.silenceLimit
    · exact o
  · exact o

theorem State.Ordered.unicastOutcome (o : s.Ordered) (outcome : AttemptOutcome) : (s.unicastOutcome f outcome).Ordered := by
  have ended : s.endAttempts.Ordered := o
  unfold State.unicastOutcome
  cases outcome with
  | stale => exact ended.evict _
  | accept =>
    simp only
    split
    · exact ended.accepted
    · exact ended
  | busy =>
    simp only
    split
    · exact ended.busied
    · exact ended
  | silence =>
    simp only
    split
    · exact ended.silenced
    · exact ended

theorem State.Ordered.noticeDelivered (o : s.Ordered) : s.noticeDelivered.Ordered := by
  unfold State.noticeDelivered
  split
  · exact o
  · exact State.ordered_leaveEnded
  · exact o
  · exact o

theorem State.Ordered.noticeLimit (o : s.Ordered) : s.noticeLimit.Ordered := by
  unfold State.noticeLimit
  split
  · exact o
  · exact State.ordered_leaveEnded
  · exact o
  · exact o

theorem State.Ordered.broadcastOutcome (o : s.Ordered) (busy : Bool) : (s.broadcastOutcome f busy).Ordered := by
  have ended : s.endAttempts.Ordered := o
  unfold State.broadcastOutcome
  simp only
  split
  · split
    · split
      · exact ended.noticeLimit
      · exact ended
    · exact ended.noticeDelivered
  · exact ended

theorem State.Ordered.ownPathEnd (o : s.Ordered) : (s.ownPathEnd f).Ordered := by
  have ended : s.endAttempts.Ordered := o
  have queued : State.Ordered { s.endAttempts with link := s.endAttempts.link.enqueue (.frame f) } := o
  unfold State.ownPathEnd
  simp only
  split
  · split
    · exact ended.busied
    · exact ended
  · split
    · exact queued.accepted
    · exact queued

/-! ### The frames heard -/

theorem State.Ordered.decideFrame (o : s.Ordered) : (s.decideFrame f).Ordered := by
  have reported : (s.report f).Ordered := by
    unfold State.report
    split
    · exact o.mark _ _
    · exact o
  have unicast : ((s.report f).decideUnicast f).Ordered := by
    unfold State.decideUnicast
    split
    · exact reported
    · split
      · exact reported
      · split <;> exact reported
  have broadcast : ((s.report f).decideBroadcast f).Ordered := by
    unfold State.decideBroadcast
    split <;> exact reported
  unfold State.decideFrame
  simp only
  split
  · exact broadcast
  · split
    · exact unicast
    · exact reported

theorem State.Ordered.hear (o : s.Ordered) (bits : BitVec 120) (whole : Bool) : (s.hear bits whole).Ordered := by
  unfold State.hear
  split
  · exact o
  · split
    · exact State.Ordered.evict (s := s.drive none) o _
    · exact o.decideFrame

/-! ### Every command and every event -/

/-- An occasion whose effect leaves the home half alone. -/
theorem State.Ordered.untouched (o : s.Ordered) {b : Bool} (h : whenever b t s = .next u) (same : t.home = s.home) : u.Ordered :=
  whenever_keeps o (fun _ => o.of_same (by rw [same]) (by rw [same])) h

theorem State.Ordered.dispatchNotice (o : s.Ordered) {kind : NoticeKind} {effect : Frame → State → State}
    (kept : ∀ f, (effect f s.dropHeadFrame).Ordered) (h : s.dispatchNotice kind effect = .next u) : u.Ordered := by
  unfold State.dispatchNotice at h
  split at h
  · exact whenever_keeps o (fun _ => kept _) h
  · cases h; exact o

theorem State.Ordered.requestTaken (o : s.Ordered) (h : execRequestTaken s = .next u) : u.Ordered := by
  unfold execRequestTaken at h
  split at h
  · split at h
    · refine whenever_keeps o (fun occasion => ?_) h
      simp only [Bool.and_eq_true, decide_eq_true_eq] at occasion
      exact o.takeRequest _ occasion.2
    · cases h; exact o
  · cases h; exact o

theorem State.Ordered.busyLimitEvent (o : s.Ordered) (h : execBusyLimit s = .next u) : u.Ordered := by
  unfold execBusyLimit at h
  split at h
  · refine whenever_keeps o (fun _ => ?_) h
    split
    · exact o.broadcastOutcome _
    · exact o.unicastOutcome _
  · exact whenever_keeps o (fun _ => o.ownPathEnd) h
  · cases h; exact o

theorem State.Ordered.submit (o : s.Ordered) : s.submit.Ordered := by
  have taken : ∀ n r, (s.submitOn n r).Ordered := fun n r => by
    unfold State.submitOn
    simp only
    split <;> exact o
  unfold State.submit
  split
  · exact o
  · split
    · exact o
    · split
      · exact o
      · exact taken _ _

theorem State.Ordered.pop (o : s.Ordered) : s.pop.Ordered := by
  unfold State.pop
  split <;> exact o

theorem State.Ordered.readObject (o : s.Ordered) : s.readObject.Ordered := by
  unfold State.readObject
  split <;> exact o

theorem State.Ordered.takeAnswer (o : s.Ordered) : (s.takeAnswer f).Ordered := by
  unfold State.takeAnswer
  split <;> exact o

/-- What an event of the attempt on the line keeps, whatever frame it is of. -/
theorem State.Ordered.lineEvent (o : s.Ordered) {effect : Frame → State} {occasion : Frame → Bool} (kept : ∀ f, (effect f).Ordered)
    (h : (match s.link.transmitter.lineFrame with
      | some f => whenever (occasion f) (effect f) s
      | none => .next s) = .next u) : u.Ordered := by
  split at h
  · exact whenever_keeps o (fun _ => kept _) h
  · cases h; exact o

theorem State.Ordered.exec (o : s.Ordered) (i : Instr) (h : Machine.exec i s = .next t) : t.Ordered := by
  cases i with
  | define => exact whenever_keeps o (fun _ => o.define) h
  | clearDefinitions => exact whenever_keeps o (fun _ => o.clearDefinitions) h
  | joinCommand => exact whenever_keeps o (fun _ => o.join) h
  | leaveCommand => exact whenever_keeps o (fun _ => o.leave) h
  | resetCommand => exact whenever_keeps (t := s.resetCommand) o (fun _ => State.ordered_resetStation (s := s)) h
  | submit => exact whenever_keeps o (fun _ => o.submit) h
  | cancel => exact o.untouched (t := s.cancel) h rfl
  | pop => exact whenever_keeps o (fun _ => o.pop) h
  | readObject => exact whenever_keeps o (fun _ => o.readObject) h
  | readEvents => exact o.untouched (t := s.readEvents) h rfl
  | undefinedCommandCode code => exact o.untouched h rfl
  | interruptEnableWrite value => exact o.untouched h rfl
  | vselWrite value => exact o.untouched h rfl
  | v0Read =>
    have h : execV0Read s = .next t := h
    unfold execV0Read at h
    split at h
    · cases h; exact o
    · exact o.untouched h rfl
  | parameterRegisterWrite register value => exact o.untouched h rfl
  | powerOnReset sid rate => cases h; exact .of_empty Home.powerOn_waitersAt
  | resetnReset sid rate => cases h; exact .of_empty Home.powerOn_waitersAt
  | resetnRelease sid rate => exact o.untouched h rfl
  | stationTimeAdvance => exact whenever_keeps o (fun _ => o.advanceTime) h
  | expiry index requester slot =>
    exact whenever_keeps o (fun _ => (State.works_expire (p := fun _ => False) (q := fun _ => False) index requester slot).ordered o) h
  | frameBegin =>
    have h : execFrameBegin s = .next t := h
    unfold execFrameBegin at h
    split at h
    · exact whenever_keeps o (fun _ => o.beginFrame) h
    · cases h; exact o
  | lossOfArbitration line => exact o.lineEvent (effect := fun _ => s.endAttempts) (fun _ => o) h
  | bodyDifference => exact o.lineEvent (fun _ => o.evict _) h
  | frameHeard bits whole => exact whenever_keeps o (fun _ => o.hear bits whole) h
  | broadcastPlaceSettled busy => exact o.untouched h rfl
  | unicastAttemptOutcome accept busy stale => exact o.lineEvent (fun _ => o.unicastOutcome _) h
  | broadcastAttemptOutcome busy => exact o.lineEvent (fun _ => o.broadcastOutcome _) h
  | silenceLimit => exact o.lineEvent (fun _ => o.unicastOutcome _) h
  | busyLimit => exact o.busyLimitEvent h
  | ownPathAttemptEnd =>
    have h : execOwnPathAttemptEnd s = .next t := h
    unfold execOwnPathAttemptEnd at h
    split at h
    · exact whenever_keeps o (fun _ => o.ownPathEnd) h
    · cases h; exact o
    · cases h; exact o
  | requestTaken => exact o.requestTaken h
  | requestDiscarded =>
    have h : execRequestDiscarded s = .next t := h
    unfold execRequestDiscarded at h
    split at h
    · exact o.untouched (t := s.dropHeadFrame) h rfl
    · cases h; exact o
  | joinDispatched => exact o.dispatchNotice (fun f => State.Ordered.rejoin (s := s.dropHeadFrame) o f.sender) h
  | leaveDispatched => exact o.dispatchNotice (fun f => State.Ordered.depart (s := s.dropHeadFrame) o f.sender) h
  | departDispatched => exact o.dispatchNotice (fun _ => State.Ordered.takeDepart (s := s.dropHeadFrame) o) h
  | answerDispatched =>
    have h : execAnswerDispatched s = .next t := h
    unfold execAnswerDispatched at h
    split at h
    · exact whenever_keeps o (fun _ => State.Ordered.takeAnswer (s := s.dropHeadFrame) o) h
    · cases h; exact o
  | leaveNoticeQueued => exact o.untouched (t := s.addLeave) h rfl
  | frameCutShort => exact o.untouched (t := s.drive none) h rfl
  | powerLoss => cases h; exact o

theorem State.Ordered.step (o : s.Ordered) (h : Machine.step s = .next t) : t.Ordered := by
  unfold Machine.step at h
  split at h
  · cases h; exact o
  · next c rest _ => exact State.Ordered.exec (s := { s with pending := rest }) o c h

end

end Sys2Proof.Machine

/-! ### The statement -/

namespace Sys2Proof.Proofs

open Sys2Proof Sys2Proof.Machine

/-- Settles O54, from law 6 alone: no other law is needed to keep the lists ordered. -/
theorem stepsKeepListsOrdered : Obligations.StepsKeepListsOrdered := fun _ _ before h =>
  State.ordered_iff.mp ((State.ordered_iff.mpr before).step h)

end Sys2Proof.Proofs
end

section
/-! SUPPORT. The queue of commands, the resets and the register window: every command answers a next state, and the statements O1 to O4,
O48 and O49. -/

namespace Sys2Proof.Machine

section
variable {s t u : State}

/-! ### The queue of commands stays as it is -/

theorem State.Works.pending {p q : StationNum → Prop} (w : s.Works p q t) : t.pending = s.pending := by
  induction w with
  | refl => rfl
  | tail _ last ih => cases last <;> exact ih

theorem State.pending_purge (s : State) (n : StationNum) : (s.purge n).pending = s.pending :=
  (State.works_purgeHome (p := fun _ => False) (q := fun _ => False) n { s with client := s.client.purge n }).pending

theorem State.pending_evict (s : State) (cause : EvictionCause) : (s.evict cause).pending = s.pending := by
  unfold State.evict
  split <;> rfl

theorem State.pending_queueDepart (s : State) (n : StationNum) : (s.queueDepart n).pending = s.pending := by
  unfold State.queueDepart
  split <;> rfl

theorem State.pending_withdrawDepart (s : State) (n : StationNum) : (s.withdrawDepart n).pending = s.pending := by
  unfold State.withdrawDepart
  split <;> rfl

theorem State.pending_depart (s : State) (n : StationNum) : (s.depart n).pending = s.pending := by
  unfold State.depart
  split
  · rfl
  · rw [State.reportAnswers_pending, State.mark_pending, State.pending_purge]

theorem State.pending_declareDeparted (s : State) (n : StationNum) : (s.declareDeparted n).pending = s.pending := by
  unfold State.declareDeparted
  split
  · rfl
  · rw [State.reportAnswers_pending, State.pending_queueDepart, State.mark_pending, State.pending_purge]

theorem State.pending_rejoin (s : State) (n : StationNum) : (s.rejoin n).pending = s.pending := by
  unfold State.rejoin
  split
  · rfl
  · rw [State.reportAnswers_pending, State.pending_withdrawDepart, State.mark_pending, State.pending_purge]

theorem State.pending_takeDepart (s : State) (f : Frame) : (s.takeDepart f).pending = s.pending := by
  unfold State.takeDepart
  split
  · exact s.pending_evict _
  · exact s.pending_depart _

theorem State.pending_accepted (s : State) (f : Frame) : (s.accepted f).pending = s.pending := by
  unfold State.accepted
  split
  · exact State.reportAnswers_pending _
  · rfl
  · rfl

theorem State.pending_busied (s : State) (f : Frame) : (s.busied f).pending = s.pending := by
  unfold State.busied
  split
  · split <;> rfl
  · split <;> rfl
  · rfl

theorem State.pending_silenceLimit (s : State) (f : Frame) : (s.silenceLimit f).pending = s.pending := by
  unfold State.silenceLimit
  cases f.dest.station? with
  | none => cases f.kind <;> rfl
  | some n => cases f.kind <;> exact State.pending_declareDeparted _ n

theorem State.pending_silenced (s : State) (f : Frame) : (s.silenced f).pending = s.pending := by
  unfold State.silenced
  split
  · split
    · exact s.pending_silenceLimit f
    · rfl
  · split
    · exact s.pending_silenceLimit f
    · rfl
  · rfl

theorem State.pending_unicastOutcome (s : State) (f : Frame) (o : AttemptOutcome) : (s.unicastOutcome f o).pending = s.pending := by
  unfold State.unicastOutcome
  cases o with
  | stale => exact s.endAttempts.pending_evict _
  | accept =>
    simp only
    split
    · exact s.endAttempts.pending_accepted f
    · rfl
  | busy =>
    simp only
    split
    · exact s.endAttempts.pending_busied f
    · rfl
  | silence =>
    simp only
    split
    · exact s.endAttempts.pending_silenced f
    · rfl

theorem State.pending_noticeDelivered (s : State) : s.noticeDelivered.pending = s.pending := by
  unfold State.noticeDelivered
  split <;> rfl

theorem State.pending_noticeLimit (s : State) : s.noticeLimit.pending = s.pending := by
  unfold State.noticeLimit
  split <;> rfl

theorem State.pending_broadcastOutcome (s : State) (f : Frame) (busy : Bool) : (s.broadcastOutcome f busy).pending = s.pending := by
  unfold State.broadcastOutcome
  simp only
  split
  · split
    · split
      · exact s.endAttempts.pending_noticeLimit
      · rfl
    · exact s.endAttempts.pending_noticeDelivered
  · rfl

theorem State.pending_ownPathEnd (s : State) (f : Frame) : (s.ownPathEnd f).pending = s.pending := by
  unfold State.ownPathEnd
  simp only
  split
  · split
    · exact s.endAttempts.pending_busied f
    · rfl
  · split
    · exact State.pending_accepted _ f
    · rfl

theorem State.pending_beginFrame (s : State) (f : Frame) : (s.beginFrame f).pending = s.pending := by
  have begun : (s.beginOn f).pending = s.pending := by
    unfold State.beginOn
    split <;> rfl
  unfold State.beginFrame
  simp only
  split
  · exact begun
  · split
    · rfl
    · exact begun

theorem State.pending_hear (s : State) (bits : BitVec 120) (whole : Bool) : (s.hear bits whole).pending = s.pending := by
  have reported : ∀ f, (s.report f).pending = s.pending := fun f => by
    unfold State.report
    split
    · exact State.mark_pending _ _ _
    · rfl
  have unicast : ∀ (s : State) f, (s.decideUnicast f).pending = s.pending := fun s f => by
    unfold State.decideUnicast
    split
    · rfl
    · split
      · rfl
      · split <;> rfl
  have broadcast : ∀ (s : State) f, (s.decideBroadcast f).pending = s.pending := fun s f => by
    unfold State.decideBroadcast
    split <;> rfl
  unfold State.hear State.decideFrame
  split
  · rfl
  · next f _ =>
    split
    · exact State.pending_evict _ _
    · simp only
      split
      · exact (broadcast _ f).trans (reported f)
      · split
        · exact (unicast _ f).trans (reported f)
        · exact reported f

theorem State.pending_takeRequest (s : State) (f : Frame) (op : Operation) (free : 0 < s.home.freeImmediate) :
    (s.takeRequest f op).pending = s.pending := by
  have free : 0 < s.dropHeadFrame.home.freeImmediate := free
  have dropped : s.dropHeadFrame.pending = s.pending := rfl
  unfold State.takeRequest
  simp only
  generalize s.dropHeadFrame = d at *
  split
  · exact (State.works_answer (p := fun _ => True) (q := fun _ => True) op .homeAbsent 0 free trivial).pending.trans dropped
  · exact (State.works_applyRequest (p := fun _ => True) (q := fun _ => True) op free trivial trivial).pending.trans dropped

theorem State.pending_startLeave (s : State) : s.startLeave.pending = s.pending := by
  unfold State.startLeave
  simp only
  have begun : State.pending { s with control := { s.control with mode := .leaving, leaveQueued := false } } = s.pending := rfl
  generalize ({ s with control := { s.control with mode := .leaving, leaveQueued := false } } : State) = t at begun ⊢
  have flushed := (State.works_flush (p := fun _ => False) (q := fun _ => False) t).pending
  generalize t.flush = u at flushed ⊢
  rw [State.reportAnswers_pending]
  exact flushed.trans begun

theorem State.pending_submit (s : State) : s.submit.pending = s.pending := by
  have taken : ∀ n r, (s.submitOn n r).pending = s.pending := fun n r => by
    unfold State.submitOn
    simp only
    split <;> rfl
  unfold State.submit
  split
  · rfl
  · split
    · rfl
    · split
      · rfl
      · exact taken _ _

theorem State.pending_leave (s : State) : s.leave.pending = s.pending := by
  unfold State.leave
  split
  · rfl
  · split
    · rfl
    · have begun := s.pending_startLeave
      generalize s.startLeave = t at begun ⊢
      exact begun

/-! ### Every command answers a next state -/

/-- The outcome is a next state, with the queue of commands of `s`. -/
def Answers (s : State) (o : Host.Outcome State Fault Refusal) : Prop := ∃ t, o = .next t ∧ t.pending = s.pending

theorem answers_next (kept : t.pending = s.pending) : Answers s (.next t) := ⟨t, rfl, kept⟩

theorem answers_whenever {b : Bool} (kept : b = true → t.pending = s.pending) : Answers s (whenever b t s) := by
  cases b with
  | false => exact answers_next rfl
  | true => exact answers_next (kept rfl)

theorem answers_dispatchNotice {kind : NoticeKind} {effect : Frame → State → State}
    (kept : ∀ f, (effect f s.dropHeadFrame).pending = s.pending) : Answers s (s.dispatchNotice kind effect) := by
  unfold State.dispatchNotice
  split
  · exact answers_whenever fun _ => kept _
  · exact answers_next rfl

end

end Sys2Proof.Machine

/-! ### The statements -/

namespace Sys2Proof.Proofs

open Sys2Proof Sys2Proof.Machine

/-- Settles O1: the two equations of `step`. -/
theorem stepTakesFrontCommand : Obligations.StepTakesFrontCommand :=
  ⟨fun _ _ _ => rfl, fun s none => by unfold step; rw [none]⟩

/-- Settles O2: an occasion answers its effect or the state itself, and no effect touches the queue of commands. -/
theorem everyCommandAnswersNext : Obligations.EveryCommandAnswersNext := by
  intro c s
  change Answers s (exec c s)
  cases c with
  | define =>
    refine answers_whenever fun _ => ?_
    unfold State.define
    split <;> rfl
  | clearDefinitions =>
    refine answers_whenever fun _ => ?_
    unfold State.clearDefinitions
    split <;> rfl
  | joinCommand =>
    refine answers_whenever fun _ => ?_
    unfold State.join
    split <;> rfl
  | leaveCommand => exact answers_whenever fun _ => s.pending_leave
  | resetCommand => exact answers_whenever fun _ => rfl
  | submit => exact answers_whenever fun _ => s.pending_submit
  | cancel => exact answers_whenever fun _ => rfl
  | pop =>
    refine answers_whenever fun _ => ?_
    unfold State.pop
    split <;> rfl
  | readObject =>
    refine answers_whenever fun _ => ?_
    unfold State.readObject
    split <;> rfl
  | readEvents => exact answers_whenever fun _ => rfl
  | undefinedCommandCode code => exact answers_whenever fun _ => rfl
  | interruptEnableWrite value => exact answers_whenever fun _ => rfl
  | vselWrite value => exact answers_whenever fun _ => rfl
  | v0Read =>
    change Answers s (execV0Read s)
    unfold execV0Read
    split
    · exact answers_next rfl
    · exact answers_whenever fun _ => rfl
  | parameterRegisterWrite register value => exact answers_whenever fun _ => rfl
  | powerOnReset sid rate => exact answers_next rfl
  | resetnReset sid rate => exact answers_next rfl
  | resetnRelease sid rate => exact answers_whenever fun _ => rfl
  | stationTimeAdvance => exact answers_whenever fun _ => rfl
  | expiry index requester slot => exact answers_whenever fun _ => (State.keeps_expire index requester slot s).pending
  | frameBegin =>
    change Answers s (execFrameBegin s)
    unfold execFrameBegin
    split
    · exact answers_whenever fun _ => s.pending_beginFrame _
    · exact answers_next rfl
  | lossOfArbitration line =>
    change Answers s (execLossOfArbitration line s)
    unfold execLossOfArbitration
    split
    · exact answers_whenever fun _ => rfl
    · exact answers_next rfl
  | bodyDifference =>
    change Answers s (execBodyDifference s)
    unfold execBodyDifference
    split
    · exact answers_whenever fun _ => s.pending_evict _
    · exact answers_next rfl
  | frameHeard bits whole => exact answers_whenever fun _ => s.pending_hear bits whole
  | broadcastPlaceSettled busy => exact answers_whenever fun _ => rfl
  | unicastAttemptOutcome accept busy stale =>
    change Answers s (execUnicastAttemptOutcome accept busy stale s)
    unfold execUnicastAttemptOutcome
    split
    · exact answers_whenever fun _ => s.pending_unicastOutcome _ _
    · exact answers_next rfl
  | broadcastAttemptOutcome busy =>
    change Answers s (execBroadcastAttemptOutcome busy s)
    unfold execBroadcastAttemptOutcome
    split
    · exact answers_whenever fun _ => s.pending_broadcastOutcome _ _
    · exact answers_next rfl
  | silenceLimit =>
    change Answers s (execSilenceLimit s)
    unfold execSilenceLimit
    split
    · exact answers_whenever fun _ => s.pending_unicastOutcome _ _
    · exact answers_next rfl
  | busyLimit =>
    change Answers s (execBusyLimit s)
    unfold execBusyLimit
    split
    · refine answers_whenever fun _ => ?_
      split
      · exact s.pending_broadcastOutcome _ _
      · exact s.pending_unicastOutcome _ _
    · exact answers_whenever fun _ => s.pending_ownPathEnd _
    · exact answers_next rfl
  | ownPathAttemptEnd =>
    change Answers s (execOwnPathAttemptEnd s)
    unfold execOwnPathAttemptEnd
    split
    · exact answers_whenever fun _ => s.pending_ownPathEnd _
    · exact answers_next rfl
    · exact answers_next rfl
  | requestTaken =>
    change Answers s (execRequestTaken s)
    unfold execRequestTaken
    split
    · split
      · refine answers_whenever fun occasion => ?_
        simp only [Bool.and_eq_true, decide_eq_true_eq] at occasion
        exact s.pending_takeRequest _ _ occasion.2
      · exact answers_next rfl
    · exact answers_next rfl
  | requestDiscarded =>
    change Answers s (execRequestDiscarded s)
    unfold execRequestDiscarded
    split
    · exact answers_whenever fun _ => rfl
    · exact answers_next rfl
  | joinDispatched => exact answers_dispatchNotice fun f => s.dropHeadFrame.pending_rejoin f.sender
  | leaveDispatched => exact answers_dispatchNotice fun f => s.dropHeadFrame.pending_depart f.sender
  | departDispatched => exact answers_dispatchNotice fun f => s.dropHeadFrame.pending_takeDepart f
  | answerDispatched =>
    change Answers s (execAnswerDispatched s)
    unfold execAnswerDispatched
    split
    · refine answers_whenever fun _ => ?_
      unfold State.takeAnswer
      split <;> rfl
    · exact answers_next rfl
  | leaveNoticeQueued => exact answers_whenever fun _ => rfl
  | frameCutShort => exact answers_whenever fun _ => rfl
  | powerLoss => exact answers_next rfl

end Sys2Proof.Proofs
end

section
/-! SUPPORT. Resets, supply and the accesses of the register window, and the statements O3, O4, O48 and O49. -/

namespace Sys2Proof.Machine

section
variable {s t : State}

/-! ### The state after a reset (R183) -/

/-- Every field that a power-on or RESETN reset sets. -/
theorem State.afterPowerOn_of {sid : StationNum} {rate : RateCode} {powered held : Bool}
    (control : t.control = { Control.powerOn sid rate with powered, resetAsserted := held }) (roster : t.roster = rosterUnknown)
    (home : t.home = Home.powerOn) (client : t.client = Client.powerOn) (link : t.link = Link.powerOn) (port : t.port = Port.powerOn) :
    t.AfterPowerOn sid rate where
  control := by rw [control]; rfl
  roster := State.rosterOf_of_unknown roster
  entries i := by rw [home]; exact Home.powerOn_entry i
  pool := by rw [home]; exact ⟨rfl, fun _ => rfl⟩
  holds := by rw [home]; rfl
  arrivals := by rw [home]; rfl
  waiters := by
    have waiting : Home.powerOn.waitingCount = 0 := by
      rw [Home.waitingCount_eq, List.length_eq_zero_iff, List.flatMap_eq_nil_iff]
      exact fun i _ => Home.powerOn_waitersAt i
    rw [home]
    refine ⟨?_, rfl, rfl⟩
    rw [Home.freeWaiters, waiting]; rfl
  answers := by rw [home]; rfl
  slots n := by rw [client]; exact Client.powerOn_slot n
  lists := by rw [client]; exact ⟨rfl, rfl⟩
  link := by rw [link]; rfl
  port := by rw [port]; rfl

/-! ### A station that does not run -/

theorem State.running_false (h : s.control.resetAsserted = true ∨ s.control.powered = false) : s.running = false := by
  unfold State.running
  rcases h with h | h <;> simp [h]

theorem State.onLink_false (h : s.running = false) : s.onLink = false := by simp [State.onLink, h]

/-- Without supply or in reset only the resets, their release, the loss of supply and a read of V0 have an effect. -/
theorem exec_of_not_running (stopped : s.running = false) (c : Instr)
    (resets : ∀ sid rate, c ≠ .powerOnReset sid rate ∧ c ≠ .resetnReset sid rate ∧ c ≠ .resetnRelease sid rate) (loss : c ≠ .powerLoss)
    (read : c ≠ .v0Read) : exec c s = .next s := by
  have off := State.onLink_false stopped
  have idle : ∀ {b : Bool} {t : State}, b = false → whenever b t s = .next s := fun h => whenever_of_not h _ _
  have refuses : s.takesRequests = false := by simp [State.takesRequests, stopped]
  have notice : ∀ kind effect, s.dispatchNotice kind effect = .next s := fun kind effect => by
    simp only [State.dispatchNotice, off, Bool.false_and, whenever_false]
    split <;> rfl
  cases c with
  | define | clearDefinitions | joinCommand | leaveCommand | resetCommand | submit | cancel | pop | readObject | readEvents =>
    exact idle stopped
  | undefinedCommandCode code => exact idle (by rw [stopped]; rfl)
  | interruptEnableWrite value | vselWrite value => exact idle stopped
  | parameterRegisterWrite register value => exact idle stopped
  | v0Read => exact absurd rfl read
  | powerLoss => exact absurd rfl loss
  | powerOnReset sid rate => exact absurd rfl (resets sid rate).1
  | resetnReset sid rate => exact absurd rfl (resets sid rate).2.1
  | resetnRelease sid rate => exact absurd rfl (resets sid rate).2.2
  | stationTimeAdvance => exact idle stopped
  | expiry index requester slot => exact idle stopped
  | broadcastPlaceSettled busy => exact idle (by rw [off]; rfl)
  | frameHeard bits whole => exact idle (by rw [State.receiving, off]; rfl)
  | frameCutShort => exact idle (by rw [State.receiving, off]; rfl)
  | leaveNoticeQueued => exact idle (by rw [stopped]; rfl)
  | frameBegin =>
    simp only [exec, execFrameBegin, off, Bool.false_and, whenever_false]
    split <;> rfl
  | lossOfArbitration line =>
    simp only [exec, execLossOfArbitration, off, Bool.false_and, whenever_false]
    split <;> rfl
  | bodyDifference =>
    simp only [exec, execBodyDifference, off, whenever_false]
    split <;> rfl
  | unicastAttemptOutcome accept busy stale =>
    simp only [exec, execUnicastAttemptOutcome, off, Bool.false_and, whenever_false]
    split <;> rfl
  | broadcastAttemptOutcome busy =>
    simp only [exec, execBroadcastAttemptOutcome, off, Bool.false_and, whenever_false]
    split <;> rfl
  | silenceLimit =>
    simp only [exec, execSilenceLimit, off, Bool.false_and, whenever_false]
    split <;> rfl
  | busyLimit =>
    simp only [exec, execBusyLimit, off, Bool.false_and, whenever_false]
    split <;> rfl
  | ownPathAttemptEnd =>
    simp only [exec, execOwnPathAttemptEnd, off, whenever_false]
    split <;> rfl
  | requestTaken =>
    simp only [exec, execRequestTaken, refuses, Bool.false_and, whenever_false]
    split
    · split <;> rfl
    · rfl
  | requestDiscarded =>
    simp only [exec, execRequestDiscarded, refuses, Bool.false_and, whenever_false]
    split <;> rfl
  | joinDispatched => exact notice _ _
  | leaveDispatched => exact notice _ _
  | departDispatched => exact notice _ _
  | answerDispatched =>
    simp only [exec, execAnswerDispatched, off, Bool.false_and, whenever_false]
    split <;> rfl

/-! ### LINT and the code of an undefined command -/

theorem State.lint_iff (running : s.running = true) : s.lint = true ↔ (s.client.ring ≠ [] ∧ s.port.ie.toNat % 2 = 1) ∨
    ((s.control.events.joined = true ∨ s.control.events.joinFailed = true ∨ s.control.events.left = true ∨
      s.control.events.evicted = true) ∧ s.port.ie.toNat / 2 % 2 = 1) := by
  simp only [State.lint, running, Bool.true_and, Bool.or_eq_true, Bool.and_eq_true, Bool.not_eq_true', List.isEmpty_eq_false_iff,
    Port.completionEnable, Port.eventEnable, Events.any, ← BitVec.testBit_toNat, Nat.testBit_eq_decide_div_mod_eq, decide_eq_true_eq,
    Nat.pow_zero, Nat.div_one, Nat.pow_one, or_assoc]

/-- Two fields side by side as one number. -/
theorem toNat_fields {a b : Nat} (x : BitVec a) (y : BitVec b) : (x ++ y).toNat = 2 ^ b * x.toNat + y.toNat := by
  rw [BitVec.toNat_append, Nat.shiftLeft_eq, Nat.mul_comm, ← Nat.two_pow_add_eq_or_of_lt y.isLt]

theorem resultWord_status (code : Reg) (r : LocalResult) : (resultWord code r).toNat % 256 = r.code.toNat := by
  have := r.code.isLt
  rw [resultWord, toNat_fields]; omega

theorem resultWord_command (code : Reg) (r : LocalResult) (h : code.toNat < 256) : (resultWord code r).toNat / 256 = code.toNat := by
  have := r.code.isLt
  rw [resultWord, toNat_fields, if_pos h, BitVec.truncate_eq_setWidth, BitVec.toNat_setWidth]; omega

/-- The fields of RESULT1 of READ_EVENTS (R195). -/
theorem eventsWord_eq (e : Events) (mode : StationState) : eventsWord e mode =
    BitVec.ofNat 16 (e.joined.toNat + 2 * e.joinFailed.toNat + 4 * e.left.toNat + 8 * e.evicted.toNat +
      256 * (EvictionCause.code e.cause).toNat + 4096 * mode.code.toNat) := by
  apply BitVec.eq_of_toNat_eq
  have hc := (EvictionCause.code e.cause).isLt
  have hm := mode.code.isLt
  have h1 := e.joined.toNat_lt
  have h2 := e.joinFailed.toNat_lt
  have h3 := e.left.toNat_lt
  have h4 := e.evicted.toNat_lt
  simp only [eventsWord, toNat_fields, BitVec.toNat_ofBool, BitVec.toNat_ofNat]
  omega

end

end Sys2Proof.Machine

/-! ### The statements -/

namespace Sys2Proof.Proofs

open Sys2Proof Sys2Proof.Machine

/-- Settles O3: the three states are one state of `State.powerOn`, but for the supply and the level of RESETN. -/
theorem resetsSetEveryField : Obligations.ResetsSetEveryField := by
  refine ⟨State.afterPowerOn_of (powered := true) (held := false) rfl rfl rfl rfl rfl rfl, rfl, rfl, rfl, fun s sid rate => ?_,
    fun s sid rate => ?_⟩
  · exact ⟨_, rfl, State.afterPowerOn_of (powered := true) (held := s.control.resetAsserted) rfl rfl rfl rfl rfl rfl, rfl, rfl, rfl⟩
  · exact ⟨_, rfl, State.afterPowerOn_of (powered := s.control.powered) (held := true) rfl rfl rfl rfl rfl rfl, rfl, rfl, rfl⟩

/-- Settles O4: a station that does not run answers no occasion but those of the resets, the supply and the read of V0. -/
theorem resetnAndSupply : Obligations.ResetnAndSupply := by
  refine ⟨fun s sid rate held => whenever_of held _ _, fun s stopped => ?_, fun s held => ?_, fun s unpowered => ?_, fun s => rfl⟩
  · have not_running := State.running_false stopped
    exact ⟨by rw [State.lint, not_running]; rfl, fun c resets loss read => exec_of_not_running not_running c resets loss read⟩
  · have not_running := State.running_false (.inl held)
    refine ⟨fun a => if_neg (by rw [not_running]; exact nofun), fun powered => ?_⟩
    exact (if_neg (by rw [not_running]; exact nofun)).trans (whenever_of powered _ _)
  · have not_running := State.running_false (.inr unpowered)
    exact (if_neg (by rw [not_running]; exact nofun)).trans (whenever_of_not unpowered _ _)

/-- Settles O48: the word read is the flags, the cause and the state side by side. -/
theorem readEventsCapturesAndClears : Obligations.ReadEventsCapturesAndClears := by
  intro s running e flags
  rw [exec_readEvents s running, State.readEvents, eventsWord_eq]
  exact congrArg Host.Outcome.next (State.respond_eq_told _ 10 .ok _ 0 (by decide))

/-- Settles O49, access by access. -/
theorem registerAccesses : Obligations.RegisterAccesses := by
  intro s running
  refine ⟨fun code unnamed => ?_, fun value => ?_, fun r value => whenever_of running _ _, fun value => whenever_of running _ _, if_pos running⟩
  · have no_command : namesCommand code = false := decide_eq_false (by omega)
    refine ⟨s.refuse code .badRequest, whenever_of (by rw [running, no_command]; rfl) _ _, rfl, resultWord_status code .badRequest,
      resultWord_command code .badRequest⟩
  · exact ⟨_, whenever_of running _ _, rfl, State.lint_iff (s := { s with port := { s.port with ie := value } }) running⟩

end Sys2Proof.Proofs
end

section
/-! SUPPORT. An accepted DEFINE, station time and the records that wait: the statements O6, O9 to O14 and O16. -/

namespace Sys2Proof.Machine

section
variable {s : State} {i : ObjIndex}

/-! ### DEFINE accepted (R8) -/

theorem State.define_of_accepted {r : LocalResult} {d : Definition} (h : s.checkDefine = (r, some (i, d))) :
    s.define = State.told { s with home := s.home.define i d } 1 0 (BitVec.ofNat 16 (4096 - (s.home.poolUsed + d.words)))
      (BitVec.ofNat 16 d.reportedBase) := by
  unfold State.define
  rw [h]
  exact State.respond_eq_told _ 1 .ok _ _ (by decide)

/-- The checks passed (R7). -/
theorem State.checkDefine_of_passed {d : Definition} (config : s.control.mode = .config) (index : tableIndex s.port.defineIndex = some i)
    (kind : kindNamed s.port.defineKind = true) (absent : s.home.entry i = none)
    (named : definitionOf s.port.defineKind s.port.defineFirst s.port.defineSecond s.home.poolUsed = some d)
    (room : d.words ≤ Config.poolWords - s.home.poolUsed) : s.checkDefine = (.ok, some (i, d)) := by
  simp [State.checkDefine, config, index, kind, absent, named, room]

/-- A definition that takes no pool word leaves the pool. -/
theorem Home.define_of_no_words {d : Definition} (h : Home) (words : d.words = 0) (semaphore : d.isSemaphore = true) :
    h.define i d = { h with objects := h.objects.set i (some (ObjectEntry.initial d)) } := by
  cases d with
  | tracked c => rfl
  | signal m n => rfl
  | mailbox k base => exact nomatch semaphore

theorem Home.define_read (h : Home) (k : Nat) (a : Nat) :
    (h.define i (.mailbox k h.poolUsed)).pool.read a = if h.poolUsed ≤ a ∧ a < h.poolUsed + 2 ^ k then 0 else h.pool.read a := by
  obtain ⟨inside, outside⟩ := read_clearRing h.pool (some (ObjectEntry.initial (.mailbox k h.poolUsed))) a
  split
  · next ring => exact inside ⟨_, rfl, ring⟩
  · next ring => exact outside fun e he => by cases he; exact ring

/-! ### Station time (R34) -/

theorem WaiterRecord.reach_eq (time : Word) (w : WaiterRecord) :
    w.reach time = if w.deadline = some time then { w with due := true } else w := by
  unfold WaiterRecord.reach
  split
  · next reached => simp [reached]
  · next other => simp [other]

/-! ### Expiry and withdrawal (R34, R37) -/

/-- The first record of `p` leaves its list with an answer, and the grant pass runs. -/
theorem State.endWait_between (s : State) (i : ObjIndex) (e : ObjectEntry) {front back : List WaiterRecord} {w : WaiterRecord}
    (list : e.waiters = front ++ w :: back) (apart : w ∉ front) (status : AnswerStatus) :
    s.endWait i e w status = ((s.withEntry i { e with waiters := front ++ back }).handed (.record w status 0)).grantPass i := by
  rw [State.endWait, list, erase_between apart]; rfl

/-! ### Search and replacement (R19) -/

theorem WaiterRecord.isOf_iff (st : StationNum) (sl : SlotNum) (w : WaiterRecord) : w.isOf st sl = true ↔ w.requester = st ∧ w.slot = sl := by
  simp [WaiterRecord.isOf]

theorem WaiterRecord.isOf_eq_false (st : StationNum) (sl : SlotNum) (w : WaiterRecord) :
    w.isOf st sl = false ↔ ¬ (w.requester = st ∧ w.slot = sl) := by
  rw [← Bool.not_eq_true, WaiterRecord.isOf_iff]

/-- What of the answer list is carried by a record of a pair. -/
theorem AnswerItem.isRecordOf_eq_false {st : StationNum} {sl : SlotNum} {x : AnswerItem}
    (h : ∀ w status value, x = .record w status value → ¬ (w.requester = st ∧ w.slot = sl)) : x.isRecordOf st sl = false := by
  cases x with
  | immediate e => rfl
  | record w status value => exact (WaiterRecord.isOf_eq_false st sl w).mpr (h w status value rfl)

/-- With no answer carried by a record of the pair, the answer list stays as it is. -/
theorem State.dropAnswers_eq_self {st : StationNum} {sl : SlotNum}
    (none_carried : ∀ w status value, .record w status value ∈ s.home.answers.items → ¬ (w.requester = st ∧ w.slot = sl)) :
    s.dropAnswers (AnswerItem.isRecordOf st sl) = s := by
  rw [State.dropAnswers, OutList.removeIf_eq_self _ _ fun x hx => AnswerItem.isRecordOf_eq_false fun w status value same =>
    none_carried w status value (same ▸ hx)]

/-- A list without its one item of `p`. -/
theorem filter_between {α : Type} {p : α → Bool} {front back : List α} {x : α} (here : p x = true)
    (others : ∀ y ∈ front ++ back, p y = false) : (front ++ x :: back).filter (fun y => !p y) = front ++ back := by
  have kept : ∀ l : List α, (∀ y ∈ l, y ∈ front ++ back) → l.filter (fun y => !p y) = l := fun l part =>
    List.filter_eq_self.mpr fun y hy => by rw [others y (part y hy)]; rfl
  rw [List.filter_append, List.filter_cons, here, kept front fun y => List.mem_append_left _, kept back fun y => List.mem_append_right _]; rfl

/-- The one item of `p` leaves a list, the counters with it when it is the head. -/
theorem OutList.removeIf_between {α : Type} {p : α → Bool} {l : OutList α} {front back : List α} {x : α}
    (items : l.items = front ++ x :: back) (here : p x = true) (others : ∀ y ∈ front ++ back, p y = false) :
    l.removeIf p = if front = [] then ⟨back, 0, 0, false⟩ else { l with items := front ++ back } := by
  have kept : l.items.filter (fun y => !p y) = front ++ back := items ▸ filter_between here others
  unfold OutList.removeIf
  rw [kept, items]
  cases front with
  | nil => simp [here]
  | cons y ys => simp [others y (List.mem_append_left _ List.mem_cons_self)]

/-- The one record of `p` leaves its list, and for a semaphore the grant pass runs (R26, R79). -/
theorem State.dropWaiters_between {p : WaiterRecord → Bool} {e : ObjectEntry} {front back : List WaiterRecord} {w : WaiterRecord}
    (defined : s.home.entry i = some e) (list : e.waiters = front ++ w :: back) (here : p w = true)
    (others : ∀ x ∈ front ++ back, p x = false) :
    s.dropWaiters p i = if e.definition.isSemaphore = true then (s.withEntry i { e with waiters := front ++ back }).grantPass i
      else s.withEntry i { e with waiters := front ++ back } := by
  have loses : e.waiters.any p = true := List.any_eq_true.mpr ⟨w, by rw [list]; exact List.mem_append_right _ List.mem_cons_self, here⟩
  have dropped : s.dropWaiters p i = (s.withEntry i { e with waiters := front ++ back }).grantPass i := by
    have kept : e.waiters.filter (fun x => !p x) = front ++ back := list ▸ filter_between here others
    simp only [State.dropWaiters, defined, loses, if_true, kept, State.setEntry_eq_withEntry]
  rw [dropped]
  split
  · rfl
  · next mailbox =>
    refine State.grantPass_eq_self _ _ fun f v rest hf semaphore => ?_
    have entry : (s.home.setEntry i { e with waiters := front ++ back }).entry i = some f := hf
    rw [Home.entry_setEntry_same] at entry
    cases entry
    exact absurd semaphore mailbox

theorem State.replaceRecord_eq (s : State) (st : StationNum) (sl : SlotNum) : s.replaceRecord st sl =
    allIndexes.foldl (State.dropWaiters (WaiterRecord.isOf st sl)) (s.dropAnswers (AnswerItem.isRecordOf st sl)) := rfl

/-! ### Requests that wait (R21, R33, R46, R75) -/

/-- The record of a request in its place on the list of its object. -/
theorem State.insertRecord_between {op : WaitOp} {f : Frame} {e : ObjectEntry} {front back : List WaiterRecord}
    (defined : s.home.entry f.index = some e) (list : e.waiters = front ++ back) (urgent : ∀ x ∈ front, x.priority ≤ f.priority)
    (less : ∀ x ∈ back.head?, f.priority < x.priority) {w : WaiterRecord}
    (record : w = ⟨f.index, f.sender, f.slot, f.tag, op, f.priority, deadlineOf s.control.time f.waitLimit, s.home.arrivals, false⟩) :
    s.insertRecord op f = { s.withEntry f.index { e with waiters := front ++ w :: back } with
      home := { (s.withEntry f.index { e with waiters := front ++ w :: back }).home with arrivals := s.home.arrivals + 1 } } := by
  subst record
  have place := insertByPriority_between
    ⟨f.index, f.sender, f.slot, f.tag, op, f.priority, deadlineOf s.control.time f.waitLimit, s.home.arrivals, false⟩ front back urgent less
  simp only [State.insertRecord, defined, list, place]
  rfl

/-- An ACQUIRE that may wait, and a TAKE from an empty ring that may, come to `State.wait`. -/
theorem State.Takes.exec_eq_wait {f : Frame} {op : Operation} {rest : List QueueItem} {e : ObjectEntry} (takes : s.Takes f op rest)
    (has : s.home.has f.index e) (wait : f.waitLimit ≠ 0)
    (kind : (op = .acquire ∧ e.definition.isSemaphore = true ∧ Operation.acquire.unitsFit e.definition f.units.toNat) ∨
      (op = .take ∧ e.definition.isSemaphore = false ∧ e.level = 0)) :
    exec .requestTaken s = .next ((s.withQueue rest).wait (if op = .acquire then .acquire f.units.toNat else .take) f) := by
  rcases kind with ⟨rfl, semaphore, units⟩ | ⟨rfl, mailbox, empty⟩
  · rw [takes.exec_eq_decideRequest has semaphore units]
    exact congrArg Host.Outcome.next (if_neg wait)
  · rw [takes.exec_eq_decideRequest has (by rw [Operation.fitsKind, mailbox]; rfl) trivial]
    cases definition : e.definition with
    | tracked c | signal m n => rw [definition] at mailbox; exact nomatch mailbox
    | mailbox k base =>
      simp only [State.decideRequest, definition, State.takeTake, empty, Nat.lt_irrefl, if_false, wait]
      rfl

/-! ### The checks of a request (R12, R41) -/

/-- Step 1 of R41 fails: the operation does not fit the kind. -/
theorem requestCheck_of_kind {op : Operation} {e : ObjectEntry} (u : Nat) (kind : op.fitsKind e.definition = false) :
    requestCheck op u (some e) = some .badObject := by
  cases definition : e.definition with
  | tracked c | signal m n =>
    rw [definition] at kind
    cases op with
    | acquire | release | query | withdraw => exact nomatch kind
    | post | take => simp only [requestCheck, definition]
  | mailbox k base =>
    rw [definition] at kind
    cases op with
    | acquire | release => simp only [requestCheck, definition]
    | query | withdraw | post | take => exact nomatch kind

/-- Step 2 of R41 fails: the units do not fit the definition. -/
theorem requestCheck_of_units {op : Operation} {e : ObjectEntry} {u : Nat} (kind : op.fitsKind e.definition = true)
    (units : ¬ op.unitsFit e.definition u) : requestCheck op u (some e) = some .badRequest := by
  cases op with
  | post | take | query | withdraw => exact absurd trivial units
  | acquire | release =>
    cases definition : e.definition with
    | mailbox k base => rw [definition] at kind; exact nomatch kind
    | tracked c | signal m n =>
      rw [definition] at units
      simp only [requestCheck, definition]
      exact if_neg units

/-- A request that fails a check is answered its refusal, and nothing else. -/
theorem State.Takes.exec_eq_refusal {f : Frame} {op : Operation} {rest : List QueueItem} (takes : s.Takes f op rest) {refusal : AnswerStatus}
    (check : requestCheck op f.units.toNat (s.home.entry f.index) = some refusal) :
    exec .requestTaken s = .next ((s.withQueue rest).handed (f.reply op refusal 0)) := by
  have check : requestCheck op f.units.toNat ((s.withQueue rest).home.entry f.index) = some refusal := check
  rw [takes.exec_eq, State.applyRequest, check]
  rfl

/-! ### The grant pass (R47, R48) -/

/-- What the home half's operations keep, as one equation. -/
theorem State.HomeKeeps.eq {t : State} (k : s.HomeKeeps t) : t = { s with
    client := t.client
    home := { s.home with objects := t.home.objects, holds := t.home.holds, answers := t.home.answers } } := by
  obtain ⟨pending, control, roster, link, port, pool, poolUsed, arrivals, _, _⟩ := k
  obtain ⟨_, _, _, ⟨_, _, _, _, _, _⟩, _, _, _⟩ := t
  simp only at pending control roster link port pool poolUsed arrivals
  subst pending control roster link port pool poolUsed arrivals
  rfl

section
variable {e : ObjectEntry} {w : WaiterRecord} {rest : List WaiterRecord}

/-- The head of a SIGNAL semaphore's list is served. -/
theorem State.serveHead_of_not_tracked (tracked : e.definition.isTracked = false) :
    s.serveHead i e w rest = (s.withEntry i { e with level := e.level - w.units, waiters := rest }).handed
      (.record w .ok (BitVec.ofNat 32 w.units)) := by
  simp only [State.serveHead, tracked, Bool.false_eq_true, if_false]
  rfl

/-- The head of a TRACKED semaphore's list is served, its units entering the hold table. -/
theorem State.serveHead_of_hold (tracked : e.definition.isTracked = true) {holds : List HoldRecord}
    (obtained : obtainHold i w.requester w.units s.home.holds = some holds) :
    s.serveHead i e w rest = ((s.withEntry i { e with level := e.level - w.units, waiters := rest }).withHolds holds).handed
      (.record w .ok (BitVec.ofNat 32 w.units)) := by
  simp only [State.serveHead, tracked, if_true, obtained]
  rfl

/-- The head of a TRACKED semaphore's list is refused where no hold record can be had. -/
theorem State.serveHead_of_no_hold (tracked : e.definition.isTracked = true)
    (unobtained : obtainHold i w.requester w.units s.home.holds = none) :
    s.serveHead i e w rest = (s.withEntry i { e with waiters := rest }).handed (.record w .noHoldRecord 0) := by
  simp only [State.serveHead, tracked, if_true, unobtained]
  rfl

end

end

end Sys2Proof.Machine

/-! ### The statements -/

namespace Sys2Proof.Proofs

open Sys2Proof Sys2Proof.Machine

/-- Settles O6: the definition named by the block passes the checks, and its entry is the initial one. -/
theorem defineAccepted : Obligations.DefineAccepted := by
  intro s running config h absent i kind first second used
  have index : tableIndex s.port.defineIndex = some i := tableIndex_of_lt _ s.port.defineIndex_toNat h
  have kind_eq : s.port.defineKind.toNat = kind := s.port.defineKind_toNat
  rw [exec_define s running]
  refine ⟨fun tracked least => ?_, fun signal least second_le => ?_, fun mailbox exponent room => ?_⟩
  · have named : definitionOf s.port.defineKind first second used = some (.tracked first) := by
      simp only [definitionOf, kind_eq, tracked]; exact if_pos least
    rw [State.define_of_accepted (State.checkDefine_of_passed config index (decide_eq_true (by omega)) absent named (Nat.zero_le _)),
      Home.define_of_no_words _ rfl rfl]
    rfl
  · have named : definitionOf s.port.defineKind first second used = some (.signal first second) := by
      simp only [definitionOf, kind_eq, signal]; exact if_pos ⟨least, second_le⟩
    rw [State.define_of_accepted (State.checkDefine_of_passed config index (decide_eq_true (by omega)) absent named (Nat.zero_le _)),
      Home.define_of_no_words _ rfl rfl]
    rfl
  · have named := definitionOf_mailbox s.port.defineKind first second used (kind_eq.trans mailbox) exponent
    have words : (Definition.mailbox first used).words ≤ 4096 - used := by change 2 ^ first ≤ _; omega
    refine ⟨_, rfl, ?_⟩
    rw [State.define_of_accepted (State.checkDefine_of_passed config index (decide_eq_true (by omega)) absent named words)]
    exact ⟨s.home.define_read first, rfl⟩

/-- Settles O9. -/
theorem stationTimeAdvances : Obligations.StationTimeAdvances := by
  intro s running
  refine ⟨s.advanceTime, exec_stationTimeAdvance s running, fun i => ?_, rfl⟩
  refine (s.home.advance_entry (s.control.time + 1) i).trans ?_
  have reach : WaiterRecord.reach (s.control.time + 1) = fun w => if w.deadline = some (s.control.time + 1) then { w with due := true } else w :=
    funext (WaiterRecord.reach_eq _)
  rw [reach]

/-- Settles O10. -/
theorem expiryTaken : Obligations.ExpiryTaken := by
  intro s i st sl running
  rw [exec_expiry i st sl s running]
  refine ⟨fun e pre w post has list requester slot due others => ?_, fun nobody => ?_⟩
  · have defined : s.home.entry i = some e := has
    have apart : w ∉ pre := fun h => others w h ⟨requester, slot⟩
    have found : e.waiters.find? (fun w => w.isOf st sl && w.due) = some w := by
      rw [list]
      refine find?_between (fun x hx => ?_) (by rw [(WaiterRecord.isOf_iff st sl w).mpr ⟨requester, slot⟩, due]; rfl)
      rw [(WaiterRecord.isOf_eq_false st sl x).mpr (others x hx)]; rfl
    simp only [State.expire, defined, found]
    rw [s.endWait_between i e list apart]
  · unfold State.expire
    cases defined : s.home.entry i with
    | none => rfl
    | some e =>
      have absent : e.waiters.find? (fun w => w.isOf st sl && w.due) = none := List.find?_eq_none.mpr fun w hw found => by
        rw [Bool.and_eq_true, WaiterRecord.isOf_iff] at found
        exact nobody w (by rw [Home.waitersAt_of_entry defined]; exact hw) ⟨found.1.1, found.1.2, found.2⟩
      simp only [absent]

/-- Settles O11: the answers leave first, then the lists are gone through; what leaves one list leaves the others alone. -/
theorem oldRecordsAreReplaced : Obligations.OldRecordsAreReplaced := by
  intro s st sl
  have fresh := State.replaceRecord_fresh s st sl
  refine ⟨fun i w hw => ?_, fun w status value hw => ?_, fun waiting answering => ?_, fun i e pre w post has list requester slot others apart answering => ?_,
    fun pre w status value post items requester slot others waiting => ?_⟩
  · exact (WaiterRecord.isOf_eq_false st sl w).mp (fresh w (Home.mem_recordsInUse_of_waiting hw))
  · exact (WaiterRecord.isOf_eq_false st sl w).mp (fresh w (Home.mem_recordsInUse_of_answering hw))
  · rw [State.replaceRecord_eq, State.dropAnswers_eq_self answering]
    exact State.foldl_dropWaiters_eq_self _ _ s fun i w hw => (WaiterRecord.isOf_eq_false st sl w).mpr (waiting i w hw)
  · rw [State.replaceRecord_eq, State.dropAnswers_eq_self answering,
      State.foldl_dropWaiters_only _ allIndexes s i (mem_allIndexes i) fun j hj x hx => (WaiterRecord.isOf_eq_false st sl x).mpr (apart j hj x hx)]
    exact State.dropWaiters_between has list ((WaiterRecord.isOf_iff st sl w).mpr ⟨requester, slot⟩) fun x hx =>
      (WaiterRecord.isOf_eq_false st sl x).mpr (others x hx)
  · have removed := OutList.removeIf_between items (p := AnswerItem.isRecordOf st sl) ((WaiterRecord.isOf_iff st sl w).mpr ⟨requester, slot⟩)
      fun y hy => AnswerItem.isRecordOf_eq_false fun x status value same => others x status value (same ▸ hy)
    rw [State.replaceRecord_eq, State.dropAnswers, removed]
    exact State.foldl_dropWaiters_eq_self _ _ _ fun i x hx => (WaiterRecord.isOf_eq_false st sl x).mpr (waiting i x hx)

/-- Settles O12: after the replacement the pool decides, then the record's place on the list. -/
theorem requestsThatWait : Obligations.RequestsThatWait := by
  intro s f op rest e0 takes has wait kind s1
  have taken := takes.exec_eq_wait has wait kind
  have keeps : (s.withQueue rest).HomeKeeps s1 := State.keeps_replaceRecord f.sender f.slot (s.withQueue rest)
  rw [State.wait_eq _ f (s.withQueue rest) s1 rfl] at taken
  clear_value s1
  refine ⟨fun full => ?_, ?_⟩
  · rw [taken, if_pos full]
    rcases kind with ⟨rfl, _⟩ | ⟨rfl, _⟩ <;> rfl
  · intro free e pre post present list urgent less w s2 s3
    have placed : s1.insertRecord (if op = .acquire then .acquire f.units.toNat else .take) f = s3 :=
      State.insertRecord_between present list urgent less (by rw [deadlineOf_eq, keeps.control]; rfl)
    rw [taken, if_neg (Nat.pos_iff_ne_zero.mp free), placed]
    rcases kind with ⟨rfl, _⟩ | ⟨rfl, mailbox, _⟩
    · rfl
    · refine congrArg Host.Outcome.next (State.grantPass_eq_self _ _ fun g v others hg semaphore => ?_)
      obtain ⟨e', present', definition, _⟩ := keeps.entry has
      cases present.symm.trans present'
      have entry : (s1.home.setEntry f.index { e with waiters := pre ++ w :: post }).entry f.index = some g := hg
      rw [Home.entry_setEntry_same] at entry
      cases entry
      rw [show e.definition.isSemaphore = false by rw [definition]; exact mailbox] at semaphore
      exact nomatch semaphore

/-- Settles O13: the record sought is the first of its requester, slot and tag. -/
theorem withdrawTaken : Obligations.WithdrawTaken := by
  intro s f rest e takes has
  have taken : exec .requestTaken s = .next ((s.withQueue rest).takeWithdraw f e) := takes.exec_eq_decideRequest has rfl trivial
  have sought : ∀ w : WaiterRecord, w.isSought f = true ↔ w.requester = f.sender ∧ w.slot = f.slot ∧ w.tag = f.tag := fun w => by
    simp only [WaiterRecord.isSought, Bool.and_eq_true, WaiterRecord.isOf_iff, decide_eq_true_eq, and_assoc]
  rw [taken]
  refine ⟨fun pre w post list requester slot tag others => ?_, fun missing => ?_⟩
  · have found : e.waiters.find? (WaiterRecord.isSought f) = some w := list ▸ find?_between
      (fun x hx => Bool.eq_false_iff.mpr (mt (sought x).mp (others x hx))) ((sought w).mpr ⟨requester, slot, tag⟩)
    simp only [State.takeWithdraw, found]
    rw [State.endWait_between _ f.index e list fun h => others w h ⟨requester, slot, tag⟩]
  · have absent : e.waiters.find? (WaiterRecord.isSought f) = none := List.find?_eq_none.mpr fun x hx found => missing x hx ((sought x).mp found)
    simp only [State.takeWithdraw, absent]
    rfl

/-- Settles O14: the first of the two checks that fails names the refusal. -/
theorem requestRefused : Obligations.RequestRefused := by
  intro s f op rest takes
  refine ⟨fun absent => takes.exec_eq_refusal (by rw [absent]; rfl), fun e has => ⟨fun kind => ?_, fun kind units => ?_⟩⟩
  · have defined : s.home.entry f.index = some e := has
    exact takes.exec_eq_refusal (by rw [defined]; exact requestCheck_of_kind _ kind)
  · have defined : s.home.entry f.index = some e := has
    exact takes.exec_eq_refusal (by rw [defined]; exact requestCheck_of_units kind units)

/-- Settles O16: the pass is a serving of the head and the rest of the pass, and what a serving keeps the pass keeps. -/
theorem grantPassServesFromTheHead : Obligations.GrantPassServesFromTheHead := by
  refine ⟨fun s i waits => State.grantPass_eq_self s i waits, ?_,
    fun s i => ⟨fun j other => State.grantPass_other s i j other, (State.keeps_grantPass s i).eq⟩⟩
  intro s i e w rest has semaphore list units lowered served
  have goes := State.grantPass_serve s i e w rest has semaphore list units
  refine ⟨fun signal => ?_, fun tracked => ⟨fun merge => ?_, fun new => ⟨fun free => ?_, fun full => ?_⟩⟩⟩
  · rw [goes, State.serveHead_of_not_tracked signal]
  · rw [goes, State.serveHead_of_hold tracked (obtainHold_merge _ _ _ s.home.holds merge)]
  · rw [goes, State.serveHead_of_hold tracked (obtainHold_new _ _ _ s.home.holds new free)]
  · rw [goes, State.serveHead_of_no_hold tracked (obtainHold_none _ _ _ s.home.holds new full)]

end Sys2Proof.Proofs
end

section
/-! SUPPORT. Requests at the head of the receive queue, and the outcomes of an attempt on the head of the answer list and of the request
list: the statements O23, O24, O29 and O39. -/

namespace Sys2Proof.Machine

section
variable {s : State} {f : Frame} {op : Operation} {rest : List QueueItem}

/-! ### The request at the head (R40, R84) -/

theorem exec_requestTaken_eq (head : s.link.queue = .frame f :: rest) (kind : f.kind = .request op) :
    exec .requestTaken s = whenever (s.takesRequests && !s.senderDeparted f && decide (0 < s.home.freeImmediate)) (s.takeRequest f op) s := by
  simp only [exec, execRequestTaken, Link.headFrame, head, Frame.requestOperation, kind]

theorem exec_requestDiscarded_eq (head : s.link.queue = .frame f :: rest) (kind : f.kind = .request op) :
    exec .requestDiscarded s = whenever (s.takesRequests && s.senderDeparted f) (s.withQueue rest) s := by
  simp only [exec, execRequestDiscarded, Link.headFrame, head, Frame.requestOperation, kind, Option.isSome_some, Bool.and_true,
    State.dropHeadFrame, List.tail_cons]
  rfl

theorem State.senderDeparted_iff : s.senderDeparted f = true ↔ f.sender ≠ s.control.number ∧ s.rosterOf f.sender = .departed := by
  simp [State.senderDeparted]

theorem State.takesRequests_of (running : s.running = true) (mode : s.control.mode = .active ∨ s.control.mode = .leaving) :
    s.takesRequests = true := by
  rcases mode with mode | mode <;> simp [State.takesRequests, running, mode]

/-! ### The item of an attempt -/

theorem State.itemStands_answer (kind : f.kind = .answer op) :
    s.itemStands f = (s.home.answers.onLine && !s.home.answers.items.isEmpty) := by
  simp only [State.itemStands, kind]

theorem State.itemStands_request (kind : f.kind = .request op) :
    s.itemStands f = (s.client.requests.onLine && !s.client.requests.items.isEmpty) := by
  simp only [State.itemStands, kind]

theorem Frame.isNotice_of_answer (kind : f.kind = .answer op) : f.isNotice = false := by simp only [Frame.isNotice, kind]
theorem Frame.isNotice_of_request (kind : f.kind = .request op) : f.isNotice = false := by simp only [Frame.isNotice, kind]

/-- An outcome but STALE of an item that has left refers to nothing (R136). -/
theorem State.unicastOutcome_of_left {o : AttemptOutcome} (left : s.itemStands f = false) (fresh : o ≠ .stale) :
    s.unicastOutcome f o = s.endAttempts := by
  cases o with
  | stale => exact absurd rfl fresh
  | accept | busy | silence => exact if_neg (by rw [left]; exact nofun)

theorem outcomeOf_fresh (accept busy : Bool) : outcomeOf accept busy false ≠ .stale := by
  cases accept <;> cases busy <;> exact nofun

theorem outcomeOf_busy (accept : Bool) : outcomeOf accept true false = .busy := rfl

/-- The last BUSY of a unicast on the line is an event of its own (R134). -/
theorem exec_busyLimit_unicast (onLink : s.onLink = true) (line : s.link.transmitter = .line f) (unicast : f.isNotice = false)
    (near : s.busyLimitNear f = true) : exec .busyLimit s = .next (s.unicastOutcome f .busy) := by
  simp only [exec, execBusyLimit, line, onLink, near, unicast, Bool.true_and, whenever_true]
  rfl

/-- The last BUSY by the path to the station itself is an event of its own (R144). -/
theorem exec_busyLimit_ownPath (onLink : s.onLink = true) (path : s.link.transmitter = .ownPath f) (full : s.link.queueFull = true)
    (near : s.busyLimitNear f = true) : exec .busyLimit s = .next (s.ownPathEnd f) := by
  simp only [exec, execBusyLimit, path, onLink, near, full, Bool.true_and, whenever_true]

theorem exec_ownPathAttemptEnd (onLink : s.onLink = true) (path : s.link.transmitter = .ownPath f) :
    exec .ownPathAttemptEnd s = .next (s.ownPathEnd f) := by
  simp only [exec, execOwnPathAttemptEnd, path, onLink, whenever_true]

theorem OutList.busyReachesLimit_of {α : Type} {l : OutList α} (limit : l.busyCount = 63) : l.busyReachesLimit = true :=
  decide_eq_true (Nat.le_of_eq (congrArg (· + 1) limit.symm))

theorem OutList.silenceReachesLimit_of {α : Type} {l : OutList α} (limit : l.silenceRun = 7) : l.silenceReachesLimit = true :=
  decide_eq_true (Nat.le_of_eq (congrArg (· + 1) limit.symm))

theorem mem_two {α : Type} {a b c : α} : c ∈ [a, b] ↔ c = a ∨ c = b := by
  rw [List.mem_cons, List.mem_singleton]

theorem State.busyLimitNear_answer (kind : f.kind = .answer op) (stands : s.itemStands f = true) (limit : s.home.answers.busyCount = 63) :
    s.busyLimitNear f = true := by
  have reaches := OutList.busyReachesLimit_of limit
  simp only [State.busyLimitNear, kind, stands, reaches, Bool.and_self]

theorem State.busyLimitNear_request (kind : f.kind = .request op) (stands : s.itemStands f = true)
    (limit : s.client.requests.busyCount = 63) : s.busyLimitNear f = true := by
  have reaches := OutList.busyReachesLimit_of limit
  simp only [State.busyLimitNear, kind, stands, reaches, Bool.and_self]

/-! ### Outcomes on the head of the answer list (R90 to R92) -/

section
variable {x : AnswerItem} {others : List AnswerItem}

theorem State.accepted_answer (kind : f.kind = .answer op) (items : s.home.answers.items = x :: others) :
    s.accepted f = ({ s with home := { s.home with answers := ⟨others, 0, 0, false⟩ } } : State).reportAnswers := by
  simp only [State.accepted, kind, OutList.dropHead, items, List.tail_cons]

theorem State.busied_answer (kind : f.kind = .answer op) (below : s.home.answers.busyCount + 1 < 64) :
    s.busied f = { s with home := { s.home with answers := s.home.answers.countBusy } } := by
  have : s.home.answers.busyReachesLimit = false := decide_eq_false (Nat.not_le.mpr below)
  simp only [State.busied, kind, this, Bool.false_eq_true, if_false]

theorem State.busied_answer_limit (kind : f.kind = .answer op) (limit : s.home.answers.busyCount = 63)
    (items : s.home.answers.items = x :: others) :
    s.busied f = { s with home := { s.home with answers :=
      ⟨((x :: others).filter fun y => decide (y.dest ≠ x.dest)) ++ (x :: others).filter fun y => decide (y.dest = x.dest), 0, 0, false⟩ } } := by
  have reaches := OutList.busyReachesLimit_of limit
  simp only [State.busied, kind, reaches, if_true, Home.deferHead, items, List.head?_cons, OutList.moveToTail, ne_eq, decide_not]

theorem State.silenced_answer (kind : f.kind = .answer op) (below : s.home.answers.silenceRun + 1 < 8) :
    s.silenced f = { s with home := { s.home with answers := s.home.answers.countSilence } } := by
  have : s.home.answers.silenceReachesLimit = false := decide_eq_false (Nat.not_le.mpr below)
  simp only [State.silenced, kind, this, Bool.false_eq_true, if_false]

end

/-! ### Outcomes on the head of the request list (R107 to R109) -/

section
variable {x : RequestEntry} {others : List RequestEntry} {r : Request}

theorem State.accepted_request (kind : f.kind = .request op) : s.accepted f = { s with client := s.client.acceptHead } := by
  simp only [State.accepted, kind]

theorem State.busied_request (kind : f.kind = .request op) (below : s.client.requests.busyCount + 1 < 64) :
    s.busied f = { s with client := { s.client with requests := s.client.requests.countBusy } } := by
  have : s.client.requests.busyReachesLimit = false := decide_eq_false (Nat.not_le.mpr below)
  simp only [State.busied, kind, this, Bool.false_eq_true, if_false]

theorem homeBusyValue_eq (u : SlotUse) : homeBusyValue u = match u with
    | .returning _ v => v
    | _ => 0 := by cases u <;> rfl

/-- The 64th BUSY completes the slot of the head entry HOME_BUSY, with the units that were to be returned. -/
theorem State.busied_request_limit (kind : f.kind = .request op) (limit : s.client.requests.busyCount = 63)
    (items : s.client.requests.items = x :: others) (busy : (s.client.slot x.slot).use.busy? = some r) {units : Word}
    (returned : homeBusyValue (s.client.slot x.slot).use = units) :
    s.busied f = { s with
      client := ({ s.client with requests := ⟨x :: others, 0, 0, false⟩ } : Client).ended x.slot r .homeBusy units } := by
  have reaches := OutList.busyReachesLimit_of limit
  simp only [State.busied, kind, reaches, if_true]
  rw [Client.busyLimitHead_eq s.client x others r items busy, returned]

theorem State.silenced_request (kind : f.kind = .request op) (below : s.client.requests.silenceRun + 1 < 8) :
    s.silenced f = { s with client := { s.client with requests := s.client.requests.countSilence } } := by
  have : s.client.requests.silenceReachesLimit = false := decide_eq_false (Nat.not_le.mpr below)
  simp only [State.silenced, kind, this, Bool.false_eq_true, if_false]

end

end

end Sys2Proof.Machine

/-! ### The statements -/

namespace Sys2Proof.Proofs

open Sys2Proof Sys2Proof.Machine

/-- Settles O23: whether the sender is DEPARTED decides between the two events, and a FREE entry whether the request is taken. -/
theorem requestAtTheHead : Obligations.RequestAtTheHead := by
  intro s f op rest running mode head kind
  have takes := State.takesRequests_of running mode
  rw [exec_requestTaken_eq head kind, exec_requestDiscarded_eq head kind, takes]
  refine ⟨fun other gone => ?_, fun known => ?_⟩
  · have departed : s.senderDeparted f = true := State.senderDeparted_iff.mpr ⟨other, gone⟩
    rw [departed]; exact ⟨rfl, rfl⟩
  · have stays : s.senderDeparted f = false := Bool.eq_false_iff.mpr fun h => by
      obtain ⟨other, gone⟩ := State.senderDeparted_iff.mp h
      exact known.elim other fun present => present gone
    rw [stays]
    refine ⟨rfl, fun none_free => whenever_of_not (by rw [none_free]; rfl) _ _, fun leaving free => ?_⟩
    rw [whenever_of (by rw [decide_eq_true free]; rfl)]
    simp only [State.takeRequest, leaving, if_true, State.dropHeadFrame, head, List.tail_cons]
    rfl

/-- Settles O24: each outcome of the item that stands is the list operation of its rule. -/
theorem answerAttemptOutcomes : Obligations.AnswerAttemptOutcomes := by
  intro s f op accept onLink line kind l ofList
  have unicast := Frame.isNotice_of_answer kind
  have outcome := fun a b c => exec_unicastAttemptOutcome s f a b c onLink line unicast
  refine ⟨fun off busy => ?_, fun x others on items => ?_⟩
  · have left : s.itemStands f = false := by rw [State.itemStands_answer kind]; exact congrArg (· && _) off
    rw [outcome, State.unicastOutcome_of_left left (outcomeOf_fresh accept busy)]
  · have stands : s.itemStands f = true := by
      rw [State.itemStands_answer kind, show s.home.answers.onLine = true from on, show s.home.answers.items = _ from items]; rfl
    refine ⟨?_, fun below => ?_, fun limit => ?_, fun below => ?_⟩
    · rw [outcome]
      exact congrArg Host.Outcome.next ((if_pos stands).trans (State.accepted_answer (s := s.endAttempts) kind items))
    · rw [outcome]
      exact congrArg Host.Outcome.next ((if_pos stands).trans (State.busied_answer (s := s.endAttempts) kind below))
    · have deferred : s.unicastOutcome f .busy = _ := (if_pos stands).trans (State.busied_answer_limit (s := s.endAttempts) kind limit items)
      rw [outcome, exec_busyLimit_unicast onLink line unicast (State.busyLimitNear_answer kind stands limit)]
      exact ⟨congrArg Host.Outcome.next deferred, congrArg Host.Outcome.next deferred⟩
    · rw [outcome]
      exact congrArg Host.Outcome.next ((if_pos stands).trans (State.silenced_answer (s := s.endAttempts) kind below))

/-- Settles O29: each outcome of the entry that stands is the client engine's operation of its rule. -/
theorem requestAttemptOutcomes : Obligations.RequestAttemptOutcomes := by
  intro s f op accept onLink line kind l ofList
  have unicast := Frame.isNotice_of_request kind
  have outcome := fun a b c => exec_unicastAttemptOutcome s f a b c onLink line unicast
  refine ⟨fun off busy => ?_, fun x others on items => ?_⟩
  · have left : s.itemStands f = false := by rw [State.itemStands_request kind]; exact congrArg (· && _) off
    rw [outcome, State.unicastOutcome_of_left left (outcomeOf_fresh accept busy)]
  · have stands : s.itemStands f = true := by
      rw [State.itemStands_request kind, show s.client.requests.onLine = true from on, show s.client.requests.items = _ from items]; rfl
    have accepted : s.unicastOutcome f .accept = { s.endAttempts with client := s.endAttempts.client.acceptHead } :=
      (if_pos stands).trans (State.accepted_request (s := s.endAttempts) kind)
    refine ⟨fun r sort queued => ?_, fun sort => ?_, fun below => ?_, fun r limit busy => ?_, fun below => ?_⟩
    · refine (outcome _ _ _).trans (congrArg Host.Outcome.next (accepted.trans ?_))
      rw [Client.acceptHead_request s.endAttempts.client x others r items sort queued]; rfl
    · refine (outcome _ _ _).trans (congrArg Host.Outcome.next (accepted.trans ?_))
      rw [Client.acceptHead_other s.endAttempts.client x others items sort]; rfl
    · rw [outcome]
      exact congrArg Host.Outcome.next ((if_pos stands).trans (State.busied_request (s := s.endAttempts) kind below))
    · have ended : s.unicastOutcome f .busy = _ :=
        (if_pos stands).trans (State.busied_request_limit (s := s.endAttempts) kind limit items busy (homeBusyValue_eq _))
      rw [outcome, exec_busyLimit_unicast onLink line unicast (State.busyLimitNear_request kind stands limit)]
      exact ⟨congrArg Host.Outcome.next ended, congrArg Host.Outcome.next ended⟩
    · rw [outcome]
      exact congrArg Host.Outcome.next ((if_pos stands).trans (State.silenced_request (s := s.endAttempts) kind below))

/-- Settles O39: the queue decides between the acceptance of the request and one more BUSY. -/
theorem ownPathAttemptEnds : Obligations.OwnPathAttemptEnds := by
  intro s f op onLink path kind l ofList offered
  have stands_eq := State.itemStands_request (s := s) kind
  have left : l.onLine = false → s.itemStands f = false := fun off => stands_eq.trans (congrArg (· && _) off)
  have stands : ∀ x others, l.onLine = true → l.items = x :: others → s.itemStands f = true := fun x others on items => by
    rw [stands_eq, show s.client.requests.onLine = true from on, show s.client.requests.items = _ from items]; rfl
  rw [exec_ownPathAttemptEnd onLink path]
  refine ⟨fun room => ?_, fun full => ?_⟩
  · have not_full : s.link.queueFull = false := decide_eq_false (Nat.not_le.mpr room)
    have ends : s.ownPathEnd f = if s.itemStands f then (s.endAttempts.withQueue offered).accepted f else s.endAttempts.withQueue offered := by
      simp only [State.ownPathEnd, not_full]; rfl
    refine ⟨fun off => by rw [ends, left off]; rfl, fun x others on items => ⟨fun r sort queued => ?_, fun sort => ?_⟩⟩
    · rw [ends, if_pos (stands x others on items), State.accepted_request kind,
        Client.acceptHead_request (s.endAttempts.withQueue offered).client x others r items sort queued]
      rfl
    · rw [ends, if_pos (stands x others on items), State.accepted_request kind,
        Client.acceptHead_other (s.endAttempts.withQueue offered).client x others items sort]
      rfl
  · have is_full : s.link.queueFull = true := decide_eq_true full
    have ends : s.ownPathEnd f = if s.itemStands f then s.endAttempts.busied f else s.endAttempts := if_pos is_full
    refine ⟨fun off => by rw [ends, left off]; rfl, fun x others on items => ⟨fun below => ?_, ?_⟩⟩
    · rw [ends, if_pos (stands x others on items), State.busied_request (s := s.endAttempts) kind below]; rfl
    · intro r limit busy units c hc
      have ended : s.ownPathEnd f = _ := (ends.trans (if_pos (stands x others on items))).trans
        (State.busied_request_limit (s := s.endAttempts) kind limit items busy (homeBusyValue_eq _))
      have event : exec c s = .next (s.ownPathEnd f) := by
        rcases mem_two.mp hc with rfl | rfl
        · exact exec_ownPathAttemptEnd onLink path
        · exact exec_busyLimit_ownPath onLink path is_full (State.busyLimitNear_request kind (stands x others on items) limit)
      exact event.trans (congrArg Host.Outcome.next ended)

end Sys2Proof.Proofs
end

section
/-! SUPPORT. SUBMIT accepted, and the answers that reach the client engine: the statements O26 and O30 to O32. -/

namespace Sys2Proof.Machine

section
variable {s : State} {f : Frame} {op : Operation} {r : Request} {rest : List QueueItem}

/-! ### The answer at the head (R114) -/

/-- An answer frame whose status code names a status reaches the client engine. -/
theorem State.takeAnswer_of_status {status : AnswerStatus} (kind : f.kind = .answer op) (named : AnswerStatus.ofCode f.status = some status) :
    s.takeAnswer f = s.withClient (s.client.receive f.sender ⟨s.control.number, f.slot, f.tag, op, f.index, status, f.word⟩) := by
  simp only [State.takeAnswer, Frame.answer?, kind, named]
  rfl

theorem State.takeAnswer_of_no_status (unnamed : AnswerStatus.ofCode f.status = none) : s.takeAnswer f = s := by
  unfold State.takeAnswer Frame.answer?
  rw [unnamed]
  cases f.kind <;> rfl

/-- An answer that does not match the slot it names, or names no busy slot, is discarded. -/
theorem Client.receive_of_unmatched {c : Client} {sender : StationNum} {a : ImmediateEntry}
    (unmatched : ∀ r, (c.slot a.slot).use.busy? = some r → answerMatches sender a (c.slot a.slot).tag r = false) :
    c.receive sender a = c := by
  unfold Client.receive
  split
  · rfl
  · next r busy => rw [unmatched r busy]; rfl

/-- A matching answer settles its slot. -/
theorem State.Matches.exec_eq (matching : s.Matches f op r rest) {status : AnswerStatus} (named : AnswerStatus.ofCode f.status = some status) :
    exec .answerDispatched s = .next ((s.withQueue rest).withClient
      (s.client.settle ⟨s.control.number, f.slot, f.tag, op, f.index, status, f.word⟩)) := by
  have settles : s.client.receive f.sender ⟨s.control.number, f.slot, f.tag, op, f.index, status, f.word⟩ =
      s.client.settle ⟨s.control.number, f.slot, f.tag, op, f.index, status, f.word⟩ := by
    simp only [Client.receive, matching.busy, answerMatches, matching.tag, matching.index, matching.sender, decide_true, Bool.and_self, if_true]
  rw [exec_answerDispatched s f op rest matching.onLink matching.head matching.answer, State.takeAnswer_of_status matching.answer named]
  exact congrArg (fun c => Host.Outcome.next ((s.withQueue rest).withClient c)) settles

/-! ### The completions that answers map to (R113) -/

/-- Every completion status of a code up to 12 but LATE is the one an answer status of the same code maps to. -/
theorem CompletionStatus.answered (st : CompletionStatus) (code : st.code.toNat ≤ 12) (not_late : st.code.toNat ≠ 4) :
    ∃ a : AnswerStatus, a.completion = some st ∧ a.code.toNat = st.code.toNat := by
  cases st with
  | ok => exact ⟨.ok, rfl, rfl⟩
  | notReady => exact ⟨.notReady, rfl, rfl⟩
  | timeout => exact ⟨.expired, rfl, rfl⟩
  | cancelled => exact ⟨.withdrawn, rfl, rfl⟩
  | late => exact absurd rfl not_late
  | full => exact ⟨.full, rfl, rfl⟩
  | overflow => exact ⟨.overflow, rfl, rfl⟩
  | notHolder => exact ⟨.notHolder, rfl, rfl⟩
  | noWaiterRecord => exact ⟨.noWaiterRecord, rfl, rfl⟩
  | noHoldRecord => exact ⟨.noHoldRecord, rfl, rfl⟩
  | badObject => exact ⟨.badObject, rfl, rfl⟩
  | badRequest => exact ⟨.badRequest, rfl, rfl⟩
  | homeAbsent => exact ⟨.homeAbsent, rfl, rfl⟩
  | homeBusy => exact absurd code (by decide)
  | evicted => exact absurd code (by decide)

theorem completionValue_eq (st : CompletionStatus) (v : Word) :
    completionValue st v = if st.code.toNat = 2 ∨ st.code.toNat = 3 then 0 else v := by
  cases st <;> rfl

end

section
variable {s : State} {f : Frame} {op : Operation} {r : Request} {rest : List QueueItem} {status : AnswerStatus}

/-! ### Answers to a slot in CANCELLING (R116) -/

/-- The slot ends by its answer. -/
theorem State.Matches.ends (matching : s.Matches f op r rest) (use : (s.client.slot f.slot).use = .cancelling r)
    (named : AnswerStatus.ofCode f.status = some status) {st : CompletionStatus} {v : Word}
    (effect : cancelEffect r.operation op status f.word = .done st v) :
    exec .answerDispatched s = .next ((s.withQueue rest).withClient (s.client.ended f.slot r st v)) := by
  rw [matching.exec_eq named, ← Client.complete_eq_ended]
  simp only [Client.settle, use, effect]

/-- The answer is discarded. -/
theorem State.Matches.discards (matching : s.Matches f op r rest) (use : (s.client.slot f.slot).use = .cancelling r)
    (named : AnswerStatus.ofCode f.status = some status) (effect : cancelEffect r.operation op status f.word = .discard) :
    exec .answerDispatched s = .next (s.withQueue rest) := by
  rw [matching.exec_eq named]
  simp only [Client.settle, use, effect]
  rfl

/-- The units granted are to be given back. -/
theorem State.Matches.givesBack (matching : s.Matches f op r rest) (use : (s.client.slot f.slot).use = .cancelling r)
    (named : AnswerStatus.ofCode f.status = some status) {units : Word}
    (effect : cancelEffect r.operation op status f.word = .giveBack units) :
    exec .answerDispatched s = .next ((s.withQueue rest).withClient (s.client.gaveBack f.slot r units)) := by
  rw [matching.exec_eq named]
  simp only [Client.settle, use, effect]
  rfl

end

/-- The slot goes to RETURNING, its entry off the list and the return entry at the tail. -/
theorem Client.gaveBack_eq (c : Client) (n : SlotNum) (r : Request) (units : Word) : c.gaveBack n r units = { c with
    slots := c.slots.set n ⟨(c.slot n).tag, .returning r units⟩
    requests := { c.requests.without fun e => decide (e.slot = n) with
      items := (c.requests.without fun e => decide (e.slot = n)).items ++ [⟨n, .giveBack⟩] } } := by
  rw [← OutList.removeIf_eq_without]; rfl

/-! ### SUBMIT accepted (R103 to R105) -/

/-- The parameter registers hold the request that they are said to ask for. -/
theorem Port.Asks.submitRequest {p : Port} {r : Request} (asks : p.Asks r) : p.submitRequest = some r := by
  have operation : Operation.ofCode p.submitOperation = some r.operation := by
    rw [← Operation.ofCode_code r.operation, BitVec.eq_of_toNat_eq (asks.operation.1.trans p.submitOperation_toNat.symm)]
  have urgent : p.submitUrgent = r.urgent := asks.urgent.symm
  have priority : p.submitPriority = r.priority := Fin.ext (p.submitPriority_val.trans asks.priority.symm)
  have units : p.submitUnits = r.units := BitVec.eq_of_toNat_eq (p.submitUnits_toNat.trans asks.units.symm)
  have objectId : p.submitObject = r.objectId := Fin.ext (p.submitObject_val.trans asks.objectId.symm)
  have waitLimit : p.submitWaitLimit = r.waitLimit := asks.waitLimit.symm
  have word : p.submitWord = r.word := BitVec.eq_of_toNat_eq (p.submitWord_toNat.trans asks.word.symm)
  obtain ⟨_, allowed⟩ := asks.operation
  have given := asks.given
  simp only [Port.submitRequest, operation, objectId, priority, waitLimit, units, word, urgent]
  cases kind : r.operation with
  | acquire => simp only [← kind, given (.inl kind), if_true]
  | release => simp only [← kind, given (.inr kind), if_true]
  | post | take | query => simp only [← kind]
  | withdraw => exact absurd kind allowed

/-- The lowest-numbered FREE slot. -/
theorem Client.freeSlot_eq_some {c : Client} {n : SlotNum} (free : (c.slot n).use = .free) (lowest : ∀ m < n, (c.slot m).use ≠ .free) :
    c.freeSlot = some n := by
  cases found : c.freeSlot with
  | none => exact absurd free ((c.freeSlot_eq_none_iff.mp found) n)
  | some m =>
    obtain ⟨front, back, list, before⟩ : ∃ front back, allSlots = front ++ m :: back ∧ ∀ k ∈ front, (c.slot k).use ≠ .free := by
      have := (List.find?_eq_some_iff_append.mp found).2
      simpa using this
    have sorted : allSlots.Pairwise (· < ·) := List.pairwise_lt_finRange 32
    have listed := mem_allSlots n
    rw [list] at sorted listed
    rcases List.mem_append.mp listed with first | later
    · exact absurd free (before n first)
    · rcases List.mem_cons.mp later with same | after
      · rw [same]
      · have less := List.rel_of_pairwise_cons (List.pairwise_append.mp sorted).2.1 after
        exact absurd (Client.freeSlot_free found) (lowest m less)

theorem submitWord_eq (n : SlotNum) (tag : Tag) : submitWord n tag = BitVec.ofNat 16 (n.val + 256 * tag.toNat) := by
  apply BitVec.eq_of_toNat_eq
  have hn := n.isLt
  have ht := tag.isLt
  simp only [submitWord, toNat_fields, BitVec.toNat_ofNat, BitVec.toNat_ofFin]
  omega

/-- A slot that is taken and completed at once, with no entry of its on the request list. -/
theorem Client.takeSlot_complete {c : Client} {n : SlotNum} (free : (c.slot n).use = .free) (sound : c.RequestsSound) (r : Request)
    (st : CompletionStatus) (v : Word) : (c.takeSlot n (.queued r)).complete n r st v = { c with
      slots := c.slots.set n ⟨(c.slot n).tag + 1, .done r st v⟩
      ring := c.ring ++ [⟨n, (c.slot n).tag + 1, r.operation, r.objectId, st, v⟩] } := by
  have no_entry : ∀ e ∈ c.requests.items, decide (e.slot = n) = false := fun e he => decide_eq_false fun same => by
    have belongs := sound.belongs e he
    rw [same, free] at belongs
    cases h : e.sort <;> rw [h] at belongs <;> exact nomatch belongs
  have tag : ((c.takeSlot n (.queued r)).slot n) = ⟨(c.slot n).tag + 1, .queued r⟩ := (c.slot_takeSlot n n _).trans (if_pos rfl)
  have kept : c.requests.removeIf (fun e => decide (e.slot = n)) = c.requests := OutList.removeIf_eq_self _ _ no_entry
  have dropped : (c.takeSlot n (.queued r)).dropEntry n = c.takeSlot n (.queued r) := by
    simp only [Client.dropEntry, Client.takeSlot, kept]
  simp only [Client.complete, dropped, Client.setUse, tag]
  simp only [Client.takeSlot, Vector.set_set]

/-- A SUBMIT that passes its checks takes the slot. -/
theorem State.submit_of_slot {s : State} {r : Request} {n : SlotNum} (active : s.control.mode = .active)
    (request : s.port.submitRequest = some r) (slot : s.client.freeSlot = some n) :
    s.submit = (s.submitOn n r).told 6 0 (BitVec.ofNat 16 (n.val + 256 * ((s.client.slot n).tag + 1).toNat)) 0 := by
  simp only [State.submit, active, request, slot]
  rw [submitWord_eq]
  exact State.respond_eq_told _ 6 .ok _ _ (by decide)

end Sys2Proof.Machine

/-! ### The statements -/

namespace Sys2Proof.Proofs

open Sys2Proof Sys2Proof.Machine

/-- Settles O30: the four ways in which an answer matches no busy slot or names no status. -/
theorem unmatchedAnswersAreDiscarded : Obligations.UnmatchedAnswersAreDiscarded := by
  intro s f op rest onLink head kind unmatched
  rw [exec_answerDispatched s f op rest onLink head kind]
  cases named : AnswerStatus.ofCode f.status with
  | none => rw [State.takeAnswer_of_no_status named]
  | some status =>
    rw [State.takeAnswer_of_status kind named, Client.receive_of_unmatched]
    · rfl
    · intro r busy
      have busy : (s.client.slot f.slot).use.busy? = some r := busy
      refine Bool.eq_false_iff.mpr fun matching => ?_
      simp only [answerMatches, Bool.and_eq_true, decide_eq_true_eq] at matching
      obtain ⟨⟨tag, index⟩, sender⟩ := matching
      rcases unmatched with idle | other_tag | ⟨q, busy_q, other⟩ | code
      · rw [idle] at busy; exact nomatch busy
      · exact other_tag tag
      · rw [busy] at busy_q
        cases busy_q
        exact other.elim (absurd index) (absurd sender)
      · rw [AnswerStatus.ofCode_none f.status code] at named; exact nomatch named

/-- Settles O31: the status maps to one completion, MISSED to none. -/
theorem answersToSentSlots : Obligations.AnswersToSentSlots := by
  intro s f op r rest matching code
  refine ⟨fun queued => ?_, fun sent => ⟨fun other => ?_, fun st same not_missed st_code => ?_⟩⟩
  · obtain ⟨a, named, _⟩ := AnswerStatus.ofCode_of_le f.status code
    rw [matching.exec_eq named]
    simp only [Client.settle, queued]
    rfl
  · obtain ⟨a, named, a_code⟩ := AnswerStatus.ofCode_of_le f.status code
    rw [matching.exec_eq named]
    have unchanged : s.client.settle ⟨s.control.number, f.slot, f.tag, op, f.index, a, f.word⟩ = s.client := by
      simp only [Client.settle, sent]
      cases mapped : a.completion with
      | none => rfl
      | some st =>
        refine if_neg (other.elim id fun missed => ?_)
        have : a = .missed := by
          rw [missed] at named; exact (Option.some.inj named).symm
        rw [this] at mapped; exact nomatch mapped
    rw [unchanged]; rfl
  · have not_four : f.status.toNat ≠ 4 := fun h => not_missed (BitVec.eq_of_toNat_eq h)
    obtain ⟨a, mapped, a_code⟩ := st.answered (by omega) (by omega)
    have named : AnswerStatus.ofCode f.status = some a := by
      rw [← BitVec.eq_of_toNat_eq (a_code.trans st_code)]; exact AnswerStatus.ofCode_code a
    have value : completionValue st f.word = if f.status = 2 ∨ f.status = 3 then 0 else f.word := by
      rw [completionValue_eq, st_code]
      simp only [BitVec.toNat_eq]
      rfl
    rw [matching.exec_eq named, ← Client.complete_eq_ended]
    simp only [Client.settle, sent, mapped, same, if_true, value]

/-- Settles O32: one clause for each row of the table of R116 (`cancelEffect`). -/
theorem answersToCancelledSlots : Obligations.AnswersToCancelledSlots := by
  intro s f op r rest matching code ends
  refine ⟨fun cancelling => ?_, fun units returning => ?_⟩
  · have named : ∀ {c : BitVec 4} {a : AnswerStatus}, f.status = c → AnswerStatus.ofCode c = some a → AnswerStatus.ofCode f.status = some a :=
      fun same h => same ▸ h
    refine ⟨fun status => ?_, fun status => ?_, fun status take => ?_, fun status acquire => ?_, fun status => ?_, fun status operation => ?_,
      fun status operation => ?_, fun operation => ⟨fun status => ?_, fun status => ?_, fun status => ?_⟩, fun other => ?_⟩
    · exact matching.ends cancelling (named status (a := .withdrawn) rfl) rfl
    · exact matching.ends cancelling (named status (a := .expired) rfl) rfl
    · exact matching.ends cancelling (named status (a := .ok) rfl) (by rw [take]; rfl)
    · rw [matching.givesBack cancelling (named status (a := .ok) rfl) (by rw [acquire]; rfl), Client.gaveBack_eq]
    · exact matching.discards cancelling (named status (a := .missed) rfl) rfl
    · exact matching.ends cancelling (named status (a := .homeAbsent) rfl) (if_pos operation)
    · exact matching.ends cancelling (named status (a := .badObject) rfl) (if_pos operation)
    · exact matching.ends cancelling (named status (a := .noWaiterRecord) rfl) (if_pos operation)
    · exact matching.ends cancelling (named status (a := .noHoldRecord) rfl) (if_pos operation)
    · exact matching.ends cancelling (named status (a := .badRequest) rfl) (if_pos operation)
    · rcases other with listed | ⟨status, not_take, not_acquire⟩ | ⟨status | status, not_own, not_withdraw⟩ | ⟨listed, not_own⟩
      · simp only [List.mem_cons, List.not_mem_nil, or_false] at listed
        rcases listed with status | status | status | status
        · exact matching.discards cancelling (named status (a := .notReady) rfl) rfl
        · exact matching.discards cancelling (named status (a := .full) rfl) rfl
        · exact matching.discards cancelling (named status (a := .overflow) rfl) rfl
        · exact matching.discards cancelling (named status (a := .notHolder) rfl) rfl
      · refine matching.discards cancelling (named status (a := .ok) rfl) ?_
        cases op with
        | take => exact absurd rfl not_take
        | acquire => exact absurd rfl not_acquire
        | release | post | query | withdraw => rfl
      · exact matching.discards cancelling (named status (a := .badObject) rfl) (if_neg (not_or.mpr ⟨not_own, not_withdraw⟩))
      · exact matching.discards cancelling (named status (a := .homeAbsent) rfl) (if_neg (not_or.mpr ⟨not_own, not_withdraw⟩))
      · simp only [List.mem_cons, List.not_mem_nil, or_false] at listed
        rcases listed with status | status | status
        · exact matching.discards cancelling (named status (a := .noWaiterRecord) rfl) (if_neg not_own)
        · exact matching.discards cancelling (named status (a := .noHoldRecord) rfl) (if_neg not_own)
        · exact matching.discards cancelling (named status (a := .badRequest) rfl) (if_neg not_own)
  · obtain ⟨a, named, _⟩ := AnswerStatus.ofCode_of_le f.status code
    refine ⟨fun release => ?_, fun other => ?_⟩
    · change exec _ _ = _
      rw [matching.exec_eq named, ← Client.complete_eq_ended]
      simp only [Client.settle, returning, release, if_true]
    · rw [matching.exec_eq named]
      simp only [Client.settle, returning, other, if_false]
      rfl

/-- Settles O26: the checks passed, the roster of the home decides between the two ends. -/
theorem submitTakesLowestFreeSlot : Obligations.SubmitTakesLowestFreeSlot := by
  intro s r n running active asks free lowest sound tag first
  rw [exec_submit s running, State.submit_of_slot active asks.submitRequest (Client.freeSlot_eq_some free lowest)]
  refine ⟨fun stays => ?_, fun other gone => ?_⟩
  · have queued : s.submitOn n r = _ := if_neg fun ⟨other, gone⟩ => stays.elim other fun present => present gone
    rw [queued]; rfl
  · have done : s.submitOn n r = _ := if_pos ⟨other, gone⟩
    rw [done, Client.takeSlot_complete free sound]; rfl

end Sys2Proof.Proofs
end

section
/-! SUPPORT. Frames as bits, contention, and what a receiver does: the statements O34 to O37 and O40. -/

namespace Sys2Proof.Machine

section
variable {s : State} {f : Frame}

/-! ### Frames as bits (R129, R189) -/

theorem extract_one (p : BitVec 104) : p.extractLsb' 41 1 = BitVec.ofBool (p.getLsbD 41) := by
  apply BitVec.eq_of_getLsbD_eq
  intro i hi
  have : i = 0 := by omega
  subst this
  simp

/-- The fields of a well-formed frame's bits are those of the frame. -/
theorem Frame.ofPayload_payload (formed : f.wellFormed = true) : Frame.ofPayload f.payload = some f := by
  obtain ⟨cls, sender, dest, kind, index, slot, tag, priority, waitLimit, units, urgent, word, status, subject⟩ := f.payload_fields
  have urgent : f.payload.getLsbD 41 = f.urgent := by
    rw [extract_one] at urgent
    simpa using congrArg (fun b => b.getLsbD 0) urgent
  have formed : f.kind.takesDest f.dest = true := formed
  simp only [Frame.ofPayload, cls, sender, dest, kind, index, slot, tag, priority, waitLimit, units, urgent, word, status, subject,
    FrameKind.ofCodes_codes, Destination.ofCode_code, formed, if_true]

/-- Bits whose fields are a frame's are that frame's bits. -/
theorem Frame.payload_of_ofPayload {p : BitVec 104} (h : Frame.ofPayload p = some f) : f.payload = p := by
  obtain ⟨_, kind, dest, fields⟩ := Frame.ofPayload_eq_some p f h
  obtain ⟨cls_code, kind_code⟩ := FrameKind.codes_of_ofCodes _ _ _ kind
  have dest_code := Destination.code_of_ofCode _ _ dest
  have sender := congrArg Frame.sender fields
  have index := congrArg Frame.index fields
  have slot := congrArg Frame.slot fields
  have tag := congrArg Frame.tag fields
  have priority := congrArg Frame.priority fields
  have waitLimit := congrArg Frame.waitLimit fields
  have units := congrArg Frame.units fields
  have urgent := congrArg Frame.urgent fields
  have word := congrArg Frame.word fields
  have status := congrArg Frame.status fields
  have subject := congrArg Frame.subject fields
  clear fields h kind dest
  rw [Frame.payload, cls_code, kind_code, dest_code, sender, index, slot, tag, priority, waitLimit, units, urgent, word, status, subject,
    ← extract_one]
  exact payload_of_fields p

/-! ### Contention (R131, R190) -/

/-- A station has lost exactly when it drives a 1 and the line shows a 0 in the first bit in which they differ. -/
theorem outranks_iff (line mine : BitVec 7) :
    outranks line mine = true ↔
      ∃ i < 7, (∀ j < i, line.getMsbD j = mine.getMsbD j) ∧ mine.getMsbD i = true ∧ line.getMsbD i = false := by
  rw [outranks, decide_eq_true_iff, toNat_lt_iff_first_difference]

/-- The lower leading field is that of the lower class, then of the lower sender number. -/
theorem Frame.leading_lt_iff (f g : Frame) :
    f.leading.toNat < g.leading.toNat ↔
      f.kind.classCode < g.kind.classCode ∨ f.kind.classCode = g.kind.classCode ∧ f.sender < g.sender := by
  have := f.sender.isLt
  have := g.sender.isLt
  rw [f.leading_toNat, g.leading_toNat, BitVec.lt_def, ← BitVec.toNat_inj, Fin.lt_def]
  omega

theorem exec_lossOfArbitration {line : BitVec 7} (onLink : s.onLink = true) (sends : s.link.transmitter = .line f) :
    exec (.lossOfArbitration line) s = whenever (outranks line f.leading) s.endAttempts s := by
  simp only [exec, execLossOfArbitration, sends, Transmitter.lineFrame, onLink, Bool.true_and]

/-! ### What the receiver decides (R139 to R143) -/

theorem exec_frameCutShort (onLink : s.onLink = true) (listens : ∀ f, s.link.transmitter ≠ .line f) (free : s.link.placeHeld = false) :
    exec .frameCutShort s = .next (s.driving none) := by
  have idle : s.link.transmitter.lineFrame = none := by
    cases sends : s.link.transmitter with
    | line f => exact absurd sends (listens f)
    | free => rfl
    | ownPath f => rfl
  exact whenever_of (by simp only [State.receiving, onLink, idle, free]; rfl) _ _

theorem State.hear_none {bits : BitVec 120} {whole : Bool} (unheard : whole = false ∨ Frame.parse bits = none) :
    s.hear bits whole = s.driving none := by
  unfold State.hear
  rcases unheard with rfl | bad
  · rfl
  · rw [bad]; cases whole <;> rfl

theorem State.hear_own {bits : BitVec 120} (heard : Frame.parse bits = some f) (own : f.sender = s.control.number) :
    s.hear bits true = (s.driving none).evict .duplicate := by
  unfold State.hear
  simp only [heard, own, if_true]
  rfl

theorem State.hear_other {bits : BitVec 120} (heard : Frame.parse bits = some f) (other : f.sender ≠ s.control.number) :
    s.hear bits true = s.decideFrame f := by
  unfold State.hear
  simp only [heard, if_true, if_neg other]

/-- The report makes an UNKNOWN sender PRESENT. -/
theorem State.report_eq (other : f.sender ≠ s.control.number) :
    s.report f = if s.rosterOf f.sender = .unknown ∧ f.kind ≠ .notice .leave then { s with roster := s.roster.set f.sender .present } else s := by
  unfold State.report State.mark
  rw [if_neg other]
  by_cases leave : f.kind = .notice .leave <;> simp [leave]

/-- The report neither finds nor makes a sender DEPARTED. -/
theorem State.report_departed : (s.report f).rosterOf f.sender = .departed ↔ s.rosterOf f.sender = .departed := by
  unfold State.report
  split
  · next cond =>
    rw [State.rosterOf_mark, cond.2]
    by_cases own : f.sender = s.control.number <;> simp [own]
  · rfl

theorem State.queueFull_iff : s.link.queueFull = true ↔ 16 ≤ s.link.queue.length := decide_eq_true_iff

/-! ### The place held (R137) -/

theorem settlePlace_of_frames (busy : Bool) (q : List QueueItem) (frames : ∀ x ∈ q, x.isFrame = true) : settlePlace busy q = q := by
  induction q with
  | nil => rfl
  | cons x q ih =>
    have rest := ih fun y hy => frames y (List.mem_cons_of_mem _ hy)
    cases x with
    | frame g => rw [settlePlace, rest]
    | place g => exact nomatch frames _ List.mem_cons_self

theorem settlePlace_append (busy : Bool) (pre post : List QueueItem) :
    settlePlace busy (pre ++ post) = settlePlace busy pre ++ settlePlace busy post := by
  induction pre with
  | nil => rfl
  | cons x pre ih =>
    cases x with
    | frame g => simp only [List.cons_append, settlePlace, ih]
    | place g => cases busy <;> simp [settlePlace, ih]

/-- The one place held is settled and the frames about it stay. -/
theorem settlePlace_between (busy : Bool) (pre post : List QueueItem) (frames : ∀ x ∈ pre ++ post, x.isFrame = true) :
    settlePlace busy (pre ++ .place f :: post) = pre ++ if busy then post else .frame f :: post := by
  have front := settlePlace_of_frames busy pre fun x hx => frames x (List.mem_append_left _ hx)
  have back := settlePlace_of_frames busy post fun x hx => frames x (List.mem_append_right _ hx)
  rw [settlePlace_append, front, settlePlace, back]

theorem exec_broadcastPlaceSettled {pre post : List QueueItem} (busy : Bool) (onLink : s.onLink = true)
    (queue : s.link.queue = pre ++ .place f :: post) :
    exec (.broadcastPlaceSettled busy) s = .next ((s.withQueue (settlePlace busy (pre ++ .place f :: post))).driving none) := by
  have held : s.link.placeHeld = true := by simp [Link.placeHeld, queue, QueueItem.isFrame]
  rw [← queue]
  exact whenever_of (by rw [onLink, held]; rfl) _ _

end

end Sys2Proof.Machine

/-! ### The statements -/

namespace Sys2Proof.Proofs

open Sys2Proof Sys2Proof.Machine

/-- Settles O34: the leading fields are numbers, of which the lower shows the first 0. -/
theorem lowerLeadingFieldGoesOn : Obligations.LowerLeadingFieldGoesOn := by
  refine ⟨fun f g => ?_, fun s g line onLink sends => ⟨fun lost => ?_, fun goes => ?_⟩⟩
  · rw [toNat_lt_iff_first_difference, Frame.leading_lt_iff]
  · rw [exec_lossOfArbitration onLink sends, (outranks_iff line g.leading).mpr lost]
    rfl
  · rw [exec_lossOfArbitration onLink sends, Bool.eq_false_iff.mpr (mt (outranks_iff line g.leading).mp goes)]
    rfl

/-- Settles O35. -/
theorem framesNotHeard : Obligations.FramesNotHeard := fun _ onLink listens free =>
  ⟨exec_frameCutShort onLink listens free, fun bits whole unheard => by
    rw [exec_frameHeard _ bits whole onLink listens free, State.hear_none unheard]⟩

/-- Settles O36: a unicast is reported, then decided by its destination, the sender's entry and the room. -/
theorem unicastDecision : Obligations.UnicastDecision := by
  intro s bits f n onLink listens free heard other dest s1
  have not_notice : f.kind ≠ .notice .leave := by
    have formed : f.kind.takesDest f.dest = true := Frame.wellFormed_of_parse bits f heard
    intro notice
    rw [notice, dest] at formed
    exact nomatch formed
  have reported : s.report f = s1 := by
    rw [State.report_eq other]
    exact ite_congr (propext (and_iff_left not_notice)) (fun _ => rfl) fun _ => rfl
  have number : s1.control.number = s.control.number := by rw [← reported, State.report_control]
  have mode : s1.control.mode = s.control.mode := by rw [← reported, State.report_control]
  have sender : f.sender ≠ s1.control.number := by rwa [number]
  have entry : s1.rosterOf f.sender = .departed ↔ s.rosterOf f.sender = .departed := by rw [← reported, State.report_departed]
  have link : s1.link = s.link := by rw [← reported, State.report_link]
  have full : s1.link.queueFull = true ↔ 16 ≤ s.link.queue.length := by rw [State.queueFull_iff, link]
  have decided : s.decideFrame f = if n = s.control.number then s1.decideUnicast f else s1.driving none := by
    unfold State.decideFrame
    simp only [reported, dest]
    rfl
  clear_value s1
  rw [exec_frameHeard s bits true onLink listens free, State.hear_other heard other, decided]
  unfold State.decideUnicast
  rw [mode]
  refine ⟨fun silent => ?_, fun own active => ?_⟩
  · rcases silent with elsewhere | joining
    · rw [if_neg elsewhere]
    · rw [if_pos joining]; split <;> rfl
  · rw [if_pos own, if_neg active]
    refine ⟨fun departed => ?_, fun stays no_room => ?_, fun stays room => ?_⟩
    · rw [if_pos ⟨sender, entry.mpr departed⟩]; rfl
    · rw [if_neg fun h => stays (entry.mp h.2), if_pos (full.mpr no_room)]; rfl
    · rw [if_neg fun h => stays (entry.mp h.2), if_neg (mt full.mp (by omega)), ← link]; rfl

/-- Settles O37: a notice is reported and a place is held when there is room; the settlement changes the one place. -/
theorem broadcastDecisionAndPlace : Obligations.BroadcastDecisionAndPlace := by
  refine ⟨fun s bits f onLink listens free heard other dest => ?_, fun s pre post f onLink queue frames => ⟨?_, ?_⟩⟩
  · intro s1
    have reported : s.report f = s1 := State.report_eq other
    have link : s1.link = s.link := by rw [← reported, State.report_link]
    have full : s1.link.queueFull = true ↔ 16 ≤ s.link.queue.length := by rw [State.queueFull_iff, link]
    have decided : s.decideFrame f = s1.decideBroadcast f := by
      unfold State.decideFrame
      simp only [reported, dest]
    clear_value s1
    rw [exec_frameHeard s bits true onLink listens free, State.hear_other heard other, decided]
    unfold State.decideBroadcast
    refine ⟨fun no_room => ?_, fun room => ?_⟩
    · rw [if_pos (full.mpr no_room)]; rfl
    · rw [if_neg (mt full.mp (by omega)), ← link]; rfl
  · rw [exec_broadcastPlaceSettled false onLink queue, settlePlace_between false pre post frames]; rfl
  · rw [exec_broadcastPlaceSettled true onLink queue, settlePlace_between true pre post frames]; rfl

/-- Settles O40: each field is found at its place, and the 120 bits are their fields put together. -/
theorem frameBitsRoundTrip : Obligations.FrameBitsRoundTrip := by
  refine ⟨fun f formed => ?_, fun bits f heard => ?_⟩
  · obtain ⟨check, payload⟩ := f.encode_parts
    rw [Frame.parse, check, payload, if_pos rfl, Frame.ofPayload_payload formed]
  · refine ⟨Frame.wellFormed_of_parse bits f heard, ?_⟩
    unfold Frame.parse at heard
    split at heard
    · next check => rw [Frame.encode, Frame.payload_of_ofPayload heard, ← check, bits_of_parts]
    · exact nomatch heard

end Sys2Proof.Proofs
end

section
/-! SUPPORT. The frame that begins, and the outcomes of an attempt on the head of the notice list: the statements O33 and O38. -/

namespace Sys2Proof.Machine

section
variable {s : State} {f : Frame}

/-! ### The attempt that begins (R130, R133, R144) -/

theorem exec_frameBegin (onLink : s.onLink = true) (idle : s.link.transmitter = .free) (chosen : s.chosen = some f) :
    exec .frameBegin s = .next (s.beginFrame f) := by
  simp only [exec, execFrameBegin, chosen]
  exact whenever_of (by rw [onLink, idle]; rfl) _ _

theorem exec_frameBegin_none (nothing : s.chosen = none) : exec .frameBegin s = .next s := by
  simp only [exec, execFrameBegin, nothing]

/-- A frame to the station itself goes by the path to itself. -/
theorem State.beginFrame_path (own : f.dest = .station s.control.number) :
    s.beginFrame f = { s.beginOn f with link := { (s.beginOn f).link with transmitter := .ownPath f } } :=
  if_pos (decide_eq_true own)

/-- A frame for the line waits while a broadcast's acknowledgement field is on it. -/
theorem State.beginFrame_held (other : f.dest ≠ .station s.control.number) (held : s.link.placeHeld = true) : s.beginFrame f = s :=
  (if_neg (mt of_decide_eq_true other)).trans (if_pos held)

theorem State.beginFrame_line (other : f.dest ≠ .station s.control.number) (clear : s.link.placeHeld = false) :
    s.beginFrame f = { s.beginOn f with link := { (s.beginOn f).link with transmitter := .line f, driven := none } } :=
  (if_neg (mt of_decide_eq_true other)).trans (if_neg (by rw [clear]; exact nofun))

theorem State.beginOn_notice {k : NoticeKind} (kind : f.kind = .notice k) :
    s.beginOn f = { s with link := { s.link with notices := { s.link.notices with onLine := true } } } := by
  simp only [State.beginOn, kind, OutList.beginAttempt]

theorem State.beginOn_answer {op : Operation} (kind : f.kind = .answer op) :
    s.beginOn f = { s with home := { s.home with answers := { s.home.answers with onLine := true } } } := by
  simp only [State.beginOn, kind, OutList.beginAttempt]

theorem State.beginOn_request {op : Operation} (kind : f.kind = .request op) :
    s.beginOn f = { s with client := { s.client with requests := { s.client.requests with onLine := true } } } := by
  simp only [State.beginOn, kind, OutList.beginAttempt]

/-! ### The choice (R133) -/

theorem State.chosen_notice {x : Notice} {rest : List Notice} (notices : s.link.notices.items = x :: rest) :
    s.chosen = some (x.toFrame s.control.number) := by
  simp only [State.chosen, notices]

theorem State.chosen_answer {x : AnswerItem} {rest : List AnswerItem} (notices : s.link.notices.items = [])
    (answers : s.home.answers.items = x :: rest) : s.chosen = some (x.toFrame s.control.number) := by
  simp only [State.chosen, notices, answers]

theorem State.chosen_request {x : RequestEntry} {rest : List RequestEntry} (notices : s.link.notices.items = [])
    (answers : s.home.answers.items = []) (requests : s.client.requests.items = x :: rest) : s.chosen = s.entryFrame x := by
  simp only [State.chosen, notices, answers, requests]

theorem State.chosen_none (notices : s.link.notices.items = []) (answers : s.home.answers.items = [])
    (requests : s.client.requests.items = []) : s.chosen = none := by
  simp only [State.chosen, notices, answers, requests]

/-! ### The frame of an entry (R106, R128) -/

section
variable {x : RequestEntry} {r : Request}

/-- A slot's own request carries the fields of its operation. -/
theorem State.frameOf_request (sort : x.sort = .request) :
    s.FrameOf x r (r.toFrame s.control.number x.slot (s.client.slot x.slot).tag) := by
  have withdraw : x.sort ≠ .withdraw := by rw [sort]; exact nofun
  have giveBack : x.sort ≠ .giveBack := by rw [sort]; exact nofun
  have fields : (r.toFrame s.control.number x.slot (s.client.slot x.slot).tag) =
      ⟨.request r.operation, s.control.number, .station (homeOf r.objectId), indexOf r.objectId, x.slot, (s.client.slot x.slot).tag,
        if r.operation = .acquire ∨ r.operation = .take then r.priority else 0,
        if r.operation = .acquire ∨ r.operation = .take then r.waitLimit else 0,
        if r.operation = .acquire ∨ r.operation = .release then r.units else 0,
        if r.operation = .post then r.urgent else false, if r.operation = .post then r.word else 0, 0, 0⟩ := by
    unfold Request.toFrame
    cases operation : r.operation <;> rfl
  rw [fields]
  exact
    { sender := rfl, dest := rfl, index := rfl, slot := rfl, tag := rfl, unused := ⟨rfl, rfl⟩
      request := fun _ => ⟨rfl, rfl, rfl, rfl, rfl, rfl⟩
      withdraw := fun h => absurd h withdraw
      giveBack := fun _ h => absurd h giveBack }

theorem State.frameOf_withdraw (sort : x.sort = .withdraw) :
    s.FrameOf x r (r.withdrawFrame s.control.number x.slot (s.client.slot x.slot).tag) where
  sender := rfl
  dest := rfl
  index := rfl
  slot := rfl
  tag := rfl
  unused := ⟨rfl, rfl⟩
  request h := nomatch sort.symm.trans h
  withdraw _ := ⟨rfl, rfl, rfl, rfl, rfl, rfl⟩
  giveBack _ h := nomatch sort.symm.trans h

/-- A value of at most 255 fits the units field. -/
theorem returnUnits_eq {v : Word} (fits : v.toNat ≤ 255) : returnUnits v = BitVec.ofNat 8 v.toNat :=
  (if_pos (by omega)).trans (BitVec.ofNat_toNat 8 v).symm

theorem State.frameOf_giveBack (sort : x.sort = .giveBack) :
    s.FrameOf x r (r.returnFrame s.control.number x.slot (s.client.slot x.slot).tag (homeBusyValue (s.client.slot x.slot).use)) where
  sender := rfl
  dest := rfl
  index := rfl
  slot := rfl
  tag := rfl
  unused := ⟨rfl, rfl⟩
  request h := nomatch sort.symm.trans h
  withdraw h := nomatch sort.symm.trans h
  giveBack v _ returning fits := by
    rw [returning]
    exact ⟨rfl, returnUnits_eq fits, rfl, rfl, rfl, rfl⟩

/-- The entry of a busy slot has its frame. -/
theorem State.entryFrame_of_busy (busy : (s.client.slot x.slot).use.busy? = some r) : ∃ g, s.entryFrame x = some g ∧ s.FrameOf x r g := by
  simp only [State.entryFrame, busy]
  cases sort : x.sort with
  | request => exact ⟨_, rfl, State.frameOf_request sort⟩
  | withdraw => exact ⟨_, rfl, State.frameOf_withdraw sort⟩
  | giveBack => exact ⟨_, rfl, State.frameOf_giveBack sort⟩

end

/-! ### Outcomes on the head of the notice list (R138, R175, R176, R180) -/

section
variable {k : NoticeKind} {x : Notice} {rest : List Notice}

theorem State.itemStands_notice (kind : f.kind = .notice k) (onLine : s.link.notices.onLine = true)
    (items : s.link.notices.items = x :: rest) : s.itemStands f = true := by
  simp only [State.itemStands, kind, onLine, items]
  rfl

theorem State.broadcastOutcome_delivered (stands : s.itemStands f = true) :
    s.broadcastOutcome f false = s.endAttempts.noticeDelivered := if_pos stands

theorem State.broadcastOutcome_busy (stands : s.itemStands f = true) (below : s.link.notices.busyCount + 1 < 64) :
    s.broadcastOutcome f true = { s.endAttempts with link := { s.endAttempts.link with notices := s.endAttempts.link.notices.countBusy } } :=
  (if_pos stands).trans (if_neg (mt of_decide_eq_true (Nat.not_le.mpr below)))

theorem State.broadcastOutcome_limit (stands : s.itemStands f = true) (limit : s.link.notices.busyCount = 63) :
    s.broadcastOutcome f true = s.endAttempts.noticeLimit :=
  (if_pos stands).trans (if_pos (OutList.busyReachesLimit_of limit))

/-- The last BUSY of a notice is an event of its own (R138). -/
theorem exec_busyLimit_notice (onLink : s.onLink = true) (line : s.link.transmitter = .line f) (kind : f.kind = .notice k)
    (stands : s.itemStands f = true) (limit : s.link.notices.busyCount = 63) :
    exec .busyLimit s = .next (s.broadcastOutcome f true) := by
  have reaches := OutList.busyReachesLimit_of limit
  have notice : f.isNotice = true := by simp only [Frame.isNotice, kind]
  simp only [exec, execBusyLimit, line, onLink, State.busyLimitNear, kind, stands, reaches, notice, Bool.and_self, whenever_true, if_true]

theorem State.noticeDelivered_join (items : s.link.notices.items = .join :: rest) : s.noticeDelivered = s.joinDelivered := by
  simp only [State.noticeDelivered, items, List.head?_cons]

theorem State.noticeDelivered_leave (items : s.link.notices.items = .leave :: rest) : s.noticeDelivered = s.leaveEnded := by
  simp only [State.noticeDelivered, items, List.head?_cons]

theorem State.noticeDelivered_depart {n : StationNum} (items : s.link.notices.items = .depart n :: rest) :
    s.noticeDelivered = { s with link := { s.link with notices := s.link.notices.dropHead } } := by
  simp only [State.noticeDelivered, items, List.head?_cons]

theorem State.noticeLimit_join (items : s.link.notices.items = .join :: rest) : s.noticeLimit = s.joinFailed := by
  simp only [State.noticeLimit, items, List.head?_cons]

theorem State.noticeLimit_leave (items : s.link.notices.items = .leave :: rest) : s.noticeLimit = s.leaveEnded := by
  simp only [State.noticeLimit, items, List.head?_cons]

theorem State.noticeLimit_depart {n : StationNum} (items : s.link.notices.items = .depart n :: rest) :
    s.noticeLimit = { s with link := { s.link with notices := s.link.notices.dropHead } } := by
  simp only [State.noticeLimit, items, List.head?_cons]

theorem OutList.dropHead_of {α : Type} {l : OutList α} {x : α} {rest : List α} (items : l.items = x :: rest) :
    l.dropHead = ⟨rest, 0, 0, false⟩ := by
  rw [OutList.dropHead, items, List.tail_cons]

/-- The end of the leave sequence after an attempt. -/
theorem State.leaves_leaveEnded : s.Leaves s.endAttempts.leaveEnded where
  home := s.home.renewed_restart
  answers := rfl
  link := rfl
  roster := State.rosterOf_of_unknown rfl
  control := rfl
  client := rfl
  port := rfl
  pending := rfl

theorem State.failsToJoin_joinFailed : s.FailsToJoin s.endAttempts.joinFailed :=
  ⟨rfl, rfl, rfl, rfl, rfl, rfl, rfl⟩

end

end

end Sys2Proof.Machine

/-! ### The statements -/

namespace Sys2Proof.Proofs

open Sys2Proof Sys2Proof.Machine

/-- Settles O33: the first list that is not empty gives the frame, and the place held keeps it off the line only. -/
theorem frameBeginChooses : Obligations.FrameBeginChooses := by
  intro s onLink idle
  refine ⟨fun x rest notices => ?_, fun x rest notices answers other => ?_, fun x rest r notices answers requests busy => ?_,
    fun notices answers requests => exec_frameBegin_none (State.chosen_none notices answers requests)⟩
  · obtain ⟨k, kind⟩ := x.toFrame_kind s.control.number
    have all : (x.toFrame s.control.number).dest ≠ .station s.control.number := by rw [x.toFrame_dest]; exact nofun
    rw [exec_frameBegin onLink idle (State.chosen_notice notices)]
    refine ⟨fun held => by rw [State.beginFrame_held all held], fun clear => ⟨x.toFrame s.control.number, ?_, ?_⟩⟩
    · rw [State.beginFrame_line all clear, State.beginOn_notice kind]
    · cases x with
      | join => exact ⟨rfl, fun _ => ⟨rfl, rfl⟩, nofun, nofun⟩
      | leave => exact ⟨rfl, nofun, fun _ => ⟨rfl, rfl⟩, nofun⟩
      | depart m =>
        refine ⟨rfl, nofun, nofun, fun n named => ?_⟩
        cases named
        exact ⟨rfl, rfl⟩
  · have elsewhere : (x.toFrame s.control.number).dest ≠ .station s.control.number := fun h => other (Destination.station.inj h)
    rw [exec_frameBegin onLink idle (State.chosen_answer notices answers)]
    refine ⟨fun held => by rw [State.beginFrame_held elsewhere held], fun clear => ?_⟩
    rw [State.beginFrame_line elsewhere clear, State.beginOn_answer rfl]
    rfl
  · obtain ⟨g, chosen, fields⟩ := State.entryFrame_of_busy busy
    obtain ⟨op, kind⟩ := State.entryFrame_request chosen
    rw [exec_frameBegin onLink idle ((State.chosen_request notices answers requests).trans chosen)]
    refine ⟨fun own => ⟨g, fields, ?_⟩, fun other => ?_⟩
    · rw [State.beginFrame_path (by rw [fields.dest, own]), State.beginOn_request kind]
    · have elsewhere : g.dest ≠ .station s.control.number := by
        rw [fields.dest]
        exact fun h => other (Destination.station.inj h)
      refine ⟨fun held => by rw [State.beginFrame_held elsewhere held], fun clear => ⟨g, fields, ?_⟩⟩
      rw [State.beginFrame_line elsewhere clear, State.beginOn_request kind]

/-- Settles O38: the head notice decides what its delivery and its 64th BUSY do. -/
theorem noticeAttemptOutcomes : Obligations.NoticeAttemptOutcomes := by
  intro s f k x rest onLink line kind onLine items dropped
  have stands := State.itemStands_notice kind onLine items
  have notice : f.isNotice = true := by simp only [Frame.isNotice, kind]
  have drops : ({ s.endAttempts with link := { s.endAttempts.link with notices := s.endAttempts.link.notices.dropHead } } : State) = dropped := by
    rw [OutList.dropHead_of (l := s.endAttempts.link.notices) items]
    rfl
  rw [exec_broadcastAttemptOutcome s f false onLink line notice, exec_broadcastAttemptOutcome s f true onLink line notice,
    State.broadcastOutcome_delivered stands]
  refine ⟨?_, ?_, ?_, fun below => ?_, fun limit c last => ?_⟩
  · rintro rfl
    rw [State.noticeDelivered_join (s := s.endAttempts) items, State.joinDelivered,
      OutList.dropHead_of (l := s.endAttempts.link.notices) items]
    rfl
  · rintro rfl
    exact ⟨_, congrArg _ (State.noticeDelivered_leave (s := s.endAttempts) items), State.leaves_leaveEnded⟩
  · rintro n rfl
    rw [State.noticeDelivered_depart (s := s.endAttempts) items, drops]
  · rw [State.broadcastOutcome_busy stands below]
    rfl
  · have ends : exec c s = .next s.endAttempts.noticeLimit := by
      rw [← State.broadcastOutcome_limit stands limit]
      rcases mem_two.mp last with rfl | rfl
      · exact exec_broadcastAttemptOutcome s f true onLink line notice
      · exact exec_busyLimit_notice onLink line kind stands limit
    rw [ends]
    refine ⟨?_, ?_, ?_⟩
    · rintro rfl
      exact ⟨_, congrArg _ (State.noticeLimit_join (s := s.endAttempts) items), State.failsToJoin_joinFailed⟩
    · rintro rfl
      exact ⟨_, congrArg _ (State.noticeLimit_leave (s := s.endAttempts) items), State.leaves_leaveEnded⟩
    · rintro n rfl
      rw [State.noticeLimit_depart (s := s.endAttempts) items, drops]

end Sys2Proof.Proofs
end

section
/-! SUPPORT. Eviction, and the commands JOIN, LEAVE and RESET: the statements O41 and O44 to O47. -/

namespace Sys2Proof.Machine

section
variable {s : State} {f : Frame}

/-! ### Eviction (R165, R166) -/

theorem Events.raiseEvicted_eq (e : Events) (cause : EvictionCause) :
    e.raiseEvicted cause = { e with evicted := true, cause := if e.evicted then e.cause else some cause } := by
  unfold Events.raiseEvicted
  split
  · next raised => rw [← raised]
  · rfl

/-- Eviction after an event that touched no slot, no object and no answer but their attempts. -/
theorem State.evicts_evict {u : State} {requests : OutList RequestEntry} {answers : OutList AnswerItem} (cause : EvictionCause)
    (mode : s.control.mode.onLink = true) (client : u.client = { s.client with requests := requests })
    (home : u.home = { s.home with answers := answers }) (control : u.control = s.control) (port : u.port = s.port)
    (pending : u.pending = s.pending) : s.Evicts (u.evict cause) cause := by
  obtain ⟨completes, emptied⟩ := Client.completes_evict { s.client with requests := requests }
  have renewed := s.home.renewed_restart
  have evicted : u.evict cause = { u with
      client := u.client.evict
      home := u.home.restart
      link := Link.powerOn
      roster := rosterUnknown
      control := { u.control with mode := .evicted, events := u.control.events.raiseEvicted cause, leaveQueued := false } } :=
    if_pos (by rw [control]; exact mode)
  rw [evicted, client, home, control, port, pending]
  generalize Client.evict { s.client with requests := requests } = c at completes emptied
  exact
    { client := ⟨completes.slots, completes.ring⟩
      requests := emptied
      home := renewed
      answers := rfl
      link := rfl
      roster := State.rosterOf_of_unknown rfl
      events := s.control.events.raiseEvicted_eq cause
      control := rfl
      port := rfl
      pending := rfl }

theorem exec_bodyDifference (onLink : s.onLink = true) (sends : s.link.transmitter = .line f) :
    exec .bodyDifference s = .next (s.evict .duplicate) := by
  simp only [exec, execBodyDifference, sends, Transmitter.lineFrame, whenever_of onLink]

theorem outcomeOf_stale (accept busy : Bool) : outcomeOf accept busy true = .stale := rfl

/-! ### The commands JOIN and LEAVE (R173, R178) -/

/-- In LEAVING, before the LEAVE is added, the report adds it when the answer list is empty (R97, R179). -/
theorem State.reportAnswers_of_leaving (leaving : s.control.mode = .leaving) (fresh : s.control.leaveQueued = false) :
    s.reportAnswers = { s with
      control := { s.control with leaveQueued := decide (s.home.answers.items = []) }
      link := { s.link with notices := { s.link.notices with
        items := s.link.notices.items ++ if s.home.answers.items = [] then [.leave] else [] } } } := by
  unfold State.reportAnswers
  by_cases empty : s.home.answers.items = []
  · rw [if_pos (by simp [State.leaveIsDue, leaving, empty, fresh]), if_pos empty, decide_eq_true empty]
    rfl
  · rw [if_neg (by simp [State.leaveIsDue, empty]), if_neg empty, decide_eq_false empty, List.append_nil, ← fresh]

/-- The start of a leave sequence with no busy slot (R178, R27, R58, R179). -/
theorem State.startLeave_eq {answers : List AnswerItem} (idle : ∀ n, (s.client.slot n).use.busy = false)
    (added : s.home.answers.items ++ flushAnswers s.control.number (allIndexes.flatMap s.home.waitersAt) = answers) :
    ∃ objects : Vector (Option ObjectEntry) 64,
      (∀ i : ObjIndex, objects[i] = (s.home.entry i).map fun e => ({ e with waiters := [] } : ObjectEntry).settled) ∧
      s.startLeave = { s with
        control := { s.control with mode := .leaving, leaveQueued := decide (answers = []) }
        home := { s.home with objects := objects, holds := [], answers := { s.home.answers with items := answers } }
        link := { s.link with notices := { s.link.notices with
          items := s.link.notices.items ++ if answers = [] then [.leave] else [] } } } := by
  obtain ⟨objects, flushed, entries⟩ :=
    State.flush_eq { s with control := { s.control with mode := .leaving, leaveQueued := false } } idle
  refine ⟨mapVec (Option.map ObjectEntry.settled) objects, fun i => ?_, ?_⟩
  · refine (Home.settle_entry { s.home with objects := objects } i).trans ?_
    rw [show ({ s.home with objects := objects } : Home).entry i = _ from entries i, Option.map_map]
    rfl
  · unfold State.startLeave
    simp only [flushed]
    subst added
    exact State.reportAnswers_of_leaving rfl rfl

theorem Client.anyBusy_iff {c : Client} : c.anyBusy = true ↔ ∃ n, (c.slot n).use.busy = true := by
  simp only [Client.anyBusy, List.any_eq_true, Vector.mem_toList_iff, Vector.mem_iff_getElem]
  constructor
  · rintro ⟨_, ⟨i, bound, rfl⟩, busy⟩
    exact ⟨⟨i, bound⟩, busy⟩
  · rintro ⟨n, busy⟩
    exact ⟨_, ⟨n.val, n.isLt, rfl⟩, busy⟩

end

end Sys2Proof.Machine

/-! ### The statements -/

namespace Sys2Proof.Proofs

open Sys2Proof Sys2Proof.Machine

/-- Settles O41: every cause leads to the eviction of a state that differs from the one before in attempts and the receive queue only. -/
theorem evictionOnEveryCause : Obligations.EvictionOnEveryCause := by
  intro s onLink
  have mode := State.mode_of_onLink onLink
  refine ⟨fun f sends => ?_, fun f accept busy sends unicast => ?_, fun bits f listens clear heard own => ?_,
    fun f rest queue kind named => ?_⟩
  · exact ⟨_, exec_bodyDifference onLink sends, State.evicts_evict .duplicate mode rfl rfl rfl rfl rfl⟩
  · have not_notice : f.isNotice = false := by
      unfold Frame.isNotice
      split
      · next k kind => exact absurd kind (unicast k)
      · rfl
      · rfl
    refine ⟨s.endAttempts.evict .stale, exec_unicastAttemptOutcome s f accept busy true onLink sends not_notice,
      State.evicts_evict .stale mode rfl rfl rfl rfl rfl⟩
  · refine ⟨(s.driving none).evict .duplicate, ?_, State.evicts_evict .duplicate mode rfl rfl rfl rfl rfl⟩
    rw [exec_frameHeard s bits true onLink listens clear, State.hear_own heard own]
  · refine ⟨(s.withQueue rest).evict .departNotice, ?_, State.evicts_evict .departNotice mode rfl rfl rfl rfl rfl⟩
    exact (dispatchNotice_eq s f .depart rest State.takeDepart onLink queue kind).trans (congrArg _ (if_pos named))

/-- Settles O44. -/
theorem joinCommandTaken : Obligations.JoinCommandTaken := by
  intro s running
  rw [exec_joinCommand s running]
  refine ⟨fun config => ⟨s.startJoin.told 3 0 0 0, ?_, s.home.renewed_initRuntime, State.rosterOf_of_unknown rfl, rfl⟩, fun other => ?_⟩
  · rw [State.join, if_pos config]
    exact congrArg _ (State.respond_eq_told s.startJoin 3 .ok 0 0 (by decide))
  · rw [State.join, if_neg other]
    exact congrArg _ (State.refuse_eq_told s 3 .notConfig (by decide))

/-- Settles O45: with no busy slot the flush only empties lists and adds answers; the settlement and the LEAVE follow it. -/
theorem leaveCommandTaken : Obligations.LeaveCommandTaken := by
  intro s running
  rw [exec_leaveCommand s running, State.leave]
  refine ⟨fun other => ?_, fun active busy => ?_, fun active idle => ?_⟩
  · rw [if_pos other]
    exact congrArg _ (State.refuse_eq_told s 4 .notActive (by decide))
  · rw [if_neg (not_not_intro active), if_pos (Client.anyBusy_iff.mpr busy)]
    exact congrArg _ (State.refuse_eq_told s 4 .slotsBusy (by decide))
  · intro flushed answers
    have at_rest : ¬ s.client.anyBusy = true := fun busy => by
      obtain ⟨n, busy⟩ := Client.anyBusy_iff.mp busy
      exact Bool.eq_false_iff.mp (idle n) busy
    obtain ⟨objects, entries, started⟩ := State.startLeave_eq (answers := answers) idle rfl
    rw [if_neg (not_not_intro active), if_neg at_rest]
    refine ⟨s.startLeave.told 4 0 0 0, congrArg _ (State.respond_eq_told s.startLeave 4 .ok 0 0 (by decide)), fun i => ?_, ?_⟩
    · have entry : (s.startLeave.told 4 0 0 0).home.entry i = objects[i] := by rw [started]; rfl
      rw [entry, entries]
      refine congrArg (fun f => (s.home.entry i).map f) (funext fun e => ?_)
      obtain ⟨definition, level, head, waiters⟩ := e
      cases definition <;> rfl
    · have kept : (s.startLeave.told 4 0 0 0).home.objects = objects := by rw [started]; rfl
      rw [kept, started]

/-- Settles O46: the LEAVE is due exactly on these three conditions. -/
theorem leaveNoticeAddedOnce : Obligations.LeaveNoticeAddedOnce := by
  intro s added
  refine ⟨fun leaving empty fresh => ?_, fun not_due => ?_⟩
  · have due : s.leaveIsDue = true := by simp [State.leaveIsDue, leaving, empty, fresh]
    exact ⟨if_pos due, fun running => whenever_of (by rw [running, due]; rfl) _ _⟩
  · have due : s.leaveIsDue = false := by
      unfold State.leaveIsDue
      rcases not_due with h | h | h <;> simp [h]
    exact ⟨if_neg (by rw [due]; exact nofun), whenever_of_not (by rw [due, Bool.and_false]) _ _⟩

/-- Settles O47: the answer comes after the reset, and the view is captured after both. -/
theorem resetCommandTaken : Obligations.ResetCommandTaken := by
  intro s running
  have told : s.resetCommand = (s.resetStation.told 5 0 0 0).capture :=
    congrArg State.capture (State.respond_eq_told s.resetStation 5 .ok 0 0 (by decide))
  refine ⟨(s.resetStation.told 5 0 0 0).capture, (exec_resetCommand s running).trans (congrArg _ told), s.client.clear_slot, rfl, rfl,
    s.home.renewed_restart, rfl, rfl, State.rosterOf_of_unknown rfl, rfl, rfl, ?_, rfl⟩
  exact Bool.and_false _

end Sys2Proof.Proofs
end

section
/-! SUPPORT. The purge of a station and its marking, for the notices dispatched and for the silence limit: the statements O42 and O43. -/

namespace Sys2Proof.Machine

section
variable {s : State} {f : Frame} {n m : StationNum} {e : RosterEntry} {l : OutList Notice}

/-! ### The report of the answer list -/

/-- The report of the answer list changes the notice list and the mark that the LEAVE was added, and nothing else. -/
theorem State.reportAnswers_eq (s : State) : s.reportAnswers = { s with
    control := { s.control with leaveQueued := s.reportAnswers.control.leaveQueued }
    link := { s.link with notices := s.reportAnswers.link.notices } } := by
  unfold State.reportAnswers
  split <;> rfl

/-- It adds no DEPART and takes none off. -/
theorem State.depart_mem_reportAnswers :
    .depart m ∈ s.reportAnswers.link.notices.items ↔ .depart m ∈ s.link.notices.items := by
  unfold State.reportAnswers
  split
  · simp [State.addLeave, OutList.push]
  · rfl

/-! ### What a purge keeps (R158) -/

theorem State.purge_roster (s : State) (n : StationNum) : (s.purge n).roster = s.roster := (State.keeps_purge n s).roster
theorem State.purge_link (s : State) (n : StationNum) : (s.purge n).link = s.link := (State.keeps_purge n s).link
theorem State.purge_number (s : State) (n : StationNum) : (s.purge n).control.number = s.control.number := by rw [State.purge_control]

theorem State.purgeKeeps_purge (s : State) (n : StationNum) : s.PurgeKeeps n (s.purge n) := by
  have kept := State.keeps_purge n s
  have others := fun i absent holds => State.entry_purge_other n s i ⟨absent, holds⟩
  generalize s.purge n = u at kept others
  obtain ⟨pending, control, _, link, port, pool, poolUsed, _, definitions, heads⟩ := kept
  exact ⟨others, definitions, heads, ⟨pool, poolUsed⟩, by rw [control], by rw [link], port, pending⟩

/-- A purge of the same client engine, tables and lists but for the receive queue. -/
theorem State.PurgeKeeps.of_withQueue {t : State} {rest : List QueueItem} (k : (s.withQueue rest).PurgeKeeps n t) : s.PurgeKeeps n t :=
  ⟨k.others, k.definitions, k.heads, k.pool, k.control, k.queue, k.port, k.pending⟩

/-! ### A station purged and marked, with the notice list `l` (R151 to R156) -/

/-- `s` after the purge of station `n`, its entry `e`, the notice list `l`, and the report of the answer list. -/
def State.purgedAs (s : State) (n : StationNum) (e : RosterEntry) (l : OutList Notice) : State :=
  ({ s.purge n with roster := s.roster.set n e, link := { (s.purge n).link with notices := l } } : State).reportAnswers

theorem State.mark_of_other (other : n ≠ s.control.number) : s.mark n e = { s with roster := s.roster.set n e } := if_neg other

theorem State.purge_mark (other : n ≠ s.control.number) : (s.purge n).mark n e = { s.purge n with roster := s.roster.set n e } := by
  rw [State.mark_of_other (by rwa [State.purge_number]), State.purge_roster]

theorem State.purgedOf_purgedAs (tracked : s.home.HoldsTracked) : (s.purgedAs n e l).PurgedOf n := by
  have purged := State.purgedOf_purge n s tracked
  unfold State.purgedAs
  generalize s.purge n = u at purged
  rw [State.reportAnswers_eq]
  exact ⟨purged.slots, purged.waiting, purged.answers, purged.holds⟩

theorem State.purgeKeeps_purgedAs : s.PurgeKeeps n (s.purgedAs n e l) := by
  have kept := s.purgeKeeps_purge n
  unfold State.purgedAs
  generalize s.purge n = u at kept
  obtain ⟨others, definitions, heads, pool, control, link, port, pending⟩ := kept
  rw [State.reportAnswers_eq]
  exact ⟨others, definitions, heads, pool, by rw [control], by rw [link], port, pending⟩

theorem State.purgedAs_queue : (s.purgedAs n e l).link.queue = s.link.queue := by
  rw [State.purgedAs, State.reportAnswers_queue, State.purge_link]

theorem State.purgedAs_rosterOf : (s.purgedAs n e l).rosterOf m = if m = n then e else s.rosterOf m := by
  have roster : (s.purgedAs n e l).roster = s.roster.set n e := State.reportAnswers_roster _
  simp only [State.rosterOf, roster, Fin.getElem_fin, Vector.getElem_set, Fin.ext_iff, eq_comm]

theorem State.depart_mem_purgedAs : .depart m ∈ (s.purgedAs n e l).link.notices.items ↔ .depart m ∈ l.items := by
  rw [State.purgedAs, State.depart_mem_reportAnswers]

/-- The notice list as it was. -/
theorem State.purgedAs_same : s.purgedAs n e s.link.notices = ({ s.purge n with roster := s.roster.set n e } : State).reportAnswers := by
  rw [State.purgedAs, ← s.purge_link n]

/-! ### The three events that purge a station -/

theorem State.depart_eq_self (departed : s.rosterOf n = .departed) : s.depart n = s := if_pos (.inr departed)

theorem State.depart_eq (other : n ≠ s.control.number) (present : s.rosterOf n ≠ .departed) :
    s.depart n = s.purgedAs n .departed s.link.notices := by
  rw [State.depart, if_neg (not_or.mpr ⟨other, present⟩), State.purge_mark other, State.purgedAs_same]

/-- The notice list after a JOIN of station `n` (R151). -/
def OutList.withdrawDepart (l : OutList Notice) (n : StationNum) : OutList Notice :=
  if l.sendsDepart n then l else l.without fun x => decide (x = .depart n)

theorem State.rejoin_eq (other : n ≠ s.control.number) :
    s.rejoin n = s.purgedAs n .present (s.link.notices.withdrawDepart n) := by
  rw [State.rejoin, if_neg other, State.purge_mark other]
  have link := s.purge_link n
  unfold State.purgedAs
  generalize s.purge n = u at link
  unfold State.withdrawDepart OutList.withdrawDepart
  rw [← OutList.removeIf_eq_without, ← link]
  split <;> rfl

/-- The notice list after station `n` is declared departed (R156). -/
def OutList.addDepart (l : OutList Notice) (n : StationNum) : OutList Notice :=
  { l with items := l.items ++ if .depart n ∈ l.items then [] else [.depart n] }

theorem State.declareDeparted_eq (other : n ≠ s.control.number) (present : s.rosterOf n ≠ .departed) :
    s.declareDeparted n = s.purgedAs n .departed (s.link.notices.addDepart n) := by
  rw [State.declareDeparted, if_neg (not_or.mpr ⟨other, present⟩), State.purge_mark other]
  have link := s.purge_link n
  unfold State.purgedAs
  generalize s.purge n = u at link
  unfold State.queueDepart OutList.addDepart
  simp only [List.contains_iff_mem]
  rw [← link]
  split
  · rw [List.append_nil]
  · rfl

theorem OutList.depart_mem_addDepart : .depart m ∈ (l.addDepart n).items ↔ m = n ∨ .depart m ∈ l.items := by
  unfold OutList.addDepart
  by_cases listed : .depart n ∈ l.items
  · rw [if_pos listed, List.append_nil]
    exact ⟨.inr, fun h => h.elim (fun same => same ▸ listed) id⟩
  · rw [if_neg listed]
    simp [or_comm]

theorem OutList.sendsDepart_iff : l.sendsDepart n = true ↔ l.onLine = true ∧ l.items.head? = some (.depart n) := by
  rw [OutList.sendsDepart, Bool.and_eq_true, decide_eq_true_iff]

theorem OutList.items_without {α : Type} (l : OutList α) (p : α → Bool) : (l.without p).items = l.items.filter fun x => !p x := by
  rw [← OutList.removeIf_eq_without, OutList.items_removeIf]

theorem OutList.depart_mem_withdrawDepart :
    .depart m ∈ (l.withdrawDepart n).items ↔ .depart m ∈ l.items ∧ (m = n → l.sendsDepart n = true) := by
  unfold OutList.withdrawDepart
  split
  · next sends => simp [sends]
  · next idle => simp [OutList.items_without, idle]

theorem OutList.withdrawDepart_of_sends (sends : l.sendsDepart n = true) : l.withdrawDepart n = l := if_pos sends

theorem OutList.withdrawDepart_of_not (idle : ¬ l.sendsDepart n = true) : l.withdrawDepart n = l.without fun x => decide (x = .depart n) :=
  if_neg idle

/-- A JOIN of another station at the head (R151). -/
theorem exec_joinDispatched {rest : List QueueItem} (onLink : s.onLink = true) (head : s.link.queue = .frame f :: rest)
    (kind : f.kind = .notice .join) : exec .joinDispatched s = .next ((s.withQueue rest).rejoin f.sender) :=
  dispatchNotice_eq s f .join rest (fun f t => t.rejoin f.sender) onLink head kind

/-- A LEAVE of another station, or a DEPART naming it, at the head (R152, R153). -/
theorem exec_departs {rest : List QueueItem} {c : Instr} (onLink : s.onLink = true) (head : s.link.queue = .frame f :: rest)
    (named : (f.kind = .notice .leave ∧ c = .leaveDispatched ∧ n = f.sender) ∨
      (f.kind = .notice .depart ∧ c = .departDispatched ∧ n = f.subject)) (other : n ≠ s.control.number) :
    exec c s = .next ((s.withQueue rest).depart n) := by
  rcases named with ⟨kind, rfl, rfl⟩ | ⟨kind, rfl, rfl⟩
  · exact dispatchNotice_eq s f .leave rest (fun f t => t.depart f.sender) onLink head kind
  · exact (dispatchNotice_eq s f .depart rest State.takeDepart onLink head kind).trans (congrArg _ (if_neg other))

/-! ### The eighth silence (R92, R109, R156) -/

/-- `s` after an attempt on the answer or the request list whose counters are cleared. -/
def State.SilenceStarts (s start : State) (f : Frame) : Prop :=
  (∃ op, f.kind = .answer op ∧ s.home.answers.onLine = true ∧ s.home.answers.silenceRun = 7 ∧ start = { s.endAttempts with
      home := { s.home with answers := ⟨s.home.answers.items, 0, 0, false⟩ } }) ∨
    (∃ op, f.kind = .request op ∧ s.client.requests.onLine = true ∧ s.client.requests.silenceRun = 7 ∧ start = { s.endAttempts with
      client := { s.client with requests := ⟨s.client.requests.items, 0, 0, false⟩ } })

/-- A list in an attempt has a head. -/
theorem OutList.CountersSound.head {α : Type} {q : OutList α} (sound : q.CountersSound) (onLine : q.onLine = true) :
    q.items.isEmpty = false := by
  rw [List.isEmpty_eq_false_iff]
  intro empty
  have off := (sound.empty empty).2.2
  rw [onLine] at off
  exact nomatch off

/-- One silence away from the limit, a silent attempt reaches it. -/
theorem State.unicastOutcome_at_limit (near : s.silenceLimitNear f = true) :
    s.unicastOutcome f .silence = s.endAttempts.silenceLimit f := by
  obtain ⟨stands, reaches⟩ := Bool.and_eq_true_iff.mp near
  refine (if_pos stands).trans ?_
  unfold State.silenced
  cases kind : f.kind with
  | notice k => rw [kind] at reaches; exact nomatch reaches
  | answer op | request op => rw [kind] at reaches; exact if_pos reaches

/-- The frame's item stands and is one silence away from the limit, which declares its destination departed. -/
theorem State.SilenceStarts.silenced {start : State} (starts : s.SilenceStarts start f) (laws : DeviceLaws s) (dest : f.dest = .station n) :
    f.isNotice = false ∧ s.silenceLimitNear f = true ∧ s.endAttempts.silenceLimit f = start.declareDeparted n := by
  rcases starts with ⟨op, kind, onLine, run, rfl⟩ | ⟨op, kind, onLine, run, rfl⟩
  · have reaches := OutList.silenceReachesLimit_of run
    refine ⟨Frame.isNotice_of_answer kind, ?_, ?_⟩
    · simp only [State.silenceLimitNear, State.itemStands_answer kind, onLine, laws.counters.answers.head onLine, kind, reaches]
      rfl
    · simp only [State.silenceLimit, kind, dest, Destination.station?]
      rfl
  · have reaches := OutList.silenceReachesLimit_of run
    refine ⟨Frame.isNotice_of_request kind, ?_, ?_⟩
    · simp only [State.silenceLimitNear, State.itemStands_request kind, onLine, laws.counters.requests.head onLine, kind, reaches]
      rfl
    · simp only [State.silenceLimit, kind, dest, Destination.station?]
      rfl

/-- The start changes neither an entry, a hold record, the roster, the station's number nor the notices listed. -/
theorem State.SilenceStarts.kept {start : State} (starts : s.SilenceStarts start f) :
    (s.home.HoldsTracked → start.home.HoldsTracked) ∧ start.roster = s.roster ∧ start.control = s.control ∧
      start.link.notices.items = s.link.notices.items ∧ start.link.queue = s.link.queue := by
  rcases starts with ⟨_, _, _, _, rfl⟩ | ⟨_, _, _, _, rfl⟩ <;> exact ⟨id, rfl, rfl, rfl, rfl⟩

theorem exec_silenceLimit (onLink : s.onLink = true) (sends : s.link.transmitter = .line f) (near : s.silenceLimitNear f = true) :
    exec .silenceLimit s = .next (s.unicastOutcome f .silence) := by
  simp only [exec, execSilenceLimit, sends, Transmitter.lineFrame, onLink, near, Bool.and_self, whenever_true]

end

end Sys2Proof.Machine

/-! ### The statements -/

namespace Sys2Proof.Proofs

open Sys2Proof Sys2Proof.Machine

/-- Settles O42: each notice is a purge, a mark and at most a change of the notice list, of which the facts are stated once. -/
theorem noticesPurgeTheirStation : Obligations.NoticesPurgeTheirStation := by
  intro s f rest laws onLink head
  have tracked : (s.withQueue rest).home.HoldsTracked := ((Home.holdsSound_iff _).mp laws.holds).2
  refine ⟨fun kind other => ?_, fun n c named other => ⟨fun departed => ?_, fun present => ?_⟩⟩
  · intro sends
    have iff : s.link.notices.sendsDepart f.sender = true ↔ sends := OutList.sendsDepart_iff
    refine ⟨(s.withQueue rest).purge f.sender, (s.withQueue rest).purgedAs f.sender .present (s.link.notices.withdrawDepart f.sender),
      State.purge_runs _ _, ?_, fun on => ?_, fun off => ?_, State.purgedOf_purgedAs tracked, State.purgeKeeps_purgedAs.of_withQueue,
      State.purgedAs_queue, State.purgedAs_rosterOf.trans (if_pos rfl), fun m away => State.purgedAs_rosterOf.trans (if_neg away), ?_,
      fun m away => ?_⟩
    · rw [exec_joinDispatched onLink head kind, State.rejoin_eq (s := s.withQueue rest) other]
      rfl
    · rw [OutList.withdrawDepart_of_sends (iff.mpr on)]
      exact State.purgedAs_same (s := s.withQueue rest)
    · rw [OutList.withdrawDepart_of_not (mt iff.mp off)]
      rfl
    · rw [State.depart_mem_purgedAs, OutList.depart_mem_withdrawDepart, ← iff]
      exact ⟨fun h => h.2 rfl, fun on => ⟨List.mem_of_mem_head? (OutList.sendsDepart_iff.mp on).2, fun _ => on⟩⟩
    · rw [State.depart_mem_purgedAs, OutList.depart_mem_withdrawDepart]
      exact and_iff_left fun same => absurd same away
  · rw [exec_departs onLink head named other, State.depart_eq_self (s := s.withQueue rest) departed]
  · refine ⟨(s.withQueue rest).purge n, (s.withQueue rest).purgedAs n .departed s.link.notices, State.purge_runs _ _, ?_,
      State.purgedAs_same (s := s.withQueue rest), State.purgedOf_purgedAs tracked, State.purgeKeeps_purgedAs.of_withQueue,
      State.purgedAs_queue, State.purgedAs_rosterOf.trans (if_pos rfl), fun m away => State.purgedAs_rosterOf.trans (if_neg away),
      fun m => State.depart_mem_purgedAs⟩
    rw [exec_departs onLink head named other, State.depart_eq (s := s.withQueue rest) other present]
    rfl

/-- Settles O43: the eighth silence declares the destination departed, from the list whose counters it clears. -/
theorem silenceLimitDeclaresDeparted : Obligations.SilenceLimitDeclaresDeparted := by
  intro s start f n laws onLink sends dest other present starts
  have starts : s.SilenceStarts start f := starts
  obtain ⟨unicast, near, ends⟩ := starts.silenced laws dest
  obtain ⟨holds, roster, control, notices, queue⟩ := starts.kept
  have tracked := holds ((Home.holdsSound_iff _).mp laws.holds).2
  have entry : ∀ m, start.rosterOf m = s.rosterOf m := fun m => by rw [State.rosterOf, roster, State.rosterOf]
  have departs : s.unicastOutcome f .silence = start.purgedAs n .departed (start.link.notices.addDepart n) := by
    rw [State.unicastOutcome_at_limit near, ends, State.declareDeparted_eq (by rwa [control]) (by rwa [entry])]
  refine ⟨start.purge n, start.purgedAs n .departed (start.link.notices.addDepart n), State.purge_runs _ _, ?_, ?_, ?_,
    State.purgedOf_purgedAs tracked, State.purgeKeeps_purgedAs, State.purgedAs_queue.trans queue,
    State.purgedAs_rosterOf.trans (if_pos rfl), fun m away => (State.purgedAs_rosterOf.trans (if_neg away)).trans (entry m),
    State.depart_mem_purgedAs.mpr (OutList.depart_mem_addDepart.mpr (.inl rfl)), fun m away => ?_⟩
  · rw [exec_silenceLimit onLink sends near, departs]
  · rw [exec_unicastAttemptOutcome s f false false false onLink sends unicast, ← departs]
    rfl
  · have link := start.purge_link n
    rw [State.purgedAs, OutList.addDepart]
    generalize start.purge n = u at link
    simp only [link, roster, notices]
  · rw [State.depart_mem_purgedAs, OutList.depart_mem_addDepart, notices]
    exact or_iff_right away

end Sys2Proof.Proofs
end

section
/-! SUPPORT. What the views show, register by register: the statement O50. -/

namespace Sys2Proof.Machine

section
variable {s : State} {vsel : Reg}

/-! ### The bounds that make counts fit their fields -/

theorem length_le_of_nodup {n : Nat} {l : List (Fin n)} (nodup : l.Nodup) : l.length ≤ n := by
  have fewer := nodup.length_le_of_subset fun x _ => List.mem_finRange x
  rwa [List.length_finRange] at fewer

theorem DeviceLaws.ring_length (laws : DeviceLaws s) : s.client.ring.length ≤ 32 := by
  simpa using length_le_of_nodup laws.ring.single

theorem DeviceLaws.requests_length (laws : DeviceLaws s) : s.client.requests.items.length ≤ 32 := by
  simpa using length_le_of_nodup laws.requests.single

theorem DeviceLaws.answers_length (laws : DeviceLaws s) : s.home.answers.items.length ≤ 112 := by
  have records : s.home.waitingCount + s.home.answers.items.countP AnswerItem.isRecord ≤ 96 := laws.pools.records
  have immediate : (s.home.answers.items.countP fun x => !x.isRecord) ≤ 16 := laws.pools.immediate
  have both := List.length_eq_countP_add_countP AnswerItem.isRecord (l := s.home.answers.items)
  simp only [Bool.not_eq_true, Bool.decide_eq_false] at both
  omega

/-- The notices, numbered. -/
def Notice.rank : Notice → Fin 34
  | .depart n => n.castLE (by decide)
  | .join => 32
  | .leave => 33

theorem Notice.rank_injective : Function.Injective Notice.rank := by
  intro a b same
  have same := congrArg Fin.val same
  cases a <;> cases b <;> simp only [Notice.rank, Fin.val_castLE] at same
  case depart.depart m n => rw [Fin.ext same]
  case join.join | leave.leave => rfl
  all_goals exfalso; omega

theorem DeviceLaws.notices_length (laws : DeviceLaws s) : s.link.notices.items.length ≤ 34 := by
  have ranks : (s.link.notices.items.map Notice.rank).Nodup :=
    List.Pairwise.map Notice.rank (fun _ _ apart same => apart (Notice.rank_injective same)) laws.notices.single
  simpa using length_le_of_nodup ranks

theorem regOf_toNat {n : Nat} (fits : n < 65536) : (regOf n).toNat = n := by
  rw [regOf, BitVec.toNat_ofNat, Nat.mod_eq_of_lt fits]

/-- The two halves of a 32-bit word. -/
theorem Word.halves (w : Word) : (w.extractLsb' 0 16).toNat + 65536 * (w.extractLsb' 16 16).toNat = w.toNat := by
  have := w.isLt
  simp only [BitVec.extractLsb'_toNat, Nat.shiftRight_eq_div_pow]
  omega

/-! ### The selected view (R196) -/

theorem viewNumber_eq (vsel : Reg) : viewNumber vsel = vsel.toNat % 8 := by
  simp [viewNumber]

theorem viewSlot_val (vsel : Reg) : (viewSlot vsel).val = vsel.toNat / 256 % 32 := by
  simp [viewSlot, Nat.shiftRight_eq_div_pow]

theorem State.view_0 (number : vsel.toNat % 8 = 0) : s.view vsel = s.completionView := by simp only [State.view, viewNumber_eq, number]
theorem State.view_1 (number : vsel.toNat % 8 = 1) : s.view vsel = s.objectView := by simp only [State.view, viewNumber_eq, number]
theorem State.view_2 (number : vsel.toNat % 8 = 2) : s.view vsel = s.stationView := by simp only [State.view, viewNumber_eq, number]
theorem State.view_3 (number : vsel.toNat % 8 = 3) : s.view vsel = s.poolView := by simp only [State.view, viewNumber_eq, number]
theorem State.view_4 (number : vsel.toNat % 8 = 4) : s.view vsel = s.slotView (viewSlot vsel) := by
  simp only [State.view, viewNumber_eq, number]
theorem State.view_5 (number : vsel.toNat % 8 = 5) : s.view vsel = s.rosterView := by simp only [State.view, viewNumber_eq, number]

theorem State.view_other (number : 6 ≤ vsel.toNat % 8) : s.view vsel = Vector.replicate 5 0 := by
  have two : vsel.toNat % 8 = 6 ∨ vsel.toNat % 8 = 7 := by omega
  rcases two with number | number <;> simp only [State.view, viewNumber_eq, number]

/-! ### View 5, the roster (R149) -/

theorem State.rosterCode_toNat (n : StationNum) :
    (s.rosterCode n).toNat = if n = s.control.number then 0 else (s.rosterOf n).code.toNat := by
  unfold State.rosterCode
  split <;> rfl

/-- Eight fields of two bits, each read by a division. -/
theorem pair_of_eight (c : Fin 8 → BitVec 2) (j : Fin 8) :
    (c 7 ++ c 6 ++ c 5 ++ c 4 ++ c 3 ++ c 2 ++ c 1 ++ c 0).toNat / 4 ^ j.val % 4 = (c j).toNat := by
  have bound := fun i => (c i).isLt
  have b0 := bound 0
  have b1 := bound 1
  have b2 := bound 2
  have b3 := bound 3
  have b4 := bound 4
  have b5 := bound 5
  have b6 := bound 6
  have b7 := bound 7
  simp only [toNat_fields]
  match j with
  | 0 => show _ / 1 % 4 = _; omega
  | 1 => show _ / 4 % 4 = _; omega
  | 2 => show _ / 16 % 4 = _; omega
  | 3 => show _ / 64 % 4 = _; omega
  | 4 => show _ / 256 % 4 = _; omega
  | 5 => show _ / 1024 % 4 = _; omega
  | 6 => show _ / 4096 % 4 = _; omega
  | 7 => show _ / 16384 % 4 = _; omega

theorem State.rosterWord_shows (g : Fin 4) (j : Fin 8) :
    (s.rosterWord g).toNat / 4 ^ j.val % 4 = (s.rosterCode ⟨8 * g.val + j.val, by omega⟩).toNat :=
  pair_of_eight (fun j => s.rosterCode ⟨8 * g.val + j.val, by omega⟩) j

theorem State.rosterView_word (g : Fin 4) : s.rosterView[(⟨g.val, by omega⟩ : Fin 5)] = s.rosterWord g := by
  match g with
  | 0 | 1 | 2 | 3 => rfl

/-- Each station's entry stands at its place in the roster. -/
theorem State.rosterView_shows (n : StationNum) :
    (s.rosterView[(⟨n.val / 8, by omega⟩ : Fin 5)]).toNat / 4 ^ (n.val % 8) % 4 =
      if n = s.control.number then 0 else (s.rosterOf n).code.toNat := by
  have shown := s.rosterWord_shows ⟨n.val / 8, by omega⟩ ⟨n.val % 8, by omega⟩
  have place : (⟨8 * (n.val / 8) + n.val % 8, by omega⟩ : StationNum) = n := Fin.ext (Nat.div_add_mod n.val 8)
  rw [place, s.rosterCode_toNat] at shown
  rw [← shown, ← s.rosterView_word ⟨n.val / 8, by omega⟩]

/-! ### The other views, as numbers -/

/-- View 0 with an empty ring. -/
theorem State.completionView_nil (empty : s.client.ring = []) (i : Fin 5) : (s.completionView[i]).toNat = 0 := by
  simp only [State.completionView, empty, List.head?_nil, List.length_nil]
  match i with
  | 0 | 1 | 2 | 3 | 4 => rfl

/-- View 0 with a record at the head of the ring. -/
theorem State.completionView_cons {r : CompletionRecord} {rest : List CompletionRecord} (ring : s.client.ring = r :: rest)
    (fits : s.client.ring.length ≤ 32) :
    s.completionView[(0 : Fin 5)].toNat = s.client.ring.length + 256 * r.slot.val ∧
      s.completionView[(1 : Fin 5)].toNat = r.tag.toNat + 256 * r.operation.code.toNat + 2048 * r.status.code.toNat ∧
      s.completionView[(2 : Fin 5)].toNat = r.objectId.val ∧
      s.completionView[(3 : Fin 5)].toNat + 65536 * s.completionView[(4 : Fin 5)].toNat = r.value.toNat := by
  have shown : s.completionView =
      #v[0#3 ++ BitVec.ofFin (w := 5) r.slot ++ 0#2 ++ BitVec.ofNat 6 s.client.ring.length, r.status.code ++ r.operation.code ++ r.tag,
        0#5 ++ BitVec.ofFin (w := 11) r.objectId, r.value.extractLsb' 0 16, r.value.extractLsb' 16 16] := by
    rw [State.completionView, ring]; rfl
  rw [shown]
  refine ⟨?_, ?_, ?_, Word.halves r.value⟩
  · show (0#3 ++ BitVec.ofFin (w := 5) r.slot ++ 0#2 ++ BitVec.ofNat 6 s.client.ring.length).toNat = _
    simp only [toNat_fields, BitVec.toNat_ofNat, BitVec.toNat_ofFin]
    omega
  · show (r.status.code ++ r.operation.code ++ r.tag).toNat = _
    simp only [toNat_fields]
    omega
  · show (0#5 ++ BitVec.ofFin (w := 11) r.objectId).toNat = _
    simp only [toNat_fields, BitVec.toNat_ofNat, BitVec.toNat_ofFin]
    omega

theorem regOf_sub_toNat {whole : Nat} (part : Nat) (fits : whole < 65536) : (regOf (whole - part)).toNat = whole - part :=
  regOf_toNat (Nat.lt_of_le_of_lt (Nat.sub_le _ _) fits)

/-- View 3 within the capacities: what is free and what is in use come to each pool (R15, R59, R83, R138, R145). -/
theorem DeviceLaws.poolView (laws : DeviceLaws s) :
    s.poolView[(0 : Fin 5)].toNat + s.home.waitingCount + s.home.answers.items.countP AnswerItem.isRecord = 96 ∧
      s.poolView[(1 : Fin 5)].toNat + s.home.holds.length = 128 ∧
      s.poolView[(2 : Fin 5)].toNat + (s.home.answers.items.countP fun x => !x.isRecord) = 16 ∧
      s.poolView[(3 : Fin 5)].toNat = s.home.answers.items.length ∧
      s.poolView[(4 : Fin 5)].toNat = s.link.queue.countP QueueItem.isFrame + 256 * s.link.notices.items.length := by
  have records : s.home.waitingCount + s.home.answers.items.countP AnswerItem.isRecord ≤ 96 := laws.pools.records
  have immediate : (s.home.answers.items.countP fun x => !x.isRecord) ≤ 16 := laws.pools.immediate
  have holds : s.home.holds.length ≤ 128 := laws.holds.bounded
  have answers := laws.answers_length
  have notices := laws.notices_length
  have queue : s.link.queue.countP QueueItem.isFrame ≤ 16 := Nat.le_trans List.countP_le_length laws.queue.bounded
  have free_waiters : s.poolView[(0 : Fin 5)].toNat = 96 - (s.home.waitingCount + s.home.answers.items.countP AnswerItem.isRecord) :=
    regOf_sub_toNat _ (by decide)
  have free_holds : s.poolView[(1 : Fin 5)].toNat = 128 - s.home.holds.length := regOf_sub_toNat _ (by decide)
  have free_immediate : s.poolView[(2 : Fin 5)].toNat = 16 - s.home.answers.items.countP fun x => !x.isRecord :=
    regOf_sub_toNat _ (by decide)
  refine ⟨by omega, by omega, by omega, regOf_toNat (by omega), ?_⟩
  show (0#2 ++ BitVec.ofNat 6 s.link.notices.items.length ++ 0#3 ++ BitVec.ofNat 5 (s.link.queue.countP QueueItem.isFrame)).toNat = _
  simp only [toNat_fields, BitVec.toNat_ofNat]
  omega

end

end Sys2Proof.Machine

/-! ### The statements -/

namespace Sys2Proof.Proofs

open Sys2Proof Sys2Proof.Machine

/-- Settles O50: each register is its fields side by side, and the laws bound the counts they hold. -/
theorem viewsShowTheState : Obligations.ViewsShowTheState := by
  intro s vsel laws v number
  have ring := laws.ring_length
  have shows : ∀ {view : Vector Reg 5}, s.view vsel = view → v = fun i => view[i].toNat := fun h => by rw [← h]
  clear_value v
  refine ⟨fun h => ?_, fun h => ?_, fun h => ?_, fun h => ?_, fun h n named => ?_, fun h => ?_, fun h i => ?_⟩
  · rw [shows (State.view_0 h)]
    exact ⟨State.completionView_nil, fun r rest ring_eq => State.completionView_cons ring_eq ring⟩
  · rw [shows (State.view_1 h)]
    refine ⟨?_, rfl, rfl, rfl, ?_⟩
    · refine (toNat_fields _ _).trans ?_
      rw [toNat_fields]
      omega
    · refine (toNat_fields _ _).trans ?_
      omega
  · rw [shows (State.view_2 h)]
    refine ⟨?_, Word.halves s.control.time, rfl, rfl⟩
    show (0#2 ++ BitVec.ofFin (w := 2) s.control.rate ++ 0#3 ++ BitVec.ofFin (w := 5) s.control.number ++ 0#1 ++ s.control.mode.code).toNat = _
    simp only [toNat_fields, BitVec.toNat_ofNat, BitVec.toNat_ofFin]
    omega
  · rw [shows (State.view_3 h)]
    exact laws.poolView
  · have slot : viewSlot vsel = n := Fin.ext ((viewSlot_val vsel).trans named.symm)
    have requests := laws.requests_length
    rw [shows (State.view_4 h), slot]
    refine ⟨?_, regOf_toNat (by omega), regOf_toNat (by omega), rfl, rfl⟩
    show ((s.client.slot n).tag ++ 0#5 ++ (s.client.slot n).use.code).toNat = _
    simp only [toNat_fields, BitVec.toNat_ofNat]
    omega
  · rw [shows (State.view_5 h)]
    exact ⟨State.rosterView_shows, rfl⟩
  · rw [shows (State.view_other h)]
    match i with
    | 0 | 1 | 2 | 3 | 4 => rfl

end Sys2Proof.Proofs
end
